-- ==== Sys2Proof/Word.lean ====
section
/-! DEFINITION. The word, byte and block types of vcodec-core and nothing else: every computation on them
stands in Sys2Proof/Machine/, where a later repair may mend it. -/

namespace Sys2Proof

/-- A 32-bit host register, a command word, or one int32 bank entry in two's complement (R11, R33, R41). -/
abbrev Word := BitVec 32

/-- One u8 sample, one 8-bit command field, or one byte of a port transaction (R11, R70, R77, R101). -/
abbrev Byte := BitVec 8

/-- A 16-entry int32 bank: a 4×4 block in raster order, a zigzag vector, or a DC grid (R15, R41). -/
abbrev Block := Vector Word 16

end Sys2Proof
end

