-- ==== Sys2Proof/Syntax.lean ====
section
/-! DEFINITION. The commands of vcodec-core: one constructor for each of the 35 rows of spec/opcode_table.json
(R103). A constructor's arguments are the fields its row does not mark `0`, in FA, FB, FC order, each an unsigned
8-bit value (R101). ARG0 and ARG1 are registers of State, not fields (R102). -/

namespace Sys2Proof

/-- One command word (R100, R103). -/
inductive Instr where
  /-- 0x00 NOP (R290). -/
  | nop
  /-- 0x01 CLRSTAT (R291). -/
  | clrstat
  /-- 0x02 INIT (R293). -/
  | init
  /-- 0x03 DEINIT (R294). -/
  | deinit
  /-- 0x04 WRINIT (R295). -/
  | wrinit
  /-- 0x05 RDINIT (R296). -/
  | rdinit
  /-- 0x10 PUTBITS n (R133). -/
  | putbits (n : Byte)
  /-- 0x11 PUTONES (R134). -/
  | putones
  /-- 0x12 PUTZEROES (R135). -/
  | putzeroes
  /-- 0x13 PUTEG (R136). -/
  | puteg
  /-- 0x14 FLUSH (R137). -/
  | flush
  /-- 0x18 GETBITS n (R138). -/
  | getbits (n : Byte)
  /-- 0x19 GETZEROES (R139). -/
  | getzeroes
  /-- 0x1A GETEG (R140). -/
  | geteg
  /-- 0x20 ENTENC b, off, cnt (R171). -/
  | entenc (b off cnt : Byte)
  /-- 0x21 ENTDEC b, off, cnt (R172). -/
  | entdec (b off cnt : Byte)
  /-- 0x30 FWD4 d, s (R194). -/
  | fwd4 (d src : Byte)
  /-- 0x31 INV4 d, s (R195). -/
  | inv4 (d src : Byte)
  /-- 0x32 HAD4 d, s (R196). -/
  | had4 (d src : Byte)
  /-- 0x33 IHAD4 d, s (R197). -/
  | ihad4 (d src : Byte)
  /-- 0x34 HAD2 d, s (R198). -/
  | had2 (d src : Byte)
  /-- 0x40 QUANT4 d, s (R241). -/
  | quant4 (d src : Byte)
  /-- 0x41 DEQUANT4 d, s (R242). -/
  | dequant4 (d src : Byte)
  /-- 0x42 QUANTDC d, s, cnt (R243). -/
  | quantdc (d src cnt : Byte)
  /-- 0x43 DEQUANTDC d, s, cnt (R244). -/
  | dequantdc (d src cnt : Byte)
  /-- 0x44 GATHERDC g, b, cnt (R245). -/
  | gatherdc (g b cnt : Byte)
  /-- 0x45 SCATTERDC b, g, cnt (R246). -/
  | scatterdc (b g cnt : Byte)
  /-- 0x46 BDIV d, s, div (R247). -/
  | bdiv (d src div : Byte)
  /-- 0x50 PREDSEL S (R215). -/
  | predsel (size : Byte)
  /-- 0x51 PREDRES S, m, b (R216). -/
  | predres (size m b : Byte)
  /-- 0x52 UNPRED S, m, b (R217). -/
  | unpred (size m b : Byte)
  /-- 0x60 MBENC S (R265). -/
  | mbenc (size : Byte)
  /-- 0x61 MBDEC S (R266). -/
  | mbdec (size : Byte)
  /-- 0x62 FRAMEENC (R267). -/
  | frameenc
  /-- 0x63 FRAMEDEC (R268). -/
  | framedec
deriving DecidableEq, Repr

end Sys2Proof
end

