-- ==== Sys2Proof/WellFormed.lean ====
section
/-! DEFINITION. Which commands have every field inside its kind's range (R101, R103, R104 step 4, R314 item 2).
A command that is not well formed still decodes: it raises INVAL when it runs (R104, log 14). -/

namespace Sys2Proof.WellFormed

/-- Kinds `b`, `d`, `s`, `g`: a bank index below NB = 32 (R101). -/
def bank (f : Byte) : Bool := decide (f.toNat < 32)

/-- The vector of ENTENC and ENTDEC: off ≤ 15, 1 ≤ cnt ≤ 16, off + cnt ≤ 16 (R170). -/
def vector (off cnt : Byte) : Bool :=
  decide (off.toNat ≤ 15) && decide (1 ≤ cnt.toNat) && decide (cnt.toNat ≤ 16) &&
  decide (off.toNat + cnt.toNat ≤ 16)

/-- The length of a DC grid: 1, 4 or 16 (R243, R245). -/
def grid (cnt : Byte) : Bool := cnt == 1#8 || cnt == 4#8 || cnt == 16#8

/-- Banks b..b+cnt−1 all exist (R245, R246). -/
def banks (b cnt : Byte) : Bool := decide (b.toNat + cnt.toNat ≤ 32)

/-- Kind `S`: a macroblock size (R101). -/
def size (sz : Byte) : Bool := sz == 4#8 || sz == 8#8 || sz == 16#8

/-- Kind `m`: a prediction mode (R101, R210). -/
def mode (m : Byte) : Bool := decide (m.toNat ≤ 3)

/-- Banks b..b+n−1 exist, with n = (S/4)² the number of sub-blocks (43_predict.md, shared check 6). -/
def subBanks (sz b : Byte) : Bool := decide (b.toNat + (sz.toNat / 4) * (sz.toNat / 4) ≤ 32)

end Sys2Proof.WellFormed

namespace Sys2Proof

/-- Every field of the command is inside its range. -/
def wellFormed (i : Instr) : Bool :=
  match i with
  | .nop => true
  | .clrstat => true
  | .init => true
  | .deinit => true
  | .wrinit => true
  | .rdinit => true
  | .putbits n => decide (1 ≤ n.toNat) && decide (n.toNat ≤ 31)
  | .putones => true
  | .putzeroes => true
  | .puteg => true
  | .flush => true
  | .getbits n => decide (1 ≤ n.toNat) && decide (n.toNat ≤ 32)
  | .getzeroes => true
  | .geteg => true
  | .entenc b off cnt => WellFormed.bank b && WellFormed.vector off cnt
  | .entdec b off cnt => WellFormed.bank b && WellFormed.vector off cnt
  | .fwd4 d src => WellFormed.bank d && WellFormed.bank src
  | .inv4 d src => WellFormed.bank d && WellFormed.bank src
  | .had4 d src => WellFormed.bank d && WellFormed.bank src
  | .ihad4 d src => WellFormed.bank d && WellFormed.bank src
  | .had2 d src => WellFormed.bank d && WellFormed.bank src
  | .quant4 d src => WellFormed.bank d && WellFormed.bank src
  | .dequant4 d src => WellFormed.bank d && WellFormed.bank src
  | .quantdc d src cnt => WellFormed.bank d && WellFormed.bank src && WellFormed.grid cnt
  | .dequantdc d src cnt => WellFormed.bank d && WellFormed.bank src && WellFormed.grid cnt
  | .gatherdc g b cnt =>
    WellFormed.bank g && WellFormed.bank b && WellFormed.grid cnt && WellFormed.banks b cnt
  | .scatterdc b g cnt =>
    WellFormed.bank b && WellFormed.bank g && WellFormed.grid cnt && WellFormed.banks b cnt
  | .bdiv d src div => WellFormed.bank d && WellFormed.bank src && decide (1 ≤ div.toNat)
  | .predsel sz => WellFormed.size sz
  | .predres sz m b => WellFormed.size sz && WellFormed.mode m && WellFormed.subBanks sz b
  | .unpred sz m b => WellFormed.size sz && WellFormed.mode m && WellFormed.subBanks sz b
  | .mbenc sz => WellFormed.size sz
  | .mbdec sz => WellFormed.size sz
  | .frameenc => true
  | .framedec => true

end Sys2Proof
end

