-- ==== Sys2Proof/Decode.lean ====
section
/-! DEFINITION. The command decoder, total on every 32-bit word, and the encoder, both written from the format of
R100 and the opcode map of R103. Field ranges are no part of decoding (R104 step 4 stands in the meanings, log 14). -/

namespace Sys2Proof

/-- Why a word is no command (R104 steps 2 and 3, R105). -/
inductive DecodeError where
  /-- OPC is not in the table of R103. -/
  | reservedOpcode
  /-- A field the row marks `0` is nonzero. -/
  | nonzeroField
deriving DecidableEq, Repr

/-- OPC = w[31:24] (R100). -/
def fieldOPC (w : Word) : Byte := w.extractLsb' 24 8
/-- FA = w[23:16] (R100). -/
def fieldFA (w : Word) : Byte := w.extractLsb' 16 8
/-- FB = w[15:8] (R100). -/
def fieldFB (w : Word) : Byte := w.extractLsb' 8 8
/-- FC = w[7:0] (R100). -/
def fieldFC (w : Word) : Byte := w.extractLsb' 0 8

/-- R104 step 3 for a row that marks some fields `0`: `unused` holds the values of those fields. -/
def unusedZero (unused : List Byte) (i : Instr) : Except DecodeError Instr :=
  if unused.all (fun f => f == 0#8) then .ok i else .error .nonzeroField

/-- The decoding procedure of R104, steps 1 to 3, over the opcode map of R103. -/
def decode (w : Word) : Except DecodeError Instr :=
  let fa := fieldFA w
  let fb := fieldFB w
  let fc := fieldFC w
  match (fieldOPC w).toNat with
  | 0x00 => unusedZero [fa, fb, fc] .nop
  | 0x01 => unusedZero [fa, fb, fc] .clrstat
  | 0x02 => unusedZero [fa, fb, fc] .init
  | 0x03 => unusedZero [fa, fb, fc] .deinit
  | 0x04 => unusedZero [fa, fb, fc] .wrinit
  | 0x05 => unusedZero [fa, fb, fc] .rdinit
  | 0x10 => unusedZero [fb, fc] (.putbits fa)
  | 0x11 => unusedZero [fa, fb, fc] .putones
  | 0x12 => unusedZero [fa, fb, fc] .putzeroes
  | 0x13 => unusedZero [fa, fb, fc] .puteg
  | 0x14 => unusedZero [fa, fb, fc] .flush
  | 0x18 => unusedZero [fb, fc] (.getbits fa)
  | 0x19 => unusedZero [fa, fb, fc] .getzeroes
  | 0x1A => unusedZero [fa, fb, fc] .geteg
  | 0x20 => .ok (.entenc fa fb fc)
  | 0x21 => .ok (.entdec fa fb fc)
  | 0x30 => unusedZero [fc] (.fwd4 fa fb)
  | 0x31 => unusedZero [fc] (.inv4 fa fb)
  | 0x32 => unusedZero [fc] (.had4 fa fb)
  | 0x33 => unusedZero [fc] (.ihad4 fa fb)
  | 0x34 => unusedZero [fc] (.had2 fa fb)
  | 0x40 => unusedZero [fc] (.quant4 fa fb)
  | 0x41 => unusedZero [fc] (.dequant4 fa fb)
  | 0x42 => .ok (.quantdc fa fb fc)
  | 0x43 => .ok (.dequantdc fa fb fc)
  | 0x44 => .ok (.gatherdc fa fb fc)
  | 0x45 => .ok (.scatterdc fa fb fc)
  | 0x46 => .ok (.bdiv fa fb fc)
  | 0x50 => unusedZero [fb, fc] (.predsel fa)
  | 0x51 => .ok (.predres fa fb fc)
  | 0x52 => .ok (.unpred fa fb fc)
  | 0x60 => unusedZero [fb, fc] (.mbenc fa)
  | 0x61 => unusedZero [fb, fc] (.mbdec fa)
  | 0x62 => unusedZero [fa, fb, fc] .frameenc
  | 0x63 => unusedZero [fa, fb, fc] .framedec
  | _ => .error .reservedOpcode

/-- The instruction the decoder reads from a word given as a number, bit 0 the least significant (R12, R100). -/
def decodeTableWord (nbits w : Nat) : Option Instr :=
  match decode (BitVec.ofNat 32 (w % 2 ^ nbits)) with
  | .ok i => some i
  | .error _ => none

/-- word = (OPC, FA, FB, FC), OPC the most significant (R100). -/
def commandWord (opc fa fb fc : Byte) : Word := opc ++ fa ++ fb ++ fc

/-- The word of a command, from the opcode map of R103. -/
def encode (i : Instr) : Word :=
  match i with
  | .nop => commandWord 0x00 0 0 0
  | .clrstat => commandWord 0x01 0 0 0
  | .init => commandWord 0x02 0 0 0
  | .deinit => commandWord 0x03 0 0 0
  | .wrinit => commandWord 0x04 0 0 0
  | .rdinit => commandWord 0x05 0 0 0
  | .putbits n => commandWord 0x10 n 0 0
  | .putones => commandWord 0x11 0 0 0
  | .putzeroes => commandWord 0x12 0 0 0
  | .puteg => commandWord 0x13 0 0 0
  | .flush => commandWord 0x14 0 0 0
  | .getbits n => commandWord 0x18 n 0 0
  | .getzeroes => commandWord 0x19 0 0 0
  | .geteg => commandWord 0x1A 0 0 0
  | .entenc b off cnt => commandWord 0x20 b off cnt
  | .entdec b off cnt => commandWord 0x21 b off cnt
  | .fwd4 d src => commandWord 0x30 d src 0
  | .inv4 d src => commandWord 0x31 d src 0
  | .had4 d src => commandWord 0x32 d src 0
  | .ihad4 d src => commandWord 0x33 d src 0
  | .had2 d src => commandWord 0x34 d src 0
  | .quant4 d src => commandWord 0x40 d src 0
  | .dequant4 d src => commandWord 0x41 d src 0
  | .quantdc d src cnt => commandWord 0x42 d src cnt
  | .dequantdc d src cnt => commandWord 0x43 d src cnt
  | .gatherdc g b cnt => commandWord 0x44 g b cnt
  | .scatterdc b g cnt => commandWord 0x45 b g cnt
  | .bdiv d src div => commandWord 0x46 d src div
  | .predsel sz => commandWord 0x50 sz 0 0
  | .predres sz m b => commandWord 0x51 sz m b
  | .unpred sz m b => commandWord 0x52 sz m b
  | .mbenc sz => commandWord 0x60 sz 0 0
  | .mbdec sz => commandWord 0x61 sz 0 0
  | .frameenc => commandWord 0x62 0 0 0
  | .framedec => commandWord 0x63 0 0 0

end Sys2Proof
end

