-- ==== Sys2Proof/Config.lean ====
section
/-! DEFINITION. The implementation parameters of rule R9, and the free values: uninterpreted constants that stand
for every value the spec leaves open. Nothing in Lean can evaluate a constant declared `opaque` without a body. -/

namespace Sys2Proof.Config

/-- XFORM_KERNEL, the 4×4 integer transform kernel (R9, R191, R192). -/
inductive Kernel where
  | seq
  | h264
deriving DecidableEq, Repr

/-- The parameters of one block, fixed for its life (R9, R30). The 8-byte reader and writer windows and the number
of banks are fixed numbers of the spec and no parameters. -/
structure Params where
  /-- QTAB[0..15], raster order (R9, R40). -/
  qtab : Vector (BitVec 16) 16
  /-- XFORM_KERNEL (R9). -/
  kernel : Kernel
  /-- MAX_W (R9, R293). -/
  maxW : Nat
  /-- MAX_H (R9, R293). -/
  maxH : Nat
  /-- MAX_SAMPLES, the capacity of SRC and of REF (R9, R45, R46). -/
  maxSamples : Nat
deriving DecidableEq, Repr

/-- The legal values of the parameters, row by row of R9's table. -/
def Params.legal (p : Params) : Bool :=
  p.qtab.toList.all (fun q => q != 0#16) &&
  p.maxW % 16 == 0 && decide (16 ≤ p.maxW) && decide (p.maxW ≤ 65520) &&
  p.maxH % 4 == 0 && decide (4 ≤ p.maxH) && decide (p.maxH ≤ 65532) &&
  decide (256 ≤ p.maxSamples) && decide (p.maxSamples ≤ 2 ^ 24)

/-- FREE VALUE: the OPEN entries of QTAB (R9, D25; log 6). -/
opaque rawQtab : Nat → BitVec 16
/-- FREE VALUE: the OPEN width limit (R9, D30; log 6). -/
opaque rawMaxW : Nat
/-- FREE VALUE: the OPEN height limit (R9, D30; log 6). -/
opaque rawMaxH : Nat
/-- FREE VALUE: the OPEN sample capacity (R9, D30; log 6). -/
opaque rawMaxSamples : Nat

/-- The parameters of the block that State.reset describes: the OPEN ones are free, brought into R9's legal ranges
so that every legal value is one of theirs; XFORM_KERNEL has R9's default SEQ (log 6). -/
def params : Params where
  qtab := Vector.ofFn fun p : Fin 16 => if rawQtab p.val = 0#16 then 1#16 else rawQtab p.val
  kernel := .seq
  maxW := 16 * (1 + rawMaxW % 4095)
  maxH := 4 * (1 + rawMaxH % 16383)
  maxSamples := 256 + rawMaxSamples % (2 ^ 24 - 255)

/-- FREE VALUE: a drawn bit, one for each value of State's counter of draws (R141, R316, U1, U4; logs 7, 8, 9). -/
opaque drawBit : Nat → Bool

/-- FREE VALUE: a drawn 32-bit word, one for each value of State's counter of draws (R52, R141, R172, U3, U8;
logs 3, 4, 7). -/
opaque drawWord : Nat → Word

/-- FREE VALUE: what the WCNT and RAVAIL fields of STATE read as while a command is executing and the spec does not give
the count, one for each read (R37, R76, U4, U10; log 11). -/
opaque busyCounts : Nat → Word

end Sys2Proof.Config
end

