-- ==== Sys2Proof/Machine/State.lean ====
section
/-! DEFINITION. The state of vcodec-core as plain data: everything R30 names, the port transactions and the host's
moves (R19, R344), and the model's own counter of free values. INVENTORY.md's '## State' lists every field. -/

namespace Sys2Proof.Machine

/-- STATUS.CODE (R36, R311); codes 6 and 7 are never produced. -/
inductive Status where
  /-- 0: no failure since the last CLRSTAT or reset. -/
  | ok
  /-- 1 -/
  | inval
  /-- 2 -/
  | nomem
  /-- 3 -/
  | ioFailed
  /-- 4: never raised. -/
  | noent
  /-- 5 -/
  | eof
deriving DecidableEq, Repr

/-- A sample memory (R70): cells (index, sample), indices strictly rising. An index that is not listed holds no
value: nothing has given it one since the contents were last unspecified (R52, R53, log 5). -/
abbrev Memory := List Host.Cell

/-- The host's answer to an OUT transaction (R82). -/
inductive OutAnswer where
  | ok
  | fail
deriving DecidableEq, Repr

/-- The host's answer to an IN transaction: `fail`, or `ok` with 0 to 8 bytes (R83). -/
inductive InAnswer where
  | fail
  | ok (bytes : List Byte) (atMost8 : bytes.length ≤ 8)
deriving DecidableEq, Repr

/-- One answered OUT transaction: the bytes handed over, the answer, and for each byte whether it reached the sink
(all of them on `ok`; on `fail` that is unspecified: R82, log 9). -/
structure OutTx where
  bytes : List Byte
  answer : OutAnswer
  reached : List Bool
deriving DecidableEq, Repr

/-- The two byte-stream ports: the answers the host has given that no transaction has taken yet, oldest first, and
the transactions made so far, oldest first (R19, R82, R83, R345). -/
structure Ports where
  outAnswers : List OutAnswer
  inAnswers : List InAnswer
  outLog : List OutTx
  inLog : List InAnswer
deriving DecidableEq, Repr

/-- What keeps a command from completing: a port transaction that the core has begun (R13), or nothing the host can
do. -/
inductive PortRequest where
  | outWrite (bytes : List Byte)
  | inRead
  /-- The stuck state of R318 and U10: GETZEROES, or GETEG, ENTDEC, MBDEC or FRAMEDEC through it, has met 2^32 zero
  bits in a row and never completes. -/
  | never
deriving DecidableEq, Repr

/-- The command the core is executing while it waits for a port's answer, or for ever (R19, R318: BUSY = 1). State's
other fields hold what they held when the command started; this record holds what the command has done so far that is
not undone if reset abandons it (R340) and what the host can poll meanwhile (R76, R344; logs 2, 11, 20): the STATUS
code, WCNT and RAVAIL, the two counts only where they are specified. -/
structure PortWait where
  instr : Instr
  request : PortRequest
  status : Status
  ports : Ports
  draws : Nat
  wcnt : Option Nat
  ravail : Option Nat
deriving DecidableEq, Repr

/-- What the host can do to the block (R344). A width is in bytes; an address is a byte address relative to the
block's base (R74). -/
inductive HostAction where
  | busWrite (width : Nat) (addr : Word) (value : Word)
  | busRead (width : Nat) (addr : Word)
  | answerOut (a : OutAnswer)
  | answerIn (a : InAnswer)
  | reset
deriving DecidableEq, Repr

/-- The whole machine. STATE.BUSY is `wait.isSome`, STATE.WCNT is `wbuf.length`, STATE.RAVAIL is `rbuf.length`:
each is stored once. CMD holds no state (R32). -/
structure State where
  /-- The parameters, QTAB among them: no step changes them (R9, R40). -/
  cfg : Config.Params
  /-- ARG0 (R33). -/
  arg0 : Word
  /-- ARG1 (R34). -/
  arg1 : Word
  /-- RESULT (R35). -/
  result : Word
  /-- STATUS.CODE (R36). -/
  status : Status
  /-- WIDTH[15:0] (R38). -/
  width : BitVec 16
  /-- HEIGHT[15:0] (R39). -/
  height : BitVec 16
  /-- FW (R42). -/
  fw : BitVec 16
  /-- FH (R42). -/
  fh : BitVec 16
  /-- INITED (R42). -/
  inited : Bool
  /-- BANK[0..31][0..15] (R41). -/
  banks : Vector Block 32
  /-- WBUF, first-written bit first (R43). -/
  wbuf : List Bool
  /-- RBUF, next bit first (R44). -/
  rbuf : List Bool
  /-- A command has failed while it ran since the last WRINIT or reset: what WBUF and WCNT hold is unspecified (R316,
  U4; the model's own mark, log 8). -/
  wlost : Bool
  /-- A command has failed while it ran since the last RDINIT or reset: what RBUF and RAVAIL hold is unspecified (R316,
  U4; the model's own mark, log 8). -/
  rlost : Bool
  /-- SRC (R45). -/
  src : Memory
  /-- REF (R46). -/
  ref : Memory
  /-- The OUT and IN ports (R82, R83). -/
  ports : Ports
  /-- The command in execution, when BUSY = 1 (R37). -/
  wait : Option PortWait
  /-- The host's moves to come, next first (R19, R31: the sequence of the host's writes is the program; log 1). -/
  host : List HostAction
  /-- The values the host's reads have returned, oldest first (the model's own; log 15). -/
  hostLog : List Word
  /-- How many free values have been drawn (the model's own; log 7). -/
  draws : Nat
deriving DecidableEq, Repr

/-- Why a step stops with a fault. -/
inductive Fault where
  /-- A command or the host reads an SRC sample that holds no value (R53, R318, U6): PREDSEL, PREDRES, MBENC,
  FRAMEENC, a host read. Safe: the block returns some value, which the spec does not fix. -/
  | unwrittenSrc
  /-- A command or the host reads a REF sample that holds no value (R53, R318, U7): PREDSEL, PREDRES, UNPRED, MBENC,
  MBDEC, a host read. Safe: the block returns some value, which the spec does not fix. -/
  | unwrittenRef
deriving DecidableEq, Repr

/-- Why a step is refused. -/
inductive Refusal where
  /-- An instruction that has no meaning yet. -/
  | notModelled (mnemonic : String)
  /-- A host access of a width, alignment or range the block does not accept (R75, U12). Safe: the spec gives the
  hardware's response no meaning. -/
  | hostAccess
  /-- A host access while BUSY = 1 other than a STATUS or STATE read (R76, R344, U13): the host has no such move.
  It errs toward proving only for a host that breaks its duty (D42). -/
  | hostBusy
deriving DecidableEq, Repr

/-- R341's reset values over parameters `cfg`, with the unspecified ones drawn from counter `n` on: BANK (512
words), FW and FH (R52, logs 3, 4). -/
def State.afterReset (cfg : Config.Params) (n : Nat) : State where
  cfg := cfg
  arg0 := 0
  arg1 := 0
  result := 0
  status := .ok
  width := 0
  height := 0
  fw := (Config.drawWord (n + 512)).setWidth 16
  fh := (Config.drawWord (n + 513)).setWidth 16
  inited := false
  banks := Vector.ofFn fun b : Fin 32 => Vector.ofFn fun i : Fin 16 => Config.drawWord (n + 16 * b.val + i.val)
  wbuf := []
  rbuf := []
  wlost := false
  rlost := false
  src := []
  ref := []
  ports := ⟨[], [], [], []⟩
  wait := none
  host := []
  hostLog := []
  draws := n + 514

/-- The machine right after reset, with no host move queued (R341, log 1). -/
def State.reset : State := State.afterReset Config.params 0

end Sys2Proof.Machine
end

