-- ==== Sys2Proof/Machine/Flags.lean ====
section
/-! DEFINITION. The only status-like state of the block (R49): STATUS, STATE and RESULT. Recording a failure is the
whole of what taking an exception is here (R310): no control transfer, no saved context, no return. -/

namespace Sys2Proof.Machine

/-- The number of a status code (R36, R311). -/
def statusCode (c : Status) : BitVec 3 :=
  match c with
  | .ok => 0
  | .inval => 1
  | .nomem => 2
  | .ioFailed => 3
  | .noent => 4
  | .eof => 5

/-- The STATUS register: CODE in bits 2:0, the rest 0 (R36). -/
def statusWord (c : Status) : Word := (statusCode c).setWidth 32

/-- `record c`: the first failure since the last clear stays (R312). -/
def record (c : Status) (s : State) : State := if s.status = .ok then { s with status := c } else s

/-- A check fails: INVAL is recorded and the command ends with no other effect (R313). -/
def invalid (s : State) : Host.Outcome State Fault Refusal := .next (record .inval s)

/-- A command ends with state s. -/
def complete (s : State) : Host.Outcome State Fault Refusal := .next s

/-- STATE.BUSY (R37): a command is executing. -/
def busy (s : State) : Bool := s.wait.isSome

/-- The STATE register from its fields (R37). -/
def stateWord (busy inited : Bool) (wcnt ravail : Nat) : Word :=
  BitVec.ofNat 32 (busy.toNat + 2 * inited.toNat + 2 ^ 8 * (wcnt % 64) + 2 ^ 16 * (ravail % 128))

/-- The STATUS code the host polls: while a command waits at a port, the code recorded so far (R76, log 20). -/
def polledStatus (s : State) : Status :=
  match s.wait with
  | some w => w.status
  | none => s.status

/-- The STATE register the host polls (R37, R76, R344). While a command waits, WCNT and RAVAIL are the counts at that
point; a count the spec does not give there is a free value in 0..63 or 0..64 (log 11). -/
def polledState (s : State) : Word :=
  match s.wait with
  | some w =>
    let free := (Config.busyCounts s.hostLog.length).toNat
    stateWord true s.inited (w.wcnt.getD (free % 64)) (w.ravail.getD (free / 64 % 65))
  | none => stateWord false s.inited s.wbuf.length s.rbuf.length

end Sys2Proof.Machine
end

