-- ==== Sys2Proof/Machine/Operands.lean ====
section
/-! DEFINITION. Arithmetic helpers, bit sequences, scan tables, transform kernels' operand form and operand checks:
every computation that touches neither a port nor a memory. -/

namespace Sys2Proof.Machine

/-! ### Integers (R11, R14) -/

/-- wrap32(v) (R14): the int32 congruent to v modulo 2^32, in two's complement. -/
def wrap32 (v : Int) : Word := BitVec.ofInt 32 v

/-- tdiv(a, d) for d ≥ 1 (R14): the quotient truncated toward zero. -/
def tdiv (a : Int) (d : Nat) : Int := a.tdiv d

/-- clamp(v, 0, 255) as a sample (R14, R217). -/
def clampSample (v : Int) : Byte := if v < 0 then 0 else if 255 < v then 255 else BitVec.ofInt 8 v

/-- bitlength(v) for v ≥ 1 (R14). -/
def bitlength (v : Nat) : Nat := Nat.log2 v + 1

/-! ### Bit sequences, MSB-first (R12, R77, R130) -/

/-- The n low-order bits of v, most significant first (R133). -/
def natBits (n v : Nat) : List Bool := (List.range n).map fun k => v.testBit (n - 1 - k)

/-- The value of a bit sequence, first bit most significant (R138). -/
def bitsVal (bits : List Bool) : Nat := bits.foldl (fun v b => 2 * v + b.toNat) 0

/-- pack(bits): byte j is bits 8j..8j+7, the earliest in bit 7 (R130). -/
def pack (bits : List Bool) : List Byte :=
  (List.range (bits.length / 8)).map fun j => BitVec.ofNat 8 (bitsVal ((bits.drop (8 * j)).take 8))

/-- The bits of bytes, bit 7 of the first byte first (R77, R132). -/
def bytesBits (bytes : List Byte) : List Bool := bytes.flatMap fun b => natBits 8 b.toNat

/-- EG(v), the order-0 Exp-Golomb code of v (R136, R142). -/
def egBits (v : Nat) : List Bool :=
  List.replicate (bitlength (v + 1) - 1) false ++ natBits (bitlength (v + 1)) (v + 1)

/-! ### Blocks (R15, R41) -/

/-- The block whose entry i is f i. -/
def blockOf (f : Nat → Word) : Block := Vector.ofFn fun i : Fin 16 => f i.val

/-- Entry i of a block (i < 16). -/
def entry (x : Block) (i : Nat) : Word := x.getD i 0

/-- Entry i of a block as the integer it stands for (R11). -/
def entryInt (x : Block) (i : Nat) : Int := (entry x i).toInt

/-- The block x with entries 0..cnt−1 taken from f and the others kept (R198, R243, R245: D45). -/
def overlay (x : Block) (cnt : Nat) (f : Nat → Word) : Block :=
  blockOf fun i => if i < cnt then f i else entry x i

/-! ### Scan tables (R240) -/

/-- ZZ4[p], the scan index of raster position p. -/
def zz4 (p : Nat) : Nat := [0, 1, 5, 6, 2, 4, 7, 12, 3, 8, 11, 13, 9, 10, 14, 15].getD p 0

/-- IZZ4[q], the raster position of scan index q. -/
def izz4 (q : Nat) : Nat := [0, 1, 4, 8, 5, 2, 3, 6, 9, 12, 13, 10, 7, 11, 14, 15].getD q 0

/-- ZZ(g)[p] for the grid of cnt = g² entries: ZZ4, and the identity for ZZ2 and ZZ1. -/
def zz (cnt p : Nat) : Nat := if cnt = 16 then zz4 p else p

/-- The inverse of ZZ(g). -/
def izz (cnt q : Nat) : Nat := if cnt = 16 then izz4 q else q

/-- QTAB[p] (R40). -/
def qtab (c : Config.Params) (p : Nat) : Nat := (c.qtab.getD p 1).toNat

/-! ### Field checks (R101, R104 step 4, R314 item 2) -/

/-- A bank index is below NB. -/
def bankOk (f : Byte) : Bool := decide (f.toNat < 32)

/-- R170's checks on off and cnt. -/
def vectorOk (off cnt : Byte) : Bool :=
  decide (off.toNat ≤ 15) && decide (1 ≤ cnt.toNat) && decide (cnt.toNat ≤ 16) &&
  decide (off.toNat + cnt.toNat ≤ 16)

/-- cnt ∈ (1, 4, 16) (R243). -/
def gridOk (cnt : Byte) : Bool := cnt == 1#8 || cnt == 4#8 || cnt == 16#8

/-- b + cnt ≤ NB (R245). -/
def banksOk (b cnt : Byte) : Bool := decide (b.toNat + cnt.toNat ≤ 32)

/-- S ∈ (4, 8, 16) (R101). -/
def sizeOk (sz : Byte) : Bool := sz == 4#8 || sz == 8#8 || sz == 16#8

/-! ### Macroblock geometry (R15, R260) -/

/-- A macroblock: its top-left sample (X, Y) and its size S (R210). -/
structure Mb where
  x : Nat
  y : Nat
  size : Nat
deriving DecidableEq, Repr

/-- g = S/4, the side of the DC grid (R260). -/
def Mb.side (mb : Mb) : Nat := mb.size / 4

/-- n = (S/4)², the number of sub-blocks (R260). -/
def Mb.subs (mb : Mb) : Nat := mb.side * mb.side

/-- The row offset r0 of sub-block k (R216). -/
def Mb.row0 (mb : Mb) (k : Nat) : Nat := 4 * (k / mb.side)

/-- The column offset c0 of sub-block k (R216). -/
def Mb.col0 (mb : Mb) (k : Nat) : Nat := 4 * (k % mb.side)

/-- The macroblock that a size field and ARG0, ARG1 name (R102, R215). -/
def operandMb (sz : Byte) (s : State) : Mb := ⟨s.arg0.toNat, s.arg1.toNat, sz.toNat⟩

/-- Shared prediction checks 2 to 4 of 43_predict.md, which are R264's: size, INITED, position. -/
def mbOk (sz : Byte) (s : State) : Bool :=
  sizeOk sz && s.inited &&
  decide (s.arg0.toNat % sz.toNat = 0) && decide (s.arg1.toNat % sz.toNat = 0) &&
  decide (s.arg0.toNat + sz.toNat ≤ s.fw.toNat) && decide (s.arg1.toNat + sz.toNat ≤ s.fh.toNat)

/-! ### Prediction modes (R210, R211) -/

/-- The four modes, by their codes 0 to 3. -/
inductive Mode where
  | none
  | dc
  | horizontal
  | vertical
deriving DecidableEq, Repr

/-- The 2-bit code of a mode (R210). -/
def Mode.toCode (m : Mode) : Nat :=
  match m with
  | .none => 0
  | .dc => 1
  | .horizontal => 2
  | .vertical => 3

/-- The mode of a code (R210). -/
def modeOf (c : Nat) : Option Mode :=
  match c with
  | 0 => some .none
  | 1 => some .dc
  | 2 => some .horizontal
  | 3 => some .vertical
  | _ => none

/-- The mode can be computed at (X, Y) (R211). -/
def computable (m : Mode) (x y : Nat) : Bool :=
  match m with
  | .none => true
  | .dc => decide (0 < x) && decide (0 < y)
  | .horizontal => decide (0 < x)
  | .vertical => decide (0 < y)

/-- The mode a code names, if there is one and it can be computed at (X, Y) (R211, shared check 5, R270). -/
def legalMode (c x y : Nat) : Option Mode :=
  match modeOf c with
  | some m => if computable m x y then some m else none
  | none => none

/-- b + n ≤ NB (shared check 6 of 43_predict.md). -/
def subBanksOk (mb : Mb) (b : Byte) : Bool := decide (b.toNat + mb.subs ≤ 32)

/-! ### Which commands use the ports (R311) -/

/-- The commands that make OUT transactions (R311). -/
def writesStream (i : Instr) : Bool :=
  match i with
  | .putbits _ | .putones | .putzeroes | .puteg | .flush | .entenc _ _ _ | .mbenc _ | .frameenc => true
  | .nop | .clrstat | .init | .deinit | .wrinit | .rdinit | .getbits _ | .getzeroes | .geteg | .entdec _ _ _
  | .fwd4 _ _ | .inv4 _ _ | .had4 _ _ | .ihad4 _ _ | .had2 _ _ | .quant4 _ _ | .dequant4 _ _ | .quantdc _ _ _
  | .dequantdc _ _ _ | .gatherdc _ _ _ | .scatterdc _ _ _ | .bdiv _ _ _ | .predsel _ | .predres _ _ _
  | .unpred _ _ _ | .mbdec _ | .framedec => false

/-- The commands that make IN transactions (R311). -/
def readsStream (i : Instr) : Bool :=
  match i with
  | .getbits _ | .getzeroes | .geteg | .entdec _ _ _ | .mbdec _ | .framedec => true
  | .nop | .clrstat | .init | .deinit | .wrinit | .rdinit | .putbits _ | .putones | .putzeroes | .puteg | .flush
  | .entenc _ _ _ | .fwd4 _ _ | .inv4 _ _ | .had4 _ _ | .ihad4 _ _ | .had2 _ _ | .quant4 _ _ | .dequant4 _ _
  | .quantdc _ _ _ | .dequantdc _ _ _ | .gatherdc _ _ _ | .scatterdc _ _ _ | .bdiv _ _ _ | .predsel _
  | .predres _ _ _ | .unpred _ _ _ | .mbenc _ | .frameenc => false

end Sys2Proof.Machine
end

