-- ==== Sys2Proof/Machine/Ops.lean ====
section
/-! DEFINITION. The shared operations: how a command's steps follow one another, draws, sample memories, banks, the
two ports, the bit writer and the bit reader, and a run-time failure. -/

namespace Sys2Proof.Machine

/-! ### The steps of a command (R13, R19) -/

/-- What a part of a command does. -/
inductive Run (α : Type) where
  /-- It goes on, with a value and the state so far. -/
  | done (a : α) (s : State)
  /-- The command has ended here, its failure recorded (`raise`, R13; an aborted pipeline command, R273). -/
  | ended (s : State)
  /-- The command waits: the host has not answered the port transaction `req`, or it is stuck (R318). -/
  | waiting (req : PortRequest) (s : State)
  /-- The command reads a value that does not exist (R318). -/
  | faulted (f : Fault)
deriving DecidableEq, Repr

/-- Do r, then k. -/
def Run.andThen {α β : Type} (r : Run α) (k : α → State → Run β) : Run β :=
  match r with
  | .done a s => k a s
  | .ended s => .ended s
  | .waiting req s => .waiting req s
  | .faulted f => .faulted f

/-- The value of o, or the fault f. -/
def orFault {α : Type} (f : Fault) (o : Option α) (s : State) : Run α :=
  match o with
  | some a => .done a s
  | none => .faulted f

/-! ### Free values (R141, R316; logs 7, 8) -/

/-- The next k drawn bits. -/
def drawnBits (n k : Nat) : List Bool := (List.range k).map fun j => Config.drawBit (n + j)

/-- The next k drawn bytes. -/
def drawnBytes (n k : Nat) : List Byte := (List.range k).map fun j => (Config.drawWord (n + j)).setWidth 8

/-- The state after k draws. -/
def drew (k : Nat) (s : State) : State := { s with draws := s.draws + k }

/-- A failure found while the command runs: it is recorded, and what both buffers hold is unspecified from now on, until
WRINIT and RDINIT (R312, R316, U4). -/
def failRun (c : Status) (s : State) : State := { record c s with wlost := true, rlost := true }

/-- WBUF and WCNT take free values (U4). -/
def redrawWriter (s : State) : State :=
  let n := (Config.drawWord s.draws).toNat % 64
  { s with wbuf := drawnBits (s.draws + 1) n, draws := s.draws + 1 + n }

/-- RBUF and RAVAIL take free values (U4). -/
def redrawReader (s : State) : State :=
  let n := (Config.drawWord s.draws).toNat % 65
  { s with rbuf := drawnBits (s.draws + 1) n, draws := s.draws + 1 + n }

/-- The bits and bytes a command gives the writer are the ones it takes: no failure is recorded (R141), and no command
has failed while it ran since the writer was last cleared (U4). -/
def writerExact (s : State) : Bool := decide (s.status = .ok) && !s.wlost

/-! ### The end of a command (R13, R19, R316, R318) -/

/-- The state t in which the command i, issued in s, has ended, as the host then sees it: a buffer whose contents are
unspecified has taken free ones if they have become so during i or i uses that buffer (R316, U4, log 8). -/
def settle (i : Instr) (s t : State) : State :=
  let u := if t.wlost && (!s.wlost || writesStream i) then redrawWriter t else t
  if u.rlost && (!s.rlost || readsStream i) then redrawReader u else u

/-- The record of the command i that waits, having run to t. WCNT is given unless it is unspecified or the 64 of a full
buffer, which STATE has no room for; RAVAIL unless it is unspecified (R76, R344, log 11). -/
def waitRecord (i : Instr) (req : PortRequest) (t : State) : PortWait where
  instr := i
  request := req
  status := t.status
  ports := t.ports
  draws := t.draws
  wcnt := if t.wlost || t.wbuf.length == 64 then none else some t.wbuf.length
  ravail := if t.rlost || req == .never then none else some t.rbuf.length

/-- The command i, issued in s, has run to r. A command that waits leaves every field of s as it is but `wait`: it runs
again from s when the host has answered (R19, log 2). -/
def finish (i : Instr) (s : State) (r : Run Unit) : Host.Outcome State Fault Refusal :=
  match r with
  | .done _ t => .next (settle i s t)
  | .ended t => .next (settle i s t)
  | .waiting req t => .next { s with wait := some (waitRecord i req t) }
  | .faulted f => .fault f

/-! ### RESULT of a stream command -/

/-- RESULT takes the value v of a stream command; while a failure is recorded that value is drawn (R35, R141). -/
def putStreamResult (v : Nat) (s : State) : State :=
  if s.status = .ok then { s with result := BitVec.ofNat 32 v }
  else drew 1 { s with result := Config.drawWord s.draws }

/-! ### Sample memories (R70) -/

/-- The sample at index a, if it holds a value (R13, R53). -/
def memRead (m : Memory) (a : Nat) : Option Byte :=
  match m with
  | [] => none
  | (b, v) :: rest => if a = b then some v else memRead rest a

/-- The memory with sample v at index a (R13). -/
def memWrite (m : Memory) (a : Nat) (v : Byte) : Memory :=
  match m with
  | [] => [(a, v)]
  | (b, w) :: rest =>
    if a < b then (a, v) :: (b, w) :: rest
    else if a = b then (a, v) :: rest
    else (b, w) :: memWrite rest a v

/-- Write cells in order. -/
def memWriteAll (m : Memory) (cells : List Host.Cell) : Memory :=
  cells.foldl (fun m c => memWrite m c.1 c.2) m

/-- The samples at the given indices, if all of them hold a value. -/
def readCells (m : Memory) (idx : List Nat) : Option (List Byte) :=
  match idx with
  | [] => some []
  | a :: rest =>
    match memRead m a, readCells m rest with
    | some v, some vs => some (v :: vs)
    | _, _ => none

/-- The canonical form: indices strictly rising, so each is listed once. -/
def memWf (m : Memory) : Bool := decide ((m.map Prod.fst).Pairwise (· < ·))

/-- The linear index of sample (x, y): y·FW + x (R70). -/
def sampleIndex (s : State) (x y : Nat) : Nat := y * s.fw.toNat + x

/-! ### Banks (R41) -/

/-- BANK[b] (b < NB). -/
def bank (s : State) (b : Nat) : Block := s.banks.getD b (blockOf fun _ => 0)

/-- BANK[b] <- x (b < NB). -/
def setBank (b : Nat) (x : Block) (s : State) : State := { s with banks := s.banks.setIfInBounds b x }

/-- Banks b..b+n−1 become f 0 .. f (n−1) of what they hold. -/
def mapBanks (b n : Nat) (f : Nat → Block → Block) (s : State) : State :=
  { s with banks := Vector.ofFn fun j : Fin 32 =>
      if b ≤ j.val ∧ j.val < b + n then f (j.val - b) (bank s j.val) else bank s j.val }

/-! ### Ports (R82, R83) -/

/-- OutWrite(bytes): one transaction on the OUT port (R82). Its bytes are drawn while a failure is recorded (R141) and
while the writer's contents are unspecified (U4). On `fail` it is drawn for each byte whether it reached the sink (U2,
log 9). -/
def outWrite (bytes : List Byte) (s : State) : Run OutAnswer :=
  let n := bytes.length
  let sent := if writerExact s then bytes else drawnBytes s.draws n
  let s := if writerExact s then s else drew n s
  match s.ports.outAnswers with
  | [] => .waiting (.outWrite sent) s
  | .ok :: rest =>
    .done .ok { s with ports := { s.ports with
      outAnswers := rest
      outLog := s.ports.outLog ++ [⟨sent, .ok, List.replicate n true⟩] } }
  | .fail :: rest =>
    .done .fail (drew n { s with ports := { s.ports with
      outAnswers := rest
      outLog := s.ports.outLog ++ [⟨sent, .fail, drawnBits s.draws n⟩] } })

/-- The whole writer buffer goes out as `bytes` and is emptied; a failure is recorded and the command goes on (R131,
R137). -/
def transfer (bytes : List Byte) (s : State) : Run Unit :=
  (outWrite bytes s).andThen fun r t =>
    match r with
    | .ok => .done () { t with wbuf := [] }
    | .fail => .done () (failRun .ioFailed { t with wbuf := [] })

/-- Take one IN answer from the host into the log. -/
def takeIn (a : InAnswer) (rest : List InAnswer) (s : State) : State :=
  { s with ports := { s.ports with inAnswers := rest, inLog := s.ports.inLog ++ [a] } }

/-- RBUF takes the bits of the bytes; while the reader's contents are unspecified, as many free ones (U4). -/
def loadReader (bytes : List Byte) (s : State) : State :=
  if s.rlost then drew (8 * bytes.length) { s with rbuf := drawnBits s.draws (8 * bytes.length) }
  else { s with rbuf := bytesBits bytes }

/-- Refill() (R132): one transaction on the IN port (R83). -/
def refill (s : State) : Run Unit :=
  match s.ports.inAnswers with
  | [] => .waiting .inRead s
  | .fail :: rest => .ended (failRun .ioFailed (takeIn .fail rest s))
  | .ok bytes h :: rest =>
    if bytes.isEmpty then .ended (failRun .eof (takeIn (.ok bytes h) rest s))
    else .done () (loadReader bytes (takeIn (.ok bytes h) rest s))

/-! ### The bit writer (R131) -/

/-- EmitBit(β) (R131). The bit is drawn while a failure is recorded (R141) and while the writer's contents are
unspecified (U4). -/
def emitBit (b : Bool) (s : State) : Run Unit :=
  let bit := if writerExact s then b else Config.drawBit s.draws
  let t := if writerExact s then s else drew 1 s
  let t := { t with wbuf := t.wbuf ++ [bit] }
  if t.wbuf.length = 64 then transfer (pack t.wbuf) t else .done () t

/-- Emit the bits in order. -/
def emitBits (bits : List Bool) (s : State) : Run Unit :=
  match bits with
  | [] => .done () s
  | b :: rest => (emitBit b s).andThen fun _ t => emitBits rest t

/-! ### The bit reader (R132) -/

/-- PeekBit() (R132). -/
def peekBit (s : State) : Run Bool :=
  match s.rbuf with
  | b :: _ => .done b s
  | [] =>
    (refill s).andThen fun _ t =>
      match t.rbuf with
      | b :: _ => .done b t
      | [] => .ended t

/-- The state with the next unread bit consumed. -/
def dropBit (s : State) : State := { s with rbuf := s.rbuf.tail }

/-- NextBit() (R132). -/
def nextBit (s : State) : Run Bool := (peekBit s).andThen fun b t => .done b (dropBit t)

/-- n bits onto the value v, first-read bit most significant (R138). -/
def readBits (n v : Nat) (s : State) : Run Nat :=
  match n with
  | 0 => .done v s
  | n + 1 => (nextBit s).andThen fun b t => readBits n (2 * v + b.toNat) t

/-- How many bits the reader could deliver from RBUF and the answers the host has given. -/
def bitsAhead (s : State) : Nat :=
  s.rbuf.length + (s.ports.inAnswers.map fun a => match a with | .fail => 0 | .ok bytes _ => 8 * bytes.length).sum

/-- The loop of R139: zero bits consumed so far and whether it ended at a one-bit (true) or at a failure (false).
Each round consumes a bit, so `fuel` above bitsAhead is never used up. At 2^32 zeros the command is stuck (R318, U10). -/
def zeroLoop (fuel z : Nat) (s : State) : Run (Nat × Bool) :=
  match fuel with
  | 0 => .done (z, false) s
  | fuel + 1 =>
    match peekBit s with
    | .done true t => .done (z, true) t
    | .done false t => if z + 1 = 2 ^ 32 then .waiting .never (dropBit t) else zeroLoop fuel (z + 1) (dropBit t)
    | .ended t => .done (z, false) t
    | .waiting req t => .waiting req t
    | .faulted f => .faulted f

/-- Count the zero bits up to the next one-bit, which stays (R139). -/
def countZeros (s : State) : Run (Nat × Bool) := zeroLoop (bitsAhead s + 1) 0 s

/-- The GETEG sequence: one Exp-Golomb code (R140). -/
def readEg (s : State) : Run Nat :=
  (countZeros s).andThen fun r t =>
    if r.2 then
      if 32 ≤ r.1 then .ended (failRun .inval t)
      else (readBits (r.1 + 1) 0 t).andThen fun u t => .done (u - 1) t
    else .ended t

end Sys2Proof.Machine
end

