-- ==== Sys2Proof/Machine/Bitstream.lean ====
section
/-! DEFINITION. The bitstream commands (40_bitstream.md): PUTBITS, PUTONES, PUTZEROES, PUTEG, FLUSH, GETBITS,
GETZEROES, GETEG. -/

namespace Sys2Proof.Machine

/-- PUTBITS n (R133). -/
def execPutbits (n : Byte) (s : State) : Host.Outcome State Fault Refusal :=
  if 1 ≤ n.toNat ∧ n.toNat ≤ 31 then finish (.putbits n) s (emitBits (natBits n.toNat s.arg0.toNat) s)
  else invalid s

/-- PUTONES (R134). -/
def execPutones (s : State) : Host.Outcome State Fault Refusal :=
  finish .putones s (emitBits (List.replicate s.arg0.toNat true) s)

/-- PUTZEROES (R135). -/
def execPutzeroes (s : State) : Host.Outcome State Fault Refusal :=
  finish .putzeroes s (emitBits (List.replicate s.arg0.toNat false) s)

/-- PUTEG (R136). -/
def execPuteg (s : State) : Host.Outcome State Fault Refusal :=
  if s.arg0.toNat ≤ 2 ^ 31 - 2 then finish .puteg s (emitBits (egBits s.arg0.toNat) s) else invalid s

/-- The bytes a FLUSH hands over: the buffered bits, padded with zero bits to a whole byte (R137). -/
def flushBytes (wbuf : List Bool) : List Byte :=
  pack (wbuf ++ List.replicate (8 * ((wbuf.length + 7) / 8) - wbuf.length) false)

/-- FLUSH (R137): RESULT is the STATUS code whatever it is (R141, C13). -/
def execFlush (s : State) : Host.Outcome State Fault Refusal :=
  finish .flush s
    ((if s.wbuf.length = 0 then Run.done () s else transfer (flushBytes s.wbuf) s).andThen fun _ t =>
      .done () { t with result := statusWord t.status })

/-- RESULT of a reading command that was issued in s and has run to r: the value on success; unchanged on failure,
or drawn if a failure was already recorded when the command started (R35, R138, R141, log 13). -/
def returning (s : State) (r : Run Nat) : Run Unit :=
  match r with
  | .done v t => .done () (putStreamResult v t)
  | .ended t => .ended (if s.status = .ok then t else putStreamResult 0 t)
  | .waiting req t => .waiting req t
  | .faulted f => .faulted f

/-- GETBITS n (R138). -/
def execGetbits (n : Byte) (s : State) : Host.Outcome State Fault Refusal :=
  if 1 ≤ n.toNat ∧ n.toNat ≤ 32 then finish (.getbits n) s (returning s (readBits n.toNat 0 s)) else invalid s

/-- GETZEROES (R139): RESULT takes the zeros counted, on failure too. -/
def execGetzeroes (s : State) : Host.Outcome State Fault Refusal :=
  finish .getzeroes s
    ((countZeros s).andThen fun r t =>
      .done () (if s.status = .ok then { t with result := BitVec.ofNat 32 r.1 } else putStreamResult r.1 t))

/-- GETEG (R140). -/
def execGeteg (s : State) : Host.Outcome State Fault Refusal := finish .geteg s (returning s (readEg s))

end Sys2Proof.Machine
end

