-- ==== Sys2Proof/Machine/Entropy.lean ====
section
/-! DEFINITION. The zero-run/sign coefficient coder (41_entropy.md): ENTENC and ENTDEC, and the two procedures the
pipeline shares with them. -/

namespace Sys2Proof.Machine

/-- R171's scan, given the coefficients from the highest index down and the run so far: the run and magnitude codes,
and the trailing run code if a run remains (D53). -/
def scanCode (run : Nat) (coeffs : List Int) : List Bool :=
  match coeffs with
  | [] => if 0 < run then egBits run else []
  | c :: rest =>
    if c = 0 then scanCode (run + 1) rest
    else egBits run ++ (egBits (c.natAbs - 1) ++ scanCode 0 rest)

/-- The sign field: one bit a nonzero coefficient, 1 for positive, in ascending index order, which is the most
recently collected first (R171, R173). -/
def signField (coeffs : List Int) : List Bool := (coeffs.filter fun c => c ≠ 0).map fun c => decide (0 < c)

/-- The bits of a coefficient vector c[0..cnt−1] (R171). -/
def vectorCode (coeffs : List Int) : List Bool := scanCode 0 coeffs.reverse ++ signField coeffs

/-- The vector holds no −2^31, which has no code (R171, D17). -/
def codable (coeffs : List Int) : Bool := coeffs.all fun c => c != -(2 ^ 31)

/-- Enc(c): encode a vector to the writer; −2^31 raises INVAL before any bit (R171, D17). -/
def writeVector (coeffs : List Int) (s : State) : Run Unit :=
  if codable coeffs then emitBits (vectorCode coeffs) s else .ended (record .inval s)

/-- R172's loop. `pos` positions are still to fill and `mags` holds the magnitudes of the positions above them, lowest
first. Each round fills at least one position, so `fuel` = pos is enough. -/
def decodeMags (fuel pos : Nat) (mags : List Nat) (s : State) : Run (List Nat) :=
  match fuel with
  | 0 => .done mags s
  | fuel + 1 =>
    if pos = 0 then .done mags s
    else
      (readEg s).andThen fun r t =>
        if pos < r then .ended (failRun .inval t)
        else if pos = r then .done (List.replicate r 0 ++ mags) t
        else
          (readEg t).andThen fun m u =>
            if 2 ^ 31 - 1 < m + 1 then .ended (failRun .inval u)
            else decodeMags fuel (pos - r - 1) ((m + 1) :: (List.replicate r 0 ++ mags)) u

/-- Read one sign bit for each nonzero magnitude, lowest index first (R172, R173). -/
def decodeSigns (mags : List Nat) (s : State) : Run (List Int) :=
  match mags with
  | [] => .done [] s
  | m :: rest =>
    if m = 0 then (decodeSigns rest s).andThen fun cs t => .done (0 :: cs) t
    else
      (nextBit s).andThen fun positive t =>
        (decodeSigns rest t).andThen fun cs u => .done ((if positive then (m : Int) else -(m : Int)) :: cs) u

/-- Dec(cnt): decode a vector of cnt coefficients from the reader (R172). -/
def readVector (cnt : Nat) (s : State) : Run (List Int) :=
  (decodeMags cnt cnt [] s).andThen fun mags t => decodeSigns mags t

/-- The operand vector c[i] = BANK[b][off + i], i < cnt (R170). -/
def bankVector (b off cnt : Nat) (s : State) : List Int :=
  (List.range cnt).map fun i => entryInt (bank s b) (off + i)

/-- BANK[b][off + i] <- v[i] for every i < length v; no other entry changes (R172). -/
def storeVector (b off : Nat) (v : List Word) (s : State) : State :=
  setBank b (blockOf fun i =>
    if off ≤ i ∧ i < off + v.length then v.getD (i - off) 0 else entry (bank s b) i) s

/-- BANK[b][off .. off+cnt−1] hold unspecified values: each is drawn (R141, R172, U3, log 7). -/
def drawVector (b off cnt : Nat) (s : State) : State :=
  drew cnt (storeVector b off ((List.range cnt).map fun i => Config.drawWord (s.draws + i)) s)

/-- ENTENC b, off, cnt (R171). -/
def execEntenc (b off cnt : Byte) (s : State) : Host.Outcome State Fault Refusal :=
  if bankOk b && vectorOk off cnt && codable (bankVector b.toNat off.toNat cnt.toNat s) then
    finish (.entenc b off cnt) s (writeVector (bankVector b.toNat off.toNat cnt.toNat s) s)
  else invalid s

/-- What ENTDEC does to its destination when its decoding has run to r: the vector on success; drawn values on
failure and when a failure was already recorded (R172, R141). -/
def storing (b off cnt : Nat) (r : Run (List Int)) : Run Unit :=
  match r with
  | .done cs t =>
    .done () (if t.status = .ok then storeVector b off (cs.map wrap32) t else drawVector b off cnt t)
  | .ended t => .ended (drawVector b off cnt t)
  | .waiting req t => .waiting req t
  | .faulted f => .faulted f

/-- ENTDEC b, off, cnt (R172). -/
def execEntdec (b off cnt : Byte) (s : State) : Host.Outcome State Fault Refusal :=
  if bankOk b && vectorOk off cnt then
    finish (.entdec b off cnt) s (storing b.toNat off.toNat cnt.toNat (readVector cnt.toNat s))
  else invalid s

end Sys2Proof.Machine
end

