-- ==== Sys2Proof/Machine/Predict.lean ====
section
/-! DEFINITION. The intra predictor (43_predict.md): PREDSEL, PREDRES, UNPRED, and the procedures the pipeline shares
with them. -/

namespace Sys2Proof.Machine

/-- The predictor of a macroblock, as the values it is made of (R212). -/
inductive Predictor where
  | zero
  | flat (v : Nat)
  | rows (left : List Byte)
  | columns (top : List Byte)
deriving DecidableEq, Repr

/-- P[i][j] at row offset i and column offset j (R212). -/
def Predictor.value (p : Predictor) (i j : Nat) : Nat :=
  match p with
  | .zero => 0
  | .flat v => v
  | .rows left => (left.getD i 0).toNat
  | .columns top => (top.getD j 0).toNat

/-- The sum of samples. -/
def sumBytes (l : List Byte) : Nat := (l.map BitVec.toNat).sum

/-- The S+1 samples of the top row, corner first (R211). -/
def topWithCorner (mb : Mb) (s : State) : Option (List Byte) :=
  readCells s.ref ((List.range (mb.size + 1)).map fun i => sampleIndex s (mb.x - 1 + i) (mb.y - 1))

/-- The S samples above the macroblock (R212). -/
def topRow (mb : Mb) (s : State) : Option (List Byte) :=
  readCells s.ref ((List.range mb.size).map fun j => sampleIndex s (mb.x + j) (mb.y - 1))

/-- The S samples left of the macroblock (R211). -/
def leftColumn (mb : Mb) (s : State) : Option (List Byte) :=
  readCells s.ref ((List.range mb.size).map fun j => sampleIndex s (mb.x - 1) (mb.y + j))

/-- P_m at a macroblock where m is computable, if every REF sample it reads holds a value (R211, R212, R53). -/
def predictor (m : Mode) (mb : Mb) (s : State) : Option Predictor :=
  match m with
  | .none => some .zero
  | .dc =>
    match topWithCorner mb s, leftColumn mb s with
    | some top, some left => some (.flat ((sumBytes top + sumBytes left) / (2 * mb.size + 1)))
    | _, _ => none
  | .horizontal => (leftColumn mb s).map .rows
  | .vertical => (topRow mb s).map .columns

/-- The S×S source samples, raster order, if all of them hold a value (R71, R53). -/
def sourceBlock (mb : Mb) (s : State) : Option (List Byte) :=
  readCells s.src ((List.range (mb.size * mb.size)).map fun p =>
    sampleIndex s (mb.x + p % mb.size) (mb.y + p / mb.size))

/-- Source sample at row offset i and column offset j. -/
def sourceAt (mb : Mb) (src : List Byte) (i j : Nat) : Nat := (src.getD (i * mb.size + j) 0).toNat

/-- SAD_m (R213). -/
def cost (mb : Mb) (src : List Byte) (p : Predictor) : Nat :=
  ((List.range (mb.size * mb.size)).map fun q =>
    ((sourceAt mb src (q / mb.size) (q % mb.size) : Int) - p.value (q / mb.size) (q % mb.size)).natAbs).sum

/-- The comparison loop of R214: a strictly smaller cost replaces. -/
def pickMode (best : Mode) (least : Nat) (rest : List (Mode × Nat)) : Mode :=
  match rest with
  | [] => best
  | (m, c) :: more => if c < least then pickMode m c more else pickMode best least more

/-- Select(S, X, Y) (R214). -/
def selectMode (mb : Mb) (s : State) : Run Mode :=
  if mb.x = 0 ∧ mb.y = 0 then .done .none s
  else if mb.y = 0 then .done .horizontal s
  else if mb.x = 0 then .done .vertical s
  else
    (orFault .unwrittenSrc (sourceBlock mb s) s).andThen fun src s =>
    (orFault .unwrittenRef (predictor .dc mb s) s).andThen fun dc s =>
    (orFault .unwrittenRef (predictor .horizontal mb s) s).andThen fun h s =>
    (orFault .unwrittenRef (predictor .vertical mb s) s).andThen fun v s =>
      .done (pickMode .dc (cost mb src dc)
        [(.horizontal, cost mb src h), (.vertical, cost mb src v), (.none, cost mb src .zero)]) s

/-- The residual of sub-block k, whose source sample e is f e: source minus predictor (R216). -/
def residualOf (mb : Mb) (p : Predictor) (k : Nat) (f : Nat → Nat) : Block :=
  blockOf fun e => wrap32 ((f e : Int) - p.value (mb.row0 k + e / 4) (mb.col0 k + e % 4))

/-- The residual of sub-block k of a macroblock whose source samples are src (R216). -/
def residual (mb : Mb) (src : List Byte) (p : Predictor) (k : Nat) : Block :=
  residualOf mb p k fun e => sourceAt mb src (mb.row0 k + e / 4) (mb.col0 k + e % 4)

/-- The 16 source samples of sub-block k, raster order, if all of them hold a value (R71, R53, R269). -/
def sourceSub (mb : Mb) (k : Nat) (s : State) : Option (List Byte) :=
  readCells s.src ((List.range 16).map fun e =>
    sampleIndex s (mb.x + (mb.col0 k + e % 4)) (mb.y + (mb.row0 k + e / 4)))

/-- The cells sub-block k's residual x gives REF: predictor plus residual, clamped (R217). -/
def unpredSub (mb : Mb) (p : Predictor) (s : State) (k : Nat) (x : Block) : List Host.Cell :=
  (List.range 16).map fun e =>
    let i := mb.row0 k + e / 4
    let j := mb.col0 k + e % 4
    (sampleIndex s (mb.x + j) (mb.y + i), clampSample ((p.value i j : Int) + entryInt x e))

/-- The cells a whole macroblock gives REF, sub-block k's residual being f k (R217). -/
def unpredCells (mb : Mb) (p : Predictor) (s : State) (f : Nat → Block) : List Host.Cell :=
  (List.range mb.subs).flatMap fun k => unpredSub mb p s k (f k)

/-- REF takes the given cells. -/
def writeRef (cells : List Host.Cell) (s : State) : State := { s with ref := memWriteAll s.ref cells }

/-- PREDSEL S (R215). -/
def execPredsel (size : Byte) (s : State) : Host.Outcome State Fault Refusal :=
  if mbOk size s then
    finish (.predsel size) s
      ((selectMode (operandMb size s) s).andThen fun m t => .done () { t with result := BitVec.ofNat 32 m.toCode })
  else invalid s

/-- PREDRES S, m, b (R216). -/
def execPredres (size m b : Byte) (s : State) : Host.Outcome State Fault Refusal :=
  let mb := operandMb size s
  if mbOk size s then
    match legalMode m.toNat mb.x mb.y with
    | none => invalid s
    | some mode =>
      if subBanksOk mb b then
        finish (.predres size m b) s
          ((orFault .unwrittenRef (predictor mode mb s) s).andThen fun p s =>
           (orFault .unwrittenSrc (sourceBlock mb s) s).andThen fun src s =>
            .done () (mapBanks b.toNat mb.subs (fun k _ => residual mb src p k) s))
      else invalid s
  else invalid s

/-- UNPRED S, m, b (R217). -/
def execUnpred (size m b : Byte) (s : State) : Host.Outcome State Fault Refusal :=
  let mb := operandMb size s
  if mbOk size s then
    match legalMode m.toNat mb.x mb.y with
    | none => invalid s
    | some mode =>
      if subBanksOk mb b then
        finish (.unpred size m b) s
          ((orFault .unwrittenRef (predictor mode mb s) s).andThen fun p s =>
            .done () (writeRef (unpredCells mb p s fun k => bank s (b.toNat + k)) s))
      else invalid s
  else invalid s

end Sys2Proof.Machine
end

