-- ==== Sys2Proof/Machine/Transform.lean ====
section
/-! DEFINITION. The block transforms (42_transform.md): FWD4, INV4, HAD4, IHAD4, HAD2. -/

namespace Sys2Proof.Machine

/-- Fseq (R191): entry k of the butterfly of (a, b, c, d). -/
def fseq (a b c d : Int) (k : Nat) : Int :=
  match k with
  | 0 => (a + d) + (b + c)
  | 1 => (a - d) + (b - c)
  | 2 => (a + d) - (b + c)
  | _ => (a - d) - (b - c)

/-- Fh (R192): entry k of the H.264 forward transform of (a, b, c, d). -/
def fh264 (a b c d : Int) (k : Nat) : Int :=
  match k with
  | 0 => (a + d) + (b + c)
  | 1 => 2 * (a - d) + (b - c)
  | 2 => (a + d) - (b + c)
  | _ => (a - d) - 2 * (b - c)

/-- Ih (R192): entry k of the H.264 inverse transform of the int32 values (a, b, c, d); `>>>` on Int is the
arithmetic shift. -/
def ih264 (a b c d : Int) (k : Nat) : Int :=
  match k with
  | 0 => (a + c) + (b + (d >>> (1 : Nat)))
  | 1 => (a - c) + ((b >>> (1 : Nat)) - d)
  | 2 => (a - c) - ((b >>> (1 : Nat)) - d)
  | _ => (a + c) - (b + (d >>> (1 : Nat)))

/-- Sep(f, X) (R193): rows, then columns, each value wrapped to int32. -/
def sep (f : Int → Int → Int → Int → Nat → Int) (x : Block) : Block :=
  let t := blockOf fun p =>
    let r := 4 * (p / 4)
    wrap32 (f (entryInt x r) (entryInt x (r + 1)) (entryInt x (r + 2)) (entryInt x (r + 3)) (p % 4))
  blockOf fun p =>
    let c := p % 4
    wrap32 (f (entryInt t c) (entryInt t (4 + c)) (entryInt t (8 + c)) (entryInt t (12 + c)) (p / 4))

/-- The forward 4×4 transform with kernel k (R194). -/
def fwd4 (k : Config.Kernel) (x : Block) : Block :=
  match k with
  | .seq => sep fseq x
  | .h264 => sep fh264 x

/-- The inverse 4×4 transform with kernel k, scaled by 16 (R195). -/
def inv4 (k : Config.Kernel) (x : Block) : Block :=
  match k with
  | .seq => sep fseq x
  | .h264 => sep ih264 x

/-- Every entry divided by d, truncating toward zero (R247). -/
def divBlock (x : Block) (d : Nat) : Block := blockOf fun i => wrap32 (tdiv (entryInt x i) d)

/-- The inverse 4×4 Hadamard transform, unscaled (R197). -/
def ihad4 (x : Block) : Block := sep fseq x

/-- The forward 4×4 Hadamard transform with one halving after both passes (R196, C1). -/
def had4 (x : Block) : Block := divBlock (sep fseq x) 2

/-- Entry k < 4 of the 2×2 Hadamard transform of entries 0..3 (R198). -/
def had2Entry (x : Block) (k : Nat) : Word :=
  let a := entryInt x 0
  let b := entryInt x 1
  let c := entryInt x 2
  let e := entryInt x 3
  match k with
  | 0 => wrap32 (a + b + c + e)
  | 1 => wrap32 (a - b + c - e)
  | 2 => wrap32 (a + b - c - e)
  | _ => wrap32 (a - b - c + e)

/-- A bank-to-bank command: checks on d and s, then BANK[d] <- f BANK[s], the whole source read first
(42_transform.md section 4, 44_quant.md section 2). -/
def bankToBank (d src : Byte) (f : Block → Block) (s : State) : Host.Outcome State Fault Refusal :=
  if bankOk d && bankOk src then complete (setBank d.toNat (f (bank s src.toNat)) s) else invalid s

/-- FWD4 d, s (R194). -/
def execFwd4 (d src : Byte) (s : State) : Host.Outcome State Fault Refusal :=
  bankToBank d src (fwd4 s.cfg.kernel) s

/-- INV4 d, s (R195). -/
def execInv4 (d src : Byte) (s : State) : Host.Outcome State Fault Refusal :=
  bankToBank d src (inv4 s.cfg.kernel) s

/-- HAD4 d, s (R196). -/
def execHad4 (d src : Byte) (s : State) : Host.Outcome State Fault Refusal := bankToBank d src had4 s

/-- IHAD4 d, s (R197). -/
def execIhad4 (d src : Byte) (s : State) : Host.Outcome State Fault Refusal := bankToBank d src ihad4 s

/-- HAD2 d, s (R198): entries 4..15 of BANK[d] stay. -/
def execHad2 (d src : Byte) (s : State) : Host.Outcome State Fault Refusal :=
  bankToBank d src (fun x => overlay (bank s d.toNat) 4 (had2Entry x)) s

end Sys2Proof.Machine
end

