-- ==== Sys2Proof/Machine/Quant.lean ====
section
/-! DEFINITION. Quantization, zigzag, DC grids and the truncating divide (44_quant.md): QUANT4, DEQUANT4, QUANTDC,
DEQUANTDC, GATHERDC, SCATTERDC, BDIV. -/

namespace Sys2Proof.Machine

/-- QUANT4's result: scan position q holds the quotient of raster position IZZ4[q] (R241, R240). -/
def quant4 (c : Config.Params) (x : Block) : Block :=
  blockOf fun q => wrap32 (tdiv (entryInt x (izz4 q)) (qtab c (izz4 q)))

/-- DEQUANT4's result (R242). -/
def dequant4 (c : Config.Params) (z : Block) : Block :=
  blockOf fun p => wrap32 (entryInt z (zz4 p) * qtab c p)

/-- Scan position q of a quantized DC grid of cnt entries (R243). -/
def quantDcEntry (c : Config.Params) (cnt : Nat) (g : Block) (q : Nat) : Word :=
  wrap32 (tdiv (entryInt g (izz cnt q)) (qtab c 0))

/-- Grid position p of a dequantized DC vector of cnt entries (R244). -/
def dequantDcEntry (c : Config.Params) (cnt : Nat) (z : Block) (p : Nat) : Word :=
  wrap32 (entryInt z (zz cnt p) * qtab c 0)

/-- QUANT4 d, s (R241). -/
def execQuant4 (d src : Byte) (s : State) : Host.Outcome State Fault Refusal :=
  bankToBank d src (quant4 s.cfg) s

/-- DEQUANT4 d, s (R242). -/
def execDequant4 (d src : Byte) (s : State) : Host.Outcome State Fault Refusal :=
  bankToBank d src (dequant4 s.cfg) s

/-- QUANTDC d, s, cnt (R243). -/
def execQuantdc (d src cnt : Byte) (s : State) : Host.Outcome State Fault Refusal :=
  if gridOk cnt then
    bankToBank d src (fun g => overlay (bank s d.toNat) cnt.toNat (quantDcEntry s.cfg cnt.toNat g)) s
  else invalid s

/-- DEQUANTDC d, s, cnt (R244). -/
def execDequantdc (d src cnt : Byte) (s : State) : Host.Outcome State Fault Refusal :=
  if gridOk cnt then
    bankToBank d src (fun z => overlay (bank s d.toNat) cnt.toNat (dequantDcEntry s.cfg cnt.toNat z)) s
  else invalid s

/-- GATHERDC g, b, cnt (R245). -/
def execGatherdc (g b cnt : Byte) (s : State) : Host.Outcome State Fault Refusal :=
  if bankOk g && bankOk b && gridOk cnt && banksOk b cnt then
    complete (setBank g.toNat
      (overlay (bank s g.toNat) cnt.toNat fun k => entry (bank s (b.toNat + k)) 0) s)
  else invalid s

/-- SCATTERDC b, g, cnt (R246): the whole grid is read first. -/
def execScatterdc (b g cnt : Byte) (s : State) : Host.Outcome State Fault Refusal :=
  if bankOk b && bankOk g && gridOk cnt && banksOk b cnt then
    complete (mapBanks b.toNat cnt.toNat
      (fun k x => overlay x 1 fun _ => entry (bank s g.toNat) k) s)
  else invalid s

/-- BDIV d, s, div (R247). -/
def execBdiv (d src div : Byte) (s : State) : Host.Outcome State Fault Refusal :=
  if 1 ≤ div.toNat then bankToBank d src (fun x => divBlock x div.toNat) s else invalid s

end Sys2Proof.Machine
end

