-- ==== Sys2Proof/Machine/Pipeline.lean ====
section
/-! DEFINITION. The macroblock and frame pipeline (45_pipeline.md): MBENC, MBDEC, FRAMEENC, FRAMEDEC. Their residuals,
coefficients, DC grid and predictor are their own (R47, R260): values of these procedures, never fields of State. -/

namespace Sys2Proof.Machine

/-- Tiles(FW, FH), in coding order (R261, R262). -/
def tiles (fw fh : Nat) : List Mb :=
  let full := fh / 16
  let r := fh - 16 * full
  let t := if r = 8 then 8 else 4
  ((List.range full).flatMap fun my => (List.range (fw / 16)).map fun mx => ⟨16 * mx, 16 * my, 16⟩) ++
  ((List.range (r / t)).flatMap fun ty => (List.range (fw / t)).map fun tx => ⟨t * tx, 16 * full + t * ty, t⟩)

/-- A pipeline command ends after a bitstream step that left a failure recorded (R273). -/
def checkStatus (s : State) : Run Unit := if s.status = .ok then .done () s else .ended s

/-- The Hadamard transform of a DC grid of n entries, by its side (R269 step 3). -/
def gridForward (n : Nat) (g : Block) : Block :=
  match n with
  | 16 => had4 g
  | 4 => blockOf fun i => if i < 4 then had2Entry g i else 0
  | _ => g

/-- The DC values recovered from a dequantized grid (R272). -/
def gridInverse (n : Nat) (hd : Block) : Block :=
  match n with
  | 16 => divBlock (ihad4 hd) 8
  | 4 => blockOf fun i => if i < 4 then wrap32 (tdiv (had2Entry hd i).toInt 4) else 0
  | _ => hd

/-- The AC vector of a zigzag block: scan indices 1..15 (R248, R263). -/
def acVector (z : Block) : List Int := (List.range 15).map fun i => entryInt z (i + 1)

/-- The zigzag block of a decoded AC vector, index 0 being 0 (R270). -/
def acBlock (ac : List Int) : Block :=
  blockOf fun i => if i = 0 then 0 else wrap32 (ac.getD (i - 1) 0)

/-- The first n entries of a block as integers. -/
def firstInts (n : Nat) (x : Block) : List Int := (List.range n).map fun i => entryInt x i

/-- The block of a list of integers, 0 beyond it. -/
def intsBlock (l : List Int) : Block := blockOf fun i => wrap32 (l.getD i 0)

/-- The residual R'k that the inverse path gives sub-block k: dequantize, put the recovered DC at position 0,
inverse-transform, divide by 16 (R272). -/
def reconResidual (c : Config.Params) (dcRec : Block) (zs : List Block) (k : Nat) : Block :=
  let z := zs.getD k (blockOf fun _ => 0)
  divBlock (inv4 c.kernel (overlay (dequant4 c z) 1 fun _ => entry dcRec k)) 16

/-- Reconstruct (R272): zs are the zigzag blocks Zk, zd the zigzag DC vector. -/
def reconstruct (m : Mode) (mb : Mb) (zs : List Block) (zd : Block) (s : State) : Run Unit :=
  let hd := blockOf (dequantDcEntry s.cfg mb.subs zd)
  let dcRec := gridInverse mb.subs hd
  (orFault .unwrittenRef (predictor m mb s) s).andThen fun p s =>
    .done () (writeRef (unpredCells mb p s (reconResidual s.cfg dcRec zs)) s)

/-- A sub-block with residual r coded: Zk and DCraw[k] (R269, step 2). -/
def encodeSub (r : Block) (s : State) : Run (Block × Word) :=
  let ck := fwd4 s.cfg.kernel r
  let zk := quant4 s.cfg ck
  (writeVector (acVector zk) s).andThen fun _ t => (checkStatus t).andThen fun _ t => .done (zk, entry ck 0) t

/-- Step 2 of EncMB for the sub-blocks ks still to code, in order. The SRC samples of each are read when those before it
have been coded (R84, R269). -/
def encodeSubs (mb : Mb) (p : Predictor) (ks : List Nat) (s : State) : Run (List (Block × Word)) :=
  match ks with
  | [] => .done [] s
  | k :: more =>
    (orFault .unwrittenSrc (sourceSub mb k s) s).andThen fun src s =>
    (encodeSub (residualOf mb p k fun e => (src.getD e 0).toNat) s).andThen fun sub s =>
    (encodeSubs mb p more s).andThen fun rest s => .done (sub :: rest) s

/-- The zigzag quantized DC grid of the raw DC values (R269 step 3). -/
def codedGrid (c : Config.Params) (n : Nat) (raw : List Word) : Block :=
  blockOf (quantDcEntry c n (gridForward n (blockOf fun k => raw.getD k 0)))

/-- EncMB(S, X, Y) (R269): the mode, on success. -/
def encodeMb (mb : Mb) (s : State) : Run Mode :=
  (selectMode mb s).andThen fun m s =>
  (emitBits (natBits 2 m.toCode) s).andThen fun _ s =>
  (checkStatus s).andThen fun _ s =>
  (orFault .unwrittenRef (predictor m mb s) s).andThen fun p s =>
  (encodeSubs mb p (List.range mb.subs) s).andThen fun subs s =>
    let zd := codedGrid s.cfg mb.subs (subs.map Prod.snd)
  (writeVector (firstInts mb.subs zd) s).andThen fun _ s =>
  (checkStatus s).andThen fun _ s =>
  (reconstruct m mb (subs.map Prod.fst) zd s).andThen fun _ s => .done m s

/-- The AC vectors of k sub-blocks, in order (R270). -/
def decodeSubs (k : Nat) (s : State) : Run (List Block) :=
  match k with
  | 0 => .done [] s
  | k + 1 =>
    (readVector 15 s).andThen fun ac t =>
    (decodeSubs k t).andThen fun rest t => .done (acBlock ac :: rest) t

/-- DecMB(S, X, Y) (R270): the mode, on success. -/
def decodeMb (mb : Mb) (s : State) : Run Mode :=
  (readBits 2 0 s).andThen fun code s =>
    match legalMode code mb.x mb.y with
    | none => .ended (failRun .inval s)
    | some m =>
      (decodeSubs mb.subs s).andThen fun zs s =>
      (readVector mb.subs s).andThen fun zd s =>
      (reconstruct m mb zs (intsBlock zd) s).andThen fun _ s => .done m s

/-- EncMB for each macroblock in order; a failure ends the frame (R267). -/
def encodeMbs (mbs : List Mb) (s : State) : Run Unit :=
  match mbs with
  | [] => .done () s
  | mb :: more => (encodeMb mb s).andThen fun _ t => encodeMbs more t

/-- DecMB for each macroblock in order; a failure ends the frame (R268). -/
def decodeMbs (mbs : List Mb) (s : State) : Run Unit :=
  match mbs with
  | [] => .done () s
  | mb :: more => (decodeMb mb s).andThen fun _ t => decodeMbs more t

/-- MBENC S (R265): does nothing while a failure is recorded (R264, R315). -/
def execMbenc (size : Byte) (s : State) : Host.Outcome State Fault Refusal :=
  if s.status ≠ .ok then complete s
  else if mbOk size s then
    finish (.mbenc size) s
      ((encodeMb (operandMb size s) s).andThen fun m t => .done () { t with result := BitVec.ofNat 32 m.toCode })
  else invalid s

/-- MBDEC S (R266). -/
def execMbdec (size : Byte) (s : State) : Host.Outcome State Fault Refusal :=
  if s.status ≠ .ok then complete s
  else if mbOk size s then
    finish (.mbdec size) s
      ((decodeMb (operandMb size s) s).andThen fun m t => .done () { t with result := BitVec.ofNat 32 m.toCode })
  else invalid s

/-- FRAMEENC (R267): RESULT is unchanged (log 18). -/
def execFrameenc (s : State) : Host.Outcome State Fault Refusal :=
  if s.status ≠ .ok then complete s
  else if s.inited then
    finish .frameenc s
      ((emitBits (natBits 1 1) s).andThen fun _ t =>
       (checkStatus t).andThen fun _ t => encodeMbs (tiles t.fw.toNat t.fh.toNat) t)
  else invalid s

/-- FRAMEDEC (R268): RESULT takes the key-frame flag as soon as it is read; a flag of 0 has no other effect (R276). -/
def execFramedec (s : State) : Host.Outcome State Fault Refusal :=
  if s.status ≠ .ok then complete s
  else if s.inited then
    finish .framedec s
      ((readBits 1 0 s).andThen fun kf t =>
        let t := { t with result := BitVec.ofNat 32 kf }
        if kf = 0 then .done () t else decodeMbs (tiles t.fw.toNat t.fh.toNat) t)
  else invalid s

end Sys2Proof.Machine
end

