-- ==== Sys2Proof/Machine/System.lean ====
section
/-! DEFINITION. The system commands (46_system.md): NOP, CLRSTAT, INIT, DEINIT, WRINIT, RDINIT. -/

namespace Sys2Proof.Machine

/-- NOP (R290). -/
def execNop (s : State) : Host.Outcome State Fault Refusal := complete s

/-- CLRSTAT (R291). -/
def execClrstat (s : State) : Host.Outcome State Fault Refusal := complete { s with status := .ok }

/-- INIT (R293): REF is allocated with unspecified contents, so no sample of it holds a value (log 19). -/
def execInit (s : State) : Host.Outcome State Fault Refusal :=
  let w := s.width.toNat
  let h := s.height.toNat
  if s.inited then invalid s
  else if w = 0 ∨ h = 0 then invalid s
  else if w % 16 ≠ 0 ∨ h % 4 ≠ 0 then invalid s
  else if w ≤ s.cfg.maxW ∧ h ≤ s.cfg.maxH ∧ w * h ≤ s.cfg.maxSamples then
    complete { s with fw := s.width, fh := s.height, inited := true, ref := [] }
  else complete (record .nomem s)

/-- DEINIT (R294): REF, FW and FH become unspecified; FW and FH are drawn (U8, log 4). With INITED = 0 it does
nothing. -/
def execDeinit (s : State) : Host.Outcome State Fault Refusal :=
  if s.inited then
    complete (drew 2 { s with
      inited := false
      ref := []
      fw := (Config.drawWord s.draws).setWidth 16
      fh := (Config.drawWord (s.draws + 1)).setWidth 16 })
  else complete s

/-- WRINIT (R295): the writer is specified again (U4). -/
def execWrinit (s : State) : Host.Outcome State Fault Refusal := complete { s with wbuf := [], wlost := false }

/-- RDINIT (R296): the reader is specified again (U4). -/
def execRdinit (s : State) : Host.Outcome State Fault Refusal := complete { s with rbuf := [], rlost := false }

end Sys2Proof.Machine
end

