-- ==== Sys2Proof/Machine/Dispatch.lean ====
section
/-! DEFINITION. exec: the meaning of each command, one direct call an arm. -/

namespace Sys2Proof.Machine

def exec (i : Instr) (s : State) : Host.Outcome State Fault Refusal :=
  match i with
  | .nop => Sys2Proof.Machine.execNop s
  | .clrstat => Sys2Proof.Machine.execClrstat s
  | .init => Sys2Proof.Machine.execInit s
  | .deinit => Sys2Proof.Machine.execDeinit s
  | .wrinit => Sys2Proof.Machine.execWrinit s
  | .rdinit => Sys2Proof.Machine.execRdinit s
  | .putbits n => Sys2Proof.Machine.execPutbits n s
  | .putones => Sys2Proof.Machine.execPutones s
  | .putzeroes => Sys2Proof.Machine.execPutzeroes s
  | .puteg => Sys2Proof.Machine.execPuteg s
  | .flush => Sys2Proof.Machine.execFlush s
  | .getbits n => Sys2Proof.Machine.execGetbits n s
  | .getzeroes => Sys2Proof.Machine.execGetzeroes s
  | .geteg => Sys2Proof.Machine.execGeteg s
  | .entenc b off cnt => Sys2Proof.Machine.execEntenc b off cnt s
  | .entdec b off cnt => Sys2Proof.Machine.execEntdec b off cnt s
  | .fwd4 d src => Sys2Proof.Machine.execFwd4 d src s
  | .inv4 d src => Sys2Proof.Machine.execInv4 d src s
  | .had4 d src => Sys2Proof.Machine.execHad4 d src s
  | .ihad4 d src => Sys2Proof.Machine.execIhad4 d src s
  | .had2 d src => Sys2Proof.Machine.execHad2 d src s
  | .quant4 d src => Sys2Proof.Machine.execQuant4 d src s
  | .dequant4 d src => Sys2Proof.Machine.execDequant4 d src s
  | .quantdc d src cnt => Sys2Proof.Machine.execQuantdc d src cnt s
  | .dequantdc d src cnt => Sys2Proof.Machine.execDequantdc d src cnt s
  | .gatherdc g b cnt => Sys2Proof.Machine.execGatherdc g b cnt s
  | .scatterdc b g cnt => Sys2Proof.Machine.execScatterdc b g cnt s
  | .bdiv d src div => Sys2Proof.Machine.execBdiv d src div s
  | .predsel size => Sys2Proof.Machine.execPredsel size s
  | .predres size m b => Sys2Proof.Machine.execPredres size m b s
  | .unpred size m b => Sys2Proof.Machine.execUnpred size m b s
  | .mbenc size => Sys2Proof.Machine.execMbenc size s
  | .mbdec size => Sys2Proof.Machine.execMbdec size s
  | .frameenc => Sys2Proof.Machine.execFrameenc s
  | .framedec => Sys2Proof.Machine.execFramedec s

end Sys2Proof.Machine
end

