-- ==== Sys2Proof/Machine/Bus.lean ====
section
/-! DEFINITION. The host's side (R19, R74, R75, R76, R344): the address map, reads and writes of it, the issue of a
command by a write to CMD, the answers to port transactions, and reset. -/

namespace Sys2Proof.Machine

/-- What a host access reaches (R74). -/
inductive Target where
  | cmd
  | arg0
  | arg1
  | result
  | status
  | state
  | width
  | height
  | qtab (p : Nat)
  | bank (b i : Nat)
  | src (a : Nat)
  | ref (a : Nat)
  | reserved
deriving DecidableEq, Repr

/-- The register or bank entry at an aligned word offset below 0x0100_0000 (R74). -/
def wordTarget (a : Nat) : Target :=
  if a = 0x000 then .cmd
  else if a = 0x004 then .arg0
  else if a = 0x008 then .arg1
  else if a = 0x00C then .result
  else if a = 0x010 then .status
  else if a = 0x014 then .state
  else if a = 0x018 then .width
  else if a = 0x01C then .height
  else if 0x040 ≤ a ∧ a < 0x080 then .qtab ((a - 0x040) / 4)
  else if 0x1000 ≤ a ∧ a < 0x1800 then .bank ((a - 0x1000) / 64) ((a - 0x1000) % 64 / 4)
  else .reserved

/-- What an access of `width` bytes at address a reaches; none where the block does not accept it: another width,
a word that is not aligned, a sample outside its window, REF while INITED = 0 (R74, R75, log 12). -/
def target (width a : Nat) (s : State) : Option Target :=
  if a < 0x01000000 then
    if width = 4 ∧ a % 4 = 0 then some (wordTarget a) else none
  else if width = 1 then
    if a < 0x01000000 + s.cfg.maxSamples then some (.src (a - 0x01000000))
    else if 0x02000000 ≤ a ∧ a < 0x02000000 + s.fw.toNat * s.fh.toNat ∧ s.inited then some (.ref (a - 0x02000000))
    else none
  else none

/-- The host has read the value v. -/
def returned (v : Word) (s : State) : Host.Outcome State Fault Refusal := .next { s with hostLog := s.hostLog ++ [v] }

/-- A sample read, or the fault of R53. -/
def returnedSample (f : Fault) (v : Option Byte) (s : State) : Host.Outcome State Fault Refusal :=
  match v with
  | some b => returned (b.setWidth 32) s
  | none => .fault f

/-- A host read (R32 to R41, R74, R76). While BUSY = 1 only STATUS and STATE can be read. No read has another effect
(R81). -/
def hostRead (width : Nat) (addr : Word) (s : State) : Host.Outcome State Fault Refusal :=
  match target width addr.toNat s with
  | none => .refused .hostAccess
  | some .status => returned (statusWord (polledStatus s)) s
  | some .state => returned (polledState s) s
  | some t =>
    if busy s then .refused .hostBusy
    else
      match t with
      | .arg0 => returned s.arg0 s
      | .arg1 => returned s.arg1 s
      | .result => returned s.result s
      | .width => returned (s.width.setWidth 32) s
      | .height => returned (s.height.setWidth 32) s
      | .qtab p => returned (BitVec.ofNat 32 (qtab s.cfg p)) s
      | .bank b i => returned (entry (bank s b) i) s
      | .src a => returnedSample .unwrittenSrc (memRead s.src a) s
      | .ref a => returnedSample .unwrittenRef (memRead s.ref a) s
      | .cmd => returned 0 s
      | .status => returned 0 s
      | .state => returned 0 s
      | .reserved => returned 0 s

/-- A word written to CMD is issued as a command (R32, R104): it runs, or it raises INVAL with no other effect. -/
def issue (w : Word) (s : State) : Host.Outcome State Fault Refusal :=
  match decode w with
  | .ok i => exec i s
  | .error _ => invalid s

/-- A host write (R32 to R41, R74, R76, R81). WIDTH and HEIGHT ignore it while INITED = 1 (R38, R39). -/
def hostWrite (width : Nat) (addr value : Word) (s : State) : Host.Outcome State Fault Refusal :=
  match target width addr.toNat s with
  | none => .refused .hostAccess
  | some t =>
    if busy s then .refused .hostBusy
    else
      match t with
      | .cmd => issue value s
      | .arg0 => .next { s with arg0 := value }
      | .arg1 => .next { s with arg1 := value }
      | .width => .next (if s.inited then s else { s with width := value.setWidth 16 })
      | .height => .next (if s.inited then s else { s with height := value.setWidth 16 })
      | .bank b i => .next (setBank b ((bank s b).setIfInBounds i value) s)
      | .src a => .next { s with src := memWrite s.src a (value.setWidth 8) }
      | .ref a => .next { s with ref := memWrite s.ref a (value.setWidth 8) }
      | .result => .next s
      | .status => .next s
      | .state => .next s
      | .qtab _ => .next s
      | .reserved => .next s

/-- The host has answered: a command that waits at a port runs again with the answers there are now (R19, log 2). -/
def resume (s : State) : Host.Outcome State Fault Refusal :=
  match s.wait with
  | none => .next s
  | some w => exec w.instr { s with wait := none }

/-- Reset (R340, R341). A command that waits at a port is abandoned: the transactions it has made stay made. DESIGN
CHOICE (log 17): the OUT transaction the host has not answered yet is dropped, and none of its bytes count as having
reached the sink; R340 speaks only of bytes already accepted. The host's moves to come, its answers not taken yet, what it has seen, and the parameters are no state of the block
that reset touches (log 17). -/
def hostReset (s : State) : State :=
  let ports := match s.wait with
    | some w => w.ports
    | none => s.ports
  let draws := match s.wait with
    | some w => w.draws
    | none => s.draws
  { State.afterReset s.cfg draws with ports := ports, host := s.host, hostLog := s.hostLog }

/-- One move of the host. -/
def hostMove (a : HostAction) (s : State) : Host.Outcome State Fault Refusal :=
  match a with
  | .busWrite width addr value => hostWrite width addr value s
  | .busRead width addr => hostRead width addr s
  | .answerOut r => resume { s with ports := { s.ports with outAnswers := s.ports.outAnswers ++ [r] } }
  | .answerIn r => resume { s with ports := { s.ports with inAnswers := s.ports.inAnswers ++ [r] } }
  | .reset => .next (hostReset s)

end Sys2Proof.Machine
end

