-- ==== Sys2Proof/Machine/Step.lean ====
section
/-! DEFINITION. One step of the machine: the host's next move, a command among them, to its completion or to the port
transaction it waits at. -/

namespace Sys2Proof.Machine

/-- The host makes its next move; with no move to make, the block stays as it is (R19, R31, R341, R344). -/
def step (s : State) : Host.Outcome State Fault Refusal :=
  match s.host with
  | [] => .next s
  | a :: rest => hostMove a { s with host := rest }

/-- The state whose next host move writes the command word w to CMD, with the block idle (log 1). -/
def State.withFetchWord (s : State) (nbits w : Nat) : State :=
  { s with host := .busWrite 4 0 (BitVec.ofNat 32 (w % 2 ^ nbits)) :: s.host, wait := none }

end Sys2Proof.Machine
end

