-- ==== Sys2Proof/Safety.lean ====
section
/-! DEFINITION. The terms the claims use: the invariant of the state, the end of a run, and what a stretch of the
output or input stream is, said without the loops of the bit writer and reader. -/

namespace Sys2Proof.Machine

/-! ### The invariant -/

/-- Every answered OUT transaction carried 1 to 8 bytes, each with its fate at the sink (R80, R82). -/
def portsOk (p : Ports) : Prop :=
  ∀ tx ∈ p.outLog, 1 ≤ tx.bytes.length ∧ tx.bytes.length ≤ 8 ∧ tx.reached.length = tx.bytes.length

/-- A transaction the core has begun carries 1 to 8 bytes (R80, R82). -/
def requestOk (r : PortRequest) : Prop :=
  match r with
  | .outWrite bytes => 1 ≤ bytes.length ∧ bytes.length ≤ 8
  | .inRead => True
  | .never => True

/-- What a command in execution has done goes on from what the ports were when it started, and the counts it shows are
in STATE's ranges (R37, R340). -/
structure WaitOk (s : State) (w : PortWait) : Prop where
  ports : portsOk w.ports
  request : requestOk w.request
  /-- No OUT transaction made is undone (R340). -/
  outLog : s.ports.outLog <+: w.ports.outLog
  /-- No IN transaction made is undone. -/
  inLog : s.ports.inLog <+: w.ports.inLog
  /-- 0 ≤ WCNT ≤ 63 (R37). -/
  wcnt : ∀ n, w.wcnt = some n → n ≤ 63
  /-- 0 ≤ RAVAIL ≤ 64 (R37). -/
  ravail : ∀ n, w.ravail = some n → n ≤ 64

/-- The latched geometry is one INIT accepts, and WIDTH and HEIGHT still hold it (R38, R39, R42, R293). -/
def geometryOk (s : State) : Prop :=
  s.fw = s.width ∧ s.fh = s.height ∧
  0 < s.fw.toNat ∧ 0 < s.fh.toNat ∧ s.fw.toNat % 16 = 0 ∧ s.fh.toNat % 4 = 0 ∧
  s.fw.toNat ≤ s.cfg.maxW ∧ s.fh.toNat ≤ s.cfg.maxH ∧ s.fw.toNat * s.fh.toNat ≤ s.cfg.maxSamples

/-- What every state the block can be in meets. -/
structure Inv (s : State) : Prop where
  /-- The parameters are legal (R9). -/
  params : s.cfg.legal = true
  /-- 0 ≤ WCNT ≤ 63 (R43). -/
  wcnt : s.wbuf.length ≤ 63
  /-- 0 ≤ RAVAIL ≤ 64 (R44). -/
  ravail : s.rbuf.length ≤ 64
  /-- SRC is in canonical form. -/
  srcForm : memWf s.src = true
  /-- REF is in canonical form. -/
  refForm : memWf s.ref = true
  /-- SRC holds no sample beyond MAX_SAMPLES (R45). -/
  srcRange : ∀ c ∈ s.src, c.1 < s.cfg.maxSamples
  /-- REF holds samples of the frame only, and only while INITED = 1 (R46, R292). -/
  refRange : ∀ c ∈ s.ref, s.inited = true ∧ c.1 < s.fw.toNat * s.fh.toNat
  /-- The geometry while INITED = 1. -/
  geometry : s.inited = true → geometryOk s
  /-- The transactions made. -/
  ports : portsOk s.ports
  /-- The command in execution. -/
  waiting : ∀ w, s.wait = some w → WaitOk s w

/-! ### What a check that fails does, and which commands touch what (R35, R51, R311, R313) -/

/-- A failed check: the code is recorded unless a failure is recorded already, and nothing else changes (R312,
R313). -/
def raises (c : Status) (s : State) : Host.Outcome State Fault Refusal :=
  .next { s with status := if s.status = .ok then c else s.status }

/-- The commands that return a value in RESULT (R35). -/
def returnsResult (i : Instr) : Bool :=
  match i with
  | .getbits _ | .getzeroes | .geteg | .flush | .predsel _ | .mbenc _ | .mbdec _ | .framedec => true
  | .nop | .clrstat | .init | .deinit | .wrinit | .rdinit | .putbits _ | .putones | .putzeroes | .puteg
  | .entenc _ _ _ | .entdec _ _ _ | .fwd4 _ _ | .inv4 _ _ | .had4 _ _ | .ihad4 _ _ | .had2 _ _ | .quant4 _ _
  | .dequant4 _ _ | .quantdc _ _ _ | .dequantdc _ _ _ | .gatherdc _ _ _ | .scatterdc _ _ _ | .bdiv _ _ _
  | .predres _ _ _ | .unpred _ _ _ | .frameenc => false

/-- Command i may write bank number k: its destination banks (R51 and each command's rule). -/
def writesBank (i : Instr) (k : Nat) : Bool :=
  match i with
  | .entdec b _ _ => k == b.toNat
  | .fwd4 d _ | .inv4 d _ | .had4 d _ | .ihad4 d _ | .had2 d _ | .quant4 d _ | .dequant4 d _ => k == d.toNat
  | .quantdc d _ _ | .dequantdc d _ _ | .bdiv d _ _ => k == d.toNat
  | .gatherdc g _ _ => k == g.toNat
  | .scatterdc b _ cnt => decide (b.toNat ≤ k) && decide (k < b.toNat + cnt.toNat)
  | .predres sz _ b => decide (b.toNat ≤ k) && decide (k < b.toNat + (sz.toNat / 4) * (sz.toNat / 4))
  | .nop | .clrstat | .init | .deinit | .wrinit | .rdinit | .putbits _ | .putones | .putzeroes | .puteg | .flush
  | .getbits _ | .getzeroes | .geteg | .entenc _ _ _ | .predsel _ | .unpred _ _ _ | .mbenc _ | .mbdec _
  | .frameenc | .framedec => false

/-- The commands that write REF samples (R46), and INIT and DEINIT, which make REF unspecified (R293, R294). -/
def changesRef (i : Instr) : Bool :=
  match i with
  | .unpred _ _ _ | .mbenc _ | .mbdec _ | .frameenc | .framedec | .init | .deinit => true
  | .nop | .clrstat | .wrinit | .rdinit | .putbits _ | .putones | .putzeroes | .puteg | .flush
  | .getbits _ | .getzeroes | .geteg | .entenc _ _ _ | .entdec _ _ _ | .fwd4 _ _ | .inv4 _ _ | .had4 _ _
  | .ihad4 _ _ | .had2 _ _ | .quant4 _ _ | .dequant4 _ _ | .quantdc _ _ _ | .dequantdc _ _ _ | .gatherdc _ _ _
  | .scatterdc _ _ _ | .bdiv _ _ _ | .predsel _ | .predres _ _ _ => false

/-- How many bits a PUT command that passes its checks emits (R133 to R136). -/
def putCount (i : Instr) (s : State) : Option Nat :=
  match i with
  | .putbits n => if 1 ≤ n.toNat ∧ n.toNat ≤ 31 then some n.toNat else none
  | .putones => some s.arg0.toNat
  | .putzeroes => some s.arg0.toNat
  | .puteg => if s.arg0.toNat ≤ 2 ^ 31 - 2 then some (2 * bitlength (s.arg0.toNat + 1) - 1) else none
  | _ => none

/-! ### The end of a run (R345) -/

/-- The host has made its last move and no command is in execution (R345). DESIGN CHOICE (log 23): this counts a run whose
last command a reset abandoned, and a run that issued no command, as ended; R345 speaks only of a last command that has
completed with its transactions answered. -/
def ended (s : State) : Prop := s.host = [] ∧ s.wait = none

/-- The OUT bytes that have reached the sink, in order (R82, R345); none of a transaction that reset has cut off before
its answer (log 17). -/
def sinkBytes (s : State) : List Byte :=
  s.ports.outLog.flatMap fun tx => ((tx.bytes.zip tx.reached).filter fun p => p.2).map Prod.fst

/-- The count of IN bytes consumed (R345). -/
def inCount (s : State) : Nat :=
  (s.ports.inLog.map fun a => match a with | .fail => 0 | .ok bytes _ => bytes.length).sum

/-! ### The output stream (R131, R144) -/

/-- The host's next answers are `ok` for as many 8-byte transactions as m more bits complete (R348). -/
def acceptsBits (m : Nat) (s : State) : Prop :=
  s.ports.outAnswers.take ((s.wbuf.length + m) / 64) = List.replicate ((s.wbuf.length + m) / 64) OutAnswer.ok

/-- The state after the bits have been written with every transaction answered `ok`: the buffered bits and the new
ones, cut into 64-bit windows; the full windows have gone out, 8 bytes each, and the rest is buffered (R131, R144). -/
def afterWriting (bits : List Bool) (s : State) : State :=
  let stream := s.wbuf ++ bits
  let k := stream.length / 64
  { s with
    wbuf := stream.drop (64 * k)
    ports := { s.ports with
      outAnswers := s.ports.outAnswers.drop k
      outLog := s.ports.outLog ++ (List.range k).map fun j =>
        ⟨pack ((stream.drop (64 * j)).take 64), .ok, List.replicate 8 true⟩ } }

/-- From s to t the bits have been written, every transaction they complete answered `ok`, and nothing else has changed:
exactly so (afterWriting), or, where what the writer holds has been unspecified since a failure, with free bits, bytes
and count (U4, log 8). -/
structure Written (bits : List Bool) (s t : State) : Prop where
  exact : s.wlost = false → t = afterWriting bits s
  frame : t = { s with
    wbuf := t.wbuf
    draws := t.draws
    ports := { s.ports with
      outAnswers := s.ports.outAnswers.drop ((s.wbuf.length + bits.length) / 64)
      outLog := t.ports.outLog } }
  wcnt : t.wbuf.length ≤ 63
  log : ∃ sent, t.ports.outLog = s.ports.outLog ++ sent ∧ sent.length = (s.wbuf.length + bits.length) / 64 ∧
    ∀ tx ∈ sent, tx.answer = .ok ∧ tx.bytes.length = 8 ∧ tx.reached = List.replicate 8 true

/-! ### The input stream (R132, R144) -/

/-- The bits of an IN answer. -/
def answerBits (a : InAnswer) : List Bool :=
  match a with
  | .fail => []
  | .ok bytes _ => bytesBits bytes

/-- The host's answers up to the first that carries no byte. -/
def dataAnswers (answers : List InAnswer) : List InAnswer :=
  answers.takeWhile fun a => match a with
    | .fail => false
    | .ok bytes _ => !bytes.isEmpty

/-- What the answers end in: EOF, a failure, or nothing yet (R83). -/
def streamEnd (answers : List InAnswer) : Option Status :=
  match answers.drop (dataAnswers answers).length with
  | [] => none
  | .fail :: _ => some .ioFailed
  | .ok _ _ :: _ => some .eof

/-- The bits the reader can deliver: RBUF, then the data the host has answered with. -/
def readable (s : State) : List Bool := s.rbuf ++ (dataAnswers s.ports.inAnswers).flatMap answerBits

/-- How many IN transactions bring `have` bits up to at least m (R132: a refill only when a bit is needed and RBUF is
empty). -/
def refillsFor (m got : Nat) (answers : List InAnswer) : Nat :=
  match answers with
  | [] => 0
  | a :: rest => if m ≤ got then 0 else 1 + refillsFor m (got + (answerBits a).length) rest

/-- The state after the reader has needed m readable bits and consumed n of them (n ≤ m). -/
def afterReading (n m : Nat) (s : State) : State :=
  let k := refillsFor m s.rbuf.length s.ports.inAnswers
  { s with
    rbuf := (s.rbuf ++ (s.ports.inAnswers.take k).flatMap answerBits).drop n
    ports := { s.ports with
      inAnswers := s.ports.inAnswers.drop k
      inLog := s.ports.inLog ++ s.ports.inAnswers.take k } }

/-- The state after the reader has taken every answer up to and with the one that ends the stream, wanting another
bit: c is that answer's code, w and r the unspecified contents of the writer and the reader, d the count of draws
(R132, R316, U4). -/
def afterRunningOut (c : Status) (w r : List Bool) (d : Nat) (s : State) : State :=
  let k := (dataAnswers s.ports.inAnswers).length + 1
  { s with
    status := c
    wbuf := w
    rbuf := r
    wlost := true
    rlost := true
    draws := d
    ports := { s.ports with
      inAnswers := s.ports.inAnswers.drop k
      inLog := s.ports.inLog ++ s.ports.inAnswers.take k } }

/-- The IN answers carry exactly the given bytes, each at least one of them. -/
def supplies (answers : List InAnswer) (bytes : List Byte) : Prop :=
  (∀ a ∈ answers, answerBits a ≠ []) ∧
  (answers.flatMap fun a => match a with | .fail => [] | .ok bs _ => bs) = bytes

/-- The bytes of the OUT transactions made between s and t (R82). -/
def newOutBytes (s t : State) : List Byte :=
  (t.ports.outLog.drop s.ports.outLog.length).flatMap OutTx.bytes

/-! ### The coefficient code, without the encoder's loop (R171, R173, R175) -/

/-- The indices of the nonzero coefficients, highest first. -/
def nonzeroDown (c : List Int) : List Nat := ((List.range c.length).filter fun p => c.getD p 0 ≠ 0).reverse

/-- The zero run before each of them: r_1, …, r_k. -/
def runsBefore (c : List Int) : List Nat :=
  List.zipWith (fun above p => above - 1 - p) (c.length :: nonzeroDown c) (nonzeroDown c)

/-- The zero run that reaches index 0: r_T, or 0. -/
def trailingRun (c : List Int) : Nat := (nonzeroDown c).getLastD c.length

/-- The length of EG(v) (R142). -/
def egLength (v : Nat) : Nat := 2 * bitlength (v + 1) - 1

/-- The bits of c: a run and a magnitude for each nonzero coefficient from the highest down, the trailing run if
there is one, the signs from the lowest index up. -/
def coefficientBits (c : List Int) : List Bool :=
  (List.zipWith (fun r p => egBits r ++ egBits ((c.getD p 0).natAbs - 1)) (runsBefore c) (nonzeroDown c)).flatten ++
  (if 0 < trailingRun c then egBits (trailingRun c) else []) ++
  (nonzeroDown c).reverse.map fun p => decide (0 < c.getD p 0)

/-! ### Macroblocks and matrices -/

/-- The checks on a macroblock's operands pass: size, INITED, alignment and position (R264, shared checks 2 to 4 of
43_predict.md). -/
structure MbLegal (sz : Byte) (s : State) : Prop where
  size : sz.toNat = 4 ∨ sz.toNat = 8 ∨ sz.toNat = 16
  inited : s.inited = true
  alignX : s.arg0.toNat % sz.toNat = 0
  alignY : s.arg1.toNat % sz.toNat = 0
  insideX : s.arg0.toNat + sz.toNat ≤ s.fw.toNat
  insideY : s.arg1.toNat + sz.toNat ≤ s.fh.toNat

/-- Mode m can be computed at (X, Y) (R211). -/
def modeAllowed (m : Mode) (x y : Nat) : Prop :=
  match m with
  | .none => True
  | .dc => 0 < x ∧ 0 < y
  | .horizontal => 0 < x
  | .vertical => 0 < y

/-- Every SRC sample of the macroblock holds a value (R71). -/
def SourceWritten (mb : Mb) (s : State) : Prop :=
  ∀ i j, i < mb.size → j < mb.size → (memRead s.src (sampleIndex s (mb.x + j) (mb.y + i))).isSome

/-- Every SRC sample of the macroblock's sub-block k holds a value (R71, R269). -/
def SubWritten (mb : Mb) (k : Nat) (s : State) : Prop :=
  ∀ e, e < 16 → (memRead s.src (sampleIndex s (mb.x + (mb.col0 k + e % 4)) (mb.y + (mb.row0 k + e / 4)))).isSome

/-- Every REF sample that mode m reads holds a value (R211). -/
def NeighboursWritten (m : Mode) (mb : Mb) (s : State) : Prop :=
  match m with
  | .none => True
  | .dc =>
    (∀ i, i ≤ mb.size → (memRead s.ref (sampleIndex s (mb.x - 1 + i) (mb.y - 1))).isSome) ∧
    (∀ j, j < mb.size → (memRead s.ref (sampleIndex s (mb.x - 1) (mb.y + j))).isSome)
  | .horizontal => ∀ j, j < mb.size → (memRead s.ref (sampleIndex s (mb.x - 1) (mb.y + j))).isSome
  | .vertical => ∀ j, j < mb.size → (memRead s.ref (sampleIndex s (mb.x + j) (mb.y - 1))).isSome

/-- SRC sample (x, y) as an integer, 0 where it holds no value. -/
def srcAt (s : State) (x y : Nat) : Int := (((memRead s.src (sampleIndex s x y)).getD 0).toNat : Int)

/-- REF sample (x, y) as an integer, 0 where it holds no value. -/
def refAt (s : State) (x y : Nat) : Int := (((memRead s.ref (sampleIndex s x y)).getD 0).toNat : Int)

/-- P_m[i][j] (R212). -/
def predicted (m : Mode) (mb : Mb) (s : State) (i j : Nat) : Int :=
  match m with
  | .none => 0
  | .dc =>
    (((List.range (mb.size + 1)).map fun k => refAt s (mb.x - 1 + k) (mb.y - 1)).sum +
      ((List.range mb.size).map fun k => refAt s (mb.x - 1) (mb.y + k)).sum) / (2 * mb.size + 1)
  | .horizontal => refAt s (mb.x - 1) (mb.y + i)
  | .vertical => refAt s (mb.x + j) (mb.y - 1)

/-- SAD_m (R213). -/
def sad (m : Mode) (mb : Mb) (s : State) : Nat :=
  ((List.range mb.size).map fun i => ((List.range mb.size).map fun j =>
    (srcAt s (mb.x + j) (mb.y + i) - predicted m mb s i j).natAbs).sum).sum

/-- The residual of mode m at row offset i and column offset j (R216). -/
def residualAt (m : Mode) (mb : Mb) (s : State) (i j : Nat) : Int :=
  srcAt s (mb.x + j) (mb.y + i) - predicted m mb s i j

/-- The order in which mode selection prefers equal costs (R214). -/
def Mode.rank (m : Mode) : Nat :=
  match m with
  | .dc => 0
  | .horizontal => 1
  | .vertical => 2
  | .none => 3

/-- m is what Select gives at the macroblock (R214): the forced mode at an edge, else the first mode of least cost. -/
def Selected (m : Mode) (mb : Mb) (s : State) : Prop :=
  (mb.x = 0 ∧ mb.y = 0 → m = .none) ∧
  (0 < mb.x ∧ mb.y = 0 → m = .horizontal) ∧
  (mb.x = 0 ∧ 0 < mb.y → m = .vertical) ∧
  (0 < mb.x ∧ 0 < mb.y → ∀ m', sad m mb s < sad m' mb s ∨ sad m mb s = sad m' mb s ∧ m.rank ≤ m'.rank)

/-- Sample (x, y) lies in the macroblock. -/
def Mb.holds (mb : Mb) (x y : Nat) : Prop := mb.x ≤ x ∧ x < mb.x + mb.size ∧ mb.y ≤ y ∧ y < mb.y + mb.size

/-- Index a is one of the macroblock's S×S samples in a frame of s's width (R70, R217). -/
def Mb.covers (mb : Mb) (s : State) (a : Nat) : Prop :=
  ∃ i j, i < mb.size ∧ j < mb.size ∧ a = sampleIndex s (mb.x + j) (mb.y + i)

/-- The matrix A of R191, row r and column c. -/
def seqMatrix (r c : Nat) : Int :=
  ([[1, 1, 1, 1], [1, 1, -1, -1], [1, -1, -1, 1], [1, -1, 1, -1]].getD r []).getD c 0

/-- The matrix of Fh (R192), row r and column c. -/
def h264Matrix (r c : Nat) : Int :=
  ([[1, 1, 1, 1], [2, 1, -1, -2], [1, -1, -1, 1], [1, -2, 2, -1]].getD r []).getD c 0

/-- Entry p of M·X·Mᵀ, exact (R193). -/
def twoSided (m : Nat → Nat → Int) (x : Block) (p : Nat) : Int :=
  ((List.range 4).map fun i =>
    ((List.range 4).map fun j => m (p / 4) i * entryInt x (4 * i + j) * m (p % 4) j).sum).sum

/-- The residual of mode m in sub-block k (R216). -/
def residualBlock (m : Mode) (mb : Mb) (s : State) (k : Nat) : Block :=
  blockOf fun e => BitVec.ofInt 32 (residualAt m mb s (mb.row0 k + e / 4) (mb.col0 k + e % 4))

/-- The residuals of mode m, one block a sub-block, raster order (R216, R269). -/
def residualBlocks (m : Mode) (mb : Mb) (s : State) : List Block :=
  (List.range mb.subs).map (residualBlock m mb s)

/-- The quantized DC grid of the residuals rs in zigzag order (R269 step 3). -/
def dcCodes (c : Config.Params) (rs : List Block) : List Int :=
  let n := rs.length
  let g := blockOf fun k => entry (fwd4 c.kernel (rs.getD k (blockOf fun _ => 0))) 0
  let h := if n = 16 then had4 g else if n = 4 then blockOf (had2Entry g) else g
  (List.range n).map fun q => tdiv (entryInt h (izz n q)) (qtab c 0)

/-- The 15 quantized AC coefficients of a residual, zigzag order (R269 step 2). -/
def acCodes (c : Config.Params) (r : Block) : List Int :=
  (List.range 15).map fun q => tdiv (entryInt (fwd4 c.kernel r) (izz4 (q + 1))) (qtab c (izz4 (q + 1)))

/-- The codes of a macroblock: its mode, one AC vector a sub-block in raster order, the DC vector (R263). -/
structure MbCodes where
  mode : Mode
  ac : List (List Int)
  dc : List Int
deriving DecidableEq, Repr

/-- The bits of a macroblock (R263). -/
def MbCodes.bits (z : MbCodes) : List Bool :=
  natBits 2 z.mode.toCode ++ z.ac.flatMap coefficientBits ++ coefficientBits z.dc

/-- The codes are ones the decoder accepts at macroblock mb: a mode that can be computed there, vectors of the right
lengths, magnitudes up to 2^31 − 1 (R172, R263, R270). -/
structure MbCodes.Legal (z : MbCodes) (mb : Mb) : Prop where
  mode : modeAllowed z.mode mb.x mb.y
  subs : z.ac.length = mb.subs
  acLength : ∀ v ∈ z.ac, v.length = 15
  dcLength : z.dc.length = mb.subs
  acRange : ∀ v ∈ z.ac, ∀ x ∈ v, x.natAbs ≤ 2 ^ 31 - 1
  dcRange : ∀ x ∈ z.dc, x.natAbs ≤ 2 ^ 31 - 1

/-- The codes EncMB gives a macroblock with mode m and residuals rs (R269). -/
def codesOf (c : Config.Params) (m : Mode) (rs : List Block) : MbCodes := ⟨m, rs.map (acCodes c), dcCodes c rs⟩

/-- The bits EncMB writes for a macroblock with mode m and residuals rs: the mode, the AC vectors, the DC vector
(R263, R269). -/
def macroblockBits (c : Config.Params) (m : Mode) (rs : List Block) : List Bool := (codesOf c m rs).bits

/-- What EncMB has written when it reads the SRC samples of sub-block k: the mode and the AC vectors of the sub-blocks
before it (R84, R269). -/
def bitsBefore (m : Mode) (mb : Mb) (s : State) (k : Nat) : List Bool :=
  natBits 2 m.toCode ++ (List.range k).flatMap fun j => coefficientBits (acCodes s.cfg (residualBlock m mb s j))

/-- The DC values recovered from the coded grid zd (R272). -/
def recoveredDc (c : Config.Params) (zd : List Int) : Block :=
  let n := zd.length
  let hd := blockOf fun p => wrap32 (zd.getD (zz n p) 0 * qtab c 0)
  if n = 16 then divBlock (ihad4 hd) 8
  else if n = 4 then blockOf fun i => wrap32 (tdiv (had2Entry hd i).toInt 4)
  else hd

/-- The residual R'k recovered from the codes z (R272). -/
def recoveredResidual (c : Config.Params) (z : MbCodes) (k : Nat) : Block :=
  let coeffs := blockOf fun p =>
    if p = 0 then entry (recoveredDc c z.dc) k else wrap32 ((z.ac.getD k []).getD (zz4 p - 1) 0 * qtab c p)
  divBlock (inv4 c.kernel coeffs) 16

/-- v limited to 0..255, as a sample. -/
def clampByte (v : Int) : Byte := BitVec.ofInt 8 (max 0 (min 255 v))

/-- The sample of the macroblock at row offset i and column offset j after Reconstruct with the codes z (R272). -/
def decodedSample (z : MbCodes) (mb : Mb) (s : State) (i j : Nat) : Byte :=
  clampByte (predicted z.mode mb s i j +
    entryInt (recoveredResidual s.cfg z (mb.side * (i / 4) + j / 4)) (4 * (i % 4) + j % 4))

/-- The same with mode m and the codes of residuals rs. -/
def reconstructedSample (m : Mode) (mb : Mb) (rs : List Block) (s : State) (i j : Nat) : Byte :=
  decodedSample (codesOf s.cfg m rs) mb s i j

/-- t's REF is s's with the macroblock's samples given by f, and every other index as it was. -/
def RefWrites (mb : Mb) (f : Nat → Nat → Byte) (s t : State) : Prop :=
  (∀ i j, i < mb.size → j < mb.size → memRead t.ref (sampleIndex s (mb.x + j) (mb.y + i)) = some (f i j)) ∧
  ∀ a, ¬ mb.covers s a → memRead t.ref a = memRead s.ref a

/-! ### Frames, said of the REF they leave: a macroblock's neighbours are final when it is coded (R262, R271) -/

/-- The bits of macroblocks one after another (R263, R267). -/
def codesBits (zs : List MbCodes) : List Bool := zs.flatMap MbCodes.bits

/-- The codes, the first with the first macroblock and so on, are ones the decoder accepts there. -/
def CodesLegal (mbs : List Mb) (zs : List MbCodes) : Prop := ∀ mb z, (mb, z) ∈ mbs.zip zs → z.Legal mb

/-- Each macroblock of mbs that has codes in zs, the first with the first and so on, holds in s's REF the samples those
codes give beside the samples next to it (R272). -/
def DecodedAs (mbs : List Mb) (zs : List MbCodes) (s : State) : Prop :=
  ∀ mb z, (mb, z) ∈ mbs.zip zs → ∀ i j, i < mb.size → j < mb.size →
    memRead s.ref (sampleIndex s (mb.x + j) (mb.y + i)) = some (decodedSample z mb s i j)

/-- Each macroblock of mbs that has codes in zs has the mode that Select gives it in s, and the codes of that mode's
residuals in s (R214, R269). -/
def EncodedAs (mbs : List Mb) (zs : List MbCodes) (s : State) : Prop :=
  ∀ mb z, (mb, z) ∈ mbs.zip zs →
    Selected z.mode mb s ∧ z = codesOf s.cfg z.mode (residualBlocks z.mode mb s)

/-- t's REF is s's at every index that none of the macroblocks covers. -/
def RefKeptOutside (mbs : List Mb) (s t : State) : Prop :=
  ∀ a, (∀ mb ∈ mbs, ¬ mb.covers s a) → memRead t.ref a = memRead s.ref a

/-- Every SRC sample of the frame holds a value (R71). -/
def FrameWritten (s : State) : Prop := ∀ a, a < s.fw.toNat * s.fh.toNat → (memRead s.src a).isSome

end Sys2Proof.Machine
end

