-- ==== Sys2Proof/Certificates/Slice0/Obligations.lean ====
section
/-! DEFINITION. The statements about the model. Each docstring names the rule or rules of spec/ the statement
formalises, and the log entries of notes/assumptions/ it rests on where it rests on a choice of the model. -/

open Sys2Proof Sys2Proof.Machine

/-! ### Encoding (30_encoding.md) -/

/-- R100, R103: the decoder and the encoder are inverse to each other. A word decodes to a command exactly when it is
the command's word, whatever the fields hold. -/
def Obligations.DecodeInvertsEncode : Prop :=
  ∀ (i : Instr) (w : Word), decode w = .ok i ↔ w = encode i

/-- R109: the ten words of its table, each with the command it encodes. -/
def Obligations.ExampleWordsDecode : Prop :=
  decode 0x10100000 = .ok (.putbits 16) ∧ decode 0x10020000 = .ok (.putbits 2) ∧
  decode 0x18200000 = .ok (.getbits 32) ∧ decode 0x2003010F = .ok (.entenc 3 1 15) ∧
  decode 0x21000010 = .ok (.entdec 0 0 16) ∧ decode 0x30010000 = .ok (.fwd4 1 0) ∧
  decode 0x46020210 = .ok (.bdiv 2 2 16) ∧ decode 0x51100100 = .ok (.predres 16 1 0) ∧
  decode 0x60100000 = .ok (.mbenc 16) ∧ decode 0x62000000 = .ok .frameenc

/-- R105: a word with a reserved opcode, or with a nonzero field that its opcode's row marks unused, raises INVAL and
does nothing else. -/
def Obligations.ReservedWordsRaiseInval : Prop :=
  ∀ (w : Word) (s : State),
    (∀ r ∈ [(0x06, 0x0F), (0x15, 0x17), (0x1B, 0x1F), (0x22, 0x2F), (0x35, 0x3F), (0x47, 0x4F), (0x53, 0x5F),
        (0x64, 0xFF)], r.1 ≤ (fieldOPC w).toNat → (fieldOPC w).toNat ≤ r.2 → issue w s = raises .inval s) ∧
    ((fieldOPC w).toNat ∈ [0x00, 0x01, 0x02, 0x03, 0x04, 0x05, 0x11, 0x12, 0x13, 0x14, 0x19, 0x1A, 0x62, 0x63] →
      fieldFA w ≠ 0 → issue w s = raises .inval s) ∧
    ((fieldOPC w).toNat ∈ [0x00, 0x01, 0x02, 0x03, 0x04, 0x05, 0x11, 0x12, 0x13, 0x14, 0x19, 0x1A, 0x62, 0x63,
        0x10, 0x18, 0x50, 0x60, 0x61] → fieldFB w ≠ 0 → issue w s = raises .inval s) ∧
    ((fieldOPC w).toNat ∈ [0x00, 0x01, 0x02, 0x03, 0x04, 0x05, 0x11, 0x12, 0x13, 0x14, 0x19, 0x1A, 0x62, 0x63,
        0x10, 0x18, 0x50, 0x60, 0x61, 0x30, 0x31, 0x32, 0x33, 0x34, 0x40, 0x41] →
      fieldFC w ≠ 0 → issue w s = raises .inval s)

/-- R313, with the list of R314 items 1 to 5: every check that fails records INVAL, if no failure is recorded yet, and
has no other effect: decoding, field ranges, INITED, position, mode, operand values, and INIT's own. -/
def Obligations.FailedChecksOnlyRaiseInval : Prop :=
  ∀ (s : State),
    (∀ w, (∀ i, decode w ≠ .ok i) → issue w s = raises .inval s) ∧
    (∀ i, wellFormed i = false → exec i s = raises .inval s) ∧
    (s.inited = false → ∀ sz m b,
      exec (.predsel sz) s = raises .inval s ∧ exec (.predres sz m b) s = raises .inval s ∧
      exec (.unpred sz m b) s = raises .inval s ∧ exec (.mbenc sz) s = raises .inval s ∧
      exec (.mbdec sz) s = raises .inval s ∧ exec .frameenc s = raises .inval s ∧
      exec .framedec s = raises .inval s) ∧
    (∀ sz m b, (s.arg0.toNat % sz.toNat ≠ 0 ∨ s.arg1.toNat % sz.toNat ≠ 0 ∨
        s.fw.toNat < s.arg0.toNat + sz.toNat ∨ s.fh.toNat < s.arg1.toNat + sz.toNat) →
      exec (.predsel sz) s = raises .inval s ∧ exec (.predres sz m b) s = raises .inval s ∧
      exec (.unpred sz m b) s = raises .inval s ∧ exec (.mbenc sz) s = raises .inval s ∧
      exec (.mbdec sz) s = raises .inval s) ∧
    (∀ sz m b, (m = 1 ∧ (s.arg0 = 0 ∨ s.arg1 = 0) ∨ m = 2 ∧ s.arg0 = 0 ∨ m = 3 ∧ s.arg1 = 0) →
      exec (.predres sz m b) s = raises .inval s ∧ exec (.unpred sz m b) s = raises .inval s) ∧
    (2 ^ 31 - 2 < s.arg0.toNat → exec .puteg s = raises .inval s) ∧
    (∀ b off cnt, (-(2 ^ 31) : Int) ∈ bankVector b.toNat off.toNat cnt.toNat s →
      exec (.entenc b off cnt) s = raises .inval s) ∧
    ((s.inited = true ∨ s.width = 0 ∨ s.height = 0 ∨ s.width.toNat % 16 ≠ 0 ∨ s.height.toNat % 4 ≠ 0) →
      exec .init s = raises .inval s)

/-! ### The step, reset, the host (10_state.md, 20_memory.md, 70_reset_and_hazards.md) -/

/-- R31, R32, R104: the host's next move decides the step. A word written to CMD while the block is idle runs the
command it decodes to, on the state with that move made; with no move to make the block stays as it is; and
withFetchWord places the word of any command so that the next step runs it. The list of moves is log 1. -/
def Obligations.StepRunsDecodedCommand : Prop :=
  (∀ (s : State) (w : Word) (rest : List HostAction) (i : Instr), s.host = .busWrite 4 0 w :: rest →
    s.wait = none → decode w = .ok i → step s = exec i { s with host := rest }) ∧
  (∀ s : State, s.host = [] → step s = .next s) ∧
  (∀ (s : State) (i : Instr), step (s.withFetchWord 32 (encode i).toNat) = exec i { s with wait := none })

/-- R341: what reset leaves in every field whose value it gives. SRC and REF hold no value at any index (R53, log 5);
BANK, FW and FH are free values (logs 3, 4) and nothing is said of them. -/
def Obligations.ResetState : Prop :=
  let s := State.reset
  s.arg0 = 0 ∧ s.arg1 = 0 ∧ s.result = 0 ∧ statusWord s.status = 0 ∧ stateWord (busy s) s.inited s.wbuf.length
    s.rbuf.length = 0 ∧ s.inited = false ∧ s.wbuf = [] ∧ s.rbuf = [] ∧
  s.wlost = false ∧ s.rlost = false ∧ s.width = 0 ∧ s.height = 0 ∧
  s.cfg = Config.params ∧ s.wait = none ∧
  (∀ a, memRead s.src a = none ∧ memRead s.ref a = none) ∧ s.ports = ⟨[], [], [], []⟩ ∧ hostRead 4 0 s = .next { s with
    hostLog := [0] }

/-- The invariant holds after reset: legal parameters (R9), empty buffers (R341), sample memories in form. -/
def Obligations.ResetMeetsInvariant : Prop := Inv State.reset

/-- Every step keeps the invariant: legal parameters (R9), WCNT ≤ 63 (R43), RAVAIL ≤ 64 (R44), sample memories in
canonical form and in range (R45, R46, R70), latched geometry legal and frozen while INITED = 1 (R38, R39, R293), OUT
transactions of 1 to 8 bytes (R80, R82), and a waiting command whose transactions go on from those made before it
(R340) and whose counts are in STATE's ranges (R37). It holds of every state, not only of those a run reaches. -/
def Obligations.StepKeepsInvariant : Prop := ∀ s t : State, Inv s → step s = .next t → Inv t

/-- R340, R342: reset, from any state, idle or waiting at a port, leaves R341's values, keeps the parameters, empties
both buffers and undoes no transaction: the ports keep every transaction made, those of the abandoned command too. That
its unanswered transaction is dropped is the model's choice, and what the host has queued and seen is the model's own
(log 17). -/
def Obligations.HostResetFromAnyState : Prop :=
  ∀ (s : State) (rest : List HostAction), s.host = .reset :: rest → ∃ t, step s = .next t ∧
    t.cfg = s.cfg ∧ t.arg0 = 0 ∧ t.arg1 = 0 ∧ t.result = 0 ∧ t.status = .ok ∧ t.width = 0 ∧ t.height = 0 ∧
    t.inited = false ∧ t.wbuf = [] ∧ t.rbuf = [] ∧ t.wlost = false ∧ t.rlost = false ∧ t.wait = none ∧
    (∀ a, memRead t.src a = none ∧ memRead t.ref a = none) ∧ t.host = rest ∧ t.hostLog = s.hostLog ∧
    (s.wait = none → t.ports = s.ports) ∧ (∀ w, s.wait = some w → t.ports = w.ports) ∧
    (Inv s → s.ports.outLog <+: t.ports.outLog ∧ s.ports.inLog <+: t.ports.inLog)

/-- R32 to R41, R74, R81: while the block is idle, what a host write stores and what a host read gives, register by
register and sample by sample. A write to a read-only or reserved word does nothing; WIDTH and HEIGHT keep their value
while INITED = 1; an access of another width or alignment, or outside a window, is refused (R75). -/
def Obligations.HostAccesses : Prop :=
  ∀ s : State, s.wait = none → ∀ v : Word,
    (hostWrite 4 0x004 v s = .next { s with arg0 := v } ∧ hostWrite 4 0x008 v s = .next { s with arg1 := v } ∧
      hostWrite 4 0x00C v s = .next s ∧ hostWrite 4 0x010 v s = .next s ∧ hostWrite 4 0x014 v s = .next s ∧
      hostWrite 4 0x018 v s = .next (if s.inited then s else { s with width := v.setWidth 16 }) ∧
      hostWrite 4 0x01C v s = .next (if s.inited then s else { s with height := v.setWidth 16 })) ∧
    (∀ (addr x : Word), addr.toNat % 4 = 0 →
      (addr, x) ∈ [(0x000, 0), (0x004, s.arg0), (0x008, s.arg1), (0x00C, s.result), (0x010, statusWord s.status),
        (0x014, stateWord false s.inited s.wbuf.length s.rbuf.length), (0x018, s.width.setWidth 32),
        (0x01C, s.height.setWidth 32)] → hostRead 4 addr s = .next { s with hostLog := s.hostLog ++ [x] }) ∧
    (∀ p, p < 16 → hostWrite 4 (BitVec.ofNat 32 (0x40 + 4 * p)) v s = .next s ∧
      hostRead 4 (BitVec.ofNat 32 (0x40 + 4 * p)) s =
        .next { s with hostLog := s.hostLog ++ [BitVec.ofNat 32 (qtab s.cfg p)] }) ∧
    (∀ b i, b < 32 → i < 16 →
      hostWrite 4 (BitVec.ofNat 32 (0x1000 + 64 * b + 4 * i)) v s =
        .next (setBank b (blockOf fun j => if j = i then v else entry (bank s b) j) s) ∧
      hostRead 4 (BitVec.ofNat 32 (0x1000 + 64 * b + 4 * i)) s =
        .next { s with hostLog := s.hostLog ++ [entry (bank s b) i] }) ∧
    (∀ addr : Word, addr.toNat % 4 = 0 → (0x020 ≤ addr.toNat ∧ addr.toNat < 0x040 ∨
        0x080 ≤ addr.toNat ∧ addr.toNat < 0x1000 ∨ 0x1800 ≤ addr.toNat ∧ addr.toNat < 0x01000000) →
      hostWrite 4 addr v s = .next s ∧ hostRead 4 addr s = .next { s with hostLog := s.hostLog ++ [0] }) ∧
    (∀ a, a < s.cfg.maxSamples → a < 2 ^ 24 →
      hostWrite 1 (BitVec.ofNat 32 (0x01000000 + a)) v s = .next { s with src := memWrite s.src a (v.setWidth 8) } ∧
      ∀ x, memRead s.src a = some x →
        hostRead 1 (BitVec.ofNat 32 (0x01000000 + a)) s = .next { s with hostLog := s.hostLog ++ [x.setWidth 32] }) ∧
    (∀ a, a < s.fw.toNat * s.fh.toNat → 0x02000000 + a < 2 ^ 32 → s.cfg.maxSamples ≤ 2 ^ 24 → s.inited = true →
      hostWrite 1 (BitVec.ofNat 32 (0x02000000 + a)) v s = .next { s with ref := memWrite s.ref a (v.setWidth 8) } ∧
      ∀ x, memRead s.ref a = some x →
        hostRead 1 (BitVec.ofNat 32 (0x02000000 + a)) s = .next { s with hostLog := s.hostLog ++ [x.setWidth 32] }) ∧
    (∀ (width : Nat) (addr : Word), (addr.toNat < 0x01000000 ∧ (width ≠ 4 ∨ addr.toNat % 4 ≠ 0) ∨
        0x01000000 ≤ addr.toNat ∧ width ≠ 1 ∨
        0x01000000 + s.cfg.maxSamples ≤ addr.toNat ∧ 0x01000000 ≤ addr.toNat ∧ addr.toNat < 0x02000000 ∨
        0x02000000 ≤ addr.toNat ∧ s.cfg.maxSamples ≤ 2 ^ 24 ∧
          (s.inited = false ∨ 0x02000000 + s.fw.toNat * s.fh.toNat ≤ addr.toNat)) →
      hostWrite width addr v s = .refused .hostAccess ∧ hostRead width addr s = .refused .hostAccess)

/-- R53, R318 (U6, U7): an SRC or REF sample that holds no value gives none: the host's read faults, and so does a
command when it needs the sample: PREDRES, UNPRED, PREDSEL, MBENC inside and at an edge, MBDEC, and FRAMEENC, which
reads no REF sample it has not written. A command that reads no sample never faults. R84, R269: at an edge MBENC reads
a sub-block's samples when the mode and the sub-blocks before it have been written; where the host does not accept those
bits, the command has ended with IO_FAILED, or waits, before it. -/
def Obligations.UnwrittenSamplesFault : Prop :=
  (∀ (i : Instr) (s : State), (∀ sz m b, i ≠ .predsel sz ∧ i ≠ .predres sz m b ∧ i ≠ .unpred sz m b ∧ i ≠ .mbenc sz ∧
    i ≠ .mbdec sz) → i ≠ .frameenc → i ≠ .framedec → ∃ t, exec i s = .next t) ∧
  ∀ s : State, s.wait = none →
    (∀ a, a < s.cfg.maxSamples → a < 2 ^ 24 → memRead s.src a = none →
      hostRead 1 (BitVec.ofNat 32 (0x01000000 + a)) s = .fault .unwrittenSrc) ∧
    (∀ a, a < s.fw.toNat * s.fh.toNat → 0x02000000 + a < 2 ^ 32 → s.cfg.maxSamples ≤ 2 ^ 24 → s.inited = true →
      memRead s.ref a = none → hostRead 1 (BitVec.ofNat 32 (0x02000000 + a)) s = .fault .unwrittenRef) ∧
    (∀ sz m b mode, MbLegal sz s → modeOf m.toNat = some mode → modeAllowed mode s.arg0.toNat s.arg1.toNat →
      b.toNat + (operandMb sz s).subs ≤ 32 →
      (¬ NeighboursWritten mode (operandMb sz s) s →
        exec (.predres sz m b) s = .fault .unwrittenRef ∧ exec (.unpred sz m b) s = .fault .unwrittenRef) ∧
      (NeighboursWritten mode (operandMb sz s) s → ¬ SourceWritten (operandMb sz s) s →
        exec (.predres sz m b) s = .fault .unwrittenSrc)) ∧
    (∀ sz, MbLegal sz s → 0 < s.arg0.toNat → 0 < s.arg1.toNat →
      (¬ SourceWritten (operandMb sz s) s → exec (.predsel sz) s = .fault .unwrittenSrc ∧
        (s.status = .ok → exec (.mbenc sz) s = .fault .unwrittenSrc)) ∧
      (SourceWritten (operandMb sz s) s → ¬ NeighboursWritten .dc (operandMb sz s) s →
        exec (.predsel sz) s = .fault .unwrittenRef ∧
        (s.status = .ok → exec (.mbenc sz) s = .fault .unwrittenRef))) ∧
    (∀ sz mode, MbLegal sz s → s.arg0 = 0 ∨ s.arg1 = 0 → Selected mode (operandMb sz s) s → s.status = .ok →
      s.wbuf.length ≤ 63 →
      let mb := operandMb sz s
      let stopsFirst := ∃ t, exec (.mbenc sz) s = .next t ∧ (t.status = .ioFailed ∨ t.wait ≠ none)
      (¬ NeighboursWritten mode mb s →
        (acceptsBits 2 s → exec (.mbenc sz) s = .fault .unwrittenRef) ∧ (¬ acceptsBits 2 s → stopsFirst)) ∧
      (NeighboursWritten mode mb s → ∀ k, k < mb.subs → (∀ j, j < k → SubWritten mb j s) → ¬ SubWritten mb k s →
        (acceptsBits (bitsBefore mode mb s k).length s → exec (.mbenc sz) s = .fault .unwrittenSrc) ∧
        (¬ acceptsBits (bitsBefore mode mb s k).length s → stopsFirst))) ∧
    (∀ sz (z : MbCodes) rest, MbLegal sz s → s.status = .ok → s.rlost = false → z.Legal (operandMb sz s) →
      readable s = z.bits ++ rest → ¬ NeighboursWritten z.mode (operandMb sz s) s →
      exec (.mbdec sz) s = .fault .unwrittenRef) ∧
    (Inv s → s.inited = true → s.status = .ok → ¬ FrameWritten s →
      ∃ n, ∀ (ports : Ports) (wbuf : List Bool) (ref : Memory), wbuf.length ≤ 63 →
        acceptsBits n { s with ports := ports, wbuf := wbuf, ref := ref } →
        exec .frameenc { s with ports := ports, wbuf := wbuf, ref := ref } = .fault .unwrittenSrc)

/-! ### Waiting at a port (R19, R76, R318) -/

/-- R19, R318, R340: a command that has a next state has completed, or waits: then only the record of the wait differs,
it names the command, every transaction made before is still there, and the host has no answer left on the port the
command uses, or the command is stuck at 2^32 zero bits (U10, log 10). Until a failure is recorded the record holds the
counts the host may poll: RAVAIL as it was while a writing command waits; WCNT as it was, and RAVAIL = 0, while a
reading one does (R132, R344, log 11). -/
def Obligations.WaitingCommandChangesNothingElse : Prop :=
  ∀ (i : Instr) (s t : State), s.wait = none → exec i s = .next t →
    t.wait = none ∨
    ∃ w, t = { s with wait := some w } ∧ w.instr = i ∧
      s.ports.outLog <+: w.ports.outLog ∧ s.ports.inLog <+: w.ports.inLog ∧
      ((∃ bytes, w.request = .outWrite bytes ∧ writesStream i = true ∧ w.ports.outAnswers = []) ∨
        (w.request = .inRead ∧ readsStream i = true ∧ w.ports.inAnswers = []) ∨
        (w.request = .never ∧ readsStream i = true)) ∧
      (w.status = .ok → s.wlost = false → s.rlost = false → s.wbuf.length ≤ 63 →
        (writesStream i = true → w.ravail = some s.rbuf.length) ∧
        (readsStream i = true → w.wcnt = some s.wbuf.length ∧ (w.request = .inRead → w.ravail = some 0)))

/-- R19, R344: the host's answer to a waiting command is queued and the command runs again with it; an answer while
nothing waits is kept for the next transaction. The queues are log 2. -/
def Obligations.AnswerResumesWaitingCommand : Prop :=
  ∀ (s : State) (rest : List HostAction),
    (∀ a w, s.host = .answerIn a :: rest → s.wait = some w → step s = exec w.instr { s with
      host := rest, wait := none, ports := { s.ports with inAnswers := s.ports.inAnswers ++ [a] } }) ∧
    (∀ a w, s.host = .answerOut a :: rest → s.wait = some w → step s = exec w.instr { s with
      host := rest, wait := none, ports := { s.ports with outAnswers := s.ports.outAnswers ++ [a] } }) ∧
    (∀ a, s.host = .answerIn a :: rest → s.wait = none → step s = .next { s with
      host := rest, ports := { s.ports with inAnswers := s.ports.inAnswers ++ [a] } }) ∧
    (∀ a, s.host = .answerOut a :: rest → s.wait = none → step s = .next { s with
      host := rest, ports := { s.ports with outAnswers := s.ports.outAnswers ++ [a] } })

/-- R37, R76, R344: while BUSY = 1 the host can read STATUS and STATE, which shows BUSY = 1, INITED and the counts the
record of the wait holds (a count it does not hold is free, log 11), and has no other access: every write and every
other read is refused. -/
def Obligations.BusyHostCanOnlyPoll : Prop :=
  ∀ (s : State) (w : PortWait), s.wait = some w →
    hostRead 4 0x010 s = .next { s with hostLog := s.hostLog ++ [statusWord w.status] } ∧
    (∃ wcnt ravail : Nat, hostRead 4 0x014 s =
        .next { s with hostLog := s.hostLog ++ [stateWord true s.inited wcnt ravail] } ∧
      (∀ n, w.wcnt = some n → wcnt = n) ∧ (w.wcnt = none → wcnt ≤ 63) ∧
      (∀ n, w.ravail = some n → ravail = n) ∧ (w.ravail = none → ravail ≤ 64)) ∧
    (∀ width addr v, ∃ r, hostWrite width addr v s = .refused r) ∧
    (∀ (width : Nat) (addr : Word), (width, addr) ≠ (4, 0x010) → (width, addr) ≠ (4, 0x014) →
      ∃ r, hostRead width addr s = .refused r)

/-! ### What commands leave alone (10_state.md R35, R47, R51) -/

/-- R33, R34, R45, R51: no command writes ARG0, ARG1, WIDTH, HEIGHT or SRC, and none but INIT and DEINIT writes FW, FH
or INITED; the parameters and the host's own lists stay too. -/
def Obligations.CommandsNeverWriteOperands : Prop :=
  ∀ (i : Instr) (s t : State), exec i s = .next t →
    t.cfg = s.cfg ∧ t.arg0 = s.arg0 ∧ t.arg1 = s.arg1 ∧ t.width = s.width ∧ t.height = s.height ∧ t.src = s.src ∧
    t.host = s.host ∧ t.hostLog = s.hostLog ∧
    (i ≠ .init → i ≠ .deinit → t.fw = s.fw ∧ t.fh = s.fh ∧ t.inited = s.inited)

/-- R41, R47, R51, R260: a command changes no bank but its destination banks. The system, bitstream and pipeline
commands, ENTENC, PREDSEL and UNPRED have none. -/
def Obligations.OnlyDestinationBanksChange : Prop :=
  ∀ (i : Instr) (s t : State) (k : Nat), exec i s = .next t → writesBank i k = false → bank t k = bank s k

/-- R35: a command that returns no value leaves RESULT as it was; so does one that ends in failure, but for FLUSH,
GETZEROES and FRAMEDEC. -/
def Obligations.ResultChangesOnlyWhereListed : Prop :=
  ∀ (i : Instr) (s t : State), exec i s = .next t →
    (returnsResult i = false → t.result = s.result) ∧
    (s.status = .ok → t.status ≠ .ok → i ≠ .flush → i ≠ .getzeroes → i ≠ .framedec → t.result = s.result)

/-- R46, R51, R217, R265, R266: only UNPRED, MBENC, MBDEC, FRAMEENC and FRAMEDEC write REF samples (INIT and DEINIT make
REF unspecified); UNPRED, MBENC and MBDEC write none outside their macroblock. -/
def Obligations.OnlyListedCommandsChangeRef : Prop :=
  ∀ (i : Instr) (s t : State), exec i s = .next t →
    (changesRef i = false → t.ref = s.ref) ∧
    (∀ sz m b, (i = .unpred sz m b ∨ i = .mbenc sz ∨ i = .mbdec sz) →
      ∀ a, ¬ (operandMb sz s).covers s a → memRead t.ref a = memRead s.ref a)

/-- R51, R292, R316, R342: a command that neither writes nor reads the stream makes no port transaction and leaves WBUF
and RBUF, but for WRINIT and RDINIT; a writing command leaves the IN port, a reading one the OUT port; and what the
other side's buffer holds stays too, unless the command fails while it runs: then what both buffers hold is unspecified
from there on (U4, log 8). -/
def Obligations.StreamsChangeOnlyWhereListed : Prop :=
  ∀ (i : Instr) (s t : State), exec i s = .next t →
    (writesStream i = false → readsStream i = false → t.ports = s.ports ∧ t.wait = s.wait ∧
      (i ≠ .wrinit → t.wbuf = s.wbuf ∧ t.wlost = s.wlost) ∧ (i ≠ .rdinit → t.rbuf = s.rbuf ∧ t.rlost = s.rlost)) ∧
    (writesStream i = true → t.ports.inAnswers = s.ports.inAnswers ∧ t.ports.inLog = s.ports.inLog ∧
      (t.rbuf = s.rbuf ∧ t.rlost = s.rlost ∨ s.rlost = false ∧ t.wlost = true ∧ t.rlost = true ∧ t.status ≠ .ok)) ∧
    (readsStream i = true → t.ports.outAnswers = s.ports.outAnswers ∧ t.ports.outLog = s.ports.outLog ∧
      (t.wbuf = s.wbuf ∧ t.wlost = s.wlost ∨ s.wlost = false ∧ t.wlost = true ∧ t.rlost = true ∧ t.status ≠ .ok))

/-! ### STATUS (60_exceptions.md) -/

/-- R312: recording keeps the first failure; no command but CLRSTAT changes a recorded failure, and the host sees the
same code while the command waits. -/
def Obligations.FirstFailureStays : Prop :=
  (∀ (c : Status) (s : State), (s.status = .ok → record c s = { s with status := c }) ∧
    (s.status ≠ .ok → record c s = s)) ∧
  (∀ (i : Instr) (s t : State), s.wait = none → s.status ≠ .ok → i ≠ .clrstat → exec i s = .next t →
    t.status = s.status ∧ polledStatus t = s.status) ∧
  (∀ (s t : State) (rest : List HostAction) (a : HostAction), s.host = a :: rest → s.status ≠ .ok → a ≠ .reset →
    s.wait = none → (∀ width addr w, a = .busWrite width addr w → decode w ≠ .ok .clrstat) →
    step s = .next t → t.status = s.status)

/-- R311: which command raises which code, and the transaction that caused it. NOENT is never raised; NOMEM only by
INIT for a frame too large; EOF only by a reading command answered with no byte; IO_FAILED only by a command whose port
transaction was answered `fail`. -/
def Obligations.StatusCodesHaveTheirCauses : Prop :=
  ∀ (i : Instr) (s t : State), s.status = .ok → exec i s = .next t →
    t.status ≠ .noent ∧
    (t.status = .nomem → i = .init ∧ (s.cfg.maxW < s.width.toNat ∨ s.cfg.maxH < s.height.toNat ∨
      s.cfg.maxSamples < s.width.toNat * s.height.toNat)) ∧
    (t.status = .eof → readsStream i = true ∧ ∃ pre h, t.ports.inLog = s.ports.inLog ++ pre ++ [.ok [] h]) ∧
    (t.status = .ioFailed →
      (readsStream i = true ∧ ∃ pre, t.ports.inLog = s.ports.inLog ++ pre ++ [.fail]) ∨
      (writesStream i = true ∧ ∃ made tx, t.ports.outLog = s.ports.outLog ++ made ∧ tx ∈ made ∧ tx.answer = .fail))

/-- R290, R264, R315: NOP does nothing, and a pipeline command issued while a failure is recorded does nothing at
all. -/
def Obligations.CommandsThatDoNothing : Prop :=
  ∀ s : State, exec .nop s = .next s ∧
    (s.status ≠ .ok → ∀ sz, exec (.mbenc sz) s = .next s ∧ exec (.mbdec sz) s = .next s ∧
      exec .frameenc s = .next s ∧ exec .framedec s = .next s)

/-! ### System commands (46_system.md) -/

/-- R291, R295, R296: CLRSTAT clears STATUS, WRINIT the writer, RDINIT the reader (with the model's mark that what it
holds is unspecified, log 8), and each changes nothing else; with a nonzero field each raises INVAL instead. -/
def Obligations.ClearingCommands : Prop :=
  ∀ s : State,
    exec .clrstat s = .next { s with status := .ok } ∧
    exec .wrinit s = .next { s with wbuf := [], wlost := false } ∧
    exec .rdinit s = .next { s with rbuf := [], rlost := false } ∧
    ∀ w : Word, (fieldOPC w = 0x01 ∨ fieldOPC w = 0x04 ∨ fieldOPC w = 0x05) →
      w ≠ 0x01000000 → w ≠ 0x04000000 → w ≠ 0x05000000 → issue w s = raises .inval s

/-- R293: INIT's checks in their order, the frame it latches, and that nothing else changes. -/
def Obligations.InitLatchesGeometry : Prop :=
  ∀ s : State,
    (∀ w : Word, fieldOPC w = 0x02 → w ≠ 0x02000000 → issue w s = raises .inval s) ∧
    (s.inited = true → exec .init s = raises .inval s) ∧
    (s.inited = false →
      (s.width.toNat = 0 ∨ s.height.toNat = 0 → exec .init s = raises .inval s) ∧
      (s.width.toNat % 16 ≠ 0 ∨ s.height.toNat % 4 ≠ 0 → exec .init s = raises .inval s) ∧
      (s.width.toNat ≠ 0 → s.height.toNat ≠ 0 → s.width.toNat % 16 = 0 → s.height.toNat % 4 = 0 →
        (s.cfg.maxW < s.width.toNat ∨ s.cfg.maxH < s.height.toNat ∨
          s.cfg.maxSamples < s.width.toNat * s.height.toNat → exec .init s = raises .nomem s) ∧
        (s.width.toNat ≤ s.cfg.maxW → s.height.toNat ≤ s.cfg.maxH →
          s.width.toNat * s.height.toNat ≤ s.cfg.maxSamples →
          exec .init s = .next { s with fw := s.width, fh := s.height, inited := true, ref := [] })))

/-- R294: DEINIT clears INITED, REF holds no value afterwards (log 19), FW and FH are free values (log 4), and nothing
else changes; with INITED = 0 it does nothing. -/
def Obligations.DeinitReleasesFrame : Prop :=
  ∀ s : State,
    (s.inited = false → exec .deinit s = .next s) ∧
    (s.inited = true → ∃ fw fh n,
      exec .deinit s = .next { s with inited := false, ref := [], fw := fw, fh := fh, draws := n })

/-! ### Bitstream (40_bitstream.md) -/

/-- R131 with STATUS = OK and a writer whose contents are specified: a bit is appended; the 64th sends the buffer out as
8 bytes and empties it; an answer `fail` is recorded and the command goes on, what both buffers hold unspecified from
there on (U4, log 8). Which bytes of a failed transaction reached the sink is free (R82). With a failure recorded, or
unspecified contents, the bit appended is free (R141, U4; logs 7, 8). -/
def Obligations.EmitBitTransfersFullBuffer : Prop :=
  ∀ (b : Bool) (s : State),
    (s.status = .ok → s.wlost = false →
      (s.wbuf.length + 1 ≠ 64 → emitBit b s = .done () { s with wbuf := s.wbuf ++ [b] }) ∧
      (s.wbuf.length + 1 = 64 →
        (∀ rest, s.ports.outAnswers = .ok :: rest → emitBit b s = .done () { s with
          wbuf := [], ports := { s.ports with
            outAnswers := rest,
            outLog := s.ports.outLog ++ [⟨pack (s.wbuf ++ [b]), .ok, List.replicate 8 true⟩] } }) ∧
        (∀ rest, s.ports.outAnswers = .fail :: rest → ∃ reached n,
          reached.length = 8 ∧ emitBit b s = .done () { s with
            status := .ioFailed, wbuf := [], wlost := true, rlost := true, draws := n, ports := { s.ports with
              outAnswers := rest,
              outLog := s.ports.outLog ++ [⟨pack (s.wbuf ++ [b]), .fail, reached⟩] } }) ∧
        (s.ports.outAnswers = [] → emitBit b s =
          .waiting (.outWrite (pack (s.wbuf ++ [b]))) { s with wbuf := s.wbuf ++ [b] }))) ∧
    (s.status ≠ .ok ∨ s.wlost = true → s.wbuf.length + 1 ≠ 64 →
      ∃ bit n, emitBit b s = .done () { s with wbuf := s.wbuf ++ [bit], draws := n })

/-- R133 to R136: with STATUS = OK and every transaction answered `ok`, PUTBITS writes the n low bits of ARG0, most
significant first, PUTONES and PUTZEROES a run of ARG0 bits, PUTEG the code of ARG0, and nothing else changes. (Written:
buffered and new bits, cut into 64-bit windows, the full ones sent; where what the writer holds is unspecified, U4 and
log 8, the bits and the count are free and the transactions as many.) -/
def Obligations.PutCommandsAppendBits : Prop :=
  ∀ s : State, s.status = .ok → s.wbuf.length ≤ 63 →
    (∀ n : Byte, 1 ≤ n.toNat → n.toNat ≤ 31 → acceptsBits n.toNat s → ∃ t, exec (.putbits n) s = .next t ∧
      Written ((List.range n.toNat).map fun k => s.arg0.getLsbD (n.toNat - 1 - k)) s t) ∧
    (acceptsBits s.arg0.toNat s →
      (∃ t, exec .putones s = .next t ∧ Written (List.replicate s.arg0.toNat true) s t) ∧
      (∃ t, exec .putzeroes s = .next t ∧ Written (List.replicate s.arg0.toNat false) s t)) ∧
    (s.arg0.toNat ≤ 2 ^ 31 - 2 → acceptsBits (2 * bitlength (s.arg0.toNat + 1) - 1) s → ∃ t, exec .puteg s = .next t ∧
      Written (List.replicate (bitlength (s.arg0.toNat + 1) - 1) false ++
        (List.range (bitlength (s.arg0.toNat + 1))).map fun k =>
          (s.arg0.toNat + 1).testBit (bitlength (s.arg0.toNat + 1) - 1 - k)) s t)

/-- R131, R312: whatever STATUS holds and whatever the host answers, a PUT command of m bits goes on to its end: STATUS
takes IO_FAILED if it was OK and an answer was `fail`; RESULT, banks, memories and the IN port stay. The model's choices,
no rules of the spec: that ⌊(WCNT + m)/64⌋ transactions are made although a failure is recorded (log 7: R141 defines only
STATUS); that (WCNT + m) mod 64 bits are left if no transaction failed, and RBUF kept (log 7), and that both buffers and
counts are free once one has (log 8, U4); that a command short of answers waits (log 2). -/
def Obligations.PutCommandsGoOnAfterFailure : Prop :=
  ∀ (i : Instr) (m : Nat) (s : State), putCount i s = some m → s.wbuf.length ≤ 63 → s.rbuf.length ≤ 64 →
    s.wait = none →
    let k := (s.wbuf.length + m) / 64
    let failed := OutAnswer.fail ∈ s.ports.outAnswers.take k
    (k ≤ s.ports.outAnswers.length → ∃ t, exec i s = .next t ∧ t.wait = none ∧
      t.ports.outAnswers = s.ports.outAnswers.drop k ∧
      t.ports.outLog.length = s.ports.outLog.length + k ∧
      t.status = (if s.status = .ok ∧ failed then .ioFailed else s.status) ∧
      t.result = s.result ∧ t.banks = s.banks ∧ t.ref = s.ref ∧ t.src = s.src ∧
      t.ports.inAnswers = s.ports.inAnswers ∧ t.ports.inLog = s.ports.inLog ∧
      (¬ failed → t.wlost = s.wlost ∧ t.rlost = s.rlost ∧ t.rbuf = s.rbuf ∧
        (s.wlost = false → t.wbuf.length = (s.wbuf.length + m) % 64)) ∧
      (failed → t.wlost = true ∧ t.rlost = true) ∧ t.wbuf.length ≤ 63 ∧ t.rbuf.length ≤ 64) ∧
    (s.ports.outAnswers.length < k → ∃ w, exec i s = .next { s with wait := some w })

/-- R137: FLUSH with nothing buffered, and with bits buffered and each answer; RESULT is the STATUS code afterwards in
every case. The model's choices, no rules of the spec: what a failed transaction leaves in both buffers is free (log 8,
U4); with a failure recorded before, or unspecified contents, one transaction of ⌈WCNT/8⌉ free bytes is made (logs 7, 8);
with no answer it waits (log 2). -/
def Obligations.FlushSendsBufferAndReturnsStatus : Prop :=
  ∀ s : State, s.wbuf.length ≤ 63 → s.rbuf.length ≤ 64 →
    let k := (s.wbuf.length + 7) / 8
    let bytes := pack (s.wbuf ++ List.replicate (8 * k - s.wbuf.length) false)
    (s.wbuf = [] → ∃ w n, w.length ≤ 63 ∧ (s.wlost = false → w = [] ∧ n = s.draws) ∧
      exec .flush s = .next { s with result := statusWord s.status, wbuf := w, draws := n }) ∧
    (s.wbuf ≠ [] → s.status = .ok → s.wlost = false →
      (∀ rest, s.ports.outAnswers = .ok :: rest → exec .flush s = .next { s with
        wbuf := [], result := 0, ports := { s.ports with
          outAnswers := rest, outLog := s.ports.outLog ++ [⟨bytes, .ok, List.replicate k true⟩] } }) ∧
      (∀ rest, s.ports.outAnswers = .fail :: rest → ∃ reached w r n,
        reached.length = k ∧ w.length ≤ 63 ∧ r.length ≤ 64 ∧ exec .flush s = .next { s with
          status := .ioFailed, wbuf := w, rbuf := r, wlost := true, rlost := true, result := 3, draws := n,
          ports := { s.ports with
            outAnswers := rest, outLog := s.ports.outLog ++ [⟨bytes, .fail, reached⟩] } })) ∧
    (s.wbuf ≠ [] → s.status ≠ .ok ∨ s.wlost = true → ∀ a rest, s.ports.outAnswers = a :: rest →
      ∃ sent reached w r n, sent.length = k ∧ reached.length = k ∧ w.length ≤ 63 ∧ r.length ≤ 64 ∧
        (a = .ok → r = s.rbuf ∧ (s.wlost = false → w = [])) ∧
        let code := if s.status = .ok ∧ a = .fail then .ioFailed else s.status
        exec .flush s = .next { s with
          status := code, wbuf := w, rbuf := r, wlost := s.wlost || a == .fail, rlost := s.rlost || a == .fail,
          result := statusWord code, draws := n, ports := { s.ports with
            outAnswers := rest, outLog := s.ports.outLog ++ [⟨sent, a, reached⟩] } }) ∧
    (s.wbuf ≠ [] → s.ports.outAnswers = [] → ∃ w, exec .flush s = .next { s with wait := some w })

/-- R138: with a reader whose contents are specified, GETBITS reads n bits, first-read most significant, if the reader
can deliver them; if the stream ends first it records EOF or IO_FAILED and leaves RESULT. The model's choices, no rules
of the spec: with a failure recorded before, the same bits are consumed and only RESULT is free (log 7: R141 defines only
STATUS); what both buffers hold after a failure of the command itself is free (log 8, U4); with no answer left the
command waits (log 2). -/
def Obligations.GetbitsReadsMsbFirst : Prop :=
  ∀ (n : Byte) (s : State),
    (¬ (1 ≤ n.toNat ∧ n.toNat ≤ 32) → exec (.getbits n) s = raises .inval s) ∧
    (1 ≤ n.toNat → n.toNat ≤ 32 → s.rlost = false → n.toNat ≤ (readable s).length →
      (s.status = .ok → exec (.getbits n) s = .next { afterReading n.toNat n.toNat s with
        result := BitVec.ofNat 32 (bitsVal ((readable s).take n.toNat)) }) ∧
      (s.status ≠ .ok → ∃ v d, exec (.getbits n) s = .next { afterReading n.toNat n.toNat s with
        result := v, draws := d })) ∧
    (1 ≤ n.toNat → n.toNat ≤ 32 → s.rlost = false → (readable s).length < n.toNat → s.wbuf.length ≤ 63 →
      (∀ c, streamEnd s.ports.inAnswers = some c → ∃ w r v d, w.length ≤ 63 ∧ r.length ≤ 64 ∧
        (s.status = .ok → v = s.result) ∧ exec (.getbits n) s =
          .next { afterRunningOut (if s.status = .ok then c else s.status) w r d s with result := v }) ∧
      (streamEnd s.ports.inAnswers = none → ∃ w, w.instr = .getbits n ∧ w.request = .inRead ∧
        exec (.getbits n) s = .next { s with wait := some w }))

/-- R139: with a reader whose contents are specified, GETZEROES counts the zero bits before the next one-bit, which
stays; if the stream ends first it stores the count and records EOF or IO_FAILED. The model's choices, no rules of the
spec: with a failure recorded before, the same bits are consumed and only RESULT is free (log 7: R141 defines only
STATUS); what both buffers hold after a failure of the command itself is free (log 8, U4); with no answer left the
command waits (log 2); 2^32 zero bits in a row are the stuck state of U10 and R318, a wait that nothing ends (log 10). -/
def Obligations.GetzeroesCountsZeros : Prop :=
  ∀ s : State, s.rlost = false →
    (∀ z rest, z < 2 ^ 32 → readable s = List.replicate z false ++ true :: rest →
      (s.status = .ok → exec .getzeroes s = .next { afterReading z (z + 1) s with result := BitVec.ofNat 32 z }) ∧
      (s.status ≠ .ok → ∃ v d, exec .getzeroes s = .next { afterReading z (z + 1) s with
        result := v, draws := d })) ∧
    (∀ z, z < 2 ^ 32 → readable s = List.replicate z false → s.wbuf.length ≤ 63 →
      (∀ c, streamEnd s.ports.inAnswers = some c → ∃ w r v d, w.length ≤ 63 ∧ r.length ≤ 64 ∧
        (s.status = .ok → v = BitVec.ofNat 32 z) ∧ exec .getzeroes s =
          .next { afterRunningOut (if s.status = .ok then c else s.status) w r d s with result := v }) ∧
      (streamEnd s.ports.inAnswers = none → ∃ w, w.instr = .getzeroes ∧ w.request = .inRead ∧
        exec .getzeroes s = .next { s with wait := some w })) ∧
    (∀ rest, readable s = List.replicate (2 ^ 32) false ++ rest → ∃ w, w.instr = .getzeroes ∧ w.request = .never ∧
      exec .getzeroes s = .next { s with wait := some w })

/-- R140: with a reader whose contents are specified, GETEG decodes a code with fewer than 32 leading zeros; 32 or more
are INVAL, RESULT unchanged; if the stream ends inside the code it records EOF or IO_FAILED and leaves RESULT. The
model's choices, no rules of the spec: with a failure recorded before, the same bits are consumed and only RESULT is free
(log 7: R141 defines only STATUS); what both buffers hold after a failure of the command itself is free (log 8, U4); with
no answer left the command waits (log 2); 2^32 zero bits in a row are the stuck state (U10, log 10). -/
def Obligations.GetegReadsExpGolomb : Prop :=
  ∀ s : State, s.rlost = false →
    (∀ z low rest, z < 32 → low.length = z → readable s = List.replicate z false ++ true :: (low ++ rest) →
      (s.status = .ok → exec .geteg s = .next { afterReading (2 * z + 1) (2 * z + 1) s with
        result := BitVec.ofNat 32 (2 ^ z + bitsVal low - 1) }) ∧
      (s.status ≠ .ok → ∃ v d, exec .geteg s = .next { afterReading (2 * z + 1) (2 * z + 1) s with
        result := v, draws := d })) ∧
    (∀ z rest, 32 ≤ z → z < 2 ^ 32 → s.wbuf.length ≤ 63 → readable s = List.replicate z false ++ true :: rest →
      ∃ w r v d, w.length ≤ 63 ∧ r.length ≤ 64 ∧ (s.status = .ok → v = s.result) ∧
        exec .geteg s = .next { afterReading z (z + 1) s with
          status := if s.status = .ok then .inval else s.status,
          wbuf := w, rbuf := r, wlost := true, rlost := true, result := v, draws := d }) ∧
    (∀ z, s.wbuf.length ≤ 63 → (z < 2 ^ 32 ∧ readable s = List.replicate z false ∨
        ∃ low, low.length < z ∧ z < 32 ∧ readable s = List.replicate z false ++ true :: low) →
      (∀ c, streamEnd s.ports.inAnswers = some c → ∃ w r v d, w.length ≤ 63 ∧ r.length ≤ 64 ∧
        (s.status = .ok → v = s.result) ∧ exec .geteg s =
          .next { afterRunningOut (if s.status = .ok then c else s.status) w r d s with result := v }) ∧
      (streamEnd s.ports.inAnswers = none → ∃ w, w.instr = .geteg ∧ w.request = .inRead ∧
        exec .geteg s = .next { s with wait := some w })) ∧
    (∀ rest, readable s = List.replicate (2 ^ 32) false ++ rest → ∃ w, w.instr = .geteg ∧ w.request = .never ∧
      exec .geteg s = .next { s with wait := some w })

/-- R144: while the transactions succeed, the bytes sent up to and with a FLUSH are the bits written, whatever windows
they were cut into, with zero bits up to a byte boundary; and two readers that can deliver the same bits deliver the
same value, however the host splits its bytes into transactions. -/
def Obligations.StreamsAreIndependentOfBuffering : Prop :=
  (∀ (bits : List Bool) (s : State), s.status = .ok → s.wlost = false → s.wbuf.length ≤ 63 →
    (∀ a ∈ s.ports.outAnswers, a = .ok) → (s.wbuf.length + bits.length) / 64 < s.ports.outAnswers.length →
    ∃ t u, emitBits bits s = .done () t ∧ exec .flush t = .next u ∧
      bytesBits (sinkBytes t) ++ t.wbuf = bytesBits (sinkBytes s) ++ (s.wbuf ++ bits) ∧
      bytesBits (sinkBytes u) = bytesBits (sinkBytes s) ++ (s.wbuf ++ bits) ++
        List.replicate ((8 - (s.wbuf.length + bits.length) % 8) % 8) false) ∧
  (∀ (n : Nat) (r q : State), r.rlost = false → q.rlost = false → readable r = readable q → n ≤ (readable r).length →
    ∃ v t u, readBits n 0 r = .done v t ∧ readBits n 0 q = .done v u ∧ readable t = readable u)

/-- R143: PUTEG v then FLUSH on a fresh writer; a fresh reader that gets the bytes sent, in any transactions, has
GETEG return v, for every v up to 2^31 − 2. -/
def Obligations.ExpGolombRoundTrip : Prop :=
  ∀ (s : State) (rest : List OutAnswer), s.status = .ok → s.wbuf = [] → s.wlost = false →
    s.arg0.toNat ≤ 2 ^ 31 - 2 → s.ports.outAnswers = .ok :: rest →
    ∃ t u, exec .puteg s = .next t ∧ exec .flush t = .next u ∧ u.status = .ok ∧
      ∀ r : State, r.status = .ok → r.rbuf = [] → r.rlost = false → supplies r.ports.inAnswers (newOutBytes s u) →
        ∃ q, exec .geteg r = .next q ∧ q.result = s.arg0 ∧ q.status = .ok

/-! ### Entropy coder (41_entropy.md) -/

/-- R175: the length in bits of the code of a vector. -/
def Obligations.CoefficientCodeLength : Prop :=
  ∀ c : List Int, c ≠ [] → (vectorCode c).length =
    ((runsBefore c).map egLength).sum + ((nonzeroDown c).map fun p => egLength ((c.getD p 0).natAbs - 1)).sum +
    (if 0 < trailingRun c then egLength (trailingRun c) else 0) + (nonzeroDown c).length

/-- R171, R173: ENTENC writes the run and magnitude codes from the highest nonzero coefficient down, the trailing run,
and the signs from the lowest up, and changes nothing else (Written: with a writer whose contents are unspecified, U4 and
log 8, the bits are free); the vector [5] is coded 1001011 and the all-zero vector as its length alone. -/
def Obligations.EntencAppendsCoefficientCode : Prop :=
  (∀ (b off cnt : Byte) (s : State), wellFormed (.entenc b off cnt) = true → s.status = .ok → s.wbuf.length ≤ 63 →
    let c := (List.range cnt.toNat).map fun k => (entry (bank s b.toNat) (off.toNat + k)).toInt
    (∀ x ∈ c, x ≠ -(2 ^ 31)) → acceptsBits (coefficientBits c).length s →
    ∃ t, exec (.entenc b off cnt) s = .next t ∧ Written (coefficientBits c) s t) ∧
  coefficientBits [5] = [true, false, false, true, false, true, true] ∧
  ∀ n, 0 < n → coefficientBits (List.replicate n 0) = egBits n

/-- R172, R173: with a reader whose contents are specified (log 8), on a stream that starts with the code of c, ENTDEC
stores c in entries off..off+cnt−1 of bank b, reads exactly that code, and changes nothing else; a first run longer than
cnt is INVAL; whatever the stream holds, no other bank entry and not RESULT changes. -/
def Obligations.EntdecStoresDecodedVector : Prop :=
  ∀ (b off cnt : Byte) (s : State), wellFormed (.entdec b off cnt) = true →
    (∀ (c : List Int) (rest : List Bool), s.status = .ok → s.rlost = false → c.length = cnt.toNat →
      (∀ x ∈ c, x.natAbs ≤ 2 ^ 31 - 1) → readable s = coefficientBits c ++ rest →
      ∃ t, exec (.entdec b off cnt) s = .next t ∧
        t = { afterReading (coefficientBits c).length (coefficientBits c).length s with banks := t.banks } ∧
        ∀ k i, k < 32 → i < 16 → entry (bank t k) i =
          if k = b.toNat ∧ off.toNat ≤ i ∧ i < off.toNat + cnt.toNat then BitVec.ofInt 32 (c.getD (i - off.toNat) 0)
          else entry (bank s k) i) ∧
    (∀ (r : Nat) (rest : List Bool), s.status = .ok → s.rlost = false → cnt.toNat < r → r ≤ 2 ^ 32 - 2 →
      readable s = egBits r ++ rest → ∃ t, exec (.entdec b off cnt) s = .next t ∧ t.status = .inval) ∧
    (∀ t, exec (.entdec b off cnt) s = .next t → t.result = s.result ∧
      ∀ k i, k < 32 → i < 16 → ¬ (k = b.toNat ∧ off.toNat ≤ i ∧ i < off.toNat + cnt.toNat) →
        entry (bank t k) i = entry (bank s k) i)

/-- R174: any vector of 1 to 16 coefficients other than −2^31, encoded by ENTENC and sent by FLUSH, decodes to itself
with ENTDEC on a fresh reader that gets the bytes sent, in any transactions, STATUS staying OK. -/
def Obligations.EntropyRoundTrip : Prop :=
  ∀ (b off cnt b2 off2 : Byte) (s : State), wellFormed (.entenc b off cnt) = true →
    wellFormed (.entdec b2 off2 cnt) = true → s.status = .ok → s.wbuf = [] → s.wlost = false →
    (∀ k, k < cnt.toNat → (entry (bank s b.toNat) (off.toNat + k)).toInt ≠ -(2 ^ 31)) →
    (∀ a ∈ s.ports.outAnswers, a = .ok) → 64 ≤ s.ports.outAnswers.length →
    ∃ t u, exec (.entenc b off cnt) s = .next t ∧ exec .flush t = .next u ∧ t.status = .ok ∧ u.status = .ok ∧
      ∀ r : State, r.status = .ok → r.rbuf = [] → r.rlost = false → supplies r.ports.inAnswers (newOutBytes s u) →
        ∃ q, exec (.entdec b2 off2 cnt) r = .next q ∧ q.status = .ok ∧
          ∀ k, k < cnt.toNat →
            entry (bank q b2.toNat) (off2.toNat + k) = entry (bank s b.toNat) (off.toNat + k)

/-! ### Transforms (42_transform.md) -/

/-- R191 to R195: FWD4 is M·X·Mᵀ modulo 2^32, with A for SEQ and the matrix of Fh for H264; INV4 is the same with A for
SEQ. Nothing but the destination bank changes. -/
def Obligations.ForwardTransformIsTwoSidedProduct : Prop :=
  ∀ (d src : Byte) (s : State), d.toNat < 32 → src.toNat < 32 →
    exec (.fwd4 d src) s = .next (setBank d.toNat (blockOf fun p => BitVec.ofInt 32 (twoSided
      (match s.cfg.kernel with
        | .seq => seqMatrix
        | .h264 => h264Matrix) (bank s src.toNat) p)) s) ∧
    (s.cfg.kernel = .seq → exec (.inv4 d src) s =
      .next (setBank d.toNat (blockOf fun p => BitVec.ofInt 32 (twoSided seqMatrix (bank s src.toNat) p)) s))

/-- R192, R193, R195: with kernel H264, INV4 applies Ih to the rows and then to the columns, its shifts arithmetic on
int32 values, its sums modulo 2^32. -/
def Obligations.InverseH264Passes : Prop :=
  ∀ (d src : Byte) (s : State), d.toNat < 32 → src.toNat < 32 → s.cfg.kernel = .h264 →
    ∃ t y : Block,
      (∀ r, r < 4 →
        let a := entry (bank s src.toNat) (4 * r)
        let b := entry (bank s src.toNat) (4 * r + 1)
        let c := entry (bank s src.toNat) (4 * r + 2)
        let e := entry (bank s src.toNat) (4 * r + 3)
        entry t (4 * r) = (a + c) + (b + e.sshiftRight 1) ∧
        entry t (4 * r + 1) = (a - c) + (b.sshiftRight 1 - e) ∧
        entry t (4 * r + 2) = (a - c) - (b.sshiftRight 1 - e) ∧
        entry t (4 * r + 3) = (a + c) - (b + e.sshiftRight 1)) ∧
      (∀ c, c < 4 →
        let p := entry t c
        let q := entry t (4 + c)
        let u := entry t (8 + c)
        let v := entry t (12 + c)
        entry y c = (p + u) + (q + v.sshiftRight 1) ∧
        entry y (4 + c) = (p - u) + (q.sshiftRight 1 - v) ∧
        entry y (8 + c) = (p - u) - (q.sshiftRight 1 - v) ∧
        entry y (12 + c) = (p + u) - (q + v.sshiftRight 1)) ∧
      exec (.inv4 d src) s = .next (setBank d.toNat y s)

/-- R196, R197, R198: HAD4 is A·X·A halved once, truncating; IHAD4 is A·X·A; HAD2 is the 2×2 transform of entries 0..3
and keeps entries 4..15 of the destination. -/
def Obligations.HadamardTransforms : Prop :=
  ∀ (d src : Byte) (s : State), d.toNat < 32 → src.toNat < 32 →
    exec (.had4 d src) s = .next (setBank d.toNat (blockOf fun p => BitVec.ofInt 32
      ((BitVec.ofInt 32 (twoSided seqMatrix (bank s src.toNat) p)).toInt.tdiv 2)) s) ∧
    exec (.ihad4 d src) s =
      .next (setBank d.toNat (blockOf fun p => BitVec.ofInt 32 (twoSided seqMatrix (bank s src.toNat) p)) s) ∧
    (let a := entry (bank s src.toNat) 0
     let b := entry (bank s src.toNat) 1
     let c := entry (bank s src.toNat) 2
     let e := entry (bank s src.toNat) 3
     exec (.had2 d src) s = .next (setBank d.toNat (blockOf fun i =>
       if i = 0 then a + b + c + e else if i = 1 then a - b + c - e else if i = 2 then a + b - c - e
       else if i = 3 then a - b - c + e else entry (bank s d.toNat) i) s))

/-- R199 laws 1 to 3: with SEQ, INV4 after FWD4 is 16·x modulo 2^32; IHAD4 after HAD4 divided by 8 is the grid again if
its entries sum to an even number and are below 2^24; HAD2 twice is 4·g modulo 2^32. -/
def Obligations.TransformLaws : Prop :=
  ∀ (a b c e : Byte) (s t u v : State), a.toNat < 32 → b.toNat < 32 → c.toNat < 32 → e.toNat < 32 →
    (s.cfg.kernel = .seq → exec (.fwd4 b a) s = .next t → exec (.inv4 c b) t = .next u →
      ∀ i, i < 16 → entry (bank u c.toNat) i = 16 * entry (bank s a.toNat) i) ∧
    (exec (.had4 b a) s = .next t → exec (.ihad4 c b) t = .next u → exec (.bdiv e c 8) u = .next v →
      ((List.range 16).map fun i => entryInt (bank s a.toNat) i).sum % 2 = 0 →
      (∀ i, i < 16 → (entryInt (bank s a.toNat) i).natAbs < 2 ^ 24) →
      ∀ i, i < 16 → entry (bank v e.toNat) i = entry (bank s a.toNat) i) ∧
    (exec (.had2 b a) s = .next t → exec (.had2 c b) t = .next u →
      ∀ i, i < 4 → entry (bank u c.toNat) i = 4 * entry (bank s a.toNat) i)

/-! ### Quantization (44_quant.md) -/

/-- R240, R241, R242: QUANT4 puts the truncated quotient of raster position p at its scan index; DEQUANT4 puts the
product of scan index ZZ4[p] at raster position p, modulo 2^32. Nothing but the destination bank changes. -/
def Obligations.BlockQuantization : Prop :=
  ∀ (d src : Byte) (s : State), d.toNat < 32 → src.toNat < 32 →
    let scan := fun p : Nat => [0, 1, 5, 6, 2, 4, 7, 12, 3, 8, 11, 13, 9, 10, 14, 15].getD p 0
    (∃ z : Block, (∀ p, p < 16 →
        entry z (scan p) = BitVec.ofInt 32 ((entryInt (bank s src.toNat) p).tdiv (qtab s.cfg p))) ∧
      exec (.quant4 d src) s = .next (setBank d.toNat z s)) ∧
    (∃ c : Block, (∀ p, p < 16 →
        entry c p = BitVec.ofInt 32 (entryInt (bank s src.toNat) (scan p) * qtab s.cfg p)) ∧
      exec (.dequant4 d src) s = .next (setBank d.toNat c s))

/-- R243, R244: QUANTDC divides each of the cnt grid entries by QTAB[0] and puts it at its scan index, DEQUANTDC
multiplies back; the scan is ZZ4 for 16 entries and the identity for 4 and 1; entries cnt..15 of the destination
stay. -/
def Obligations.DcGridQuantization : Prop :=
  ∀ (d src cnt : Byte) (s : State), d.toNat < 32 → src.toNat < 32 → (cnt = 1 ∨ cnt = 4 ∨ cnt = 16) →
    let scan := fun p : Nat =>
      if cnt = 16 then [0, 1, 5, 6, 2, 4, 7, 12, 3, 8, 11, 13, 9, 10, 14, 15].getD p 0 else p
    (∃ z : Block, (∀ p, p < cnt.toNat →
        entry z (scan p) = BitVec.ofInt 32 ((entryInt (bank s src.toNat) p).tdiv (qtab s.cfg 0))) ∧
      (∀ p, cnt.toNat ≤ p → p < 16 → entry z p = entry (bank s d.toNat) p) ∧
      exec (.quantdc d src cnt) s = .next (setBank d.toNat z s)) ∧
    (∃ c : Block, (∀ p, p < cnt.toNat →
        entry c p = BitVec.ofInt 32 (entryInt (bank s src.toNat) (scan p) * qtab s.cfg 0)) ∧
      (∀ p, cnt.toNat ≤ p → p < 16 → entry c p = entry (bank s d.toNat) p) ∧
      exec (.dequantdc d src cnt) s = .next (setBank d.toNat c s))

/-- R245, R246: GATHERDC collects entry 0 of banks b..b+cnt−1 into entries 0..cnt−1 of bank g; SCATTERDC writes the
grid's entries back as entry 0 of those banks; all is read before anything is written, and no other entry changes. -/
def Obligations.GatherAndScatterDc : Prop :=
  ∀ (g b cnt : Byte) (s : State), g.toNat < 32 → (cnt = 1 ∨ cnt = 4 ∨ cnt = 16) → b.toNat + cnt.toNat ≤ 32 →
    exec (.gatherdc g b cnt) s = .next (setBank g.toNat (blockOf fun i =>
      if i < cnt.toNat then entry (bank s (b.toNat + i)) 0 else entry (bank s g.toNat) i) s) ∧
    ∃ t, exec (.scatterdc b g cnt) s = .next t ∧ t = { s with banks := t.banks } ∧
      ∀ k i, k < 32 → i < 16 → entry (bank t k) i =
        if i = 0 ∧ b.toNat ≤ k ∧ k < b.toNat + cnt.toNat then entry (bank s g.toNat) (k - b.toNat)
        else entry (bank s k) i

/-- R247: BDIV divides all 16 entries, truncating toward zero, for every divisor 1..255; a divisor of 0 raises INVAL. -/
def Obligations.BdivTruncates : Prop :=
  ∀ (d src div : Byte) (s : State), d.toNat < 32 → src.toNat < 32 →
    (1 ≤ div.toNat → exec (.bdiv d src div) s = .next (setBank d.toNat
      (blockOf fun i => BitVec.ofInt 32 ((entryInt (bank s src.toNat) i).tdiv div.toNat)) s)) ∧
    (div = 0 → exec (.bdiv d src div) s = raises .inval s)

/-- R248 properties 1 and 2: quantizing and dequantizing a coefficient errs by less than the step, never flips its sign
and never grows it; QUANT4 of DEQUANT4, and QUANTDC of DEQUANTDC, give the vector back where no product wraps. -/
def Obligations.QuantizationProperties : Prop :=
  (∀ (q : Nat) (c : Int), 1 ≤ q → (c - tdiv c q * q).natAbs < q ∧ (tdiv c q * q).natAbs ≤ c.natAbs ∧
    (0 < c → 0 ≤ tdiv c q * q) ∧ (c < 0 → tdiv c q * q ≤ 0)) ∧
  (∀ (a b c : Byte) (s t u : State), a.toNat < 32 → b.toNat < 32 → c.toNat < 32 → s.cfg.legal = true →
    exec (.dequant4 b a) s = .next t → exec (.quant4 c b) t = .next u →
    (∀ p, p < 16 → -(2 ^ 31) ≤ entryInt (bank s a.toNat) (zz4 p) * qtab s.cfg p ∧
      entryInt (bank s a.toNat) (zz4 p) * qtab s.cfg p < 2 ^ 31) →
    bank u c.toNat = bank s a.toNat) ∧
  (∀ (a b c cnt : Byte) (s t u : State), a.toNat < 32 → b.toNat < 32 → c.toNat < 32 → s.cfg.legal = true →
    (cnt = 1 ∨ cnt = 4 ∨ cnt = 16) →
    exec (.dequantdc b a cnt) s = .next t → exec (.quantdc c b cnt) t = .next u →
    (∀ p, p < cnt.toNat → -(2 ^ 31) ≤ entryInt (bank s a.toNat) p * qtab s.cfg 0 ∧
      entryInt (bank s a.toNat) p * qtab s.cfg 0 < 2 ^ 31) →
    ∀ p, p < cnt.toNat → entry (bank u c.toNat) p = entry (bank s a.toNat) p)

/-! ### Prediction (43_predict.md) -/

/-- R211, R212: where the REF samples a mode reads hold values, its predictor has R212's value at every offset. -/
def Obligations.PredictorValues : Prop :=
  ∀ (m : Mode) (mb : Mb) (s : State), 0 < mb.size → modeAllowed m mb.x mb.y → NeighboursWritten m mb s →
    ∃ p, predictor m mb s = some p ∧
      ∀ i j, i < mb.size → j < mb.size → (p.value i j : Int) = predicted m mb s i j

/-- R213, R214, R215: PREDSEL returns the forced mode at an edge, reading no sample, and inside the first mode of least
cost in the order DC, H, V, None; nothing but RESULT changes. -/
def Obligations.PredselReturnsSelectedMode : Prop :=
  ∀ (sz : Byte) (s : State), MbLegal sz s →
    (s.arg0 = 0 ∨ s.arg1 = 0 ∨ SourceWritten (operandMb sz s) s ∧ NeighboursWritten .dc (operandMb sz s) s ∧
      NeighboursWritten .horizontal (operandMb sz s) s ∧ NeighboursWritten .vertical (operandMb sz s) s) →
    ∃ m, Selected m (operandMb sz s) s ∧
      exec (.predsel sz) s = .next { s with result := BitVec.ofNat 32 m.toCode }

/-- R216: PREDRES forms the residual of each sub-block in its bank and changes nothing else. -/
def Obligations.PredresFormsResidual : Prop :=
  ∀ (sz m b : Byte) (mode : Mode) (s : State), MbLegal sz s → m.toNat = mode.toCode →
    modeAllowed mode s.arg0.toNat s.arg1.toNat → b.toNat + (sz.toNat / 4) * (sz.toNat / 4) ≤ 32 →
    SourceWritten (operandMb sz s) s → NeighboursWritten mode (operandMb sz s) s →
    ∃ t, exec (.predres sz m b) s = .next t ∧ t = { s with banks := t.banks } ∧
      ∀ k e, k < 32 → e < 16 → entry (bank t k) e =
        if b.toNat ≤ k ∧ k < b.toNat + (sz.toNat / 4) * (sz.toNat / 4) then
          BitVec.ofInt 32 (residualAt mode (operandMb sz s) s
            (4 * ((k - b.toNat) / (sz.toNat / 4)) + e / 4) (4 * ((k - b.toNat) % (sz.toNat / 4)) + e % 4))
        else entry (bank s k) e

/-- R217: UNPRED adds the predictor back, clamps to 0..255 and writes the macroblock's samples to REF; no other sample
and nothing else changes. -/
def Obligations.UnpredWritesClampedSamples : Prop :=
  ∀ (sz m b : Byte) (mode : Mode) (s : State), MbLegal sz s → m.toNat = mode.toCode →
    modeAllowed mode s.arg0.toNat s.arg1.toNat → b.toNat + (sz.toNat / 4) * (sz.toNat / 4) ≤ 32 →
    NeighboursWritten mode (operandMb sz s) s →
    ∃ t, exec (.unpred sz m b) s = .next t ∧ t = { s with ref := t.ref } ∧
      RefWrites (operandMb sz s) (fun i j => clampByte (predicted mode (operandMb sz s) s i j +
        entryInt (bank s (b.toNat + (sz.toNat / 4) * (i / 4) + j / 4)) (4 * (i % 4) + j % 4))) s t

/-- R218 property 2: PREDRES then UNPRED of the same macroblock, mode and banks writes the source samples to REF. -/
def Obligations.LosslessPredictionRoundTrip : Prop :=
  ∀ (sz m b : Byte) (mode : Mode) (s : State), MbLegal sz s → m.toNat = mode.toCode →
    modeAllowed mode s.arg0.toNat s.arg1.toNat → b.toNat + (sz.toNat / 4) * (sz.toNat / 4) ≤ 32 →
    SourceWritten (operandMb sz s) s → NeighboursWritten mode (operandMb sz s) s →
    ∃ t u, exec (.predres sz m b) s = .next t ∧ exec (.unpred sz m b) t = .next u ∧
      ∀ i j, i < sz.toNat → j < sz.toNat →
        memRead u.ref (sampleIndex s (s.arg0.toNat + j) (s.arg1.toNat + i)) =
          memRead s.src (sampleIndex s (s.arg0.toNat + j) (s.arg1.toNat + i))

/-! ### Pipeline (45_pipeline.md) -/

/-- R261: the macroblocks of a frame whose width is a multiple of 16 and height a multiple of 4 lie inside it, aligned
to their size, and every sample belongs to exactly one of them. -/
def Obligations.TilesPartitionTheFrame : Prop :=
  ∀ fw fh : Nat, fw % 16 = 0 → fh % 4 = 0 →
    (tiles fw fh).Nodup ∧
    (∀ mb ∈ tiles fw fh, (mb.size = 4 ∨ mb.size = 8 ∨ mb.size = 16) ∧ mb.x % mb.size = 0 ∧ mb.y % mb.size = 0 ∧
      mb.x + mb.size ≤ fw ∧ mb.y + mb.size ≤ fh) ∧
    (∀ x y, x < fw → y < fh → ∃ mb ∈ tiles fw fh, mb.holds x y ∧ ∀ mb' ∈ tiles fw fh, mb'.holds x y → mb' = mb)

/-- R262: every neighbour sample that R211 lets a macroblock read lies in a macroblock that comes earlier in coding
order. -/
def Obligations.NeighboursComeEarlier : Prop :=
  ∀ (fw fh k : Nat) (mb : Mb), fw % 16 = 0 → fh % 4 = 0 → (tiles fw fh)[k]? = some mb → ∀ x y,
    (y + 1 = mb.y ∧ mb.x ≤ x + 1 ∧ x < mb.x + mb.size ∨ x + 1 = mb.x ∧ mb.y ≤ y ∧ y < mb.y + mb.size) →
    ∃ k' mb', k' < k ∧ (tiles fw fh)[k']? = some mb' ∧ mb'.holds x y

/-- R263, R265, R269, R272: with STATUS = OK, legal operands, every sample it reads written and every OUT transaction
answered `ok`, MBENC completes: it writes the mode, AC and DC codes of the selected mode's residuals (Written: free bits
where what the writer holds is unspecified, U4 and log 8), gives the macroblock's REF samples their reconstruction and
RESULT the mode, and changes nothing else. -/
def Obligations.MbencWritesMacroblock : Prop :=
  ∀ (sz : Byte) (s : State), MbLegal sz s → s.cfg.legal = true → s.status = .ok → s.wbuf.length ≤ 63 →
    SourceWritten (operandMb sz s) s →
    (∀ m, modeAllowed m s.arg0.toNat s.arg1.toNat → NeighboursWritten m (operandMb sz s) s) →
    ∃ m, Selected m (operandMb sz s) s ∧
      let rs := residualBlocks m (operandMb sz s) s
      let bits := macroblockBits s.cfg m rs
      (acceptsBits bits.length s → ∃ t u, exec (.mbenc sz) s = .next t ∧ Written bits s u ∧
        t = { u with ref := t.ref, result := BitVec.ofNat 32 m.toCode } ∧
        RefWrites (operandMb sz s) (reconstructedSample m (operandMb sz s) rs s) s t)

/-- R263, R266, R270, R272: with a reader whose contents are specified (log 8), on a stream that starts with the bits of
any macroblock codes the decoder accepts, MBDEC reads exactly those bits, gives the macroblock's REF samples what the
codes decode to and RESULT the mode, and changes nothing else. Codes of residuals within ±255 that an encoder made are
such codes, and decode to the encoder's reconstruction. -/
def Obligations.MbdecReadsMacroblock : Prop :=
  ∀ (sz : Byte) (s : State), MbLegal sz s → s.cfg.legal = true → s.status = .ok → s.rlost = false →
    (∀ (z : MbCodes) (rest : List Bool), z.Legal (operandMb sz s) → NeighboursWritten z.mode (operandMb sz s) s →
      readable s = z.bits ++ rest →
      ∃ t, exec (.mbdec sz) s = .next t ∧
        t = { afterReading z.bits.length z.bits.length s with ref := t.ref, result := BitVec.ofNat 32 z.mode.toCode } ∧
        RefWrites (operandMb sz s) (decodedSample z (operandMb sz s) s) s t) ∧
    (∀ (m : Mode) (rs : List Block) (rest : List Bool), modeAllowed m s.arg0.toNat s.arg1.toNat →
      NeighboursWritten m (operandMb sz s) s → rs.length = (sz.toNat / 4) * (sz.toNat / 4) →
      (∀ r ∈ rs, ∀ e, e < 16 → (entryInt r e).natAbs ≤ 255) → readable s = macroblockBits s.cfg m rs ++ rest →
      let n := (macroblockBits s.cfg m rs).length
      ∃ t, exec (.mbdec sz) s = .next t ∧
        t = { afterReading n n s with ref := t.ref, result := BitVec.ofNat 32 m.toCode } ∧
        RefWrites (operandMb sz s) (reconstructedSample m (operandMb sz s) rs s) s t)

/-- R266, R268, R273, R316: an MBENC or MBDEC that completes with a failure leaves REF and RESULT unchanged. A FRAMEENC
or FRAMEDEC that does has coded zs.length macroblocks, fewer than all: these keep the REF samples it gave them, and no
other REF sample has changed, the failing macroblock's included. RESULT is as it was after FRAMEENC (R267, log 18), and
the key-frame flag after a FRAMEDEC that read it. -/
def Obligations.FailedMacroblockLeavesRef : Prop :=
  ∀ (s t : State), s.wait = none → t.wait = none →
    (∀ sz, (exec (.mbenc sz) s = .next t ∨ exec (.mbdec sz) s = .next t) → t.status ≠ .ok →
      t.ref = s.ref ∧ t.result = s.result) ∧
    (exec .frameenc s = .next t → t.result = s.result) ∧
    (Inv s → s.inited = true → s.status = .ok → t.status ≠ .ok →
      let mbs := tiles s.fw.toNat s.fh.toNat
      (exec .frameenc s = .next t → ∃ zs : List MbCodes, zs.length < mbs.length ∧ EncodedAs mbs zs t ∧
        DecodedAs mbs zs t ∧ RefKeptOutside (mbs.take zs.length) s t) ∧
      (exec .framedec s = .next t → (t.ref = s.ref ∧ t.result = s.result) ∨
        (t.result = 1 ∧ ∃ zs : List MbCodes, zs.length < mbs.length ∧ CodesLegal mbs zs ∧ DecodedAs mbs zs t ∧
          RefKeptOutside (mbs.take zs.length) s t ∧
          (s.rlost = false → (true :: codesBits zs) <+: readable s))))

/-- R54, R263, R267, R269, R271, R272: with STATUS = OK, a frame latched, every SRC sample of it written and enough OUT
transactions answered `ok`, FRAMEENC completes, whatever REF and the writer held. There are codes zs, one a macroblock in
coding order, and a frame, which depend on SRC alone: each macroblock has the mode Select gives it beside its neighbours'
reconstruction in that frame, and the codes of that mode's residuals; its samples in the frame are the reconstruction
from those codes. FRAMEENC writes the flag 1 and the codes' bits (Written), gives REF the frame, keeps REF at indices
outside it, and changes nothing else. -/
def Obligations.FrameencCompletes : Prop :=
  ∀ s : State, Inv s → s.inited = true → s.status = .ok → FrameWritten s →
    let mbs := tiles s.fw.toNat s.fh.toNat
    ∃ (zs : List MbCodes) (frame : Memory), zs.length = mbs.length ∧
      EncodedAs mbs zs { s with ref := frame } ∧ DecodedAs mbs zs { s with ref := frame } ∧
      ∀ (ports : Ports) (wbuf : List Bool) (ref : Memory), wbuf.length ≤ 63 →
        let s' := { s with ports := ports, wbuf := wbuf, ref := ref }
        acceptsBits (true :: codesBits zs).length s' → ∃ t u, exec .frameenc s' = .next t ∧
          Written (true :: codesBits zs) s' u ∧ t = { u with ref := t.ref } ∧
          (∀ a, a < s.fw.toNat * s.fh.toNat → (memRead t.ref a).isSome ∧ memRead t.ref a = memRead frame a) ∧
          (∀ a, s.fw.toNat * s.fh.toNat ≤ a → memRead t.ref a = memRead ref a)

/-- R275: after a FRAMEENC that completes with STATUS = OK and a FLUSH that does, a block with the same FW, FH, QTAB and
XFORM_KERNEL and an empty reader that gets the bytes sent, in any transactions, decodes them with FRAMEDEC to STATUS =
OK, RESULT = 1 and the encoder's REF, sample for sample, whatever either REF held before. -/
def Obligations.ClosedLoop : Prop :=
  ∀ s t u : State, Inv s → s.inited = true → s.status = .ok → s.wait = none → s.wbuf = [] → s.wlost = false →
    exec .frameenc s = .next t → t.wait = none → t.status = .ok →
    exec .flush t = .next u → u.wait = none → u.status = .ok →
    ∀ r : State, Inv r → r.inited = true → r.status = .ok → r.wait = none → r.rbuf = [] → r.rlost = false →
      r.fw = s.fw → r.fh = s.fh → r.cfg.qtab = s.cfg.qtab → r.cfg.kernel = s.cfg.kernel →
      supplies r.ports.inAnswers (newOutBytes s u) →
      ∃ q, exec .framedec r = .next q ∧ q.wait = none ∧ q.status = .ok ∧ q.result = 1 ∧
        ∀ a, a < s.fw.toNat * s.fh.toNat → memRead q.ref a = memRead t.ref a

/-- R268, R270, R272, R276: FRAMEDEC with a reader whose contents are specified (log 8). A key-frame flag of 0 is
consumed, sets RESULT to 0 and has no other effect. A flag of 1 and then the bits of codes zs that the decoder accepts,
one a macroblock in coding order, are read exactly: RESULT takes 1, each macroblock's REF samples are what its codes
decode to beside its neighbours, REF at indices outside the frame stays, and nothing else changes. -/
def Obligations.FramedecReadsFrame : Prop :=
  ∀ (s : State) (rest : List Bool), s.status = .ok → s.inited = true → s.rlost = false →
    (readable s = false :: rest → exec .framedec s = .next { afterReading 1 1 s with result := 0 }) ∧
    (∀ zs : List MbCodes, Inv s → zs.length = (tiles s.fw.toNat s.fh.toNat).length →
      CodesLegal (tiles s.fw.toNat s.fh.toNat) zs → readable s = true :: codesBits zs ++ rest →
      let n := (true :: codesBits zs).length
      ∃ t, exec .framedec s = .next t ∧ t = { afterReading n n s with ref := t.ref, result := 1 } ∧
        DecodedAs (tiles s.fw.toNat s.fh.toNat) zs t ∧
        ∀ a, s.fw.toNat * s.fh.toNat ≤ a → memRead t.ref a = memRead s.ref a)
end

