-- ==== Sys2Proof/Laws/Memory.lean ====
section
/-! SUPPORT. Laws of the sample memories: reads after writes, and every write keeps the canonical form and the range of
indices. -/

namespace Sys2Proof.Machine

theorem memRead_memWrite (m : Memory) (a b : Nat) (v : Byte) :
    memRead (memWrite m a v) b = if b = a then some v else memRead m b := by
  induction m with
  | nil => simp [memWrite, memRead]
  | cons c rest ih =>
    obtain ⟨i, w⟩ := c
    unfold memWrite
    split
    · simp [memRead]
    · split
      · rename_i hai
        subst hai
        by_cases h : b = a <;> simp [memRead, h]
      · rename_i h1 h2
        by_cases h : b = i
        · subst h; simp [memRead, Ne.symm h2]
        · simp [memRead, h, ih]

@[simp] theorem memRead_memWrite_same (m : Memory) (a : Nat) (v : Byte) :
    memRead (memWrite m a v) a = some v := by simp [memRead_memWrite]

theorem memRead_memWrite_other (m : Memory) {a b : Nat} (v : Byte) (h : b ≠ a) :
    memRead (memWrite m a v) b = memRead m b := by simp [memRead_memWrite, h]

/-- The cells of a memory after a write are the written one and cells it held. -/
theorem mem_memWrite {m : Memory} {a : Nat} {v : Byte} {c : Host.Cell} (h : c ∈ memWrite m a v) :
    c = (a, v) ∨ c ∈ m := by
  induction m with
  | nil => simp [memWrite] at h; exact .inl h
  | cons d rest ih =>
    unfold memWrite at h
    split at h
    · simpa using h
    · split at h
      · rcases List.mem_cons.1 h with h | h
        · exact .inl h
        · exact .inr (List.mem_cons_of_mem _ h)
      · rcases List.mem_cons.1 h with h | h
        · exact .inr (h ▸ List.mem_cons_self ..)
        · rcases ih h with h | h
          · exact .inl h
          · exact .inr (List.mem_cons_of_mem _ h)

theorem memWf_iff (m : Memory) : memWf m = true ↔ (m.map Prod.fst).Pairwise (· < ·) := by
  simp [memWf]

/-- A write keeps the canonical form. -/
theorem memWrite_wf {m : Memory} (a : Nat) (v : Byte) (h : memWf m = true) : memWf (memWrite m a v) = true := by
  rw [memWf_iff] at *
  induction m with
  | nil => simp [memWrite]
  | cons d rest ih =>
    obtain ⟨i, w⟩ := d
    rw [List.map_cons] at h
    have hrest := (List.pairwise_cons.1 h).2
    have hlow := (List.pairwise_cons.1 h).1
    unfold memWrite
    split
    · rename_i hai
      simp only [List.map_cons, List.pairwise_cons]
      refine ⟨?_, hlow, hrest⟩
      intro x hx
      rcases List.mem_cons.1 hx with rfl | hx
      · exact hai
      · exact hai.trans (hlow x hx)
    · split
      · subst_vars; exact h
      · rename_i h1 h2
        simp only [List.map_cons, List.pairwise_cons]
        refine ⟨?_, ih hrest⟩
        intro x hx
        obtain ⟨c, hc, rfl⟩ := List.mem_map.1 hx
        rcases mem_memWrite hc with rfl | hc
        · simp only; omega
        · exact hlow _ (List.mem_map_of_mem hc)

theorem memWriteAll_cons (m : Memory) (c : Host.Cell) (cells : List Host.Cell) :
    memWriteAll m (c :: cells) = memWriteAll (memWrite m c.1 c.2) cells := rfl

@[simp] theorem memWriteAll_nil (m : Memory) : memWriteAll m [] = m := rfl

theorem memWriteAll_append (m : Memory) (xs ys : List Host.Cell) :
    memWriteAll m (xs ++ ys) = memWriteAll (memWriteAll m xs) ys := by
  simp [memWriteAll, List.foldl_append]

theorem memWriteAll_wf {m : Memory} (cells : List Host.Cell) (h : memWf m = true) :
    memWf (memWriteAll m cells) = true := by
  induction cells generalizing m with
  | nil => exact h
  | cons c cells ih => exact ih (memWrite_wf _ _ h)

theorem mem_memWriteAll {m : Memory} {cells : List Host.Cell} {c : Host.Cell} (h : c ∈ memWriteAll m cells) :
    c ∈ cells ∨ c ∈ m := by
  induction cells generalizing m with
  | nil => exact .inr h
  | cons d cells ih =>
    rcases ih (m := memWrite m d.1 d.2) h with h | h
    · exact .inl (List.mem_cons_of_mem _ h)
    · rcases mem_memWrite h with rfl | h
      · exact .inl (List.mem_cons_self ..)
      · exact .inr h

/-- An index that none of the cells has reads as before. -/
theorem memRead_memWriteAll_other (m : Memory) (cells : List Host.Cell) {a : Nat}
    (h : ∀ c ∈ cells, c.1 ≠ a) : memRead (memWriteAll m cells) a = memRead m a := by
  induction cells generalizing m with
  | nil => rfl
  | cons c cells ih =>
    rw [memWriteAll_cons, ih _ fun d hd => h d (List.mem_cons_of_mem _ hd),
      memRead_memWrite_other _ _ (Ne.symm (h c (List.mem_cons_self ..)))]

/-- Where cells with one index agree, that index reads as they say. -/
theorem memRead_memWriteAll_mem (m : Memory) (cells : List Host.Cell) {a : Nat} {v : Byte}
    (hmem : (a, v) ∈ cells) (hone : ∀ c ∈ cells, c.1 = a → c.2 = v) :
    memRead (memWriteAll m cells) a = some v := by
  induction cells generalizing m with
  | nil => simp at hmem
  | cons c cells ih =>
    rw [memWriteAll_cons]
    by_cases hlater : (a, v) ∈ cells
    · exact ih _ hlater fun d hd => hone d (List.mem_cons_of_mem _ hd)
    · have hc : c = (a, v) := by
        rcases List.mem_cons.1 hmem with h | h
        · exact h.symm
        · exact absurd h hlater
      have hno : ∀ d ∈ cells, d.1 ≠ a := by
        intro d hd hda
        have := hone d (List.mem_cons_of_mem _ hd) hda
        exact hlater (by rw [← hda, ← this]; exact hd)
      rw [memRead_memWriteAll_other _ _ hno, hc]
      simp

/-- readCells answers exactly when every index holds a value, and then with those values in order. -/
theorem readCells_eq_some (m : Memory) (idx : List Nat) (vs : List Byte) :
    readCells m idx = some vs ↔ idx.map (memRead m) = vs.map some := by
  induction idx generalizing vs with
  | nil => cases vs <;> simp [readCells]
  | cons a rest ih =>
    rw [readCells]
    cases ha : memRead m a with
    | none => cases vs <;> simp [ha]
    | some v =>
      cases hr : readCells m rest with
      | none =>
        cases vs with
        | nil => simp
        | cons w ws =>
          simp only [List.map_cons, List.cons.injEq, reduceCtorEq, false_iff, not_and]
          intro _ hws
          exact absurd ((ih ws).2 hws) (by simp [hr])
      | some us =>
        have := (ih us).1 hr
        cases vs with
        | nil => simp
        | cons w ws =>
          simp only [List.map_cons, List.cons.injEq, Option.some.injEq, ha]
          rw [this]
          simp [List.map_inj_right]

theorem readCells_length {m : Memory} {idx : List Nat} {vs : List Byte} (h : readCells m idx = some vs) :
    vs.length = idx.length := by
  have := congrArg List.length ((readCells_eq_some m idx vs).1 h)
  simpa using this.symm

theorem readCells_eq_none (m : Memory) (idx : List Nat) :
    readCells m idx = none ↔ ∃ a ∈ idx, memRead m a = none := by
  induction idx with
  | nil => simp [readCells]
  | cons a rest ih =>
    rw [readCells]
    cases ha : memRead m a with
    | none => simp [ha]
    | some v =>
      cases hr : readCells m rest with
      | none => simpa [hr, ha] using ih
      | some us => simpa [hr, ha] using ih

end Sys2Proof.Machine
end

