-- ==== Sys2Proof/Laws/State.lean ====
section
/-! SUPPORT. For each shared operation that updates State, what each field holds afterwards: one lemma a field, so that
no proof unfolds a record update. -/

namespace Sys2Proof.Machine

/-! ### record -/

@[simp] theorem record_cfg (c : Status) (s : State) : (record c s).cfg = s.cfg := by unfold record; split <;> rfl
@[simp] theorem record_arg0 (c : Status) (s : State) : (record c s).arg0 = s.arg0 := by unfold record; split <;> rfl
@[simp] theorem record_arg1 (c : Status) (s : State) : (record c s).arg1 = s.arg1 := by unfold record; split <;> rfl
@[simp] theorem record_result (c : Status) (s : State) : (record c s).result = s.result := by unfold record; split <;> rfl
@[simp] theorem record_width (c : Status) (s : State) : (record c s).width = s.width := by unfold record; split <;> rfl
@[simp] theorem record_height (c : Status) (s : State) : (record c s).height = s.height := by unfold record; split <;> rfl
@[simp] theorem record_fw (c : Status) (s : State) : (record c s).fw = s.fw := by unfold record; split <;> rfl
@[simp] theorem record_fh (c : Status) (s : State) : (record c s).fh = s.fh := by unfold record; split <;> rfl
@[simp] theorem record_inited (c : Status) (s : State) : (record c s).inited = s.inited := by unfold record; split <;> rfl
@[simp] theorem record_banks (c : Status) (s : State) : (record c s).banks = s.banks := by unfold record; split <;> rfl
@[simp] theorem record_wbuf (c : Status) (s : State) : (record c s).wbuf = s.wbuf := by unfold record; split <;> rfl
@[simp] theorem record_rbuf (c : Status) (s : State) : (record c s).rbuf = s.rbuf := by unfold record; split <;> rfl
@[simp] theorem record_src (c : Status) (s : State) : (record c s).src = s.src := by unfold record; split <;> rfl
@[simp] theorem record_ref (c : Status) (s : State) : (record c s).ref = s.ref := by unfold record; split <;> rfl
@[simp] theorem record_ports (c : Status) (s : State) : (record c s).ports = s.ports := by unfold record; split <;> rfl
@[simp] theorem record_wait (c : Status) (s : State) : (record c s).wait = s.wait := by unfold record; split <;> rfl
@[simp] theorem record_host (c : Status) (s : State) : (record c s).host = s.host := by unfold record; split <;> rfl
@[simp] theorem record_hostLog (c : Status) (s : State) : (record c s).hostLog = s.hostLog := by unfold record; split <;> rfl
@[simp] theorem record_wlost (c : Status) (s : State) : (record c s).wlost = s.wlost := by unfold record; split <;> rfl
@[simp] theorem record_rlost (c : Status) (s : State) : (record c s).rlost = s.rlost := by unfold record; split <;> rfl
@[simp] theorem record_draws (c : Status) (s : State) : (record c s).draws = s.draws := by unfold record; split <;> rfl

@[simp] theorem record_status (c : Status) (s : State) :
    (record c s).status = if s.status = .ok then c else s.status := by unfold record; split <;> rfl

/-! ### drew -/

@[simp] theorem drew_cfg (k : Nat) (s : State) : (drew k s).cfg = s.cfg := rfl
@[simp] theorem drew_arg0 (k : Nat) (s : State) : (drew k s).arg0 = s.arg0 := rfl
@[simp] theorem drew_arg1 (k : Nat) (s : State) : (drew k s).arg1 = s.arg1 := rfl
@[simp] theorem drew_result (k : Nat) (s : State) : (drew k s).result = s.result := rfl
@[simp] theorem drew_status (k : Nat) (s : State) : (drew k s).status = s.status := rfl
@[simp] theorem drew_width (k : Nat) (s : State) : (drew k s).width = s.width := rfl
@[simp] theorem drew_height (k : Nat) (s : State) : (drew k s).height = s.height := rfl
@[simp] theorem drew_fw (k : Nat) (s : State) : (drew k s).fw = s.fw := rfl
@[simp] theorem drew_fh (k : Nat) (s : State) : (drew k s).fh = s.fh := rfl
@[simp] theorem drew_inited (k : Nat) (s : State) : (drew k s).inited = s.inited := rfl
@[simp] theorem drew_banks (k : Nat) (s : State) : (drew k s).banks = s.banks := rfl
@[simp] theorem drew_wbuf (k : Nat) (s : State) : (drew k s).wbuf = s.wbuf := rfl
@[simp] theorem drew_rbuf (k : Nat) (s : State) : (drew k s).rbuf = s.rbuf := rfl
@[simp] theorem drew_src (k : Nat) (s : State) : (drew k s).src = s.src := rfl
@[simp] theorem drew_ref (k : Nat) (s : State) : (drew k s).ref = s.ref := rfl
@[simp] theorem drew_ports (k : Nat) (s : State) : (drew k s).ports = s.ports := rfl
@[simp] theorem drew_wait (k : Nat) (s : State) : (drew k s).wait = s.wait := rfl
@[simp] theorem drew_host (k : Nat) (s : State) : (drew k s).host = s.host := rfl
@[simp] theorem drew_hostLog (k : Nat) (s : State) : (drew k s).hostLog = s.hostLog := rfl
@[simp] theorem drew_wlost (k : Nat) (s : State) : (drew k s).wlost = s.wlost := rfl
@[simp] theorem drew_rlost (k : Nat) (s : State) : (drew k s).rlost = s.rlost := rfl
@[simp] theorem drew_draws (k : Nat) (s : State) : (drew k s).draws = s.draws + k := rfl

/-! ### failRun -/

@[simp] theorem failRun_cfg (c : Status) (s : State) : (failRun c s).cfg = s.cfg := record_cfg c s
@[simp] theorem failRun_arg0 (c : Status) (s : State) : (failRun c s).arg0 = s.arg0 := record_arg0 c s
@[simp] theorem failRun_arg1 (c : Status) (s : State) : (failRun c s).arg1 = s.arg1 := record_arg1 c s
@[simp] theorem failRun_result (c : Status) (s : State) : (failRun c s).result = s.result := record_result c s
@[simp] theorem failRun_width (c : Status) (s : State) : (failRun c s).width = s.width := record_width c s
@[simp] theorem failRun_height (c : Status) (s : State) : (failRun c s).height = s.height := record_height c s
@[simp] theorem failRun_fw (c : Status) (s : State) : (failRun c s).fw = s.fw := record_fw c s
@[simp] theorem failRun_fh (c : Status) (s : State) : (failRun c s).fh = s.fh := record_fh c s
@[simp] theorem failRun_inited (c : Status) (s : State) : (failRun c s).inited = s.inited := record_inited c s
@[simp] theorem failRun_banks (c : Status) (s : State) : (failRun c s).banks = s.banks := record_banks c s
@[simp] theorem failRun_wbuf (c : Status) (s : State) : (failRun c s).wbuf = s.wbuf := record_wbuf c s
@[simp] theorem failRun_rbuf (c : Status) (s : State) : (failRun c s).rbuf = s.rbuf := record_rbuf c s
@[simp] theorem failRun_src (c : Status) (s : State) : (failRun c s).src = s.src := record_src c s
@[simp] theorem failRun_ref (c : Status) (s : State) : (failRun c s).ref = s.ref := record_ref c s
@[simp] theorem failRun_ports (c : Status) (s : State) : (failRun c s).ports = s.ports := record_ports c s
@[simp] theorem failRun_wait (c : Status) (s : State) : (failRun c s).wait = s.wait := record_wait c s
@[simp] theorem failRun_host (c : Status) (s : State) : (failRun c s).host = s.host := record_host c s
@[simp] theorem failRun_hostLog (c : Status) (s : State) : (failRun c s).hostLog = s.hostLog := record_hostLog c s
@[simp] theorem failRun_draws (c : Status) (s : State) : (failRun c s).draws = s.draws := record_draws c s
@[simp] theorem failRun_wlost (c : Status) (s : State) : (failRun c s).wlost = true := rfl
@[simp] theorem failRun_rlost (c : Status) (s : State) : (failRun c s).rlost = true := rfl
@[simp] theorem failRun_status (c : Status) (s : State) :
    (failRun c s).status = if s.status = .ok then c else s.status := record_status c s

/-! ### putStreamResult -/

@[simp] theorem putStreamResult_cfg (v : Nat) (s : State) : (putStreamResult v s).cfg = s.cfg := by unfold putStreamResult; split <;> rfl
@[simp] theorem putStreamResult_arg0 (v : Nat) (s : State) : (putStreamResult v s).arg0 = s.arg0 := by unfold putStreamResult; split <;> rfl
@[simp] theorem putStreamResult_arg1 (v : Nat) (s : State) : (putStreamResult v s).arg1 = s.arg1 := by unfold putStreamResult; split <;> rfl
@[simp] theorem putStreamResult_status (v : Nat) (s : State) : (putStreamResult v s).status = s.status := by unfold putStreamResult; split <;> rfl
@[simp] theorem putStreamResult_width (v : Nat) (s : State) : (putStreamResult v s).width = s.width := by unfold putStreamResult; split <;> rfl
@[simp] theorem putStreamResult_height (v : Nat) (s : State) : (putStreamResult v s).height = s.height := by unfold putStreamResult; split <;> rfl
@[simp] theorem putStreamResult_fw (v : Nat) (s : State) : (putStreamResult v s).fw = s.fw := by unfold putStreamResult; split <;> rfl
@[simp] theorem putStreamResult_fh (v : Nat) (s : State) : (putStreamResult v s).fh = s.fh := by unfold putStreamResult; split <;> rfl
@[simp] theorem putStreamResult_inited (v : Nat) (s : State) : (putStreamResult v s).inited = s.inited := by unfold putStreamResult; split <;> rfl
@[simp] theorem putStreamResult_banks (v : Nat) (s : State) : (putStreamResult v s).banks = s.banks := by unfold putStreamResult; split <;> rfl
@[simp] theorem putStreamResult_wbuf (v : Nat) (s : State) : (putStreamResult v s).wbuf = s.wbuf := by unfold putStreamResult; split <;> rfl
@[simp] theorem putStreamResult_rbuf (v : Nat) (s : State) : (putStreamResult v s).rbuf = s.rbuf := by unfold putStreamResult; split <;> rfl
@[simp] theorem putStreamResult_src (v : Nat) (s : State) : (putStreamResult v s).src = s.src := by unfold putStreamResult; split <;> rfl
@[simp] theorem putStreamResult_ref (v : Nat) (s : State) : (putStreamResult v s).ref = s.ref := by unfold putStreamResult; split <;> rfl
@[simp] theorem putStreamResult_ports (v : Nat) (s : State) : (putStreamResult v s).ports = s.ports := by unfold putStreamResult; split <;> rfl
@[simp] theorem putStreamResult_wait (v : Nat) (s : State) : (putStreamResult v s).wait = s.wait := by unfold putStreamResult; split <;> rfl
@[simp] theorem putStreamResult_host (v : Nat) (s : State) : (putStreamResult v s).host = s.host := by unfold putStreamResult; split <;> rfl
@[simp] theorem putStreamResult_hostLog (v : Nat) (s : State) : (putStreamResult v s).hostLog = s.hostLog := by unfold putStreamResult; split <;> rfl
@[simp] theorem putStreamResult_wlost (v : Nat) (s : State) : (putStreamResult v s).wlost = s.wlost := by unfold putStreamResult; split <;> rfl
@[simp] theorem putStreamResult_rlost (v : Nat) (s : State) : (putStreamResult v s).rlost = s.rlost := by unfold putStreamResult; split <;> rfl

/-! ### setBank -/

@[simp] theorem setBank_cfg (b : Nat) (x : Block) (s : State) : (setBank b x s).cfg = s.cfg := rfl
@[simp] theorem setBank_arg0 (b : Nat) (x : Block) (s : State) : (setBank b x s).arg0 = s.arg0 := rfl
@[simp] theorem setBank_arg1 (b : Nat) (x : Block) (s : State) : (setBank b x s).arg1 = s.arg1 := rfl
@[simp] theorem setBank_result (b : Nat) (x : Block) (s : State) : (setBank b x s).result = s.result := rfl
@[simp] theorem setBank_status (b : Nat) (x : Block) (s : State) : (setBank b x s).status = s.status := rfl
@[simp] theorem setBank_width (b : Nat) (x : Block) (s : State) : (setBank b x s).width = s.width := rfl
@[simp] theorem setBank_height (b : Nat) (x : Block) (s : State) : (setBank b x s).height = s.height := rfl
@[simp] theorem setBank_fw (b : Nat) (x : Block) (s : State) : (setBank b x s).fw = s.fw := rfl
@[simp] theorem setBank_fh (b : Nat) (x : Block) (s : State) : (setBank b x s).fh = s.fh := rfl
@[simp] theorem setBank_inited (b : Nat) (x : Block) (s : State) : (setBank b x s).inited = s.inited := rfl
@[simp] theorem setBank_banks (b : Nat) (x : Block) (s : State) : (setBank b x s).banks = s.banks.setIfInBounds b x := rfl
@[simp] theorem setBank_wbuf (b : Nat) (x : Block) (s : State) : (setBank b x s).wbuf = s.wbuf := rfl
@[simp] theorem setBank_rbuf (b : Nat) (x : Block) (s : State) : (setBank b x s).rbuf = s.rbuf := rfl
@[simp] theorem setBank_src (b : Nat) (x : Block) (s : State) : (setBank b x s).src = s.src := rfl
@[simp] theorem setBank_ref (b : Nat) (x : Block) (s : State) : (setBank b x s).ref = s.ref := rfl
@[simp] theorem setBank_ports (b : Nat) (x : Block) (s : State) : (setBank b x s).ports = s.ports := rfl
@[simp] theorem setBank_wait (b : Nat) (x : Block) (s : State) : (setBank b x s).wait = s.wait := rfl
@[simp] theorem setBank_host (b : Nat) (x : Block) (s : State) : (setBank b x s).host = s.host := rfl
@[simp] theorem setBank_hostLog (b : Nat) (x : Block) (s : State) : (setBank b x s).hostLog = s.hostLog := rfl
@[simp] theorem setBank_wlost (b : Nat) (x : Block) (s : State) : (setBank b x s).wlost = s.wlost := rfl
@[simp] theorem setBank_rlost (b : Nat) (x : Block) (s : State) : (setBank b x s).rlost = s.rlost := rfl
@[simp] theorem setBank_draws (b : Nat) (x : Block) (s : State) : (setBank b x s).draws = s.draws := rfl

/-! ### mapBanks -/

@[simp] theorem mapBanks_cfg (b n : Nat) (f : Nat → Block → Block) (s : State) : (mapBanks b n f s).cfg = s.cfg := by simp only [mapBanks]
@[simp] theorem mapBanks_arg0 (b n : Nat) (f : Nat → Block → Block) (s : State) : (mapBanks b n f s).arg0 = s.arg0 := by simp only [mapBanks]
@[simp] theorem mapBanks_arg1 (b n : Nat) (f : Nat → Block → Block) (s : State) : (mapBanks b n f s).arg1 = s.arg1 := by simp only [mapBanks]
@[simp] theorem mapBanks_result (b n : Nat) (f : Nat → Block → Block) (s : State) : (mapBanks b n f s).result = s.result := by simp only [mapBanks]
@[simp] theorem mapBanks_status (b n : Nat) (f : Nat → Block → Block) (s : State) : (mapBanks b n f s).status = s.status := by simp only [mapBanks]
@[simp] theorem mapBanks_width (b n : Nat) (f : Nat → Block → Block) (s : State) : (mapBanks b n f s).width = s.width := by simp only [mapBanks]
@[simp] theorem mapBanks_height (b n : Nat) (f : Nat → Block → Block) (s : State) : (mapBanks b n f s).height = s.height := by simp only [mapBanks]
@[simp] theorem mapBanks_fw (b n : Nat) (f : Nat → Block → Block) (s : State) : (mapBanks b n f s).fw = s.fw := by simp only [mapBanks]
@[simp] theorem mapBanks_fh (b n : Nat) (f : Nat → Block → Block) (s : State) : (mapBanks b n f s).fh = s.fh := by simp only [mapBanks]
@[simp] theorem mapBanks_inited (b n : Nat) (f : Nat → Block → Block) (s : State) : (mapBanks b n f s).inited = s.inited := by simp only [mapBanks]
@[simp] theorem mapBanks_wbuf (b n : Nat) (f : Nat → Block → Block) (s : State) : (mapBanks b n f s).wbuf = s.wbuf := by simp only [mapBanks]
@[simp] theorem mapBanks_rbuf (b n : Nat) (f : Nat → Block → Block) (s : State) : (mapBanks b n f s).rbuf = s.rbuf := by simp only [mapBanks]
@[simp] theorem mapBanks_src (b n : Nat) (f : Nat → Block → Block) (s : State) : (mapBanks b n f s).src = s.src := by simp only [mapBanks]
@[simp] theorem mapBanks_ref (b n : Nat) (f : Nat → Block → Block) (s : State) : (mapBanks b n f s).ref = s.ref := by simp only [mapBanks]
@[simp] theorem mapBanks_ports (b n : Nat) (f : Nat → Block → Block) (s : State) : (mapBanks b n f s).ports = s.ports := by simp only [mapBanks]
@[simp] theorem mapBanks_wait (b n : Nat) (f : Nat → Block → Block) (s : State) : (mapBanks b n f s).wait = s.wait := by simp only [mapBanks]
@[simp] theorem mapBanks_host (b n : Nat) (f : Nat → Block → Block) (s : State) : (mapBanks b n f s).host = s.host := by simp only [mapBanks]
@[simp] theorem mapBanks_hostLog (b n : Nat) (f : Nat → Block → Block) (s : State) : (mapBanks b n f s).hostLog = s.hostLog := by simp only [mapBanks]
@[simp] theorem mapBanks_wlost (b n : Nat) (f : Nat → Block → Block) (s : State) : (mapBanks b n f s).wlost = s.wlost := by simp only [mapBanks]
@[simp] theorem mapBanks_rlost (b n : Nat) (f : Nat → Block → Block) (s : State) : (mapBanks b n f s).rlost = s.rlost := by simp only [mapBanks]
@[simp] theorem mapBanks_draws (b n : Nat) (f : Nat → Block → Block) (s : State) : (mapBanks b n f s).draws = s.draws := by simp only [mapBanks]

/-! ### writeRef -/

@[simp] theorem writeRef_cfg (cells : List Host.Cell) (s : State) : (writeRef cells s).cfg = s.cfg := rfl
@[simp] theorem writeRef_arg0 (cells : List Host.Cell) (s : State) : (writeRef cells s).arg0 = s.arg0 := rfl
@[simp] theorem writeRef_arg1 (cells : List Host.Cell) (s : State) : (writeRef cells s).arg1 = s.arg1 := rfl
@[simp] theorem writeRef_result (cells : List Host.Cell) (s : State) : (writeRef cells s).result = s.result := rfl
@[simp] theorem writeRef_status (cells : List Host.Cell) (s : State) : (writeRef cells s).status = s.status := rfl
@[simp] theorem writeRef_width (cells : List Host.Cell) (s : State) : (writeRef cells s).width = s.width := rfl
@[simp] theorem writeRef_height (cells : List Host.Cell) (s : State) : (writeRef cells s).height = s.height := rfl
@[simp] theorem writeRef_fw (cells : List Host.Cell) (s : State) : (writeRef cells s).fw = s.fw := rfl
@[simp] theorem writeRef_fh (cells : List Host.Cell) (s : State) : (writeRef cells s).fh = s.fh := rfl
@[simp] theorem writeRef_inited (cells : List Host.Cell) (s : State) : (writeRef cells s).inited = s.inited := rfl
@[simp] theorem writeRef_banks (cells : List Host.Cell) (s : State) : (writeRef cells s).banks = s.banks := rfl
@[simp] theorem writeRef_wbuf (cells : List Host.Cell) (s : State) : (writeRef cells s).wbuf = s.wbuf := rfl
@[simp] theorem writeRef_rbuf (cells : List Host.Cell) (s : State) : (writeRef cells s).rbuf = s.rbuf := rfl
@[simp] theorem writeRef_src (cells : List Host.Cell) (s : State) : (writeRef cells s).src = s.src := rfl
@[simp] theorem writeRef_ref (cells : List Host.Cell) (s : State) : (writeRef cells s).ref = memWriteAll s.ref cells := rfl
@[simp] theorem writeRef_ports (cells : List Host.Cell) (s : State) : (writeRef cells s).ports = s.ports := rfl
@[simp] theorem writeRef_wait (cells : List Host.Cell) (s : State) : (writeRef cells s).wait = s.wait := rfl
@[simp] theorem writeRef_host (cells : List Host.Cell) (s : State) : (writeRef cells s).host = s.host := rfl
@[simp] theorem writeRef_hostLog (cells : List Host.Cell) (s : State) : (writeRef cells s).hostLog = s.hostLog := rfl
@[simp] theorem writeRef_wlost (cells : List Host.Cell) (s : State) : (writeRef cells s).wlost = s.wlost := rfl
@[simp] theorem writeRef_rlost (cells : List Host.Cell) (s : State) : (writeRef cells s).rlost = s.rlost := rfl
@[simp] theorem writeRef_draws (cells : List Host.Cell) (s : State) : (writeRef cells s).draws = s.draws := rfl

/-! ### takeIn -/

@[simp] theorem takeIn_cfg (a : InAnswer) (rest : List InAnswer) (s : State) : (takeIn a rest s).cfg = s.cfg := rfl
@[simp] theorem takeIn_arg0 (a : InAnswer) (rest : List InAnswer) (s : State) : (takeIn a rest s).arg0 = s.arg0 := rfl
@[simp] theorem takeIn_arg1 (a : InAnswer) (rest : List InAnswer) (s : State) : (takeIn a rest s).arg1 = s.arg1 := rfl
@[simp] theorem takeIn_result (a : InAnswer) (rest : List InAnswer) (s : State) : (takeIn a rest s).result = s.result := rfl
@[simp] theorem takeIn_status (a : InAnswer) (rest : List InAnswer) (s : State) : (takeIn a rest s).status = s.status := rfl
@[simp] theorem takeIn_width (a : InAnswer) (rest : List InAnswer) (s : State) : (takeIn a rest s).width = s.width := rfl
@[simp] theorem takeIn_height (a : InAnswer) (rest : List InAnswer) (s : State) : (takeIn a rest s).height = s.height := rfl
@[simp] theorem takeIn_fw (a : InAnswer) (rest : List InAnswer) (s : State) : (takeIn a rest s).fw = s.fw := rfl
@[simp] theorem takeIn_fh (a : InAnswer) (rest : List InAnswer) (s : State) : (takeIn a rest s).fh = s.fh := rfl
@[simp] theorem takeIn_inited (a : InAnswer) (rest : List InAnswer) (s : State) : (takeIn a rest s).inited = s.inited := rfl
@[simp] theorem takeIn_banks (a : InAnswer) (rest : List InAnswer) (s : State) : (takeIn a rest s).banks = s.banks := rfl
@[simp] theorem takeIn_wbuf (a : InAnswer) (rest : List InAnswer) (s : State) : (takeIn a rest s).wbuf = s.wbuf := rfl
@[simp] theorem takeIn_rbuf (a : InAnswer) (rest : List InAnswer) (s : State) : (takeIn a rest s).rbuf = s.rbuf := rfl
@[simp] theorem takeIn_src (a : InAnswer) (rest : List InAnswer) (s : State) : (takeIn a rest s).src = s.src := rfl
@[simp] theorem takeIn_ref (a : InAnswer) (rest : List InAnswer) (s : State) : (takeIn a rest s).ref = s.ref := rfl
@[simp] theorem takeIn_wait (a : InAnswer) (rest : List InAnswer) (s : State) : (takeIn a rest s).wait = s.wait := rfl
@[simp] theorem takeIn_host (a : InAnswer) (rest : List InAnswer) (s : State) : (takeIn a rest s).host = s.host := rfl
@[simp] theorem takeIn_hostLog (a : InAnswer) (rest : List InAnswer) (s : State) : (takeIn a rest s).hostLog = s.hostLog := rfl
@[simp] theorem takeIn_wlost (a : InAnswer) (rest : List InAnswer) (s : State) : (takeIn a rest s).wlost = s.wlost := rfl
@[simp] theorem takeIn_rlost (a : InAnswer) (rest : List InAnswer) (s : State) : (takeIn a rest s).rlost = s.rlost := rfl
@[simp] theorem takeIn_draws (a : InAnswer) (rest : List InAnswer) (s : State) : (takeIn a rest s).draws = s.draws := rfl

/-! ### dropBit -/

@[simp] theorem dropBit_cfg (s : State) : (dropBit s).cfg = s.cfg := rfl
@[simp] theorem dropBit_arg0 (s : State) : (dropBit s).arg0 = s.arg0 := rfl
@[simp] theorem dropBit_arg1 (s : State) : (dropBit s).arg1 = s.arg1 := rfl
@[simp] theorem dropBit_result (s : State) : (dropBit s).result = s.result := rfl
@[simp] theorem dropBit_status (s : State) : (dropBit s).status = s.status := rfl
@[simp] theorem dropBit_width (s : State) : (dropBit s).width = s.width := rfl
@[simp] theorem dropBit_height (s : State) : (dropBit s).height = s.height := rfl
@[simp] theorem dropBit_fw (s : State) : (dropBit s).fw = s.fw := rfl
@[simp] theorem dropBit_fh (s : State) : (dropBit s).fh = s.fh := rfl
@[simp] theorem dropBit_inited (s : State) : (dropBit s).inited = s.inited := rfl
@[simp] theorem dropBit_banks (s : State) : (dropBit s).banks = s.banks := rfl
@[simp] theorem dropBit_wbuf (s : State) : (dropBit s).wbuf = s.wbuf := rfl
@[simp] theorem dropBit_rbuf (s : State) : (dropBit s).rbuf = s.rbuf.tail := rfl
@[simp] theorem dropBit_src (s : State) : (dropBit s).src = s.src := rfl
@[simp] theorem dropBit_ref (s : State) : (dropBit s).ref = s.ref := rfl
@[simp] theorem dropBit_ports (s : State) : (dropBit s).ports = s.ports := rfl
@[simp] theorem dropBit_wait (s : State) : (dropBit s).wait = s.wait := rfl
@[simp] theorem dropBit_host (s : State) : (dropBit s).host = s.host := rfl
@[simp] theorem dropBit_hostLog (s : State) : (dropBit s).hostLog = s.hostLog := rfl
@[simp] theorem dropBit_wlost (s : State) : (dropBit s).wlost = s.wlost := rfl
@[simp] theorem dropBit_rlost (s : State) : (dropBit s).rlost = s.rlost := rfl
@[simp] theorem dropBit_draws (s : State) : (dropBit s).draws = s.draws := rfl

/-! ### loadReader -/

@[simp] theorem loadReader_cfg (bytes : List Byte) (s : State) : (loadReader bytes s).cfg = s.cfg := by unfold loadReader; split <;> rfl
@[simp] theorem loadReader_arg0 (bytes : List Byte) (s : State) : (loadReader bytes s).arg0 = s.arg0 := by unfold loadReader; split <;> rfl
@[simp] theorem loadReader_arg1 (bytes : List Byte) (s : State) : (loadReader bytes s).arg1 = s.arg1 := by unfold loadReader; split <;> rfl
@[simp] theorem loadReader_result (bytes : List Byte) (s : State) : (loadReader bytes s).result = s.result := by unfold loadReader; split <;> rfl
@[simp] theorem loadReader_status (bytes : List Byte) (s : State) : (loadReader bytes s).status = s.status := by unfold loadReader; split <;> rfl
@[simp] theorem loadReader_width (bytes : List Byte) (s : State) : (loadReader bytes s).width = s.width := by unfold loadReader; split <;> rfl
@[simp] theorem loadReader_height (bytes : List Byte) (s : State) : (loadReader bytes s).height = s.height := by unfold loadReader; split <;> rfl
@[simp] theorem loadReader_fw (bytes : List Byte) (s : State) : (loadReader bytes s).fw = s.fw := by unfold loadReader; split <;> rfl
@[simp] theorem loadReader_fh (bytes : List Byte) (s : State) : (loadReader bytes s).fh = s.fh := by unfold loadReader; split <;> rfl
@[simp] theorem loadReader_inited (bytes : List Byte) (s : State) : (loadReader bytes s).inited = s.inited := by unfold loadReader; split <;> rfl
@[simp] theorem loadReader_banks (bytes : List Byte) (s : State) : (loadReader bytes s).banks = s.banks := by unfold loadReader; split <;> rfl
@[simp] theorem loadReader_src (bytes : List Byte) (s : State) : (loadReader bytes s).src = s.src := by unfold loadReader; split <;> rfl
@[simp] theorem loadReader_ref (bytes : List Byte) (s : State) : (loadReader bytes s).ref = s.ref := by unfold loadReader; split <;> rfl
@[simp] theorem loadReader_ports (bytes : List Byte) (s : State) : (loadReader bytes s).ports = s.ports := by unfold loadReader; split <;> rfl
@[simp] theorem loadReader_wait (bytes : List Byte) (s : State) : (loadReader bytes s).wait = s.wait := by unfold loadReader; split <;> rfl
@[simp] theorem loadReader_host (bytes : List Byte) (s : State) : (loadReader bytes s).host = s.host := by unfold loadReader; split <;> rfl
@[simp] theorem loadReader_hostLog (bytes : List Byte) (s : State) : (loadReader bytes s).hostLog = s.hostLog := by unfold loadReader; split <;> rfl
@[simp] theorem loadReader_wlost (bytes : List Byte) (s : State) : (loadReader bytes s).wlost = s.wlost := by unfold loadReader; split <;> rfl
@[simp] theorem loadReader_rlost (bytes : List Byte) (s : State) : (loadReader bytes s).rlost = s.rlost := by unfold loadReader; split <;> rfl
@[simp] theorem loadReader_wbuf (bytes : List Byte) (s : State) : (loadReader bytes s).wbuf = s.wbuf := by unfold loadReader; split <;> rfl

@[simp] theorem drawnBytes_length (n k : Nat) : (drawnBytes n k).length = k := by simp [drawnBytes]
@[simp] theorem drawnBits_length (n k : Nat) : (drawnBits n k).length = k := by simp [drawnBits]

theorem loadReader_exact {s : State} (h : s.rlost = false) (bytes : List Byte) :
    loadReader bytes s = { s with rbuf := bytesBits bytes } := by simp [loadReader, h]

/-! ### settle -/

@[simp] theorem redrawWriter_cfg (s : State) : (redrawWriter s).cfg = s.cfg := rfl
@[simp] theorem redrawWriter_arg0 (s : State) : (redrawWriter s).arg0 = s.arg0 := rfl
@[simp] theorem redrawWriter_arg1 (s : State) : (redrawWriter s).arg1 = s.arg1 := rfl
@[simp] theorem redrawWriter_result (s : State) : (redrawWriter s).result = s.result := rfl
@[simp] theorem redrawWriter_status (s : State) : (redrawWriter s).status = s.status := rfl
@[simp] theorem redrawWriter_width (s : State) : (redrawWriter s).width = s.width := rfl
@[simp] theorem redrawWriter_height (s : State) : (redrawWriter s).height = s.height := rfl
@[simp] theorem redrawWriter_fw (s : State) : (redrawWriter s).fw = s.fw := rfl
@[simp] theorem redrawWriter_fh (s : State) : (redrawWriter s).fh = s.fh := rfl
@[simp] theorem redrawWriter_inited (s : State) : (redrawWriter s).inited = s.inited := rfl
@[simp] theorem redrawWriter_banks (s : State) : (redrawWriter s).banks = s.banks := rfl
@[simp] theorem redrawWriter_src (s : State) : (redrawWriter s).src = s.src := rfl
@[simp] theorem redrawWriter_ref (s : State) : (redrawWriter s).ref = s.ref := rfl
@[simp] theorem redrawWriter_ports (s : State) : (redrawWriter s).ports = s.ports := rfl
@[simp] theorem redrawWriter_wait (s : State) : (redrawWriter s).wait = s.wait := rfl
@[simp] theorem redrawWriter_host (s : State) : (redrawWriter s).host = s.host := rfl
@[simp] theorem redrawWriter_hostLog (s : State) : (redrawWriter s).hostLog = s.hostLog := rfl
@[simp] theorem redrawWriter_wlost (s : State) : (redrawWriter s).wlost = s.wlost := rfl
@[simp] theorem redrawWriter_rlost (s : State) : (redrawWriter s).rlost = s.rlost := rfl
@[simp] theorem redrawWriter_rbuf (s : State) : (redrawWriter s).rbuf = s.rbuf := rfl
@[simp] theorem redrawReader_cfg (s : State) : (redrawReader s).cfg = s.cfg := rfl
@[simp] theorem redrawReader_arg0 (s : State) : (redrawReader s).arg0 = s.arg0 := rfl
@[simp] theorem redrawReader_arg1 (s : State) : (redrawReader s).arg1 = s.arg1 := rfl
@[simp] theorem redrawReader_result (s : State) : (redrawReader s).result = s.result := rfl
@[simp] theorem redrawReader_status (s : State) : (redrawReader s).status = s.status := rfl
@[simp] theorem redrawReader_width (s : State) : (redrawReader s).width = s.width := rfl
@[simp] theorem redrawReader_height (s : State) : (redrawReader s).height = s.height := rfl
@[simp] theorem redrawReader_fw (s : State) : (redrawReader s).fw = s.fw := rfl
@[simp] theorem redrawReader_fh (s : State) : (redrawReader s).fh = s.fh := rfl
@[simp] theorem redrawReader_inited (s : State) : (redrawReader s).inited = s.inited := rfl
@[simp] theorem redrawReader_banks (s : State) : (redrawReader s).banks = s.banks := rfl
@[simp] theorem redrawReader_src (s : State) : (redrawReader s).src = s.src := rfl
@[simp] theorem redrawReader_ref (s : State) : (redrawReader s).ref = s.ref := rfl
@[simp] theorem redrawReader_ports (s : State) : (redrawReader s).ports = s.ports := rfl
@[simp] theorem redrawReader_wait (s : State) : (redrawReader s).wait = s.wait := rfl
@[simp] theorem redrawReader_host (s : State) : (redrawReader s).host = s.host := rfl
@[simp] theorem redrawReader_hostLog (s : State) : (redrawReader s).hostLog = s.hostLog := rfl
@[simp] theorem redrawReader_wlost (s : State) : (redrawReader s).wlost = s.wlost := rfl
@[simp] theorem redrawReader_rlost (s : State) : (redrawReader s).rlost = s.rlost := rfl
@[simp] theorem redrawReader_wbuf (s : State) : (redrawReader s).wbuf = s.wbuf := rfl

@[simp] theorem settle_cfg (i : Instr) (s t : State) : (settle i s t).cfg = t.cfg := by
  simp only [settle]; split <;> split <;> rfl
@[simp] theorem settle_arg0 (i : Instr) (s t : State) : (settle i s t).arg0 = t.arg0 := by
  simp only [settle]; split <;> split <;> rfl
@[simp] theorem settle_arg1 (i : Instr) (s t : State) : (settle i s t).arg1 = t.arg1 := by
  simp only [settle]; split <;> split <;> rfl
@[simp] theorem settle_result (i : Instr) (s t : State) : (settle i s t).result = t.result := by
  simp only [settle]; split <;> split <;> rfl
@[simp] theorem settle_status (i : Instr) (s t : State) : (settle i s t).status = t.status := by
  simp only [settle]; split <;> split <;> rfl
@[simp] theorem settle_width (i : Instr) (s t : State) : (settle i s t).width = t.width := by
  simp only [settle]; split <;> split <;> rfl
@[simp] theorem settle_height (i : Instr) (s t : State) : (settle i s t).height = t.height := by
  simp only [settle]; split <;> split <;> rfl
@[simp] theorem settle_fw (i : Instr) (s t : State) : (settle i s t).fw = t.fw := by
  simp only [settle]; split <;> split <;> rfl
@[simp] theorem settle_fh (i : Instr) (s t : State) : (settle i s t).fh = t.fh := by
  simp only [settle]; split <;> split <;> rfl
@[simp] theorem settle_inited (i : Instr) (s t : State) : (settle i s t).inited = t.inited := by
  simp only [settle]; split <;> split <;> rfl
@[simp] theorem settle_banks (i : Instr) (s t : State) : (settle i s t).banks = t.banks := by
  simp only [settle]; split <;> split <;> rfl
@[simp] theorem settle_src (i : Instr) (s t : State) : (settle i s t).src = t.src := by
  simp only [settle]; split <;> split <;> rfl
@[simp] theorem settle_ref (i : Instr) (s t : State) : (settle i s t).ref = t.ref := by
  simp only [settle]; split <;> split <;> rfl
@[simp] theorem settle_ports (i : Instr) (s t : State) : (settle i s t).ports = t.ports := by
  simp only [settle]; split <;> split <;> rfl
@[simp] theorem settle_wait (i : Instr) (s t : State) : (settle i s t).wait = t.wait := by
  simp only [settle]; split <;> split <;> rfl
@[simp] theorem settle_host (i : Instr) (s t : State) : (settle i s t).host = t.host := by
  simp only [settle]; split <;> split <;> rfl
@[simp] theorem settle_hostLog (i : Instr) (s t : State) : (settle i s t).hostLog = t.hostLog := by
  simp only [settle]; split <;> split <;> rfl
@[simp] theorem settle_wlost (i : Instr) (s t : State) : (settle i s t).wlost = t.wlost := by
  simp only [settle]; split <;> split <;> rfl
@[simp] theorem settle_rlost (i : Instr) (s t : State) : (settle i s t).rlost = t.rlost := by
  simp only [settle]; split <;> split <;> rfl

/-- A buffer whose contents have not become unspecified, and which i does not use while they are, stays (U4). -/
theorem settle_same {i : Instr} {s t : State} (hw : t.wlost = true → s.wlost = true ∧ writesStream i = false)
    (hr : t.rlost = true → s.rlost = true ∧ readsStream i = false) : settle i s t = t := by
  have h1 : (t.wlost && (!s.wlost || writesStream i)) = false := by
    cases h : t.wlost
    · rfl
    · obtain ⟨a, b⟩ := hw h; simp [a, b]
  have h2 : (t.rlost && (!s.rlost || readsStream i)) = false := by
    cases h : t.rlost
    · rfl
    · obtain ⟨a, b⟩ := hr h; simp [a, b]
  simp [settle, h1, h2]

/-- All that settle can do: each buffer stays, or is unspecified and has taken a free content. -/
theorem settle_cases (i : Instr) (s t : State) : ∃ x y d,
    settle i s t = { t with wbuf := x, rbuf := y, draws := d } ∧
    (x = t.wbuf ∨ t.wlost = true ∧ (s.wlost = true → writesStream i = true) ∧ x.length ≤ 63) ∧
    (y = t.rbuf ∨ t.rlost = true ∧ (s.rlost = true → readsStream i = true) ∧ y.length ≤ 64) := by
  have hn : ∀ n k : Nat, (drawnBits n k).length = k := drawnBits_length
  simp only [settle]
  split <;> rename_i h1
  · have hw : (redrawWriter t).wbuf.length ≤ 63 := by simp only [redrawWriter, hn]; omega
    simp only [Bool.and_eq_true, Bool.or_eq_true, Bool.not_eq_true'] at h1
    have hw2 : s.wlost = true → writesStream i = true := fun h => h1.2.resolve_left (by simp [h])
    split <;> rename_i h2
    · have hr : (redrawReader (redrawWriter t)).rbuf.length ≤ 64 := by simp only [redrawReader, hn]; omega
      simp only [Bool.and_eq_true, Bool.or_eq_true, Bool.not_eq_true', redrawWriter_rlost] at h2
      exact ⟨_, _, _, rfl, .inr ⟨h1.1, hw2, hw⟩, .inr ⟨h2.1, fun h => h2.2.resolve_left (by simp [h]), hr⟩⟩
    · exact ⟨_, _, _, rfl, .inr ⟨h1.1, hw2, hw⟩, .inl rfl⟩
  · split <;> rename_i h2
    · have hr : (redrawReader t).rbuf.length ≤ 64 := by simp only [redrawReader, hn]; omega
      simp only [Bool.and_eq_true, Bool.or_eq_true, Bool.not_eq_true'] at h2
      exact ⟨_, _, _, rfl, .inl rfl, .inr ⟨h2.1, fun h => h2.2.resolve_left (by simp [h]), hr⟩⟩
    · exact ⟨_, _, t.draws, rfl, .inl rfl, .inl rfl⟩

/-- Where the reader's contents have become unspecified, both buffers are free within their ranges. -/
theorem settle_failed {i : Instr} {s t : State} (hw : t.wbuf.length ≤ 63) (ht : t.rlost = true) (hs : s.rlost = false) :
    ∃ x y d, settle i s t = { t with wbuf := x, rbuf := y, draws := d } ∧ x.length ≤ 63 ∧ y.length ≤ 64 := by
  have hn : ∀ n k : Nat, (drawnBits n k).length = k := drawnBits_length
  obtain ⟨u, x, d, hu, e, hx⟩ : ∃ u x d, (if t.wlost && (!s.wlost || writesStream i) then redrawWriter t else t) = u ∧
      u = { t with wbuf := x, draws := d } ∧ x.length ≤ 63 := by
    split
    · exact ⟨_, _, _, rfl, rfl, by simp only [hn]; omega⟩
    · exact ⟨_, t.wbuf, t.draws, rfl, rfl, hw⟩
  refine ⟨x, (redrawReader u).rbuf, (redrawReader u).draws, ?_, hx, by simp only [redrawReader, hn]; omega⟩
  have hr : (u.rlost && (!s.rlost || readsStream i)) = true := by rw [e]; simp [ht, hs]
  simp only [settle, hu, hr, if_true]
  rw [redrawReader, e]

end Sys2Proof.Machine
end

