-- ==== Sys2Proof/Laws/Stream.lean ====
section
/-! SUPPORT. What the bit writer and the bit reader do over a stretch of the stream, once: while nothing fails and the
host has answered, emitBits is afterWriting and readBits is afterReading (R144). -/

namespace Sys2Proof.Machine

/-! ### Steps of a command -/

@[simp] theorem andThen_done {α β : Type} (a : α) (s : State) (k : α → State → Run β) :
    (Run.done a s).andThen k = k a s := rfl
@[simp] theorem andThen_ended {α β : Type} (s : State) (k : α → State → Run β) :
    (Run.ended s : Run α).andThen k = .ended s := rfl
@[simp] theorem andThen_waiting {α β : Type} (r : PortRequest) (s : State) (k : α → State → Run β) :
    (Run.waiting r s : Run α).andThen k = .waiting r s := rfl
@[simp] theorem andThen_faulted {α β : Type} (f : Fault) (k : α → State → Run β) :
    (Run.faulted f : Run α).andThen k = .faulted f := rfl

theorem andThen_assoc {α β γ : Type} (r : Run α) (k : α → State → Run β) (l : β → State → Run γ) :
    (r.andThen k).andThen l = r.andThen fun a s => (k a s).andThen l := by cases r <;> rfl

@[simp] theorem finish_done (i : Instr) (s t : State) : finish i s (.done () t) = .next (settle i s t) := rfl
@[simp] theorem finish_ended (i : Instr) (s t : State) : finish i s (.ended t) = .next (settle i s t) := rfl
@[simp] theorem finish_waiting (i : Instr) (s t : State) (req : PortRequest) :
    finish i s (.waiting req t) = .next { s with wait := some (waitRecord i req t) } := rfl
@[simp] theorem finish_faulted (i : Instr) (s : State) (f : Fault) : finish i s (.faulted f) = .fault f := rfl

/-! ### Bit sequences -/

@[simp] theorem natBits_length (n v : Nat) : (natBits n v).length = n := by simp [natBits]

theorem bitsVal_foldl (bits : List Bool) (v : Nat) :
    bits.foldl (fun v b => 2 * v + b.toNat) v = v * 2 ^ bits.length + bitsVal bits := by
  induction bits generalizing v with
  | nil => simp [bitsVal]
  | cons b bits ih =>
    rw [List.foldl_cons, ih]
    have : bitsVal (b :: bits) = b.toNat * 2 ^ bits.length + bitsVal bits := by
      rw [bitsVal, List.foldl_cons, ih]; simp
    rw [this, List.length_cons, Nat.pow_succ]
    ring

@[simp] theorem bitsVal_nil : bitsVal [] = 0 := rfl

theorem bitsVal_cons (b : Bool) (bits : List Bool) :
    bitsVal (b :: bits) = b.toNat * 2 ^ bits.length + bitsVal bits := by
  rw [bitsVal, List.foldl_cons, bitsVal_foldl]; simp

theorem bitsVal_append (xs ys : List Bool) : bitsVal (xs ++ ys) = bitsVal xs * 2 ^ ys.length + bitsVal ys := by
  rw [bitsVal, List.foldl_append, bitsVal_foldl]; rfl

theorem bitsVal_lt (bits : List Bool) : bitsVal bits < 2 ^ bits.length := by
  induction bits with
  | nil => simp
  | cons b bits ih =>
    rw [bitsVal_cons, List.length_cons, Nat.pow_succ]
    cases b <;> simp <;> omega

theorem natBits_succ (n v : Nat) : natBits (n + 1) v = v.testBit n :: natBits n v := by
  simp only [natBits, List.range_succ_eq_map, List.map_cons, List.map_map, List.cons.injEq]
  refine ⟨by simp, List.map_congr_left fun k _ => ?_⟩
  simp only [Function.comp]
  congr 1
  omega

/-- The n low-order bits of v, read back, are v modulo 2^n. -/
theorem bitsVal_natBits (n v : Nat) : bitsVal (natBits n v) = v % 2 ^ n := by
  induction n with
  | zero => simp [natBits, Nat.mod_one]
  | succ n ih =>
    rw [natBits_succ, bitsVal_cons, ih, natBits_length, Nat.mod_pow_succ, Nat.toNat_testBit, Nat.mul_comm, Nat.add_comm]

theorem bytesBits_length (bytes : List Byte) : (bytesBits bytes).length = 8 * bytes.length := by
  induction bytes with
  | nil => rfl
  | cons b bytes ih =>
    simp only [bytesBits, List.flatMap_cons, List.length_append, natBits_length, List.length_cons] at *
    omega

@[simp] theorem pack_length (bits : List Bool) : (pack bits).length = bits.length / 8 := by simp [pack]

/-! ### The bit writer -/

theorem afterWriting_nil {s : State} (h : s.wbuf.length ≤ 63) : afterWriting [] s = s := by
  have : s.wbuf.length / 64 = 0 := by omega
  simp [afterWriting, this]

/-- Writing one stretch after another is writing both. -/
theorem afterWriting_append (xs ys : List Bool) (s : State) :
    afterWriting (xs ++ ys) s = afterWriting ys (afterWriting xs s) := by
  have hk : 64 * ((s.wbuf ++ xs).length / 64) ≤ (s.wbuf ++ xs).length := Nat.mul_div_le ..
  generalize hst : s.wbuf ++ xs = st at *
  have hwb : (afterWriting xs s).wbuf = st.drop (64 * (st.length / 64)) := by simp [afterWriting, hst]
  have hsplit : (s.wbuf ++ (xs ++ ys)) = st ++ ys := by rw [← List.append_assoc, hst]
  have hdrop : (st ++ ys).drop (64 * (st.length / 64)) = st.drop (64 * (st.length / 64)) ++ ys :=
    List.drop_append_of_le_length hk
  have hlen : (st ++ ys).length / 64 = st.length / 64 + (st.drop (64 * (st.length / 64)) ++ ys).length / 64 := by
    simp only [List.length_append, List.length_drop]
    omega
  unfold afterWriting
  simp only [hsplit, hst]
  generalize (st.drop (64 * (st.length / 64)) ++ ys).length / 64 = k2 at *
  rw [hlen, ← hdrop]
  have hdd : ∀ j, ((st ++ ys).drop (64 * (st.length / 64))).drop (64 * j) =
      (st ++ ys).drop (64 * (st.length / 64 + j)) := by
    intro j; rw [List.drop_drop]; congr 1; ring
  simp only [hdd, List.drop_drop]
  congr 2
  · rw [List.range_add, List.map_append, List.map_map, List.append_assoc]
    congr 2
    apply List.map_congr_left
    intro j hj
    have hj := List.mem_range.1 hj
    have h1 : 64 * j + 64 ≤ st.length := by omega
    rw [List.drop_append_of_le_length (by omega), List.take_append_of_le_length (by simp; omega)]

theorem acceptsBits_append {s : State} {xs ys : List Bool} (h : acceptsBits (xs ++ ys).length s) :
    acceptsBits xs.length s ∧ acceptsBits ys.length (afterWriting xs s) := by
  have hk : 64 * ((s.wbuf ++ xs).length / 64) ≤ (s.wbuf ++ xs).length := Nat.mul_div_le ..
  simp only [acceptsBits, afterWriting, List.length_append, List.length_drop] at *
  generalize h1 : (s.wbuf.length + xs.length) / 64 = k1 at *
  have h2 : (s.wbuf.length + (xs.length + ys.length)) / 64 =
      k1 + (s.wbuf.length + xs.length - 64 * k1 + ys.length) / 64 := by omega
  rw [h2] at h
  generalize (s.wbuf.length + xs.length - 64 * k1 + ys.length) / 64 = k2 at *
  constructor
  · have := congrArg (List.take k1) h
    rw [List.take_take, List.take_replicate] at this
    rwa [show min k1 (k1 + k2) = k1 by omega] at this
  · have := congrArg (List.drop k1) h
    rw [List.drop_take, List.drop_replicate] at this
    rwa [show k1 + k2 - k1 = k2 by omega] at this

theorem afterWriting_wbuf_le (xs : List Bool) (s : State) : (afterWriting xs s).wbuf.length ≤ 63 := by
  simp only [afterWriting, List.length_drop]
  omega

@[simp] theorem afterWriting_status (xs : List Bool) (s : State) : (afterWriting xs s).status = s.status := rfl
@[simp] theorem afterWriting_wlost (xs : List Bool) (s : State) : (afterWriting xs s).wlost = s.wlost := rfl
@[simp] theorem afterWriting_rlost (xs : List Bool) (s : State) : (afterWriting xs s).rlost = s.rlost := rfl

/-- A writing command that has written exactly ends with that state. -/
theorem settle_written {i : Instr} (hi : readsStream i = false) {s t : State} (hw : t.wlost = false)
    (hr : t.rlost = s.rlost) : settle i s t = t :=
  settle_same (by simp [hw]) (fun h => ⟨by rw [← hr]; exact h, hi⟩)

/-- A reading command that has read exactly ends with that state. -/
theorem settle_read {i : Instr} (hi : writesStream i = false) {s t : State} (hr : t.rlost = false)
    (hw : t.wlost = s.wlost) : settle i s t = t :=
  settle_same (fun h => ⟨by rw [← hw]; exact h, hi⟩) (by simp [hr])

/-- A command that touches no stream mark and uses neither port ends with its state. -/
theorem settle_neither {i : Instr} (h1 : writesStream i = false) (h2 : readsStream i = false) {s t : State}
    (hw : t.wlost = s.wlost) (hr : t.rlost = s.rlost) : settle i s t = t :=
  settle_same (fun h => ⟨by rw [← hw]; exact h, h1⟩) (fun h => ⟨by rw [← hr]; exact h, h2⟩)

theorem writerExact_true {s : State} (hok : s.status = .ok) (hl : s.wlost = false) : writerExact s = true := by
  simp [writerExact, hok, hl]

theorem emitBit_eq {s : State} (b : Bool) (hok : s.status = .ok) (hl : s.wlost = false) (hw : s.wbuf.length ≤ 63)
    (hacc : acceptsBits 1 s) : emitBit b s = .done () (afterWriting [b] s) := by
  unfold emitBit
  simp only [writerExact_true hok hl, if_true]
  by_cases hfull : s.wbuf.length = 63
  · have hk : (s.wbuf.length + 1) / 64 = 1 := by omega
    simp only [acceptsBits, hk] at hacc
    obtain ⟨rest, hrest⟩ : ∃ rest, s.ports.outAnswers = .ok :: rest := by
      cases h : s.ports.outAnswers with
      | nil => simp [h] at hacc
      | cons a rest => simp [h, List.replicate] at hacc; exact ⟨rest, by rw [hacc]⟩
    have htake : (s.wbuf ++ [b]).take 64 = s.wbuf ++ [b] := List.take_of_length_le (by simp; omega)
    have hdrop : (s.wbuf ++ [b]).drop 64 = [] := List.drop_of_length_le (by simp; omega)
    simp [transfer, outWrite, writerExact, hok, hl, hrest, hfull, afterWriting, hdrop, htake, List.range_succ]
  · have hk : (s.wbuf.length + 1) / 64 = 0 := by omega
    have : ¬ s.wbuf.length + 1 = 64 := by omega
    simp only [List.length_append, List.length_singleton, this, if_false, afterWriting, hk]
    simp

/-- R131, R144: the writer over a stretch of bits while nothing fails and the host has answered. -/
theorem emitBits_eq {s : State} (bits : List Bool) (hok : s.status = .ok) (hl : s.wlost = false) (hw : s.wbuf.length ≤ 63)
    (hacc : acceptsBits bits.length s) : emitBits bits s = .done () (afterWriting bits s) := by
  induction bits generalizing s with
  | nil => rw [afterWriting_nil hw]; rfl
  | cons b rest ih =>
    have hsplit := acceptsBits_append (xs := [b]) (ys := rest) hacc
    rw [emitBits, emitBit_eq b hok hl hw hsplit.1, andThen_done,
      ih (s := afterWriting [b] s) (by simpa using hok) hl (afterWriting_wbuf_le ..) hsplit.2]
    rw [show b :: rest = [b] ++ rest from rfl, afterWriting_append]

theorem emitBits_append (xs ys : List Bool) (s : State) :
    emitBits (xs ++ ys) s = (emitBits xs s).andThen fun _ t => emitBits ys t := by
  induction xs generalizing s with
  | nil => rfl
  | cons b xs ih => simp only [List.cons_append, emitBits, andThen_assoc, ih]

/-! ### The bit reader -/

theorem dataAnswers_cons_data {a : InAnswer} {rest : List InAnswer} (h : answerBits a ≠ []) :
    dataAnswers (a :: rest) = a :: dataAnswers rest := by
  cases a with
  | fail => exact absurd rfl h
  | ok bytes hb =>
    cases bytes with
    | nil => exact absurd rfl h
    | cons b bytes => simp [dataAnswers]

theorem dataAnswers_cons_end {a : InAnswer} {rest : List InAnswer} (h : answerBits a = []) :
    dataAnswers (a :: rest) = [] := by
  cases a with
  | fail => simp [dataAnswers]
  | ok bytes hb =>
    cases bytes with
    | nil => simp [dataAnswers]
    | cons b bytes =>
      have := congrArg List.length h
      simp [answerBits, bytesBits_length] at this

theorem answerBits_length_le (a : InAnswer) : (answerBits a).length ≤ 64 := by
  cases a with
  | fail => simp [answerBits]
  | ok bytes hb => simp only [answerBits, bytesBits_length]; omega

/-- One data answer refills an empty buffer with its bits. -/
theorem refill_data {s : State} (hl : s.rlost = false) {a : InAnswer} {rest : List InAnswer} (ha : s.ports.inAnswers = a :: rest)
    (hb : answerBits a ≠ []) : refill s = .done () { takeIn a rest s with rbuf := answerBits a } := by
  cases a with
  | fail => exact absurd rfl hb
  | ok bytes h =>
    cases bytes with
    | nil => exact absurd rfl hb
    | cons b bytes => simp [refill, ha, answerBits, loadReader, hl]

theorem refillsFor_le (m g : Nat) (as : List InAnswer) : refillsFor m g as ≤ as.length := by
  induction as generalizing g with
  | nil => simp [refillsFor]
  | cons a as ih =>
    rw [refillsFor]
    split
    · omega
    · have := ih (g + (answerBits a).length); simp; omega

theorem refillsFor_zero {m g : Nat} (as : List InAnswer) (h : m ≤ g) : refillsFor m g as = 0 := by
  cases as with
  | nil => rfl
  | cons a as => rw [refillsFor, if_pos h]

/-- The refills that n bits need bring that many bits, if the data answers hold them. -/
theorem refillsFor_enough (n g : Nat) (as : List InAnswer)
    (h : n ≤ g + ((dataAnswers as).flatMap answerBits).length) :
    n ≤ g + ((as.take (refillsFor n g as)).flatMap answerBits).length ∧
      as.take (refillsFor n g as) <+: dataAnswers as := by
  induction as generalizing g with
  | nil => simpa [refillsFor, dataAnswers] using h
  | cons a as ih =>
    rw [refillsFor]
    split
    · simp; omega
    · rename_i hlt
      by_cases hb : answerBits a = []
      · rw [dataAnswers_cons_end hb] at h; simp at h; omega
      · rw [dataAnswers_cons_data hb] at h ⊢
        have := ih (g + (answerBits a).length) (by simp at h ⊢; omega)
        rw [Nat.add_comm 1, List.take_succ_cons]
        refine ⟨by simp at this ⊢; omega, ?_⟩
        exact List.prefix_cons_inj a |>.2 this.2

theorem refillsFor_add (n m g : Nat) (as : List InAnswer) :
    refillsFor (n + m) g as = refillsFor n g as +
      refillsFor (n + m) (g + ((as.take (refillsFor n g as)).flatMap answerBits).length)
        (as.drop (refillsFor n g as)) := by
  induction as generalizing g with
  | nil => simp [refillsFor]
  | cons a as ih =>
    by_cases h : n ≤ g
    · simp [refillsFor_zero _ h]
    · have h2 : ¬ n + m ≤ g := by omega
      rw [refillsFor, if_neg h2]
      conv_rhs => rw [refillsFor, if_neg h]
      rw [ih]
      simp only [Nat.add_comm 1, List.take_succ_cons, List.flatMap_cons, List.length_append, List.drop_succ_cons]
      rw [Nat.add_assoc g]
      omega

theorem refillsFor_sub {n m g : Nat} (as : List InAnswer) (h : n ≤ g) :
    refillsFor (n + m) g as = refillsFor m (g - n) as := by
  induction as generalizing g with
  | nil => rfl
  | cons a as ih =>
    rw [refillsFor, refillsFor]
    by_cases h2 : n + m ≤ g
    · rw [if_pos h2, if_pos (by omega)]
    · rw [if_neg h2, if_neg (by omega), ih (by omega)]
      congr 2; omega

@[simp] theorem afterReading_status (n m : Nat) (s : State) : (afterReading n m s).status = s.status := rfl
@[simp] theorem afterReading_wlost (n m : Nat) (s : State) : (afterReading n m s).wlost = s.wlost := rfl
@[simp] theorem afterReading_rlost (n m : Nat) (s : State) : (afterReading n m s).rlost = s.rlost := rfl

theorem afterReading_zero (s : State) : afterReading 0 0 s = s := by
  simp [afterReading, refillsFor_zero]

/-- Consuming a stretch and then needing more is one longer stretch. -/
theorem afterReading_add {s : State} {n : Nat} (n' m' : Nat) (h : n ≤ (readable s).length) :
    afterReading (n + n') (n + m') s = afterReading n' m' (afterReading n n s) := by
  have henough := (refillsFor_enough n s.rbuf.length s.ports.inAnswers (by simpa [readable] using h)).1
  have hadd := refillsFor_add n m' s.rbuf.length s.ports.inAnswers
  have hle := refillsFor_le n s.rbuf.length s.ports.inAnswers
  rw [refillsFor_sub _ henough] at hadd
  unfold afterReading
  simp only [hadd]
  generalize refillsFor n s.rbuf.length s.ports.inAnswers = k at *
  have hlen : ((s.rbuf ++ (s.ports.inAnswers.take k).flatMap answerBits).drop n).length =
      s.rbuf.length + ((s.ports.inAnswers.take k).flatMap answerBits).length - n := by simp
  rw [hlen]
  generalize refillsFor m' _ _ = k2
  have htake : s.ports.inAnswers.take (k + k2) = s.ports.inAnswers.take k ++ (s.ports.inAnswers.drop k).take k2 := by
    rw [List.take_add]
  simp only [htake, List.drop_drop, List.flatMap_append, List.append_assoc]
  congr 1
  rw [← List.append_assoc, ← List.drop_drop, List.drop_append_of_le_length (by simpa using henough)]

theorem readable_afterReading {s : State} {n m : Nat} (hm : m ≤ (readable s).length) (hn : n ≤ m) :
    readable (afterReading n m s) = (readable s).drop n := by
  obtain ⟨h1, h2⟩ := refillsFor_enough m s.rbuf.length s.ports.inAnswers (by simpa [readable] using hm)
  simp only [readable, afterReading]
  generalize refillsFor m s.rbuf.length s.ports.inAnswers = k at *
  have hsplit : ∀ (k : Nat) (as : List InAnswer), as.take k <+: dataAnswers as →
      dataAnswers as = as.take k ++ dataAnswers (as.drop k) := by
    intro k
    induction k with
    | zero => simp
    | succ k ih =>
      intro as hp
      cases as with
      | nil => simp [dataAnswers]
      | cons a as =>
        by_cases hb : answerBits a = []
        · rw [dataAnswers_cons_end hb] at hp; simp at hp
        · rw [dataAnswers_cons_data hb] at hp ⊢
          rw [List.take_succ_cons] at hp
          rw [List.take_succ_cons, List.drop_succ_cons, List.cons_append, ← ih as ((List.prefix_cons_inj a).1 hp)]
  conv_rhs => rw [hsplit _ _ h2]
  rw [List.flatMap_append, ← List.append_assoc, List.drop_append_of_le_length
    (l₁ := s.rbuf ++ (s.ports.inAnswers.take k).flatMap answerBits) (by rw [List.length_append]; omega)]

/-- R132: a bit is there to be seen. -/
theorem peekBit_eq {s : State} (hl : s.rlost = false) {b : Bool} {rest : List Bool} (h : readable s = b :: rest) :
    peekBit s = .done b (afterReading 0 1 s) := by
  unfold peekBit
  cases hr : s.rbuf with
  | cons c r =>
    simp only [readable, hr, List.cons_append, List.cons.injEq] at h
    have : refillsFor 1 (r.length + 1) s.ports.inAnswers = 0 := refillsFor_zero _ (by simp)
    simp [afterReading, hr, this, ← h.1]
    rw [← hr]
  | nil =>
    simp only [readable, hr, List.nil_append] at h
    cases ha : s.ports.inAnswers with
    | nil => simp [ha, dataAnswers] at h
    | cons a as =>
      by_cases hb : answerBits a = []
      · rw [ha, dataAnswers_cons_end hb] at h; simp at h
      · rw [ha, dataAnswers_cons_data hb, List.flatMap_cons] at h
        have hk : refillsFor 1 0 (a :: as) = 1 := by
          rw [refillsFor, if_neg (by omega), refillsFor_zero]
          have := List.length_pos_of_ne_nil hb
          omega
        simp only [refill_data hl ha hb, andThen_done]
        cases hab : answerBits a with
        | nil => exact absurd hab hb
        | cons c r =>
          rw [hab] at h
          simp only [List.cons_append, List.cons.injEq] at h
          simp [afterReading, hr, ha, hk, hab, h.1, takeIn]

theorem dropBit_afterReading (s : State) :
    dropBit (afterReading 0 1 s) = afterReading 1 1 s := by
  simp [dropBit, afterReading]

theorem nextBit_eq {s : State} (hl : s.rlost = false) {b : Bool} {rest : List Bool} (h : readable s = b :: rest) :
    nextBit s = .done b (afterReading 1 1 s) := by
  rw [nextBit, peekBit_eq hl h, andThen_done, dropBit_afterReading]

theorem readBits_acc {s : State} (hl : s.rlost = false) (n v : Nat) (h : n ≤ (readable s).length) :
    readBits n v s = .done (v * 2 ^ n + bitsVal ((readable s).take n)) (afterReading n n s) := by
  induction n generalizing s v with
  | zero => simp [readBits, afterReading_zero]
  | succ n ih =>
    cases hr : readable s with
    | nil => simp [hr] at h
    | cons b rest =>
      have h1 : 1 ≤ (readable s).length := by simp [hr]
      have hd : readable (afterReading 1 1 s) = rest := by
        rw [readable_afterReading h1 (Nat.le_refl _), hr]; rfl
      rw [readBits, nextBit_eq hl hr, andThen_done, ih (s := afterReading 1 1 s) hl _ (by rw [hd]; simp [hr] at h; omega), hd, List.take_succ_cons,
        bitsVal_cons]
      rw [show n + 1 = 1 + n by omega, afterReading_add n n h1]
      congr 1
      rw [List.length_take, Nat.min_eq_left (by simp [hr] at h; omega), Nat.pow_add]
      ring

/-- R138, R144: the reader over a stretch of readable bits. -/
theorem readBits_eq {s : State} (hl : s.rlost = false) (n : Nat) (h : n ≤ (readable s).length) :
    readBits n 0 s = .done (bitsVal ((readable s).take n)) (afterReading n n s) := by
  rw [readBits_acc hl n 0 h]; simp

theorem readable_length_le_bitsAhead (s : State) : (readable s).length ≤ bitsAhead s := by
  simp only [readable, bitsAhead, List.length_append, Nat.add_le_add_iff_left]
  induction s.ports.inAnswers with
  | nil => simp [dataAnswers]
  | cons a as ih =>
    by_cases hb : answerBits a = []
    · rw [dataAnswers_cons_end hb]; simp
    · rw [dataAnswers_cons_data hb]
      cases a with
      | fail => exact absurd rfl hb
      | ok bytes h => simp only [List.flatMap_cons, List.length_append, answerBits, bytesBits_length, List.map_cons,
          List.sum_cons]; omega

theorem zeroLoop_eq {s : State} (hl : s.rlost = false) (fuel z0 z : Nat) (rest : List Bool) (hf : z < fuel) (hz : z0 + z < 2 ^ 32)
    (h : readable s = List.replicate z false ++ true :: rest) :
    zeroLoop fuel z0 s = .done (z0 + z, true) (afterReading z (z + 1) s) := by
  induction z generalizing s fuel z0 with
  | zero =>
    obtain ⟨fuel, rfl⟩ : ∃ f, fuel = f + 1 := ⟨fuel - 1, by omega⟩
    rw [zeroLoop, peekBit_eq hl (by simpa using h)]
    simp
  | succ z ih =>
    obtain ⟨fuel, rfl⟩ : ∃ f, fuel = f + 1 := ⟨fuel - 1, by omega⟩
    have h0 : readable s = false :: (List.replicate z false ++ true :: rest) := by
      rw [h, List.replicate_succ]; rfl
    have h1 : 1 ≤ (readable s).length := by simp [h0]
    rw [zeroLoop, peekBit_eq hl h0]
    simp only
    rw [if_neg (show ¬ z0 + 1 = 2 ^ 32 by omega), dropBit_afterReading,
      ih (s := afterReading 1 1 s) hl fuel (z0 + 1) (by omega) (by omega)
        (by rw [readable_afterReading h1 (Nat.le_refl _), h0]; rfl)]
    rw [← afterReading_add z (z + 1) h1, show z0 + 1 + z = z0 + (z + 1) by omega, Nat.add_comm 1 z,
      Nat.add_comm 1 (z + 1)]

/-- R139: a run of fewer than 2^32 zero bits before a one-bit. -/
theorem countZeros_eq {s : State} (hl : s.rlost = false) (z : Nat) (rest : List Bool) (hz : z < 2 ^ 32)
    (h : readable s = List.replicate z false ++ true :: rest) :
    countZeros s = .done (z, true) (afterReading z (z + 1) s) := by
  have hlen := readable_length_le_bitsAhead s
  rw [h] at hlen
  simp at hlen
  rw [countZeros, zeroLoop_eq hl _ 0 z rest (by omega) (by omega) h]
  simp

/-- R140: an Exp-Golomb code of fewer than 32 leading zeros. -/
theorem readEg_eq {s : State} (hl : s.rlost = false) (z : Nat) (low rest : List Bool) (hz : z < 32) (hlow : low.length = z)
    (h : readable s = List.replicate z false ++ true :: (low ++ rest)) :
    readEg s = .done (2 ^ z + bitsVal low - 1) (afterReading (2 * z + 1) (2 * z + 1) s) := by
  have hle : z ≤ (readable s).length := by rw [h]; simp
  have hle1 : z + 1 ≤ (readable s).length := by rw [h]; simp
  have hd : readable (afterReading z (z + 1) s) = true :: (low ++ rest) := by
    rw [readable_afterReading hle1 (by omega), h]; simp
  rw [readEg, countZeros_eq hl z _ (by omega) h]
  simp only [andThen_done, if_true]
  rw [if_neg (by omega), readBits_eq (s := afterReading z (z + 1) s) hl _ (by rw [hd]; simp [hlow]), andThen_done, hd, List.take_succ_cons, bitsVal_cons]
  have htake : (low ++ rest).take z = low := by rw [← hlow, List.take_left']; rfl
  have hb : readBits (z + 1) 0 (afterReading z (z + 1) s) = readBits (z + 1) 0 (afterReading z (z + 1) s) := rfl
  rw [htake, hlow]
  congr 1
  · simp
  · have h2 : afterReading z (z + 1) s = afterReading 0 1 (afterReading z z s) := by
      rw [← afterReading_add 0 1 hle]; simp
    have h3 : readable (afterReading z z s) = true :: (low ++ rest) := by
      rw [readable_afterReading hle (Nat.le_refl _), h]; simp
    rw [h2, show 2 * z + 1 = z + (z + 1) by omega, afterReading_add (z + 1) (z + 1) hle]
    generalize afterReading z z s = t at *
    -- needing the one-bit first changes nothing for a reader that then needs more
    have h4 : 1 ≤ (readable t).length := by rw [h3]; simp
    have h5 : refillsFor (z + 1) t.rbuf.length t.ports.inAnswers = refillsFor 1 t.rbuf.length t.ports.inAnswers +
        refillsFor (z + 1) (t.rbuf.length + ((t.ports.inAnswers.take
          (refillsFor 1 t.rbuf.length t.ports.inAnswers)).flatMap answerBits).length)
          (t.ports.inAnswers.drop (refillsFor 1 t.rbuf.length t.ports.inAnswers)) := by
      have := refillsFor_add 1 z t.rbuf.length t.ports.inAnswers
      rwa [Nat.add_comm 1 z] at this
    unfold afterReading
    simp only [h5]
    generalize refillsFor 1 t.rbuf.length t.ports.inAnswers = k1
    simp only [List.drop_zero, List.length_append]
    generalize refillsFor (z + 1) _ (t.ports.inAnswers.drop k1) = k2
    simp [List.take_add, List.drop_drop, List.flatMap_append, List.append_assoc]

end Sys2Proof.Machine
end

