-- ==== Sys2Proof/Laws/Run.lean ====
section
/-! SUPPORT. What a part of a command can do to the state, said once for every port, writer, reader and coder
operation: which fields it may touch, what happens to STATUS and why, and what it waits for. -/

namespace Sys2Proof.Machine

/-- From s to t only the stream fields, STATUS, the draws and REF samples at allowed indices changed; without `w` the
writer's side, without `r` the reader's side is as it was. -/
structure Moved (w r : Bool) (allow : Nat → Prop) (s t : State) : Prop where
  only : t = { s with
    status := t.status, wbuf := t.wbuf, rbuf := t.rbuf, wlost := t.wlost, rlost := t.rlost, ports := t.ports,
    draws := t.draws, ref := t.ref }
  refRead : ∀ a, ¬ allow a → memRead t.ref a = memRead s.ref a
  refForm : memWf s.ref = true → memWf t.ref = true
  refCells : ∀ c ∈ t.ref, c ∈ s.ref ∨ allow c.1
  refSame : (∀ a, ¬ allow a) → t.ref = s.ref
  sticky : s.status ≠ .ok → t.status = s.status
  lost : t.wlost = s.wlost ∧ t.rlost = s.rlost ∨ t.wlost = true ∧ t.rlost = true ∧ t.status ≠ .ok
  noWrite : w = false → t.wbuf = s.wbuf ∧ t.ports.outAnswers = s.ports.outAnswers ∧
    t.ports.outLog = s.ports.outLog
  noRead : r = false → t.rbuf = s.rbuf ∧ t.ports.inAnswers = s.ports.inAnswers ∧
    t.ports.inLog = s.ports.inLog
  wlen : s.wbuf.length ≤ 63 → t.wbuf.length ≤ 63
  rlen : s.rbuf.length ≤ 64 → t.rbuf.length ≤ 64
  outGrows : ∃ made, t.ports.outLog = s.ports.outLog ++ made
  inGrows : ∃ made, t.ports.inLog = s.ports.inLog ++ made
  portsKept : s.wbuf.length ≤ 63 → portsOk s.ports → portsOk t.ports
  quiet : w = false → r = false → t = { s with status := t.status, ref := t.ref }

/-- STATUS shows an OUT transaction that was answered `fail` since s. -/
def WriterFailed (w : Bool) (s t : State) : Prop :=
  w = true ∧ t.status = .ioFailed ∧ ∃ made tx, t.ports.outLog = s.ports.outLog ++ made ∧ tx ∈ made ∧ tx.answer = .fail

/-- STATUS shows that the last IN transaction ended the stream. -/
def ReaderFailed (r : Bool) (s t : State) : Prop :=
  r = true ∧ ((t.status = .eof ∧ ∃ pre h, t.ports.inLog = s.ports.inLog ++ pre ++ [.ok [] h]) ∨
    (t.status = .ioFailed ∧ ∃ pre, t.ports.inLog = s.ports.inLog ++ pre ++ [.fail]))

/-- A part of a command has been done. -/
structure Done (w r : Bool) (allow : Nat → Prop) (s t : State) : Prop extends Moved w r allow s t where
  cause : s.status = .ok → t.status = .ok ∨ WriterFailed w s t

/-- The command has ended in a part of it. -/
structure Ended (w r : Bool) (allow : Nat → Prop) (s t : State) : Prop extends Moved w r allow s t where
  cause : s.status = .ok → t.status = .ok ∨ WriterFailed w s t ∨ t.status = .inval ∨ ReaderFailed r s t

/-- The command waits in a part of it. -/
structure Waits (w r : Bool) (s : State) (req : PortRequest) (t : State) : Prop where
  sticky : s.status ≠ .ok → t.status = s.status
  portsKept : s.wbuf.length ≤ 63 → portsOk s.ports → portsOk t.ports
  request : s.wbuf.length ≤ 63 → requestOk req
  dry : (w = true ∧ (∃ bytes, req = .outWrite bytes) ∧ t.ports.outAnswers = []) ∨
    (r = true ∧ req = .inRead ∧ t.ports.inAnswers = []) ∨ (r = true ∧ req = .never)
  outGrows : s.ports.outLog <+: t.ports.outLog
  inGrows : s.ports.inLog <+: t.ports.inLog
  rlen : s.rbuf.length ≤ 64 → t.rbuf.length ≤ 64
  wlen : s.wbuf.length ≤ 63 → t.wbuf.length ≤ 64
  lost : t.wlost = s.wlost ∧ t.rlost = s.rlost ∨ t.wlost = true ∧ t.rlost = true ∧ t.status ≠ .ok
  wkept : w = false → t.wbuf = s.wbuf
  rkept : r = false → t.rbuf = s.rbuf
  rdry : req = .inRead → t.rbuf = []

/-- What a part of a command may do. -/
def Run.May {α : Type} (w r : Bool) (allow : Nat → Prop) (s : State) (x : Run α) : Prop :=
  match x with
  | .done _ t => Done w r allow s t
  | .ended t => Ended w r allow s t
  | .waiting req t => Waits w r s req t
  | .faulted _ => True

variable {w r : Bool} {allow : Nat → Prop} {s t u : State}

theorem Moved.refl (w r : Bool) (allow : Nat → Prop) (s : State) : Moved w r allow s s where
  only := rfl
  refRead _ _ := rfl
  refForm h := h
  refCells _ h := .inl h
  refSame _ := rfl
  sticky _ := rfl
  lost := .inl ⟨rfl, rfl⟩
  noWrite _ := ⟨rfl, rfl, rfl⟩
  noRead _ := ⟨rfl, rfl, rfl⟩
  wlen h := h
  rlen h := h
  outGrows := ⟨[], by simp⟩
  inGrows := ⟨[], by simp⟩
  portsKept _ h := h
  quiet _ _ := rfl

theorem Moved.trans (h : Moved w r allow s t) (k : Moved w r allow t u) : Moved w r allow s u where
  only := by rw [k.only, h.only]
  refRead a ha := (k.refRead a ha).trans (h.refRead a ha)
  refForm hf := k.refForm (h.refForm hf)
  refCells c hc := by
    rcases k.refCells c hc with h1 | h1
    · exact h.refCells c h1
    · exact .inr h1
  refSame ha := (k.refSame ha).trans (h.refSame ha)
  sticky hs := by
    have := h.sticky hs
    rw [← this] at hs ⊢
    exact k.sticky hs
  lost := by
    rcases k.lost with ⟨b1, b2⟩ | hk
    · rcases h.lost with ⟨a1, a2⟩ | ⟨a1, a2, a3⟩
      · exact .inl ⟨b1.trans a1, b2.trans a2⟩
      · exact .inr ⟨b1.trans a1, b2.trans a2, fun hu => a3 ((k.sticky a3).symm.trans hu)⟩
    · exact .inr hk
  noWrite hw := by
    obtain ⟨a1, a2, a3⟩ := h.noWrite hw
    obtain ⟨b1, b2, b3⟩ := k.noWrite hw
    exact ⟨b1.trans a1, b2.trans a2, b3.trans a3⟩
  noRead hw := by
    obtain ⟨a1, a2, a3⟩ := h.noRead hw
    obtain ⟨b1, b2, b3⟩ := k.noRead hw
    exact ⟨b1.trans a1, b2.trans a2, b3.trans a3⟩
  wlen hl := k.wlen (h.wlen hl)
  rlen hl := k.rlen (h.rlen hl)
  outGrows := by
    obtain ⟨m1, e1⟩ := h.outGrows
    obtain ⟨m2, e2⟩ := k.outGrows
    exact ⟨m1 ++ m2, by rw [e2, e1, List.append_assoc]⟩
  inGrows := by
    obtain ⟨m1, e1⟩ := h.inGrows
    obtain ⟨m2, e2⟩ := k.inGrows
    exact ⟨m1 ++ m2, by rw [e2, e1, List.append_assoc]⟩
  portsKept hl hp := k.portsKept (h.wlen hl) (h.portsKept hl hp)
  quiet hw hr := by rw [k.quiet hw hr, h.quiet hw hr]

theorem WriterFailed.later (h : WriterFailed w s t) (k : Moved w r allow t u) : WriterFailed w s u := by
  obtain ⟨hw, hs, made, tx, e, hm, ha⟩ := h
  obtain ⟨m2, e2⟩ := k.outGrows
  refine ⟨hw, ?_, made ++ m2, tx, by rw [e2, e, List.append_assoc], List.mem_append_left _ hm, ha⟩
  rw [k.sticky (by rw [hs]; decide), hs]

theorem WriterFailed.earlier (h : Moved w r allow s t) (k : WriterFailed w t u) : WriterFailed w s u := by
  obtain ⟨hw, hs, made, tx, e, hm, ha⟩ := k
  obtain ⟨m1, e1⟩ := h.outGrows
  exact ⟨hw, hs, m1 ++ made, tx, by rw [e, e1, List.append_assoc], List.mem_append_right _ hm, ha⟩

theorem ReaderFailed.earlier (h : Moved w r allow s t) (k : ReaderFailed r t u) : ReaderFailed r s u := by
  obtain ⟨m1, e1⟩ := h.inGrows
  obtain ⟨hr, ⟨hs, pre, h8, e⟩ | ⟨hs, pre, e⟩⟩ := k
  · exact ⟨hr, .inl ⟨hs, m1 ++ pre, h8, by rw [e, e1]; simp⟩⟩
  · exact ⟨hr, .inr ⟨hs, m1 ++ pre, by rw [e, e1]; simp⟩⟩

theorem Done.refl (w r : Bool) (allow : Nat → Prop) (s : State) : Done w r allow s s :=
  ⟨Moved.refl .., fun h => .inl h⟩

theorem Done.trans (h : Done w r allow s t) (k : Done w r allow t u) : Done w r allow s u := by
  refine ⟨h.toMoved.trans k.toMoved, fun hs => ?_⟩
  rcases h.cause hs with h1 | h1
  · rcases k.cause h1 with h2 | h2
    · exact .inl h2
    · exact .inr (h2.earlier h.toMoved)
  · exact .inr (h1.later k.toMoved)

theorem Done.transEnded (h : Done w r allow s t) (k : Ended w r allow t u) : Ended w r allow s u := by
  refine ⟨h.toMoved.trans k.toMoved, fun hs => ?_⟩
  rcases h.cause hs with h1 | h1
  · rcases k.cause h1 with h2 | h2 | h2 | h2
    · exact .inl h2
    · exact .inr (.inl (h2.earlier h.toMoved))
    · exact .inr (.inr (.inl h2))
    · exact .inr (.inr (.inr (h2.earlier h.toMoved)))
  · exact .inr (.inl (h1.later k.toMoved))

theorem Done.toEnded (h : Done w r allow s t) : Ended w r allow s t :=
  ⟨h.toMoved, fun hs => (h.cause hs).imp_right .inl⟩

theorem Done.transWaits {req : PortRequest} (h : Done w r allow s t) (k : Waits w r t req u) : Waits w r s req u where
  sticky hs := by
    have := h.sticky hs
    rw [← this] at hs ⊢
    exact k.sticky hs
  portsKept hl hp := k.portsKept (h.wlen hl) (h.portsKept hl hp)
  request hl := k.request (h.wlen hl)
  dry := k.dry
  outGrows := by obtain ⟨m, e⟩ := h.outGrows; exact (List.prefix_append _ m).trans (e ▸ k.outGrows)
  inGrows := by obtain ⟨m, e⟩ := h.inGrows; exact (List.prefix_append _ m).trans (e ▸ k.inGrows)
  rlen hl := k.rlen (h.rlen hl)
  wlen hl := k.wlen (h.wlen hl)
  lost := by
    rcases k.lost with ⟨b1, b2⟩ | hk
    · rcases h.lost with ⟨a1, a2⟩ | ⟨a1, a2, a3⟩
      · exact .inl ⟨b1.trans a1, b2.trans a2⟩
      · exact .inr ⟨b1.trans a1, b2.trans a2, fun hu => a3 ((k.sticky a3).symm.trans hu)⟩
    · exact .inr hk
  wkept hw := (k.wkept hw).trans (h.noWrite hw).1
  rkept hr := (k.rkept hr).trans (h.noRead hr).1
  rdry := k.rdry

theorem Run.May.andThen {α β : Type} {x : Run α} {k : α → State → Run β} (h : x.May w r allow s)
    (hk : ∀ a t, (k a t).May w r allow t) : (x.andThen k).May w r allow s := by
  cases x with
  | done a t =>
    have := hk a t
    simp only [andThen_done]
    cases hx : k a t with
    | done b u => rw [hx] at this; exact Done.trans h this
    | ended u => rw [hx] at this; exact Done.transEnded h this
    | waiting req u => rw [hx] at this; exact Done.transWaits h this
    | faulted f => trivial
  | ended t => exact h
  | waiting req t => exact h
  | faulted f => trivial

/-- As Run.May.andThen, where the rest is known only to follow a done part. -/
theorem Done.may {α : Type} {x : Run α} (h : Done w r allow s t) (hx : x.May w r allow t) : x.May w r allow s := by
  cases x with
  | done b u => exact Done.trans h hx
  | ended u => exact Done.transEnded h hx
  | waiting req u => exact Done.transWaits h hx
  | faulted f => trivial

theorem Run.May.done {α : Type} (a : α) (s : State) : (Run.done a s).May w r allow s := Done.refl ..

theorem Run.May.orFault {α : Type} (f : Fault) (o : Option α) (s : State) : (orFault f o s).May w r allow s := by
  cases o with
  | none => trivial
  | some a => exact Done.refl ..

/-! ### Recording a failure -/

theorem record_moved (c : Status) (s : State) : Moved w r allow s (record c s) := by
  by_cases h : s.status = .ok
  · have e : record c s = { s with status := c } := by simp [record, h]
    rw [e]
    exact { Moved.refl w r allow s with only := rfl, lost := .inl ⟨rfl, rfl⟩, sticky := fun hs => absurd h hs, quiet := fun _ _ => rfl }
  · have e : record c s = s := by simp [record, h]
    rw [e]; exact Moved.refl ..

theorem failRun_moved (hwr : w = true ∨ r = true) {c : Status} (hc : c ≠ .ok) (s : State) :
    Moved w r allow s (failRun c s) :=
  { record_moved (w := w) (r := r) (allow := allow) c s with
    only := by conv_lhs => rw [failRun, (record_moved (w := w) (r := r) (allow := allow) c s).only]
               rfl
    lost := .inr ⟨rfl, rfl, by rw [failRun_status]; split <;> assumption⟩
    quiet := fun h1 h2 => by simp [h1, h2] at hwr }

/-! ### The OUT port and the writer -/

/-- One OUT transaction of `bytes`, made after WBUF and the count of draws took the values x and d. -/
theorem transfer_may {bytes : List Byte} (s : State) (x : List Bool) (d : Nat)
    (hlen : s.wbuf.length ≤ 63 → 1 ≤ bytes.length ∧ bytes.length ≤ 8) (hx : s.wbuf.length ≤ 63 → x.length ≤ 64) :
    (transfer bytes { s with wbuf := x, draws := d }).May true r allow s := by
  unfold transfer outWrite
  simp only
  have hex : writerExact { s with wbuf := x, draws := d } = writerExact s := rfl
  rw [hex]
  generalize hsent : (if writerExact s then bytes else drawnBytes d bytes.length) = sent
  have hsl : sent.length = bytes.length := by subst hsent; split <;> simp
  generalize hv : (if writerExact s then ({ s with wbuf := x, draws := d } : State)
    else drew bytes.length { s with wbuf := x, draws := d }) = v
  obtain ⟨d', hv'⟩ : ∃ d', v = { s with wbuf := x, draws := d' } := by
    subst hv; split
    · exact ⟨d, rfl⟩
    · exact ⟨d + bytes.length, rfl⟩
  subst hv'
  simp only
  cases ha : s.ports.outAnswers with
  | nil =>
    exact {
      sticky := fun _ => rfl
      portsKept := fun _ hp => hp
      request := fun hl => by simpa [requestOk, hsl] using hlen hl
      dry := .inl ⟨rfl, ⟨_, rfl⟩, ha⟩
      outGrows := List.prefix_rfl
      inGrows := List.prefix_rfl
      rlen := fun h => h
      wlen := hx
      lost := .inl ⟨rfl, rfl⟩
      wkept := fun h => by cases h
      rkept := fun _ => rfl
      rdry := fun h => by cases h }
  | cons a rest =>
    have hports : ∀ reached : List Bool, ∀ an, reached.length = bytes.length → s.wbuf.length ≤ 63 → portsOk s.ports →
        portsOk { s.ports with outAnswers := rest, outLog := s.ports.outLog ++ [⟨sent, an, reached⟩] } := by
      intro reached an hr hl hp tx htx
      rcases List.mem_append.1 htx with h | h
      · exact hp tx h
      · rw [List.mem_singleton.1 h]
        have := hlen hl
        exact ⟨by rw [hsl]; exact this.1, by rw [hsl]; exact this.2, by rw [hr, hsl]⟩
    have hbase : ∀ reached : List Bool, ∀ an d'', reached.length = bytes.length →
        Moved true r allow s { s with
          wbuf := [], draws := d'', ports := { s.ports with
            outAnswers := rest, outLog := s.ports.outLog ++ [⟨sent, an, reached⟩] } } := by
      intro reached an d'' hr
      exact { Moved.refl true r allow s with
        only := rfl
        noWrite := fun h => by simp at h
        quiet := fun h => by simp at h
        wlen := fun _ => by simp
        outGrows := ⟨_, rfl⟩
        portsKept := hports reached an hr }
    cases a with
    | ok =>
      refine ⟨hbase (List.replicate bytes.length true) .ok d' (by simp), fun hs => .inl hs⟩
    | fail =>
      have hm := hbase (drawnBits d' bytes.length) .fail (d' + bytes.length) (by simp)
      refine ⟨hm.trans (failRun_moved (.inl rfl) (by decide) _), fun hs => .inr ⟨rfl, ?_, ?_⟩⟩
      · simp [hs]
      · exact ⟨[⟨sent, .fail, drawnBits d' bytes.length⟩], _, by simp [failRun, drew], List.mem_singleton_self _, rfl⟩

theorem emitBit_may (b : Bool) (s : State) : (emitBit b s).May true r allow s := by
  unfold emitBit
  simp only
  generalize hv : (if writerExact s then s else drew 1 s) = v
  obtain ⟨d', hv'⟩ : ∃ d', v = { s with draws := d' } := by
    subst hv; split
    · exact ⟨s.draws, rfl⟩
    · exact ⟨s.draws + 1, rfl⟩
  subst hv'
  generalize (if writerExact s then b else Config.drawBit s.draws) = bit
  simp only
  split
  · rename_i h64
    exact transfer_may s _ d' (fun _ => by rw [pack_length, h64]; omega) fun _ => Nat.le_of_eq h64
  · rename_i h64
    refine ⟨{ Moved.refl true r allow s with
      only := rfl
      noWrite := fun h => by simp at h
      quiet := fun h => by simp at h
      wlen := fun h => by simp at h64 ⊢; omega }, fun hs => .inl hs⟩

theorem emitBits_may (bits : List Bool) (s : State) : (emitBits bits s).May true r allow s := by
  induction bits generalizing s with
  | nil => exact Done.refl ..
  | cons b bits ih => exact (emitBit_may b s).andThen fun _ t => ih t

/-! ### The IN port and the reader -/

theorem bytesBits_le {bytes : List Byte} (h : bytes.length ≤ 8) : (bytesBits bytes).length ≤ 64 := by
  rw [bytesBits_length]; omega

theorem takeIn_moved {a : InAnswer} {rest : List InAnswer} : Moved w true allow s (takeIn a rest s) :=
  { Moved.refl w true allow s with
    only := rfl
    noRead := fun h => by simp at h
    quiet := fun _ h => by simp at h
    inGrows := ⟨[a], rfl⟩
    portsKept := fun _ hp => hp }

/-- A failed refill ends the command with the code c. -/
theorem refillFails_ended {a : InAnswer} {rest : List InAnswer} (c : Status) (hne : c ≠ .ok)
    (hc : ∀ v : State, v.status = c → v.ports.inLog = s.ports.inLog ++ [a] → ReaderFailed true s v) :
    Ended w true allow s (failRun c (takeIn a rest s)) := by
  refine ⟨takeIn_moved.trans (failRun_moved (.inr rfl) hne _), fun hs => .inr (.inr (.inr (hc _ ?_ ?_)))⟩
  · simp [takeIn, hs]
  · simp [failRun, takeIn]

theorem loadReader_done {bytes : List Byte} (h : bytes.length ≤ 8) (s : State) :
    Done w true allow s (loadReader bytes s) := by
  obtain ⟨x, d, hx, e⟩ : ∃ x d, x.length = 8 * bytes.length ∧ loadReader bytes s = { s with rbuf := x, draws := d } := by
    unfold loadReader
    split
    · exact ⟨_, _, by simp, rfl⟩
    · exact ⟨_, s.draws, bytesBits_length bytes, rfl⟩
  rw [e]
  exact ⟨{ Moved.refl w true allow s with
    only := rfl
    noRead := fun h => by simp at h
    quiet := fun _ h => by simp at h
    rlen := fun _ => by simp only; omega }, fun hs => .inl hs⟩

theorem refill_may {s : State} (hr : s.rbuf = []) : (refill s).May w true allow s := by
  unfold refill
  cases ha : s.ports.inAnswers with
  | nil =>
    exact {
      sticky := fun _ => rfl
      portsKept := fun _ hp => hp
      request := fun _ => trivial
      dry := .inr (.inl ⟨rfl, rfl, ha⟩)
      outGrows := List.prefix_rfl
      inGrows := List.prefix_rfl
      rlen := fun h => h
      wlen := fun h => by omega
      lost := .inl ⟨rfl, rfl⟩
      wkept := fun _ => rfl
      rkept := fun _ => rfl
      rdry := fun _ => hr }
  | cons a rest =>
    cases a with
    | fail =>
      exact refillFails_ended .ioFailed (by decide) fun v h1 h2 => ⟨rfl, .inr ⟨h1, [], by rw [h2]; simp⟩⟩
    | ok bytes h =>
      simp only
      split
      · rename_i he
        have he : bytes = [] := List.isEmpty_iff.1 he
        subst he
        exact refillFails_ended .eof (by decide) fun v h1 h2 => ⟨rfl, .inl ⟨h1, [], h, by rw [h2]; simp⟩⟩
      · exact Done.trans ⟨takeIn_moved, fun hs => .inl hs⟩ (loadReader_done h _)

theorem peekBit_may (s : State) : (peekBit s).May w true allow s := by
  unfold peekBit
  split
  · exact Done.refl ..
  · refine (refill_may ‹_›).andThen fun _ t => ?_
    split
    · exact Done.refl ..
    · exact (Done.refl ..).toEnded

theorem dropBit_done (s : State) : Done w true allow s (dropBit s) :=
  ⟨{ Moved.refl w true allow s with
    only := rfl
    noRead := fun h => by simp at h
    quiet := fun _ h => by simp at h
    rlen := fun h => by simp [dropBit]; omega }, fun hs => .inl hs⟩

theorem nextBit_may (s : State) : (nextBit s).May w true allow s :=
  (peekBit_may s).andThen fun _ t => dropBit_done t

theorem readBits_may (n v : Nat) (s : State) : (readBits n v s).May w true allow s := by
  induction n generalizing v s with
  | zero => exact Done.refl ..
  | succ n ih => exact (nextBit_may s).andThen fun b t => ih _ t

theorem stuck_waits (s : State) : Waits w true s .never s where
  sticky _ := rfl
  portsKept _ h := h
  request _ := trivial
  dry := .inr (.inr ⟨rfl, rfl⟩)
  outGrows := List.prefix_rfl
  inGrows := List.prefix_rfl
  rlen h := h
  wlen h := by omega
  lost := .inl ⟨rfl, rfl⟩
  wkept _ := rfl
  rkept _ := rfl
  rdry h := by cases h

/-- What the zero-counting loop does: it is done at a one-bit, or at the end of the stream with the failure
recorded. -/
def ZeroRun (w : Bool) (allow : Nat → Prop) (s : State) (x : Run (Nat × Bool)) : Prop :=
  match x with
  | .done z t => if z.2 = true then Done w true allow s t else Ended w true allow s t
  | .ended _ => False
  | .waiting req t => Waits w true s req t
  | .faulted _ => True

theorem zeroLoop_run (fuel z : Nat) (s : State) : ZeroRun w allow s (zeroLoop fuel z s) := by
  induction fuel generalizing z s with
  | zero => exact (Done.refl ..).toEnded
  | succ fuel ih =>
    unfold zeroLoop
    have hp := peekBit_may (w := w) (allow := allow) s
    cases hx : peekBit s with
    | done b t =>
      rw [hx] at hp
      cases b with
      | true => exact hp
      | false =>
        simp only
        split
        · exact Done.transWaits (Done.trans hp (dropBit_done t)) (stuck_waits _)
        · have hd : Done w true allow s (dropBit t) := Done.trans hp (dropBit_done t)
          have := ih (z + 1) (dropBit t)
          cases hy : zeroLoop fuel (z + 1) (dropBit t) with
          | done zz u =>
            rw [hy] at this
            obtain ⟨z', b'⟩ := zz
            cases b' with
            | true => exact Done.trans hd this
            | false => exact Done.transEnded hd this
          | ended u => rw [hy] at this; exact this.elim
          | waiting req u => rw [hy] at this; exact Done.transWaits hd this
          | faulted f => trivial
    | ended t => rw [hx] at hp; exact hp
    | waiting req t => rw [hx] at hp; exact hp
    | faulted f => trivial

theorem countZeros_run (s : State) : ZeroRun w allow s (countZeros s) := zeroLoop_run ..

theorem failRun_ended (h : Done w true allow s t) : Ended w true allow s (failRun .inval t) := by
  refine h.transEnded ⟨failRun_moved (.inr rfl) (by decide) _, fun hs => .inr (.inr (.inl ?_))⟩
  simp [hs]

theorem readEg_may (s : State) : (readEg s).May w true allow s := by
  unfold readEg
  have h := countZeros_run (w := w) (allow := allow) s
  cases hx : countZeros s with
  | done zz t =>
    obtain ⟨z, b⟩ := zz
    rw [hx] at h
    simp only [andThen_done]
    cases b with
    | true =>
      have h : Done w true allow s t := h
      simp only [if_true]
      split
      · exact failRun_ended h
      · exact h.may ((readBits_may _ _ t).andThen fun _ u => Done.refl ..)
    | false => exact h
  | ended t => rw [hx] at h; exact h.elim
  | waiting req t => rw [hx] at h; exact h
  | faulted f => trivial

/-! ### The coefficient coder -/

theorem writeVector_may (c : List Int) (s : State) : (writeVector c s).May true r allow s := by
  unfold writeVector
  split
  · exact emitBits_may _ _
  · exact ⟨record_moved _ _, fun hs => .inr (.inr (.inl (by simp [hs])))⟩

theorem decodeMags_may (fuel pos : Nat) (mags : List Nat) (s : State) :
    (decodeMags fuel pos mags s).May w true allow s := by
  induction fuel generalizing pos mags s with
  | zero => exact Done.refl ..
  | succ fuel ih =>
    unfold decodeMags
    split
    · exact Done.refl ..
    · refine (readEg_may s).andThen fun q t => ?_
      split
      · exact failRun_ended (Done.refl ..)
      · split
        · exact Done.refl ..
        · refine (readEg_may t).andThen fun m u => ?_
          split
          · exact failRun_ended (Done.refl ..)
          · exact ih _ _ u

theorem decodeSigns_may (mags : List Nat) (s : State) : (decodeSigns mags s).May w true allow s := by
  induction mags generalizing s with
  | nil => exact Done.refl ..
  | cons m rest ih =>
    unfold decodeSigns
    split
    · exact (ih s).andThen fun _ u => Done.refl ..
    · exact (nextBit_may s).andThen fun _ t => (ih t).andThen fun _ u => Done.refl ..

theorem readVector_may (cnt : Nat) (s : State) : (readVector cnt s).May w true allow s :=
  (decodeMags_may _ _ _ s).andThen fun _ t => decodeSigns_may _ t

/-! ### The pipeline's steps -/

theorem checkStatus_may (s : State) : (checkStatus s).May w r allow s := by
  unfold checkStatus
  split
  · exact Done.refl ..
  · exact (Done.refl ..).toEnded

theorem selectMode_may (mb : Mb) (s : State) : (selectMode mb s).May w r allow s := by
  unfold selectMode
  split
  · exact Done.refl ..
  · split
    · exact Done.refl ..
    · split
      · exact Done.refl ..
      · exact (Run.May.orFault ..).andThen fun _ s => (Run.May.orFault ..).andThen fun _ s =>
          (Run.May.orFault ..).andThen fun _ s => (Run.May.orFault ..).andThen fun _ s => Done.refl ..

theorem writeRef_done {cells : List Host.Cell} (hc : ∀ c ∈ cells, allow c.1) (s : State) :
    Done w r allow s (writeRef cells s) :=
  ⟨{ Moved.refl w r allow s with
    only := rfl
    refRead := fun a ha => memRead_memWriteAll_other _ _ fun c h e => ha (e ▸ hc c h)
    refForm := fun h => memWriteAll_wf _ h
    refCells := fun c h => (mem_memWriteAll h).elim (fun h => .inr (hc c h)) .inl
    refSame := fun h => by
      cases cells with
      | nil => rfl
      | cons c cs => exact absurd (hc c (List.mem_cons_self ..)) (h c.1)
    quiet := fun _ _ => rfl }, fun hs => .inl hs⟩

/-! ### Macroblocks and frames -/

theorem Moved.mono {allow' : Nat → Prop} (ha : ∀ a, allow a → allow' a) (h : Moved w r allow s t) :
    Moved w r allow' s t where
  only := h.only
  refRead a hn := h.refRead a fun hx => hn (ha a hx)
  refForm := h.refForm
  refCells c hc := (h.refCells c hc).imp_right (ha _)
  refSame hn := h.refSame fun a hx => hn a (ha a hx)
  sticky := h.sticky
  lost := h.lost
  noWrite := h.noWrite
  noRead := h.noRead
  wlen := h.wlen
  rlen := h.rlen
  outGrows := h.outGrows
  inGrows := h.inGrows
  portsKept := h.portsKept
  quiet := h.quiet

theorem Done.mono {allow' : Nat → Prop} (ha : ∀ a, allow a → allow' a) (h : Done w r allow s t) :
    Done w r allow' s t := ⟨h.toMoved.mono ha, h.cause⟩

theorem Ended.mono {allow' : Nat → Prop} (ha : ∀ a, allow a → allow' a) (h : Ended w r allow s t) :
    Ended w r allow' s t := ⟨h.toMoved.mono ha, h.cause⟩

/-- No REF index. -/
def nowhere : Nat → Prop := fun _ => False

theorem nowhere_le (allow : Nat → Prop) : ∀ a, nowhere a → allow a := fun _ h => h.elim

/-- What a part of a command may do that writes REF only as its last act: where it ends or waits, REF is as before. -/
def Run.Atomic {α : Type} (w r : Bool) (allow : Nat → Prop) (s : State) (x : Run α) : Prop :=
  match x with
  | .done _ t => Done w r allow s t
  | .ended t => Ended w r nowhere s t
  | .waiting req t => Waits w r s req t
  | .faulted _ => True

theorem Run.May.toAtomic {α : Type} {x : Run α} (h : x.May w r nowhere s) : x.Atomic w r allow s := by
  cases x with
  | done a t => exact Done.mono (nowhere_le _) h
  | ended t => exact h
  | waiting req t => exact h
  | faulted f => trivial

theorem Run.Atomic.toMay {α : Type} {x : Run α} (h : x.Atomic w r allow s) : x.May w r allow s := by
  cases x with
  | done a t => exact h
  | ended t => exact Ended.mono (nowhere_le _) h
  | waiting req t => exact h
  | faulted f => trivial

theorem Run.May.andThenAtomic {α β : Type} {x : Run α} {k : α → State → Run β} (h : x.May w r nowhere s)
    (hk : ∀ a t, Done w r nowhere s t → (k a t).Atomic w r allow t) : (x.andThen k).Atomic w r allow s := by
  cases x with
  | done a t =>
    have h : Done w r nowhere s t := h
    have := hk a t h
    simp only [andThen_done]
    cases hx : k a t with
    | done b u => rw [hx] at this; exact (h.mono (nowhere_le _)).trans this
    | ended u => rw [hx] at this; exact h.transEnded this
    | waiting req u => rw [hx] at this; exact h.transWaits this
    | faulted f => trivial
  | ended t => exact h
  | waiting req t => exact h
  | faulted f => trivial

@[simp] theorem Moved.cfg_eq (h : Moved w r allow s t) : t.cfg = s.cfg := by rw [h.only]
@[simp] theorem Moved.arg0_eq (h : Moved w r allow s t) : t.arg0 = s.arg0 := by rw [h.only]
@[simp] theorem Moved.arg1_eq (h : Moved w r allow s t) : t.arg1 = s.arg1 := by rw [h.only]
@[simp] theorem Moved.result_eq (h : Moved w r allow s t) : t.result = s.result := by rw [h.only]
@[simp] theorem Moved.fw_eq (h : Moved w r allow s t) : t.fw = s.fw := by rw [h.only]
@[simp] theorem Moved.fh_eq (h : Moved w r allow s t) : t.fh = s.fh := by rw [h.only]
@[simp] theorem Moved.inited_eq (h : Moved w r allow s t) : t.inited = s.inited := by rw [h.only]
@[simp] theorem Moved.banks_eq (h : Moved w r allow s t) : t.banks = s.banks := by rw [h.only]
@[simp] theorem Moved.src_eq (h : Moved w r allow s t) : t.src = s.src := by rw [h.only]
@[simp] theorem Moved.wait_eq (h : Moved w r allow s t) : t.wait = s.wait := by rw [h.only]

theorem covers_congr {mb : Mb} {a : Nat} (h : t.fw = s.fw) : mb.covers t a ↔ mb.covers s a := by
  simp [Mb.covers, sampleIndex, h]

theorem Mb.row_lt (mb : Mb) {k e : Nat} (hk : k < mb.subs) (he : e < 16) : mb.row0 k + e / 4 < mb.size := by
  have h1 : k / mb.side < mb.side := Nat.div_lt_of_lt_mul hk
  have h2 : 4 * mb.side ≤ mb.size := Nat.mul_div_le ..
  unfold Mb.row0
  omega

theorem Mb.col_lt (mb : Mb) {k e : Nat} (hk : k < mb.subs) : mb.col0 k + e % 4 < mb.size := by
  have hpos : 0 < mb.side := by
    rcases Nat.eq_zero_or_pos mb.side with h | h
    · simp [Mb.subs, h] at hk
    · exact h
  have h1 : k % mb.side < mb.side := Nat.mod_lt _ hpos
  have h2 : 4 * mb.side ≤ mb.size := Nat.mul_div_le ..
  unfold Mb.col0
  omega

/-- The cells of a macroblock lie inside it. -/
theorem unpredCells_covers {mb : Mb} {p : Predictor} {s : State} {f : Nat → Block} {c : Host.Cell}
    (h : c ∈ unpredCells mb p s f) : mb.covers s c.1 := by
  simp only [unpredCells, unpredSub, List.mem_flatMap, List.mem_map, List.mem_range] at h
  obtain ⟨k, hk, e, he, rfl⟩ := h
  exact ⟨_, _, mb.row_lt hk he, mb.col_lt hk, rfl⟩

theorem reconstruct_atomic (m : Mode) (mb : Mb) (zs : List Block) (zd : Block) (s : State) :
    (reconstruct m mb zs zd s).Atomic w r (mb.covers s) s := by
  unfold reconstruct
  refine Run.May.andThenAtomic (Run.May.orFault ..) fun p t ht => ?_
  have hc : ∀ f : Nat → Block, ∀ c ∈ unpredCells mb p t f, mb.covers s c.1 := fun f c hc =>
    (covers_congr ht.fw_eq).1 (unpredCells_covers hc)
  exact show Done w r (mb.covers s) t (writeRef _ t) from writeRef_done (hc _) t

theorem encodeSub_may {x : Block} {y : Run (Block × Word)} (h : encodeSub x s = y) : y.May true r nowhere s := by
  subst h
  unfold encodeSub
  extract_lets ck zk
  clear_value zk ck
  exact Run.May.andThen (writeVector_may _ s) fun _ t => Run.May.andThen (checkStatus_may t) fun _ t => Run.May.done ..

theorem encodeSubs_may (mb : Mb) (p : Predictor) (ks : List Nat) (s : State) :
    (encodeSubs mb p ks s).May true r nowhere s := by
  induction ks generalizing s with
  | nil => exact Done.refl ..
  | cons k more ih =>
    rw [encodeSubs]
    refine Run.May.andThen (Run.May.orFault ..) fun src t => ?_
    generalize hy : encodeSub (residualOf mb p k fun e => (src.getD e 0).toNat) t = y
    exact Run.May.andThen (encodeSub_may hy) fun _ t => Run.May.andThen (ih t) fun _ t => Run.May.done ..

/-- EncMB changes REF inside its macroblock, and only if it completes (R273). -/
theorem encodeMb_atomic (mb : Mb) (s : State) : (encodeMb mb s).Atomic true r (mb.covers s) s := by
  unfold encodeMb
  refine (selectMode_may mb s).andThenAtomic fun m s1 h1 => ?_
  refine (emitBits_may _ s1).andThenAtomic fun _ s2 h2 => ?_
  refine (checkStatus_may s2).andThenAtomic fun _ s3 h3 => ?_
  refine (Run.May.orFault ..).andThenAtomic fun p s4 h4 => ?_
  refine (encodeSubs_may mb p _ s4).andThenAtomic fun subs s6 h6 => ?_
  refine (writeVector_may _ s6).andThenAtomic fun _ s7 h7 => ?_
  refine (checkStatus_may s7).andThenAtomic fun _ s8 h8 => ?_
  have hfw : s8.fw = s.fw := by
    rw [h8.fw_eq, h7.fw_eq, h6.fw_eq, h4.fw_eq, h3.fw_eq, h2.fw_eq, h1.fw_eq]
  have := reconstruct_atomic (w := true) (r := r) m mb (subs.map Prod.fst)
    (codedGrid s6.cfg mb.subs (subs.map Prod.snd)) s8
  have hc : mb.covers s8 = mb.covers s := funext fun a => propext (covers_congr hfw)
  rw [hc] at this
  cases hx : reconstruct m mb (subs.map Prod.fst) (codedGrid s6.cfg mb.subs (subs.map Prod.snd)) s8 with
  | done a t => rw [hx] at this; exact this
  | ended t => rw [hx] at this; exact this
  | waiting req t => rw [hx] at this; exact this
  | faulted f => trivial

theorem decodeSubs_may (k : Nat) (s : State) : (decodeSubs k s).May w true nowhere s := by
  induction k generalizing s with
  | zero => exact Done.refl ..
  | succ k ih =>
    unfold decodeSubs
    exact (readVector_may _ _).andThen fun _ t => (ih t).andThen fun _ t => Done.refl ..

/-- DecMB changes REF inside its macroblock, and only if it completes (R273). -/
theorem decodeMb_atomic (mb : Mb) (s : State) : (decodeMb mb s).Atomic w true (mb.covers s) s := by
  unfold decodeMb
  refine (readBits_may _ _ s).andThenAtomic fun code s1 h1 => ?_
  split
  · exact failRun_ended (Done.refl ..)
  · rename_i m hm
    refine (decodeSubs_may _ s1).andThenAtomic fun zs s2 h2 => ?_
    refine (readVector_may _ s2).andThenAtomic fun zd s3 h3 => ?_
    have hfw : s3.fw = s.fw := by rw [h3.fw_eq, h2.fw_eq, h1.fw_eq]
    have := reconstruct_atomic (w := w) (r := true) m mb zs (intsBlock zd) s3
    have hc : mb.covers s3 = mb.covers s := funext fun a => propext (covers_congr hfw)
    rw [hc] at this
    cases hx : reconstruct m mb zs (intsBlock zd) s3 with
    | done a t => rw [hx] at this; exact this
    | ended t => rw [hx] at this; exact this
    | waiting req t => rw [hx] at this; exact this
    | faulted f => trivial

/-- A frame's macroblocks change REF at indices that one of them covers. -/
theorem encodeMbs_may (mbs : List Mb) (s : State) :
    (encodeMbs mbs s).May true r (fun a => ∃ mb ∈ mbs, mb.covers s a) s := by
  suffices h : ∀ (mbs' : List Mb) (t : State), (∀ mb ∈ mbs', mb ∈ mbs) → t.fw = s.fw →
      (encodeMbs mbs' t).May true r (fun a => ∃ mb ∈ mbs, mb.covers s a) t from h mbs s (fun _ h => h) rfl
  intro mbs'
  induction mbs' with
  | nil => intro t _ _; exact Done.refl ..
  | cons mb more ih =>
    intro t hm hfw
    have h1 := (encodeMb_atomic (r := r) mb t).toMay
    unfold encodeMbs
    have hle : ∀ a, mb.covers t a → ∃ mb ∈ mbs, mb.covers s a := fun a h =>
      ⟨mb, hm mb (List.mem_cons_self ..), (covers_congr hfw).1 h⟩
    cases hx : encodeMb mb t with
    | done a u =>
      rw [hx] at h1
      have h1 : Done true r (mb.covers t) t u := h1
      exact (h1.mono hle).may (ih u (fun x hx => hm x (List.mem_cons_of_mem _ hx)) (h1.fw_eq.trans hfw))
    | ended u => rw [hx] at h1; exact Ended.mono hle h1
    | waiting req u => rw [hx] at h1; exact h1
    | faulted f => trivial

theorem decodeMbs_may (mbs : List Mb) (s : State) :
    (decodeMbs mbs s).May w true (fun a => ∃ mb ∈ mbs, mb.covers s a) s := by
  suffices h : ∀ (mbs' : List Mb) (t : State), (∀ mb ∈ mbs', mb ∈ mbs) → t.fw = s.fw →
      (decodeMbs mbs' t).May w true (fun a => ∃ mb ∈ mbs, mb.covers s a) t from h mbs s (fun _ h => h) rfl
  intro mbs'
  induction mbs' with
  | nil => intro t _ _; exact Done.refl ..
  | cons mb more ih =>
    intro t hm hfw
    have h1 := (decodeMb_atomic (w := w) mb t).toMay
    unfold decodeMbs
    have hle : ∀ a, mb.covers t a → ∃ mb ∈ mbs, mb.covers s a := fun a h =>
      ⟨mb, hm mb (List.mem_cons_self ..), (covers_congr hfw).1 h⟩
    cases hx : decodeMb mb t with
    | done a u =>
      rw [hx] at h1
      have h1 : Done w true (mb.covers t) t u := h1
      exact (h1.mono hle).may (ih u (fun x hx => hm x (List.mem_cons_of_mem _ hx)) (h1.fw_eq.trans hfw))
    | ended u => rw [hx] at h1; exact Ended.mono hle h1
    | waiting req u => rw [hx] at h1; exact h1
    | faulted f => trivial

end Sys2Proof.Machine
end

