-- ==== Sys2Proof/Laws/Exec.lean ====
section
/-! SUPPORT. What a command can do, said once: it waits with nothing changed, or it has finished within the reach its
rule gives it. -/

namespace Sys2Proof.Machine

variable {i : Instr} {s t u : State}

/-! ### Banks -/

theorem vector_getD_eq {α : Type} {n : Nat} (v : Vector α n) (k : Nat) (d : α) : v.getD k d = v[k]?.getD d := by
  obtain ⟨a, h⟩ := v
  simp [Vector.getD]

theorem bank_setBank (b k : Nat) (x : Block) (s : State) :
    bank (setBank b x s) k = if k = b ∧ b < 32 then x else bank s k := by
  unfold bank setBank
  simp only [vector_getD_eq, Vector.getElem?_setIfInBounds]
  by_cases hk : b = k
  · subst hk
    by_cases hb : b < 32
    · simp [hb]
    · simp [hb]
  · simp [hk, Ne.symm hk]

theorem bank_setBank_same {b : Nat} (hb : b < 32) (x : Block) (s : State) : bank (setBank b x s) b = x := by
  simp [bank_setBank, hb]

theorem bank_setBank_other {b k : Nat} (h : k ≠ b) (x : Block) (s : State) :
    bank (setBank b x s) k = bank s k := by
  simp [bank_setBank, h]

theorem bank_mapBanks (b n k : Nat) (f : Nat → Block → Block) (s : State) (hk : k < 32) :
    bank (mapBanks b n f s) k = if b ≤ k ∧ k < b + n then f (k - b) (bank s k) else bank s k := by
  conv_lhs => unfold bank mapBanks
  simp [vector_getD_eq, hk]

theorem bank_of_ge {k : Nat} (hk : 32 ≤ k) (s : State) : bank s k = blockOf fun _ => 0 := by
  unfold bank
  rw [vector_getD_eq, Vector.getElem?_eq_none (by simpa using hk)]
  rfl

theorem bank_congr (h : t.banks = s.banks) (k : Nat) : bank t k = bank s k := by simp [bank, h]

theorem entry_blockOf (f : Nat → Word) {i : Nat} (hi : i < 16) : entry (blockOf f) i = f i := by
  simp [entry, blockOf, vector_getD_eq, hi]

/-- Blocks with equal entries are equal. -/
theorem block_ext {x y : Block} (h : ∀ i, i < 16 → entry x i = entry y i) : x = y := by
  apply Vector.ext
  intro i hi
  have := h i hi
  simpa [entry, vector_getD_eq, hi] using this

/-- States that agree outside the banks and bank by bank are equal in their banks. -/
theorem banks_ext {x y : Vector Block 32} (h : ∀ k i, k < 32 → i < 16 →
    entry (x.getD k (blockOf fun _ => 0)) i = entry (y.getD k (blockOf fun _ => 0)) i) : x = y := by
  apply Vector.ext
  intro k hk
  have := block_ext fun i hi => h k i hk hi
  simpa [vector_getD_eq, hk] using this

/-! ### How a command ends -/

/-- Where command i may write REF. -/
def reach (i : Instr) (s : State) : Nat → Prop :=
  match i with
  | .unpred sz _ _ => (operandMb sz s).covers s
  | .mbenc sz => (operandMb sz s).covers s
  | .mbdec sz => (operandMb sz s).covers s
  | .frameenc => fun a => ∃ mb ∈ tiles s.fw.toNat s.fh.toNat, mb.covers s a
  | .framedec => fun a => ∃ mb ∈ tiles s.fw.toNat s.fh.toNat, mb.covers s a
  | _ => nowhere

/-- No command makes both kinds of transaction (R311). -/
theorem writes_not_reads (h : writesStream i = true) : readsStream i = false := by
  cases i <;> first | rfl | (simp [writesStream] at h)

theorem reads_not_writes (h : readsStream i = true) : writesStream i = false := by
  cases i <;> first | rfl | (simp [readsStream] at h)

/-- The command waits: nothing but the record of the wait differs. -/
def Waited (i : Instr) (s t : State) : Prop :=
  ∃ req u, Waits (writesStream i) (readsStream i) s req u ∧ t = { s with wait := some (waitRecord i req u) }

/-- Where command i, issued in s, has run to u, each buffer of t is u's, or is unspecified and has taken a free content
(U4). -/
structure Settled (i : Instr) (s u t : State) : Prop where
  wbuf : t.wbuf = u.wbuf ∨ u.wlost = true ∧ (s.wlost = true → writesStream i = true) ∧ t.wbuf.length ≤ 63
  rbuf : t.rbuf = u.rbuf ∨ u.rlost = true ∧ (s.rlost = true → readsStream i = true) ∧ t.rbuf.length ≤ 64

/-- The command has finished, in success or in failure. -/
structure Finished (i : Instr) (s t : State) : Prop where
  moved : ∃ u, Ended (writesStream i) (readsStream i) (reach i s) s u ∧
    t = { u with result := t.result, banks := t.banks, draws := t.draws, wbuf := t.wbuf, rbuf := t.rbuf } ∧
    Settled i s u t
  result : returnsResult i = false → t.result = s.result
  failure : s.status = .ok → t.status ≠ .ok → i ≠ .flush → i ≠ .getzeroes → i ≠ .framedec → t.result = s.result
  banks : ∀ k, writesBank i k = false → bank t k = bank s k

/-- The five commands that clear or set up state. -/
def isSetup (i : Instr) : Bool :=
  match i with
  | .clrstat | .init | .deinit | .wrinit | .rdinit => true
  | _ => false

theorem finish_next {x : Run Unit} (h : finish i s x = .next t) :
    (∃ u, (x = .done () u ∨ x = .ended u) ∧ t = settle i s u) ∨ ∃ req u, x = .waiting req u ∧
      t = { s with wait := some (waitRecord i req u) } := by
  cases x with
  | done a v => simp only [finish, Host.Outcome.next.injEq] at h; exact .inl ⟨v, .inl rfl, h.symm⟩
  | ended v => simp only [finish, Host.Outcome.next.injEq] at h; exact .inl ⟨v, .inr rfl, h.symm⟩
  | waiting req v => simp only [finish, Host.Outcome.next.injEq] at h; exact .inr ⟨req, v, rfl, h.symm⟩
  | faulted f => simp [finish] at h

/-- The record of a command that waits is in order (Inv). -/
theorem Waits.ok {w r : Bool} {req : PortRequest} (h : Waits w r s req u) (hw : s.wbuf.length ≤ 63)
    (hr : s.rbuf.length ≤ 64) (hp : portsOk s.ports) (i : Instr) : WaitOk s (waitRecord i req u) where
  ports := h.portsKept hw hp
  request := h.request hw
  outLog := h.outGrows
  inLog := h.inGrows
  wcnt n hn := by
    have := h.wlen hw
    simp only [waitRecord] at hn
    split at hn
    · cases hn
    · rename_i hc
      simp at hc hn
      omega
  ravail n hn := by
    have := h.rlen hr
    simp only [waitRecord] at hn
    split at hn
    · cases hn
    · simp at hn
      omega

/-- It depends on the transactions made only. -/
theorem WaitOk.congr {w : PortWait} (h : WaitOk s w) (h1 : t.ports = s.ports) : WaitOk t w :=
  ⟨h.ports, h.request, by rw [h1]; exact h.outLog, by rw [h1]; exact h.inLog, h.wcnt, h.ravail⟩

theorem Settled.same (i : Instr) (s : State) {u t : State} (h1 : t.wbuf = u.wbuf) (h2 : t.rbuf = u.rbuf) :
    Settled i s u t := ⟨.inl h1, .inl h2⟩

/-- Settling the buffers leaves a finished command finished. -/
theorem Finished.settle (h : Finished i s t) : Finished i s (settle i s t) := by
  obtain ⟨⟨u, he, e, hs⟩, h2, h3, h4⟩ := h
  have hw : t.wlost = u.wlost := by rw [e]
  have hr : t.rlost = u.rlost := by rw [e]
  obtain ⟨x, y, d, e2, hx, hy⟩ := settle_cases i s t
  refine ⟨⟨u, he, ?_, ?_, ?_⟩, fun hi => by simpa using h2 hi, fun a b c d f => by simpa using h3 a (by simpa using b) c d f,
    fun k hk => (bank_congr (by simp) k).trans (h4 k hk)⟩
  · rw [e2]; conv_lhs => rw [e]
  · rw [e2]
    rcases hx with rfl | hx
    · exact hs.wbuf
    · exact .inr ⟨hw ▸ hx.1, hx.2⟩
  · rw [e2]
    rcases hy with rfl | hy
    · exact hs.rbuf
    · exact .inr ⟨hr ▸ hy.1, hy.2⟩

/-- A command whose failure or completion is u itself. -/
theorem Finished.of_ended (h : Ended (writesStream i) (readsStream i) (reach i s) s u) : Finished i s u where
  moved := ⟨u, h, rfl, .same i s rfl rfl⟩
  result _ := h.result_eq
  failure _ _ _ _ _ := h.result_eq
  banks _ _ := bank_congr h.banks_eq _

theorem Finished.same (i : Instr) (s : State) : Finished i s s := .of_ended (Done.refl ..).toEnded

theorem Finished.inval (i : Instr) (s : State) : Finished i s (record .inval s) :=
  .of_ended ⟨record_moved _ _, fun hs => .inr (.inr (.inl (by simp [hs])))⟩

/-- A command that only sets RESULT, on success. -/
theorem Finished.of_result {v : Word} (h : Ended (writesStream i) (readsStream i) (reach i s) s u)
    (hr : returnsResult i = true)
    (hf : s.status = .ok → u.status ≠ .ok → i ≠ .flush → i ≠ .getzeroes → i ≠ .framedec → v = s.result) :
    Finished i s { u with result := v } where
  moved := ⟨u, h, rfl, .same i s rfl rfl⟩
  result h := by rw [hr] at h; cases h
  failure := hf
  banks _ _ := bank_congr h.banks_eq _

/-- The result of a finishing part. -/
theorem finish_effect {x : Run Unit} (hx : x.May (writesStream i) (readsStream i) (reach i s) s)
    (h : finish i s x = .next t) : Waited i s t ∨ Finished i s t := by
  rcases finish_next h with ⟨u, rfl | rfl, rfl⟩ | ⟨req, u, rfl, rfl⟩
  · exact .inr (Finished.of_ended (Done.toEnded hx)).settle
  · exact .inr (Finished.of_ended hx).settle
  · exact .inl ⟨req, u, hx, rfl⟩

theorem next_inj {s t : State} (h : (Host.Outcome.next s : Host.Outcome State Fault Refusal) = .next t) : s = t := by
  injection h

theorem invalid_effect (h : invalid s = .next t) : Waited i s t ∨ Finished i s t := by
  rw [← next_inj h]; exact .inr (.inval i s)

theorem complete_same_effect (h : complete s = .next t) : Waited i s t ∨ Finished i s t := by
  rw [← next_inj h]; exact .inr (.same i s)

/-- A command that only writes banks. -/
theorem Finished.of_banks (hb : t = { s with banks := t.banks })
    (hk : ∀ k, writesBank i k = false → bank t k = bank s k) : Finished i s t where
  moved := ⟨s, (Done.refl ..).toEnded, by rw [hb], .same i s (by rw [hb]) (by rw [hb])⟩
  result _ := by rw [hb]
  failure _ _ _ _ _ := by rw [hb]
  banks := hk

theorem bankToBank_effect {d src : Byte} {f : Block → Block} (hw : ∀ k, writesBank i k = (k == d.toNat))
    (h : bankToBank d src f s = .next t) : Waited i s t ∨ Finished i s t := by
  unfold bankToBank at h
  split at h
  · rw [← next_inj h]
    exact .inr (.of_banks rfl fun k hk => bank_setBank_other (by simpa [hw] using hk) _ _)
  · exact invalid_effect h

/-! ### RESULT of the reading commands -/

theorem putStreamResult_eq (v : Nat) (s : State) : ∃ x d, putStreamResult v s = { s with result := x, draws := d } := by
  unfold putStreamResult
  split
  · exact ⟨_, s.draws, rfl⟩
  · exact ⟨_, s.draws + 1, rfl⟩

theorem returning_effect {x : Run Nat} (hx : x.May (writesStream i) (readsStream i) (reach i s) s)
    (hw : writesStream i = false) (hr : returnsResult i = true)
    (h : finish i s (returning s x) = .next t) : Waited i s t ∨ Finished i s t := by
  cases x with
  | done v u =>
    have hu : Done _ _ _ s u := hx
    simp only [returning, finish_done] at h
    rw [← next_inj h]
    obtain ⟨y, d, e⟩ := putStreamResult_eq v u
    rw [e]
    refine .inr (Finished.settle ⟨⟨u, hu.toEnded, rfl, .same i s rfl rfl⟩, fun h => (by rw [hr] at h; cases h),
      fun hs hn => ?_, fun _ _ => bank_congr hu.banks_eq _⟩)
    rcases hu.cause hs with h1 | h1
    · exact absurd h1 hn
    · exact absurd h1.1 (by simp [hw])
  | ended u =>
    have hu : Ended _ _ _ s u := hx
    simp only [returning, finish_ended] at h
    rw [← next_inj h]
    refine .inr (Finished.settle ?_)
    split
    · exact .of_ended hu
    · rename_i hs
      obtain ⟨y, d, e⟩ := putStreamResult_eq 0 u
      rw [e]
      exact ⟨⟨u, hu, rfl, .same i s rfl rfl⟩, fun h => (by rw [hr] at h; cases h), fun h => absurd h hs,
        fun _ _ => bank_congr hu.banks_eq _⟩
  | waiting req u =>
    simp only [returning, finish, Host.Outcome.next.injEq] at h
    exact .inl ⟨req, u, hx, h.symm⟩
  | faulted f => simp [returning, finish] at h

/-! ### ENTDEC's destination -/

theorem storeVector_eq (b off : Nat) (v : List Word) (s : State) :
    storeVector b off v s = { s with banks := (storeVector b off v s).banks } := rfl

theorem bank_storeVector_other {b k : Nat} (h : k ≠ b) (off : Nat) (v : List Word) (s : State) :
    bank (storeVector b off v s) k = bank s k := bank_setBank_other h _ _

theorem entry_storeVector {b : Nat} (hb : b < 32) (off : Nat) (v : List Word) (s : State) {i : Nat} (hi : i < 16) :
    entry (bank (storeVector b off v s) b) i =
      if off ≤ i ∧ i < off + v.length then v.getD (i - off) 0 else entry (bank s b) i := by
  rw [storeVector, bank_setBank_same hb, entry_blockOf _ hi]

theorem drawVector_banks (b off cnt : Nat) (s : State) : ∃ v : List Word, v.length = cnt ∧
    drawVector b off cnt s = { storeVector b off v s with draws := s.draws + cnt } :=
  ⟨_, by simp, rfl⟩

/-- What ENTDEC has done when it has ended: a vector of cnt values stored, decoded or drawn. -/
theorem storing_next {b off cnt : Nat} {x : Run (List Int)} (h : finish i s (storing b off cnt x) = .next t) :
    (∃ req u, x = .waiting req u ∧ t = { s with wait := some (waitRecord i req u) }) ∨
    (∃ u d, ∃ v : List Word, (x = .ended u ∨ ∃ cs, x = .done cs u ∧ (u.status = .ok → v = cs.map wrap32)) ∧
      ((x = .ended u ∨ u.status ≠ .ok) → v.length = cnt) ∧
      t = settle i s { storeVector b off v u with draws := d }) := by
  cases x with
  | done cs u =>
    simp only [storing, finish_done] at h
    rw [← next_inj h]
    split
    · rename_i hs
      exact .inr ⟨u, u.draws, _, .inr ⟨cs, rfl, fun _ => rfl⟩, by simp [hs], rfl⟩
    · rename_i hs
      obtain ⟨v, hl, e⟩ := drawVector_banks b off cnt u
      exact .inr ⟨u, _, v, .inr ⟨cs, rfl, fun h => absurd h hs⟩, fun _ => hl, by rw [e]⟩
  | ended u =>
    simp only [storing, finish_ended] at h
    rw [← next_inj h]
    obtain ⟨v, hl, e⟩ := drawVector_banks b off cnt u
    exact .inr ⟨u, _, v, .inl rfl, fun _ => hl, by rw [e]⟩
  | waiting req u =>
    simp only [storing, finish, Host.Outcome.next.injEq] at h
    exact .inl ⟨req, u, rfl, h.symm⟩
  | faulted f => simp [storing, finish] at h

/-! ### The pipeline -/

theorem andThen_eq_done {α β : Type} {x : Run α} {k : α → State → Run β} {b : β} (h : x.andThen k = .done b u) :
    ∃ a v, x = .done a v ∧ k a v = .done b u := by
  cases x with
  | done a v => exact ⟨a, v, rfl, h⟩
  | ended v => cases h
  | waiting req v => cases h
  | faulted f => cases h

theorem andThen_eq_ended {α β : Type} {x : Run α} {k : α → State → Run β} (h : x.andThen k = .ended t) :
    x = .ended t ∨ ∃ a v, x = .done a v ∧ k a v = .ended t := by
  cases x with
  | done a v => exact .inr ⟨a, v, rfl, h⟩
  | ended v => simp only [andThen_ended, Run.ended.injEq] at h; exact .inl (by rw [h])
  | waiting req v => cases h
  | faulted f => cases h

theorem orFault_eq_done {α : Type} {f : Fault} {o : Option α} {a : α} (h : orFault f o s = .done a t) :
    o = some a ∧ t = s := by
  cases o with
  | none => cases h
  | some b => cases h; exact ⟨rfl, rfl⟩

theorem checkStatus_eq_done {a : Unit} (h : checkStatus s = .done a t) : s.status = .ok ∧ t = s := by
  unfold checkStatus at h
  split at h
  · rename_i hs; cases h; exact ⟨hs, rfl⟩
  · cases h

theorem reconstruct_eq_done {m : Mode} {mb : Mb} {zs : List Block} {zd : Block} {a : Unit}
    (h : reconstruct m mb zs zd s = .done a t) : ∃ ref, t = { s with ref := ref } := by
  unfold reconstruct at h
  obtain ⟨p, v, h1, h2⟩ := andThen_eq_done h
  obtain ⟨_, rfl⟩ := orFault_eq_done h1
  cases h2
  exact ⟨_, rfl⟩

/-- EncMB completes only with STATUS = OK (R269, R273). -/
theorem encodeMb_done_ok {mb : Mb} {m : Mode} (h : encodeMb mb s = .done m t) : t.status = .ok := by
  unfold encodeMb at h
  obtain ⟨_, s1, _, h⟩ := andThen_eq_done h
  obtain ⟨_, s2, _, h⟩ := andThen_eq_done h
  obtain ⟨_, s3, _, h⟩ := andThen_eq_done h
  obtain ⟨_, s4, _, h⟩ := andThen_eq_done h
  obtain ⟨_, s5, _, h⟩ := andThen_eq_done h
  obtain ⟨_, s6, _, h⟩ := andThen_eq_done h
  obtain ⟨_, s8, h8, h⟩ := andThen_eq_done h
  obtain ⟨_, s9, h9, h⟩ := andThen_eq_done h
  obtain ⟨hok, rfl⟩ := checkStatus_eq_done h8
  obtain ⟨ref, rfl⟩ := reconstruct_eq_done h9
  cases h
  exact hok

/-- A command that sets RESULT when its work is done. -/
theorem result_effect {α : Type} {x : Run α} {f : α → Word}
    (hx : x.May (writesStream i) (readsStream i) (reach i s) s) (hr : returnsResult i = true)
    (hok : s.status = .ok → ∀ a u, x = .done a u → u.status = .ok)
    (h : finish i s (x.andThen fun a u => .done () { u with result := f a }) = .next t) :
    Waited i s t ∨ Finished i s t := by
  cases x with
  | done a u =>
    have hu : Done _ _ _ s u := hx
    simp only [andThen_done, finish_done] at h
    rw [← next_inj h]
    exact .inr (Finished.of_result hu.toEnded hr fun hs hn => absurd (hok hs a u rfl) hn).settle
  | ended u =>
    simp only [andThen_ended, finish_ended] at h
    rw [← next_inj h]
    exact .inr (Finished.of_ended hx).settle
  | waiting req u =>
    simp only [andThen_waiting, finish, Host.Outcome.next.injEq] at h
    exact .inl ⟨req, u, hx, h.symm⟩
  | faulted f => simp [finish] at h

/-- RESULT has no part in what a command's steps do. -/
theorem Moved.dropResult {w r : Bool} {allow : Nat → Prop} {v : Word}
    (h : Moved w r allow { s with result := v } t) : Moved w r allow s { t with result := s.result } where
  only := by conv_lhs => rw [h.only]
  refRead := h.refRead
  refForm := h.refForm
  refCells := h.refCells
  refSame := h.refSame
  sticky := h.sticky
  lost := h.lost
  noWrite := h.noWrite
  noRead := h.noRead
  wlen := h.wlen
  rlen := h.rlen
  outGrows := h.outGrows
  inGrows := h.inGrows
  portsKept := h.portsKept
  quiet hw hr := by conv_lhs => rw [h.quiet hw hr]

theorem reach_frame (hw : t.fw = s.fw) (hh : t.fh = s.fh) :
    (fun a => ∃ mb ∈ tiles t.fw.toNat t.fh.toNat, mb.covers t a) =
      fun a => ∃ mb ∈ tiles s.fw.toNat s.fh.toNat, mb.covers s a := by
  rw [hw, hh]
  funext a
  exact propext ⟨fun ⟨mb, hm, hc⟩ => ⟨mb, hm, (covers_congr hw).1 hc⟩,
    fun ⟨mb, hm, hc⟩ => ⟨mb, hm, (covers_congr hw).2 hc⟩⟩

/-! ### Every command -/

theorem exec_effect (hi : isSetup i = false) (h : exec i s = .next t) : Waited i s t ∨ Finished i s t := by
  cases i with
  | nop => exact complete_same_effect h
  | clrstat => simp [isSetup] at hi
  | init => simp [isSetup] at hi
  | deinit => simp [isSetup] at hi
  | wrinit => simp [isSetup] at hi
  | rdinit => simp [isSetup] at hi
  | putbits n =>
    simp only [exec, execPutbits] at h
    split at h
    · exact finish_effect (emitBits_may _ _) h
    · exact invalid_effect h
  | putones => exact finish_effect (emitBits_may _ _) h
  | putzeroes => exact finish_effect (emitBits_may _ _) h
  | puteg =>
    simp only [exec, execPuteg] at h
    split at h
    · exact finish_effect (emitBits_may _ _) h
    · exact invalid_effect h
  | flush =>
    simp only [exec, execFlush] at h
    have hx : (if s.wbuf.length = 0 then Run.done () s else transfer (flushBytes s.wbuf) s).May true false nowhere s := by
      split
      · exact Done.refl ..
      · refine transfer_may s s.wbuf s.draws (fun hl => ?_) fun h => by omega
        simp only [flushBytes, pack_length, List.length_append, List.length_replicate]
        omega
    generalize (if s.wbuf.length = 0 then Run.done () s else transfer (flushBytes s.wbuf) s) = x at h hx
    cases x with
    | done a u =>
      simp only [andThen_done, finish_done] at h
      rw [← next_inj h]
      exact .inr (Finished.of_result (i := .flush) (Done.toEnded hx) rfl fun _ _ hf => absurd rfl hf).settle
    | ended u =>
      simp only [andThen_ended, finish_ended] at h
      rw [← next_inj h]
      exact .inr (Finished.of_ended (i := .flush) hx).settle
    | waiting req u =>
      simp only [andThen_waiting, finish, Host.Outcome.next.injEq] at h
      exact .inl ⟨req, u, hx, h.symm⟩
    | faulted f => simp [finish] at h
  | getbits n =>
    simp only [exec, execGetbits] at h
    split at h
    · exact returning_effect (readBits_may _ _ _) rfl rfl h
    · exact invalid_effect h
  | getzeroes =>
    simp only [exec, execGetzeroes] at h
    have hx := countZeros_run (w := false) (allow := nowhere) s
    cases hc : countZeros s with
    | done zz u =>
      rw [hc] at h hx
      have he : Ended false true nowhere s u := by
        obtain ⟨z, b⟩ := zz
        cases b with
        | true => exact Done.toEnded hx
        | false => exact hx
      simp only [andThen_done, finish_done] at h
      rw [← next_inj h]
      refine .inr (Finished.settle ?_)
      split
      · exact .of_result he rfl fun _ _ _ hf => absurd rfl hf
      · obtain ⟨y, d, e⟩ := putStreamResult_eq zz.1 u
        rw [e]
        exact ⟨⟨u, he, rfl, .same _ s rfl rfl⟩, fun h => (by cases h), fun _ _ _ hf => absurd rfl hf, fun _ _ => bank_congr he.banks_eq _⟩
    | ended u => rw [hc] at hx; exact hx.elim
    | waiting req u =>
      rw [hc] at h hx
      simp only [andThen_waiting, finish, Host.Outcome.next.injEq] at h
      exact .inl ⟨req, u, hx, h.symm⟩
    | faulted f => rw [hc] at h; simp [finish] at h
  | geteg => exact returning_effect (readEg_may _) rfl rfl h
  | entenc b off cnt =>
    simp only [exec, execEntenc] at h
    split at h
    · exact finish_effect (writeVector_may _ _) h
    · exact invalid_effect h
  | entdec b off cnt =>
    simp only [exec, execEntdec] at h
    split at h
    · have hx := readVector_may (w := false) (allow := nowhere) cnt.toNat s
      rcases storing_next h with ⟨req, u, e, rfl⟩ | ⟨u, d, v, hv, _, rfl⟩
      · rw [e] at hx; exact .inl ⟨req, u, hx, rfl⟩
      · have he : Ended false true nowhere s u := by
          rcases hv with e | ⟨cs, e, _⟩
          · rw [e] at hx; exact hx
          · rw [e] at hx; exact Done.toEnded hx
        refine .inr (Finished.settle ⟨⟨u, he, rfl, .same _ s rfl rfl⟩, fun _ => he.result_eq,
          fun _ _ _ _ _ => he.result_eq, fun k hk => ?_⟩)
        have hk : k ≠ b.toNat := by simpa [writesBank] using hk
        exact (bank_storeVector_other hk _ _ _).trans (bank_congr he.banks_eq _)
    · exact invalid_effect h
  | fwd4 d src => exact bankToBank_effect (fun _ => rfl) h
  | inv4 d src => exact bankToBank_effect (fun _ => rfl) h
  | had4 d src => exact bankToBank_effect (fun _ => rfl) h
  | ihad4 d src => exact bankToBank_effect (fun _ => rfl) h
  | had2 d src =>
    exact bankToBank_effect (f := fun x => overlay (bank s d.toNat) 4 (had2Entry x)) (fun _ => rfl) h
  | quant4 d src => exact bankToBank_effect (fun _ => rfl) h
  | dequant4 d src => exact bankToBank_effect (fun _ => rfl) h
  | quantdc d src cnt =>
    simp only [exec, execQuantdc] at h
    split at h
    · exact bankToBank_effect (fun _ => rfl) h
    · exact invalid_effect h
  | dequantdc d src cnt =>
    simp only [exec, execDequantdc] at h
    split at h
    · exact bankToBank_effect (fun _ => rfl) h
    · exact invalid_effect h
  | gatherdc g b cnt =>
    simp only [exec, execGatherdc] at h
    split at h
    · rw [← next_inj h]
      exact .inr (.of_banks rfl fun k hk => bank_setBank_other (by simpa [writesBank] using hk) _ _)
    · exact invalid_effect h
  | scatterdc b g cnt =>
    simp only [exec, execScatterdc] at h
    split at h
    · rw [← next_inj h]
      refine .inr (.of_banks rfl fun k hk => ?_)
      by_cases h32 : k < 32
      · rw [bank_mapBanks _ _ _ _ _ h32, if_neg]
        simpa [writesBank, Bool.and_eq_false_imp, decide_eq_true_eq] using hk
      · rw [bank_of_ge (by omega), bank_of_ge (by omega)]
    · exact invalid_effect h
  | bdiv d src div =>
    simp only [exec, execBdiv] at h
    split at h
    · exact bankToBank_effect (fun _ => rfl) h
    · exact invalid_effect h
  | predsel sz =>
    simp only [exec, execPredsel] at h
    split at h
    · have hx := selectMode_may (w := false) (r := false) (allow := nowhere) (operandMb sz s) s
      cases hc : selectMode (operandMb sz s) s with
      | done m u =>
        rw [hc] at h hx
        have hx : Done false false nowhere s u := hx
        simp only [andThen_done, finish_done] at h
        rw [← next_inj h]
        refine .inr (Finished.of_result (i := (.predsel sz)) hx.toEnded rfl fun hs hn => ?_).settle
        rcases hx.cause hs with h1 | h1
        · exact absurd h1 hn
        · exact absurd h1.1 (by simp)
      | ended u =>
        rw [hc] at h hx
        simp only [andThen_ended, finish_ended] at h
        rw [← next_inj h]
        exact .inr (Finished.of_ended (i := (.predsel sz)) hx).settle
      | waiting req u =>
        rw [hc] at h hx
        simp only [andThen_waiting, finish, Host.Outcome.next.injEq] at h
        exact .inl ⟨req, u, hx, h.symm⟩
      | faulted f => rw [hc] at h; simp [finish] at h
    · exact invalid_effect h
  | predres sz m b =>
    simp only [exec, execPredres] at h
    split at h
    · split at h
      · exact invalid_effect h
      · split at h
        · cases hp : predictor (by assumption) (operandMb sz s) s with
          | none => rw [hp] at h; simp [orFault, finish] at h
          | some p =>
            rw [hp] at h
            simp only [orFault, andThen_done] at h
            cases hq : sourceBlock (operandMb sz s) s with
            | none => rw [hq] at h; simp [finish] at h
            | some src =>
              rw [hq] at h
              simp only [andThen_done, finish_done] at h
              rw [← next_inj h]
              refine .inr (Finished.settle (.of_banks (by rw [mapBanks]) fun k hk => ?_))
              by_cases h32 : k < 32
              · rw [bank_mapBanks _ _ _ _ _ h32, if_neg]
                simpa [writesBank, Bool.and_eq_false_imp, decide_eq_true_eq, Mb.subs, Mb.side, operandMb] using hk
              · rw [bank_of_ge (by omega), bank_of_ge (by omega)]
        · exact invalid_effect h
    · exact invalid_effect h
  | unpred sz m b =>
    simp only [exec, execUnpred] at h
    split at h
    · split at h
      · exact invalid_effect h
      · split at h
        · refine finish_effect ?_ h
          refine Run.Atomic.toMay (Run.May.andThenAtomic (Run.May.orFault ..) fun p v hv => ?_)
          have hc : ∀ f : Nat → Block, ∀ c ∈ unpredCells (operandMb sz s) p v f, (operandMb sz s).covers s c.1 :=
            fun f c hc => (covers_congr hv.fw_eq).1 (unpredCells_covers hc)
          exact show Done false false ((operandMb sz s).covers s) v (writeRef _ v) from writeRef_done (hc _) v
        · exact invalid_effect h
    · exact invalid_effect h
  | mbenc sz =>
    simp only [exec, execMbenc] at h
    split at h
    · exact complete_same_effect h
    · split at h
      · exact result_effect (encodeMb_atomic _ _).toMay rfl (fun _ _ _ e => encodeMb_done_ok e) h
      · exact invalid_effect h
  | mbdec sz =>
    simp only [exec, execMbdec] at h
    split at h
    · exact complete_same_effect h
    · split at h
      · have hx := (decodeMb_atomic (w := false) (operandMb sz s) s).toMay
        refine result_effect hx rfl (fun hs a u e => ?_) h
        rw [e] at hx
        rcases Done.cause hx hs with h1 | h1
        · exact h1
        · exact absurd h1.1 (by simp)
      · exact invalid_effect h
  | frameenc =>
    simp only [exec, execFrameenc] at h
    split at h
    · exact complete_same_effect h
    · split at h
      · refine finish_effect ?_ h
        have h1 := emitBits_may (r := false) (allow := reach .frameenc s) (natBits 1 1) s
        cases hx : emitBits (natBits 1 1) s with
        | done a u =>
          rw [hx] at h1
          have h1 : Done true false (reach .frameenc s) s u := h1
          refine h1.may ?_
          simp only [andThen_done]
          have h2 := checkStatus_may (w := true) (r := false) (allow := reach .frameenc s) u
          cases hy : checkStatus u with
          | done a v =>
            obtain ⟨_, rfl⟩ := checkStatus_eq_done hy
            have := encodeMbs_may (r := false) (tiles v.fw.toNat v.fh.toNat) v
            rw [reach_frame h1.fw_eq h1.fh_eq] at this
            exact this
          | ended v => rw [hy] at h2; exact h2
          | waiting req v => rw [hy] at h2; exact h2
          | faulted f => trivial
        | ended u => rw [hx] at h1; exact h1
        | waiting req u => rw [hx] at h1; exact h1
        | faulted f => trivial
      · exact invalid_effect h
  | framedec =>
    simp only [exec, execFramedec] at h
    split at h
    · exact complete_same_effect h
    · split at h
      · have h1 := readBits_may (w := false) (allow := reach .framedec s) 1 0 s
        cases hx : readBits 1 0 s with
        | done kf u =>
          rw [hx] at h h1
          have h1 : Done false true (reach .framedec s) s u := h1
          simp only [andThen_done] at h
          split at h
          · simp only [finish_done] at h
            rw [← next_inj h]
            exact .inr (Finished.of_result (i := .framedec) h1.toEnded rfl fun _ _ _ _ hf => absurd rfl hf).settle
          · have h2 := decodeMbs_may (w := false) (tiles u.fw.toNat u.fh.toNat)
              { u with result := BitVec.ofNat 32 kf }
            rw [reach_frame (t := { u with result := BitVec.ofNat 32 kf }) h1.fw_eq h1.fh_eq] at h2
            generalize hx2 : decodeMbs _ _ = x2 at h h2
            clear hx2
            have hfin : ∀ v, Ended false true (reach .framedec s) { u with result := BitVec.ofNat 32 kf } v →
                Finished .framedec s v := fun v hv => by
              have he : Ended false true (reach .framedec s) u { v with result := u.result } :=
                ⟨hv.toMoved.dropResult, hv.cause⟩
              have he := h1.transEnded he
              exact ⟨⟨_, he, rfl, .same _ s rfl rfl⟩, fun h => (by cases h), fun _ _ _ _ hf => absurd rfl hf,
                fun k _ => bank_congr he.banks_eq _⟩
            rcases finish_next h with ⟨v, rfl | rfl, rfl⟩ | ⟨req, v, rfl, rfl⟩
            · exact .inr (hfin _ (Done.toEnded h2)).settle
            · exact .inr (hfin _ h2).settle
            · have h2 : Waits false true { u with result := BitVec.ofNat 32 kf } req v := h2
              exact .inl ⟨req, v, h1.transWaits ⟨h2.sticky, h2.portsKept, h2.request, h2.dry, h2.outGrows, h2.inGrows,
                h2.rlen, h2.wlen, h2.lost, h2.wkept, h2.rkept, h2.rdry⟩, rfl⟩
        | ended u =>
          rw [hx] at h h1
          simp only [andThen_ended, finish_ended] at h
          rw [← next_inj h]
          exact .inr (Finished.of_ended (i := .framedec) h1).settle
        | waiting req u =>
          rw [hx] at h h1
          simp only [andThen_waiting, finish, Host.Outcome.next.injEq] at h
          exact .inl ⟨req, u, h1, h.symm⟩
        | faulted f => rw [hx] at h; simp [finish] at h
      · exact invalid_effect h

/-! ### The set-up commands -/

/-- The next state of each of the five set-up commands (R291, R293 to R296). -/
theorem setup_next {i : Instr} {s t : State} (hi : isSetup i = true) (h : exec i s = .next t) :
    (i = .clrstat ∧ t = { s with status := .ok }) ∨ (i = .wrinit ∧ t = { s with wbuf := [], wlost := false }) ∨
    (i = .rdinit ∧ t = { s with rbuf := [], rlost := false }) ∨
    (i = .init ∧ (t = record .inval s ∨
      (t = record .nomem s ∧ (s.cfg.maxW < s.width.toNat ∨ s.cfg.maxH < s.height.toNat ∨
        s.cfg.maxSamples < s.width.toNat * s.height.toNat)) ∨
      (t = { s with fw := s.width, fh := s.height, inited := true, ref := [] } ∧ s.inited = false ∧
        0 < s.width.toNat ∧ 0 < s.height.toNat ∧ s.width.toNat % 16 = 0 ∧ s.height.toNat % 4 = 0 ∧
        s.width.toNat ≤ s.cfg.maxW ∧ s.height.toNat ≤ s.cfg.maxH ∧
        s.width.toNat * s.height.toNat ≤ s.cfg.maxSamples))) ∨
    (i = .deinit ∧ (t = s ∨ ∃ fw fh, t = { s with inited := false, ref := [], fw := fw, fh := fh, draws := s.draws + 2 })) := by
  cases i with
  | clrstat => left; exact ⟨rfl, (next_inj h).symm⟩
  | wrinit => right; left; exact ⟨rfl, (next_inj h).symm⟩
  | rdinit => right; right; left; exact ⟨rfl, (next_inj h).symm⟩
  | init =>
    right; right; right; left
    refine ⟨rfl, ?_⟩
    simp only [exec, execInit] at h
    split at h
    · exact .inl (next_inj h).symm
    · split at h
      · exact .inl (next_inj h).symm
      · split at h
        · exact .inl (next_inj h).symm
        · split at h
          · refine .inr (.inr ⟨(next_inj h).symm, by simpa using ‹¬ s.inited = true›, ?_⟩)
            omega
          · refine .inr (.inl ⟨(next_inj h).symm, ?_⟩)
            omega
  | deinit =>
    right; right; right; right
    refine ⟨rfl, ?_⟩
    simp only [exec, execDeinit] at h
    split at h
    · exact .inr ⟨_, _, (next_inj h).symm⟩
    · exact .inl (next_inj h).symm
  | _ => simp [isSetup] at hi

end Sys2Proof.Machine
end

