-- ==== Sys2Proof/Laws/Bus.lean ====
section
/-! SUPPORT. The address map (20_memory.md R70, R74): which register or sample an address names. -/

namespace Sys2Proof.Machine

theorem toNat_small {n : Nat} (h : n < 2 ^ 32) : (BitVec.ofNat 32 n).toNat = n := by
  simp; omega

theorem setIfInBounds_block {x : Block} {i : Nat} (hi : i < 16) (v : Word) :
    x.setIfInBounds i v = blockOf fun j => if j = i then v else entry x j := by
  apply block_ext
  intro j hj
  rw [entry_blockOf _ hj]
  unfold entry
  simp only [vector_getD_eq, Vector.getElem?_setIfInBounds]
  by_cases h : i = j
  · subst h; simp [hi]
  · simp [h, Ne.symm h]

theorem wordTarget_qtab {p : Nat} (hp : p < 16) : wordTarget (0x40 + 4 * p) = .qtab p := by
  have h1 : (0x40 + 4 * p - 0x40) / 4 = p := by omega
  unfold wordTarget
  repeat (first | rw [if_neg (by omega)] | rw [if_pos (by omega)])
  rw [h1]

theorem wordTarget_bank {b i : Nat} (hb : b < 32) (hi : i < 16) : wordTarget (0x1000 + 64 * b + 4 * i) = .bank b i := by
  have h1 : (0x1000 + 64 * b + 4 * i - 0x1000) / 64 = b := by omega
  have h2 : (0x1000 + 64 * b + 4 * i - 0x1000) % 64 / 4 = i := by omega
  unfold wordTarget
  repeat (first | rw [if_neg (by omega)] | rw [if_pos (by omega)])
  rw [h1, h2]

theorem wordTarget_reserved {a : Nat} (h : 0x020 ≤ a ∧ a < 0x040 ∨ 0x080 ≤ a ∧ a < 0x1000 ∨ 0x1800 ≤ a) : 
    wordTarget a = .reserved := by
  unfold wordTarget
  repeat rw [if_neg (by omega)]

/-- An address of the SRC window. -/
theorem target_sample {a : Nat} {s : State} (ha : a < s.cfg.maxSamples) (h24 : a < 2 ^ 24) :
    target 1 (0x01000000 + a) s = some (.src a) := by
  unfold target
  rw [if_neg (by omega), if_pos rfl, if_pos (by omega), Nat.add_sub_cancel_left]

theorem target_ref {a : Nat} {s : State} (ha : a < s.fw.toNat * s.fh.toNat) (hm : s.cfg.maxSamples ≤ 2 ^ 24)
    (hi : s.inited = true) : target 1 (0x02000000 + a) s = some (.ref a) := by
  unfold target
  rw [if_neg (by omega), if_pos rfl, if_neg (by omega), if_pos ⟨by omega, by omega, hi⟩, Nat.add_sub_cancel_left]

theorem target_word {a : Nat} {s : State} (h : a < 0x01000000) (h4 : a % 4 = 0) : target 4 a s = some (wordTarget a) := by
  unfold target
  rw [if_pos h, if_pos ⟨rfl, h4⟩]

end Sys2Proof.Machine
end

