-- ==== Sys2Proof/Laws/Bytes.lean ====
section
/-! SUPPORT. Bits into bytes and back: pack and bytesBits are inverse on whole bytes, and the bytes that the writer has
sent carry the bits written (R130, R131, R137, R144). -/

namespace Sys2Proof.Machine

theorem natBits_mod (n v : Nat) : natBits n (v % 2 ^ n) = natBits n v := by
  simp only [natBits]
  refine List.map_congr_left fun j hj => ?_
  have := List.mem_range.1 hj
  rw [Nat.testBit_mod_two_pow, decide_eq_true (by omega), Bool.true_and]

/-- The bits of the value of a bit sequence. -/
theorem natBits_bitsVal (bits : List Bool) : natBits bits.length (bitsVal bits) = bits := by
  induction bits with
  | nil => rfl
  | cons b bits ih =>
    have hlt := bitsVal_lt bits
    rw [List.length_cons, natBits_succ, bitsVal_cons, Nat.mul_comm, Nat.testBit_two_pow_mul_add _ hlt,
      ← natBits_mod, Nat.mul_add_mod, Nat.mod_eq_of_lt hlt, ih]
    cases b <;> simp

theorem pack_cons (x rest : List Bool) (hx : x.length = 8) :
    pack (x ++ rest) = BitVec.ofNat 8 (bitsVal x) :: pack rest := by
  have hl : (x ++ rest).length / 8 = rest.length / 8 + 1 := by rw [List.length_append, hx]; omega
  simp only [pack, hl, List.range_succ_eq_map, List.map_cons, List.map_map]
  congr 1
  · simp [← hx]
  · refine List.map_congr_left fun j _ => ?_
    simp only [Function.comp]
    rw [show 8 * j.succ = x.length + 8 * j by omega, List.drop_append, List.drop_of_length_le (by omega),
      List.nil_append, Nat.add_sub_cancel_left]

theorem pack_nil : pack [] = [] := rfl

/-- pack and bytesBits are inverse on whole bytes. -/
theorem bytesBits_pack (bits : List Bool) (h : bits.length % 8 = 0) : bytesBits (pack bits) = bits := by
  generalize hn : bits.length / 8 = n
  induction n generalizing bits with
  | zero =>
    have : bits = [] := List.length_eq_zero_iff.1 (by omega)
    subst this
    rfl
  | succ n ih =>
    have hx : (bits.take 8).length = 8 := by rw [List.length_take]; omega
    have hs := List.take_append_drop 8 bits
    rw [← hs, pack_cons _ _ hx, bytesBits, List.flatMap_cons]
    have hb : natBits 8 (BitVec.ofNat 8 (bitsVal (bits.take 8))).toNat = bits.take 8 := by
      rw [BitVec.toNat_ofNat, natBits_mod]
      have := natBits_bitsVal (bits.take 8)
      rwa [hx] at this
    rw [hb]
    congr 1
    exact ih _ (by rw [List.length_drop]; omega) (by rw [List.length_drop]; omega)

theorem bytesBits_append (xs ys : List Byte) : bytesBits (xs ++ ys) = bytesBits xs ++ bytesBits ys := by
  simp [bytesBits]

theorem bytesBits_flatMap {α : Type} (l : List α) (f : α → List Byte) :
    bytesBits (l.flatMap f) = l.flatMap fun a => bytesBits (f a) := by
  simp [bytesBits, List.flatMap_assoc]

/-- The first k windows of 64 bits, one after another. -/
theorem windows (stream : List Bool) (k : Nat) (h : 64 * k ≤ stream.length) :
    ((List.range k).flatMap fun j => (stream.drop (64 * j)).take 64) = stream.take (64 * k) := by
  induction k with
  | zero => simp
  | succ k ih =>
    rw [List.range_succ, List.flatMap_append, ih (by omega), List.flatMap_singleton,
      show 64 * (k + 1) = 64 * k + 64 by ring, List.take_add]

/-- The bits of the transactions made while writing. -/
theorem newOutBytes_afterWriting (bits : List Bool) (s : State) :
    bytesBits (newOutBytes s (afterWriting bits s)) =
      (s.wbuf ++ bits).take (64 * ((s.wbuf ++ bits).length / 64)) := by
  have hk := Nat.mul_div_le (s.wbuf ++ bits).length 64
  simp only [newOutBytes, afterWriting, List.drop_left, List.flatMap_map]
  rw [bytesBits_flatMap, ← windows _ _ hk]
  refine List.flatMap_congr fun j hj => ?_
  have := List.mem_range.1 hj
  exact bytesBits_pack _ (by rw [List.length_take, List.length_drop]; omega)

/-- Bits that reached the sink while writing. -/
theorem sinkBytes_afterWriting (bits : List Bool) (s : State) :
    bytesBits (sinkBytes (afterWriting bits s)) ++ (afterWriting bits s).wbuf =
      bytesBits (sinkBytes s) ++ (s.wbuf ++ bits) := by
  have hk := Nat.mul_div_le (s.wbuf ++ bits).length 64
  have hz : ∀ l : List Byte, l.length = 8 →
      ((l.zip (List.replicate 8 true)).filter fun p => p.2).map Prod.fst = l := by
    intro l hl
    rw [List.filter_eq_self.2 fun p hp => ?_, List.map_fst_zip (by simp [hl])]
    have := (List.of_mem_zip hp).2
    rw [List.mem_replicate] at this
    exact this.2
  have : sinkBytes (afterWriting bits s) = sinkBytes s ++ newOutBytes s (afterWriting bits s) := by
    simp only [sinkBytes, newOutBytes, afterWriting, List.flatMap_append, List.drop_left, List.flatMap_map]
    congr 1
    refine List.flatMap_congr fun j hj => ?_
    have := List.mem_range.1 hj
    exact hz _ (by rw [pack_length, List.length_take, List.length_drop]; omega)
  rw [this, bytesBits_append, newOutBytes_afterWriting, List.append_assoc]
  congr 1
  exact List.take_append_drop _ _

/-- The padding that FLUSH adds to m buffered bits. -/
def padding (m : Nat) : List Bool := List.replicate (8 * ((m + 7) / 8) - m) false

/-- FLUSH with the next answer `ok`: the buffer, padded, goes out (R137). -/
theorem transfer_ok {s : State} (hok : s.status = .ok) (hl : s.wlost = false) {rest : List OutAnswer} (ha : s.ports.outAnswers = .ok :: rest)
    (bytes : List Byte) : transfer bytes s = .done () { s with
      wbuf := [], ports := { s.ports with
        outAnswers := rest
        outLog := s.ports.outLog ++ [⟨bytes, .ok, List.replicate bytes.length true⟩] } } := by
  simp [transfer, outWrite, writerExact_true hok hl, ha]

/-- FLUSH where its transaction, if it makes one, is answered `ok` (R137). -/
theorem flush_ok {s : State} (hok : s.status = .ok) (hl : s.wlost = false)
    (ha : s.wbuf = [] ∨ ∃ rest, s.ports.outAnswers = .ok :: rest) : ∃ u, exec .flush s = .next u ∧ u.status = .ok ∧
      bytesBits (newOutBytes s u) = s.wbuf ++ padding s.wbuf.length ∧ u.wait = s.wait ∧
      ∃ txs, u.ports.outLog = s.ports.outLog ++ txs ∧
        txs.flatMap (fun tx => ((tx.bytes.zip tx.reached).filter fun p => p.2).map Prod.fst) = newOutBytes s u := by
  by_cases hn : s.wbuf = []
  · refine ⟨{ s with result := statusWord s.status }, ?_, hok, ?_, rfl, [], ?_, ?_⟩
    · simp only [exec, execFlush, hn, List.length_nil, if_true, andThen_done, finish_done]
      rw [settle_written rfl]
      · exact hl
      · rfl
    · simp [newOutBytes, hn, padding, bytesBits]
    · simp
    · simp [newOutBytes]
  · obtain ⟨rest, hr⟩ := ha.resolve_left hn
    have hf : flushBytes s.wbuf = pack (s.wbuf ++ padding s.wbuf.length) := rfl
    have hz : ∀ l : List Byte, ((l.zip (List.replicate l.length true)).filter fun p => p.2).map Prod.fst = l := by
      intro l
      rw [List.filter_eq_self.2 fun p hp => ?_, List.map_fst_zip (by simp)]
      have := (List.of_mem_zip hp).2
      rw [List.mem_replicate] at this
      exact this.2
    have e : exec .flush s = .next { s with wbuf := [], result := statusWord s.status, ports := { s.ports with
        outAnswers := rest
        outLog := s.ports.outLog ++ [⟨flushBytes s.wbuf, .ok, List.replicate (flushBytes s.wbuf).length true⟩] } } := by
      simp only [exec, execFlush]
      rw [if_neg (by simpa using hn), transfer_ok hok hl hr, andThen_done, finish_done, settle_written rfl]
      · exact hl
      · rfl
    refine ⟨_, e, hok, ?_, rfl, _, rfl, ?_⟩
    · simp only [newOutBytes, List.drop_left, List.flatMap_singleton, hf]
      rw [bytesBits_pack]
      simp only [padding, List.length_append, List.length_replicate]; omega
    · simp only [newOutBytes, List.drop_left, List.flatMap_singleton]
      exact hz _

/-- IN answers that carry the given bytes make their bits readable. -/
theorem readable_supplies {r : State} {bytes : List Byte} (hr : r.rbuf = [])
    (h : supplies r.ports.inAnswers bytes) : readable r = bytesBits bytes := by
  obtain ⟨h1, h2⟩ := h
  have hd : dataAnswers r.ports.inAnswers = r.ports.inAnswers := by
    rw [dataAnswers, List.takeWhile_eq_self_iff]
    intro a ha
    have := h1 a ha
    cases a with
    | fail => exact absurd rfl this
    | ok bs hb => cases bs with
      | nil => exact absurd rfl this
      | cons b bs => rfl
  rw [readable, hr, hd, List.nil_append, ← h2, bytesBits_flatMap]
  refine List.flatMap_congr fun a _ => ?_
  cases a <;> rfl

end Sys2Proof.Machine
end

