-- ==== Sys2Proof/Laws/Coding.lean ====
section
/-! SUPPORT. The Exp-Golomb code and the coefficient code: what the encoder writes the decoder reads back (R142, R143,
R171 to R174), and the code said without the encoder's loop (R173, R175). -/

namespace Sys2Proof.Machine

/-! ### Exp-Golomb codes -/

theorem bitlength_pos (v : Nat) : 1 ≤ bitlength v := by simp [bitlength]

@[simp] theorem egBits_length (v : Nat) : (egBits v).length = egLength v := by
  have := bitlength_pos (v + 1)
  simp only [egBits, egLength, List.length_append, List.length_replicate, natBits_length]
  omega

/-- The zeros, the one-bit and the low bits of a code. -/
theorem egBits_eq (v : Nat) : egBits v =
    List.replicate (Nat.log2 (v + 1)) false ++ true :: natBits (Nat.log2 (v + 1)) (v + 1) := by
  rw [egBits, bitlength, Nat.add_sub_cancel, natBits_succ, Nat.testBit_log2 (by omega)]

/-- R142, R143: a code read back. -/
theorem readEg_egBits {s : State} (hl : s.rlost = false) (v : Nat) (rest : List Bool) (hv : v ≤ 2 ^ 32 - 2)
    (h : readable s = egBits v ++ rest) :
    readEg s = .done v (afterReading (egLength v) (egLength v) s) := by
  have hlt : v + 1 < 2 ^ (Nat.log2 (v + 1) + 1) := Nat.lt_log2_self
  have hle : 2 ^ Nat.log2 (v + 1) ≤ v + 1 := Nat.log2_self_le (by omega)
  have hz : Nat.log2 (v + 1) < 32 := (Nat.log2_lt (by omega)).2 (by omega)
  have hlen : egLength v = 2 * Nat.log2 (v + 1) + 1 := by rw [egLength, bitlength]; omega
  rw [egBits_eq, List.append_assoc, List.cons_append] at h
  rw [readEg_eq hl (Nat.log2 (v + 1)) (natBits (Nat.log2 (v + 1)) (v + 1)) rest hz (by simp) h, hlen]
  congr 1
  rw [bitsVal_natBits]
  rw [Nat.pow_succ] at hlt
  have : (v + 1) % 2 ^ Nat.log2 (v + 1) = v + 1 - 2 ^ Nat.log2 (v + 1) := by
    rw [Nat.mod_eq_sub_mod hle, Nat.mod_eq_of_lt (by omega)]
  omega

/-! ### Reading one stretch after another -/

/-- After the stretch xs the rest is readable, and reading on is one longer reading. -/
theorem read_stretch {s : State} {xs rest : List Bool} (h : readable s = xs ++ rest) :
    readable (afterReading xs.length xs.length s) = rest ∧
    ∀ n, afterReading n n (afterReading xs.length xs.length s) = afterReading (xs.length + n) (xs.length + n) s := by
  have hle : xs.length ≤ (readable s).length := by rw [h]; simp
  refine ⟨?_, fun n => (afterReading_add n n hle).symm⟩
  rw [readable_afterReading hle (Nat.le_refl _), h, List.drop_left]

/-! ### The coefficient code -/

/-- R172's loop reads back what R171's scan wrote. -/
theorem decodeMags_scanCode {s : State} (hrl : s.rlost = false) (fuel run : Nat) (l : List Int) (mags : List Nat) (rest : List Bool)
    (hf : run + l.length ≤ fuel) (hrun : run + l.length ≤ 2 ^ 32 - 2) (hl : ∀ x ∈ l, x.natAbs ≤ 2 ^ 31 - 1)
    (h : readable s = scanCode run l ++ rest) :
    decodeMags fuel (run + l.length) mags s =
      .done (l.reverse.map Int.natAbs ++ (List.replicate run 0 ++ mags))
        (afterReading (scanCode run l).length (scanCode run l).length s) := by
  induction l generalizing s fuel run mags with
  | nil =>
    simp only [List.length_nil, Nat.add_zero] at hf hrun ⊢
    cases fuel with
    | zero =>
      have : run = 0 := by omega
      subst this
      simp [decodeMags, scanCode, afterReading_zero]
    | succ fuel =>
      by_cases hr : run = 0
      · subst hr; simp [decodeMags, scanCode, afterReading_zero]
      · simp only [scanCode, show 0 < run by omega, if_true] at h ⊢
        rw [decodeMags, if_neg hr, readEg_egBits hrl run rest (by omega) h]
        simp
  | cons c l ih =>
    by_cases hc : c = 0
    · subst hc
      simp only [scanCode, if_true] at h ⊢
      have := ih (s := s) hrl fuel (run + 1) mags (by simp at hf ⊢; omega) (by simp at hrun ⊢; omega)
        (fun x hx => hl x (List.mem_cons_of_mem _ hx)) h
      rw [List.length_cons, show run + (l.length + 1) = run + 1 + l.length by omega, this]
      congr 1
      simp [List.replicate_succ]
    · simp only [scanCode, if_neg hc] at h ⊢
      obtain ⟨fuel, rfl⟩ : ∃ f, fuel = f + 1 := ⟨fuel - 1, by simp at hf; omega⟩
      have hcm := hl c (List.mem_cons_self ..)
      have hcp : 1 ≤ c.natAbs := by omega
      rw [List.append_assoc, List.append_assoc] at h
      obtain ⟨h1, h1'⟩ := read_stretch h
      obtain ⟨h2, h2'⟩ := read_stretch h1
      rw [egBits_length] at h1 h1' h2 h2'
      rw [egBits_length] at h2 h2'
      have hlen : (c :: l).length = l.length + 1 := rfl
      rw [decodeMags, hlen, if_neg (by omega), readEg_egBits hrl run _ (by omega) h]
      simp only [andThen_done]
      rw [if_neg (by omega), if_neg (by omega), readEg_egBits (by exact hrl) _ _ (by omega) h1]
      simp only [andThen_done]
      rw [if_neg (by omega), show run + (l.length + 1) - run - 1 = 0 + l.length by omega,
        ih (by exact hrl) fuel 0 _ (by simp at hf; omega) (by omega) (fun x hx => hl x (List.mem_cons_of_mem _ hx)) h2, h2', h1']
      congr 1
      · simp [Nat.sub_add_cancel hcp]
      · simp

/-- R173: the sign bits read back, lowest index first. -/
theorem decodeSigns_signField {s : State} (hl : s.rlost = false) (c : List Int) (rest : List Bool)
    (h : readable s = signField c ++ rest) :
    decodeSigns (c.map Int.natAbs) s = .done c (afterReading (signField c).length (signField c).length s) := by
  induction c generalizing s with
  | nil => simp [decodeSigns, signField, afterReading_zero]
  | cons x c ih =>
    by_cases hx : x = 0
    · subst hx
      have hs : signField (0 :: c) = signField c := by simp [signField]
      rw [hs] at h ⊢
      rw [List.map_cons, decodeSigns, if_pos (by rfl), ih hl h]
      rfl
    · have hs : signField (x :: c) = decide (0 < x) :: signField c := by simp [signField, hx]
      rw [hs, List.cons_append] at h
      have hle : 1 ≤ (readable s).length := by rw [h]; simp
      have hd : readable (afterReading 1 1 s) = signField c ++ rest := by
        rw [readable_afterReading hle (Nat.le_refl _), h]; rfl
      rw [List.map_cons, decodeSigns, if_neg (by omega), nextBit_eq hl h, andThen_done, ih (by exact hl) hd, andThen_done, hs,
        ← afterReading_add _ _ hle, List.length_cons, Nat.add_comm 1]
      congr 2
      by_cases hp : 0 < x
      · simp only [hp, decide_true, if_true]; omega
      · simp only [hp, decide_false, Bool.false_eq_true, if_false]; omega

/-- R172, R174: the decoder reads back a vector from its code. -/
theorem readVector_vectorCode {s : State} (hl : s.rlost = false) (c : List Int) (rest : List Bool) (hlen : c.length ≤ 2 ^ 32 - 2)
    (hc : ∀ x ∈ c, x.natAbs ≤ 2 ^ 31 - 1) (h : readable s = vectorCode c ++ rest) :
    readVector c.length s = .done c (afterReading (vectorCode c).length (vectorCode c).length s) := by
  rw [vectorCode, List.append_assoc] at h
  obtain ⟨h1, h1'⟩ := read_stretch h
  have hm := decodeMags_scanCode hl c.length 0 c.reverse [] _ (by simp) (by simpa using hlen)
    (by simpa using hc) h
  rw [List.length_reverse, Nat.zero_add] at hm
  rw [readVector, hm, andThen_done]
  have hmap : c.reverse.reverse.map Int.natAbs ++ (List.replicate 0 0 ++ []) = c.map Int.natAbs := by simp
  rw [hmap, decodeSigns_signField (by exact hl) c rest h1, h1', vectorCode, List.length_append]

/-! ### The code without the loop -/

/-- The nonzero indices, highest first, with one more coefficient on top. -/
theorem nonzeroDown_concat (c : List Int) (x : Int) :
    nonzeroDown (c ++ [x]) = if x = 0 then nonzeroDown c else c.length :: nonzeroDown c := by
  have hf : (List.range c.length).filter (fun p => (c ++ [x]).getD p 0 ≠ 0) =
      (List.range c.length).filter fun p => c.getD p 0 ≠ 0 := by
    refine List.filter_congr fun p hp => ?_
    have := List.mem_range.1 hp
    simp [List.getElem?_append_left this]
  simp only [nonzeroDown, List.length_append, List.length_singleton, List.range_succ, List.filter_append, hf,
    List.reverse_append]
  by_cases hx : x = 0 <;> simp [hx]

/-- The coefficients at the nonzero indices, highest first. -/
theorem nonzeroDown_values (c : List Int) (x : Int) :
    (nonzeroDown c).map (fun p => (c ++ [x]).getD p 0) = (nonzeroDown c).map fun p => c.getD p 0 := by
  refine List.map_congr_left fun p hp => ?_
  have : p < c.length := by
    simp only [nonzeroDown, List.mem_reverse, List.mem_filter, List.mem_range] at hp
    exact hp.1
  simp [List.getElem?_append_left this]

/-- R171's scan as its runs and magnitudes. -/
theorem scanCode_eq (c : List Int) (run : Nat) : scanCode run c.reverse =
    (List.zipWith (fun r v => egBits r ++ egBits (v.natAbs - 1))
      (List.zipWith (fun above p => above - 1 - p) ((c.length + run) :: nonzeroDown c) (nonzeroDown c))
      ((nonzeroDown c).map fun p => c.getD p 0)).flatten ++
    (if 0 < (nonzeroDown c).getLastD (c.length + run) then egBits ((nonzeroDown c).getLastD (c.length + run)) else []) := by
  induction c using List.reverseRecOn generalizing run with
  | nil => simp [scanCode, nonzeroDown]
  | append_singleton c x ih =>
    rw [List.reverse_append, List.reverse_singleton, List.singleton_append, nonzeroDown_concat]
    by_cases hx : x = 0
    · subst hx
      rw [scanCode, if_pos rfl, if_pos rfl, ih, nonzeroDown_values,
        show (c ++ [(0 : Int)]).length + run = c.length + (run + 1) by simp; omega]
    · rw [scanCode, if_neg hx, if_neg hx, ih, List.map_cons, nonzeroDown_values]
      have hl : (c ++ [x]).getD c.length 0 = x := by simp
      have h1 : (c ++ [x]).length + run - 1 - c.length = run := by simp
      simp only [hl, List.zipWith_cons_cons, List.flatten_cons, List.append_assoc, h1, Nat.add_zero, List.getLastD_cons]

/-- R173: the signs at the nonzero indices, lowest first. -/
theorem signField_eq (c : List Int) :
    signField c = (nonzeroDown c).reverse.map fun p => decide (0 < c.getD p 0) := by
  have hc : c = (List.range c.length).map fun p => c.getD p 0 := by
    refine List.ext_getElem (by simp) fun i h1 h2 => ?_
    simp [h1]
  rw [nonzeroDown, List.reverse_reverse, signField]
  conv_lhs => rw [hc]
  rw [List.filter_map, List.map_map]
  rfl

/-- R171, R173: the code of a vector, said without the encoder's loop. -/
theorem vectorCode_eq (c : List Int) : vectorCode c = coefficientBits c := by
  rw [vectorCode, scanCode_eq, signField_eq, coefficientBits]
  congr 2
  rw [runsBefore, Nat.add_zero, List.zipWith_map_right]

/-! ### Lengths -/

theorem decodeMags_length {fuel pos : Nat} {mags r : List Nat} {s t : State} (hf : pos ≤ fuel)
    (h : decodeMags fuel pos mags s = .done r t) : r.length = pos + mags.length := by
  induction fuel generalizing pos mags s with
  | zero =>
    have : pos = 0 := by omega
    subst this
    simp only [decodeMags, Run.done.injEq] at h
    rw [← h.1]; simp
  | succ fuel ih =>
    rw [decodeMags] at h
    split at h
    · simp only [Run.done.injEq] at h; rename_i h0; rw [← h.1, h0]; simp
    · obtain ⟨x, u, -, h⟩ := andThen_eq_done h
      split at h
      · cases h
      · split at h
        · simp only [Run.done.injEq] at h; rename_i h1 h2; rw [← h.1, h2]; simp
        · obtain ⟨y, v, -, h⟩ := andThen_eq_done h
          split at h
          · cases h
          · have := ih (by omega) h
            rw [this]; simp; omega

theorem decodeSigns_length {mags : List Nat} {r : List Int} {s t : State}
    (h : decodeSigns mags s = .done r t) : r.length = mags.length := by
  induction mags generalizing s t r with
  | nil => simp only [decodeSigns, Run.done.injEq] at h; rw [← h.1]; rfl
  | cons m mags ih =>
    rw [decodeSigns] at h
    split at h
    · obtain ⟨x, u, h1, h⟩ := andThen_eq_done h
      simp only [Run.done.injEq] at h
      rw [← h.1, List.length_cons, ih h1, List.length_cons]
    · obtain ⟨y, v, -, h⟩ := andThen_eq_done h
      obtain ⟨x, u, h1, h⟩ := andThen_eq_done h
      simp only [Run.done.injEq] at h
      rw [← h.1, List.length_cons, ih h1, List.length_cons]

/-- A decoded vector has the length asked for. -/
theorem readVector_length {cnt : Nat} {r : List Int} {s t : State}
    (h : readVector cnt s = .done r t) : r.length = cnt := by
  obtain ⟨x, u, h1, h⟩ := andThen_eq_done h
  rw [decodeSigns_length h, decodeMags_length (Nat.le_refl _) h1]; rfl

/-- The length of a run-and-magnitude code of at most 16 coefficients. -/
theorem scanCode_length_le {run : Nat} {l : List Int} (hrun : run + l.length ≤ 16)
    (hl : ∀ x ∈ l, x.natAbs ≤ 2 ^ 31 - 1) :
    (scanCode run l).length ≤ 70 * l.length + 9 := by
  have hel : ∀ v k, k ≠ 0 → v + 1 < 2 ^ k → egLength v ≤ 2 * k - 1 := by
    intro v k hk hv
    have := (Nat.log2_lt (n := v + 1) (k := k) (by omega)).2 hv
    rw [egLength, bitlength]; omega
  induction l generalizing run with
  | nil =>
    simp only [scanCode]
    split
    · rw [egBits_length]; have := hel run 5 (by omega) (by simp at hrun; omega); simpa using this
    · simp
  | cons x l ih =>
    simp only [List.length_cons] at hrun ⊢
    rw [scanCode]
    split
    · have := ih (run := run + 1) (by omega) (fun y hy => hl y (List.mem_cons_of_mem _ hy)); omega
    · have h0 := ih (run := 0) (by omega) (fun y hy => hl y (List.mem_cons_of_mem _ hy))
      have h1 := hel run 5 (by omega) (by omega)
      have hx := hl x (List.mem_cons_self ..)
      have h2 := hel (x.natAbs - 1) 31 (by omega) (by omega)
      simp only [List.length_append, egBits_length]
      omega

/-- The code of at most 16 coefficients fits well inside 18 windows. -/
theorem vectorCode_length_le {c : List Int} (hl : c.length ≤ 16) (hc : ∀ x ∈ c, x.natAbs ≤ 2 ^ 31 - 1) :
    (vectorCode c).length ≤ 1145 := by
  have h1 := scanCode_length_le (run := 0) (l := c.reverse) (by simpa using hl) (by simpa using hc)
  have h2 : (signField c).length ≤ c.length := by rw [signField, List.length_map]; exact List.length_filter_le ..
  rw [vectorCode, List.length_append]
  rw [List.length_reverse] at h1
  omega

/-- What has been sent when a stretch written is flushed. -/
theorem sent_bits {bits pad : List Bool} {s u : State} {txs : List OutTx}
    (hlog : u.ports.outLog = (afterWriting bits s).ports.outLog ++ txs)
    (hb : bytesBits (newOutBytes (afterWriting bits s) u) = (afterWriting bits s).wbuf ++ pad) :
    bytesBits (newOutBytes s u) = s.wbuf ++ bits ++ pad := by
  have h : newOutBytes s u = newOutBytes s (afterWriting bits s) ++ newOutBytes (afterWriting bits s) u := by
    obtain ⟨x, hx⟩ : ∃ x, (afterWriting bits s).ports.outLog = s.ports.outLog ++ x := ⟨_, rfl⟩
    simp only [newOutBytes, hlog, List.drop_left]
    rw [hx, List.append_assoc, List.drop_left, List.drop_left, List.flatMap_append]
  rw [h, bytesBits_append, newOutBytes_afterWriting, hb, ← List.append_assoc]
  congr 1
  exact List.take_append_drop _ _

end Sys2Proof.Machine
end

