-- ==== Sys2Proof/Laws/Encoding.lean ====
section
/-! SUPPORT. The command word and its four fields are each other's inverse, and what the decoder answers for a row with
unused fields (R100, R104). -/

namespace Sys2Proof

theorem commandWord_getLsbD (a b c d : Byte) (i : Nat) : (commandWord a b c d).getLsbD i =
    if i < 8 then d.getLsbD i else if i < 16 then c.getLsbD (i - 8) else if i < 24 then b.getLsbD (i - 16)
    else a.getLsbD (i - 24) := by
  have h1 : ((a ++ b ++ c ++ d : BitVec (8 + 8 + 8 + 8))).getLsbD i = _ := BitVec.getLsbD_append
  refine h1.trans ?_
  rw [BitVec.getLsbD_append, BitVec.getLsbD_append]
  by_cases h8 : i < 8
  · simp [h8]
  · simp only [h8, if_false]
    by_cases h16 : i < 16
    · rw [if_pos (by omega), if_pos h16]
    · rw [if_neg (by omega), if_neg h16]
      by_cases h24 : i < 24
      · rw [if_pos (by omega), if_pos h24]; congr 1
      · rw [if_neg (by omega), if_neg h24]; congr 1

theorem field_commandWord (a b c d : Byte) : fieldOPC (commandWord a b c d) = a ∧ fieldFA (commandWord a b c d) = b ∧
    fieldFB (commandWord a b c d) = c ∧ fieldFC (commandWord a b c d) = d := by
  refine ⟨?_, ?_, ?_, ?_⟩ <;> apply BitVec.eq_of_getLsbD_eq <;> intro i hi <;>
    simp only [fieldOPC, fieldFA, fieldFB, fieldFC, BitVec.getLsbD_extractLsb', commandWord_getLsbD, hi, decide_true, 
      Bool.true_and]
  · rw [if_neg (by omega), if_neg (by omega), if_neg (by omega)]; congr 1; omega
  · rw [if_neg (by omega), if_neg (by omega), if_pos (by omega)]; congr 1; omega
  · rw [if_neg (by omega), if_pos (by omega)]; congr 1; omega
  · rw [if_pos (by omega)]; congr 1; omega

theorem commandWord_field (w : Word) : commandWord (fieldOPC w) (fieldFA w) (fieldFB w) (fieldFC w) = w := by
  apply BitVec.eq_of_getLsbD_eq
  intro i hi
  simp only [fieldOPC, fieldFA, fieldFB, fieldFC, BitVec.getLsbD_extractLsb', commandWord_getLsbD]
  split
  · rename_i h; simp [h]
  · split
    · rw [show decide (i - 8 < 8) = true by simp; omega, Bool.true_and]; congr 1; omega
    · split
      · rw [show decide (i - 16 < 8) = true by simp; omega, Bool.true_and]; congr 1; omega
      · rw [show decide (i - 24 < 8) = true by simp; omega, Bool.true_and]; congr 1; omega

theorem unusedZero_eq_ok {unused : List Byte} {i j : Instr} :
    unusedZero unused i = .ok j ↔ (∀ f ∈ unused, f = 0) ∧ j = i := by
  unfold unusedZero
  split
  · rename_i h
    simp only [List.all_eq_true, beq_iff_eq] at h
    exact ⟨fun e => ⟨h, (by injection e with e; exact e.symm)⟩, fun e => by rw [e.2]⟩
  · rename_i h
    simp only [List.all_eq_true, beq_iff_eq] at h
    exact ⟨fun e => (by cases e), fun e => absurd e.1 h⟩

end Sys2Proof
end

