-- ==== Sys2Proof/Laws/Faults.lean ====
section
/-! SUPPORT. A command that reads no sample memory never faults (R318). -/

namespace Sys2Proof.Machine

/-- The part of a command reads no value that may not exist. -/
def Faultless {α : Type} (x : Run α) : Prop := ∀ f, x ≠ .faulted f

theorem Faultless.done {α : Type} (a : α) (s : State) : Faultless (Run.done a s) := fun _ h => by cases h

theorem Faultless.andThen {α β : Type} {x : Run α} {k : α → State → Run β} (h : Faultless x)
    (hk : ∀ a t, Faultless (k a t)) : Faultless (x.andThen k) := by
  intro f e
  cases x with
  | done a t => exact hk a t f e
  | ended t => cases e
  | waiting req t => cases e
  | faulted g => exact h g rfl

/-- Such a command has a next state. -/
theorem Faultless.next {i : Instr} {s : State} {x : Run Unit} (h : Faultless x) : ∃ t, finish i s x = .next t := by
  cases x with
  | done a t => exact ⟨_, rfl⟩
  | ended t => exact ⟨_, rfl⟩
  | waiting req t => exact ⟨_, rfl⟩
  | faulted f => exact absurd rfl (h f)

theorem transfer_faultless (bytes : List Byte) (s : State) : Faultless (transfer bytes s) := by
  refine Faultless.andThen (fun f h => ?_) fun a t => ?_
  · rw [outWrite] at h
    split at h <;> cases h
  · cases a <;> exact .done _ _

theorem emitBits_faultless (bits : List Bool) (s : State) : Faultless (emitBits bits s) := by
  induction bits generalizing s with
  | nil => exact .done _ _
  | cons b rest ih =>
    refine Faultless.andThen ?_ fun _ t => ih t
    simp only [emitBit]
    generalize (if writerExact s then s else drew 1 s) = v
    generalize (if writerExact s then b else Config.drawBit s.draws) = c
    split
    · exact transfer_faultless _ _
    · exact .done _ _

theorem writeVector_faultless (c : List Int) (s : State) : Faultless (writeVector c s) := by
  rw [writeVector]
  split
  · exact emitBits_faultless _ _
  · exact fun _ h => by cases h

theorem peekBit_faultless (s : State) : Faultless (peekBit s) := by
  rw [peekBit]
  split
  · exact .done _ _
  · refine Faultless.andThen (fun f h => ?_) fun _ t => ?_
    · rw [refill] at h
      split at h
      · cases h
      · cases h
      · split at h <;> cases h
    · split
      · exact .done _ _
      · exact fun _ h => by cases h

theorem nextBit_faultless (s : State) : Faultless (nextBit s) := (peekBit_faultless s).andThen fun _ _ => .done _ _

theorem readBits_faultless (n v : Nat) (s : State) : Faultless (readBits n v s) := by
  induction n generalizing v s with
  | zero => exact .done _ _
  | succ n ih => exact (nextBit_faultless s).andThen fun b t => ih _ t

theorem zeroLoop_faultless (fuel z : Nat) (s : State) : Faultless (zeroLoop fuel z s) := by
  induction fuel generalizing z s with
  | zero => exact .done _ _
  | succ fuel ih =>
    rw [zeroLoop]
    split
    · exact .done _ _
    · split
      · exact fun _ h => by cases h
      · exact ih _ _
    · exact .done _ _
    · exact fun _ h => by cases h
    · rename_i f hf
      exact absurd hf (peekBit_faultless s f)

theorem readEg_faultless (s : State) : Faultless (readEg s) := by
  refine (zeroLoop_faultless _ _ s).andThen fun r t => ?_
  split
  · split
    · exact fun _ h => by cases h
    · exact (readBits_faultless _ _ t).andThen fun _ _ => .done _ _
  · exact fun _ h => by cases h

theorem decodeMags_faultless (fuel pos : Nat) (mags : List Nat) (s : State) :
    Faultless (decodeMags fuel pos mags s) := by
  induction fuel generalizing pos mags s with
  | zero => exact .done _ _
  | succ fuel ih =>
    rw [decodeMags]
    split
    · exact .done _ _
    · refine (readEg_faultless s).andThen fun r t => ?_
      split
      · exact fun _ h => by cases h
      · split
        · exact .done _ _
        · refine (readEg_faultless t).andThen fun m u => ?_
          split
          · exact fun _ h => by cases h
          · exact ih _ _ _

theorem decodeSigns_faultless (mags : List Nat) (s : State) : Faultless (decodeSigns mags s) := by
  induction mags generalizing s with
  | nil => exact .done _ _
  | cons m rest ih =>
    rw [decodeSigns]
    split
    · exact (ih s).andThen fun _ _ => .done _ _
    · exact (nextBit_faultless s).andThen fun _ t => (ih t).andThen fun _ _ => .done _ _

theorem readVector_faultless (cnt : Nat) (s : State) : Faultless (readVector cnt s) :=
  (decodeMags_faultless _ _ _ s).andThen fun _ t => decodeSigns_faultless _ t

theorem returning_faultless {x : Run Nat} (s : State) (h : Faultless x) : Faultless (returning s x) := by
  intro f e
  cases x with
  | faulted g => exact h g rfl
  | _ => cases e

theorem storing_faultless {x : Run (List Int)} (b off cnt : Nat) (h : Faultless x) :
    Faultless (storing b off cnt x) := by
  intro f e
  cases x with
  | faulted g => exact h g rfl
  | _ => cases e

/-- A command that reads no sample has a next state, whatever the state holds. -/
theorem exec_next_of_no_sample (i : Instr) (s : State) (h : ∀ sz m b, i ≠ .predsel sz ∧ i ≠ .predres sz m b ∧
    i ≠ .unpred sz m b ∧ i ≠ .mbenc sz ∧ i ≠ .mbdec sz) (he : i ≠ .frameenc) (hd : i ≠ .framedec) :
    ∃ t, exec i s = .next t := by
  have bank : ∀ d src f, ∃ t, bankToBank d src f s = .next t := by
    intro d src f
    rw [bankToBank]
    split <;> exact ⟨_, rfl⟩
  cases i with
  | predsel sz => exact absurd rfl (h sz 0 0).1
  | predres sz m b => exact absurd rfl (h sz m b).2.1
  | unpred sz m b => exact absurd rfl (h sz m b).2.2.1
  | mbenc sz => exact absurd rfl (h sz 0 0).2.2.2.1
  | mbdec sz => exact absurd rfl (h sz 0 0).2.2.2.2
  | frameenc => exact absurd rfl he
  | framedec => exact absurd rfl hd
  | nop => exact ⟨_, rfl⟩
  | clrstat => exact ⟨_, rfl⟩
  | init =>
    simp only [exec, execInit]
    (repeat' split) <;> exact ⟨_, rfl⟩
  | deinit =>
    simp only [exec, execDeinit]
    split <;> exact ⟨_, rfl⟩
  | wrinit => exact ⟨_, rfl⟩
  | rdinit => exact ⟨_, rfl⟩
  | putbits n =>
    simp only [exec, execPutbits]
    split
    · exact (emitBits_faultless _ _).next
    · exact ⟨_, rfl⟩
  | putones => exact (emitBits_faultless _ _).next
  | putzeroes => exact (emitBits_faultless _ _).next
  | puteg =>
    simp only [exec, execPuteg]
    split
    · exact (emitBits_faultless _ _).next
    · exact ⟨_, rfl⟩
  | flush =>
    refine Faultless.next (Faultless.andThen ?_ fun _ _ => .done _ _)
    split
    · exact .done _ _
    · exact transfer_faultless _ _
  | getbits n =>
    simp only [exec, execGetbits]
    split
    · exact (returning_faultless s (readBits_faultless _ _ _)).next
    · exact ⟨_, rfl⟩
  | getzeroes => exact ((zeroLoop_faultless _ _ s).andThen fun _ _ => .done _ _).next
  | geteg => exact (returning_faultless s (readEg_faultless s)).next
  | entenc b off cnt =>
    simp only [exec, execEntenc]
    split
    · exact (writeVector_faultless _ _).next
    · exact ⟨_, rfl⟩
  | entdec b off cnt =>
    simp only [exec, execEntdec]
    split
    · exact (storing_faultless _ _ _ (readVector_faultless _ s)).next
    · exact ⟨_, rfl⟩
  | fwd4 d src => exact bank ..
  | inv4 d src => exact bank ..
  | had4 d src => exact bank ..
  | ihad4 d src => exact bank ..
  | had2 d src => exact bank d src fun x => overlay (Machine.bank s d.toNat) 4 (had2Entry x)
  | quant4 d src => exact bank ..
  | dequant4 d src => exact bank ..
  | quantdc d src cnt =>
    simp only [exec, execQuantdc]
    split
    · exact bank ..
    · exact ⟨_, rfl⟩
  | dequantdc d src cnt =>
    simp only [exec, execDequantdc]
    split
    · exact bank ..
    · exact ⟨_, rfl⟩
  | gatherdc g b cnt =>
    simp only [exec, execGatherdc]
    split <;> exact ⟨_, rfl⟩
  | scatterdc b g cnt =>
    simp only [exec, execScatterdc]
    split <;> exact ⟨_, rfl⟩
  | bdiv d src div =>
    simp only [exec, execBdiv]
    split
    · exact bank ..
    · exact ⟨_, rfl⟩

end Sys2Proof.Machine
end

