-- ==== Sys2Proof/Laws/Transform.lean ====
section
/-! SUPPORT. The block transforms (42_transform.md) as arithmetic of words, and as two-sided matrix products. -/

namespace Sys2Proof.Machine

/-! ### wrap32 is arithmetic modulo 2^32 -/

theorem wrap32_toInt (w : Word) : wrap32 w.toInt = w := BitVec.ofInt_toInt
theorem wrap32_add (a b : Int) : wrap32 (a + b) = wrap32 a + wrap32 b := BitVec.ofInt_add ..
theorem wrap32_mul (a b : Int) : wrap32 (a * b) = wrap32 a * wrap32 b := BitVec.ofInt_mul ..
theorem wrap32_neg (a : Int) : wrap32 (-a) = - wrap32 a := BitVec.ofInt_neg ..
theorem wrap32_sub (a b : Int) : wrap32 (a - b) = wrap32 a - wrap32 b := by
  rw [Int.sub_eq_add_neg, wrap32_add, wrap32_neg, BitVec.sub_eq_add_neg]
theorem wrap32_two : wrap32 2 = 2 := rfl

theorem wrap32_shift (w : Word) : wrap32 (w.toInt >>> (1 : Nat)) = w.sshiftRight 1 := rfl

/-- wrap32 keeps an integer of the int32 range. -/
theorem toInt_wrap32 {a : Int} (h1 : -(2 ^ 31) ≤ a) (h2 : a < 2 ^ 31) : (wrap32 a).toInt = a :=
  BitVec.toInt_ofInt_eq_self (by decide) h1 h2

/-- An entry that is a wrapped integer of the int32 range. -/
theorem entryInt_blockOf {f : Nat → Int} {i : Nat} (hi : i < 16) (h1 : -(2 ^ 31) ≤ f i) (h2 : f i < 2 ^ 31) :
    entryInt (blockOf fun j => wrap32 (f j)) i = f i := by
  rw [entryInt, entry_blockOf _ hi, toInt_wrap32 h1 h2]

/-- The block of a block's own entries. -/
theorem blockOf_entry (x : Block) : (blockOf fun i => entry x i) = x :=
  block_ext fun _ hi => entry_blockOf _ hi

theorem bankToBank_ok {d src : Byte} (f : Block → Block) (s : State) (hd : d.toNat < 32) (hs : src.toNat < 32) :
    bankToBank d src f s = .next (setBank d.toNat (f (bank s src.toNat)) s) := by
  simp [bankToBank, bankOk, hd, hs, complete]

/-! ### The butterflies -/

/-- A pass along the rows. -/
def rowPass (f : Int → Int → Int → Int → Nat → Int) (x : Block) : Block :=
  blockOf fun p => wrap32 (f (entryInt x (4 * (p / 4))) (entryInt x (4 * (p / 4) + 1)) (entryInt x (4 * (p / 4) + 2))
    (entryInt x (4 * (p / 4) + 3)) (p % 4))

/-- A pass along the columns. -/
def columnPass (f : Int → Int → Int → Int → Nat → Int) (x : Block) : Block :=
  blockOf fun p => wrap32 (f (entryInt x (p % 4)) (entryInt x (4 + p % 4)) (entryInt x (8 + p % 4))
    (entryInt x (12 + p % 4)) (p / 4))

theorem sep_eq (f : Int → Int → Int → Int → Nat → Int) (x : Block) : sep f x = columnPass f (rowPass f x) := rfl

theorem entry_rowPass (f : Int → Int → Int → Int → Nat → Int) (x : Block) {r k : Nat} (hr : r < 4) (hk : k < 4) :
    entry (rowPass f x) (4 * r + k) = wrap32 (f (entry x (4 * r)).toInt (entry x (4 * r + 1)).toInt
      (entry x (4 * r + 2)).toInt (entry x (4 * r + 3)).toInt k) := by
  rw [rowPass, entry_blockOf _ (by omega), show (4 * r + k) / 4 = r by omega, show (4 * r + k) % 4 = k by omega]
  rfl

theorem entry_columnPass (f : Int → Int → Int → Int → Nat → Int) (x : Block) {c k : Nat} (hc : c < 4) (hk : k < 4) :
    entry (columnPass f x) (4 * k + c) = wrap32 (f (entry x c).toInt (entry x (4 + c)).toInt
      (entry x (8 + c)).toInt (entry x (12 + c)).toInt k) := by
  rw [columnPass, entry_blockOf _ (by omega), show (4 * k + c) / 4 = k by omega, show (4 * k + c) % 4 = c by omega]
  rfl

/-- Ih on words: the halving is the arithmetic shift. -/
theorem wrap32_ih264 (a b c d : Word) :
    wrap32 (ih264 a.toInt b.toInt c.toInt d.toInt 0) = (a + c) + (b + d.sshiftRight 1) ∧
    wrap32 (ih264 a.toInt b.toInt c.toInt d.toInt 1) = (a - c) + (b.sshiftRight 1 - d) ∧
    wrap32 (ih264 a.toInt b.toInt c.toInt d.toInt 2) = (a - c) - (b.sshiftRight 1 - d) ∧
    wrap32 (ih264 a.toInt b.toInt c.toInt d.toInt 3) = (a + c) - (b + d.sshiftRight 1) := by
  simp only [ih264, wrap32_add, wrap32_sub, wrap32_toInt, wrap32_shift, and_self]

/-- Fseq on words. -/
theorem wrap32_fseq (a b c d : Word) :
    wrap32 (fseq a.toInt b.toInt c.toInt d.toInt 0) = (a + d) + (b + c) ∧
    wrap32 (fseq a.toInt b.toInt c.toInt d.toInt 1) = (a - d) + (b - c) ∧
    wrap32 (fseq a.toInt b.toInt c.toInt d.toInt 2) = (a + d) - (b + c) ∧
    wrap32 (fseq a.toInt b.toInt c.toInt d.toInt 3) = (a - d) - (b - c) := by
  simp only [fseq, wrap32_add, wrap32_sub, wrap32_toInt, and_self]

/-! ### Two-sided products (R191, R192, R193) -/

theorem sep_fseq (x : Block) : sep fseq x = blockOf fun p => wrap32 (twoSided seqMatrix x p) := by
  apply block_ext
  intro i hi
  simp only [sep]
  rw [entry_blockOf _ hi, entry_blockOf _ hi]
  interval_cases i <;>
    (simp only [fseq, entryInt, entry_blockOf, wrap32_add, wrap32_sub, wrap32_toInt, Nat.reduceMul, Nat.reduceDiv,
      Nat.reduceMod, Nat.reduceAdd, Nat.reduceLT]
     simp [twoSided, seqMatrix, List.range_succ, entryInt, wrap32_add, wrap32_neg, wrap32_toInt]
     ring)

theorem sep_fh264 (x : Block) : sep fh264 x = blockOf fun p => wrap32 (twoSided h264Matrix x p) := by
  apply block_ext
  intro i hi
  simp only [sep]
  rw [entry_blockOf _ hi, entry_blockOf _ hi]
  interval_cases i <;>
    (simp only [fh264, entryInt, entry_blockOf, wrap32_add, wrap32_sub, wrap32_mul, wrap32_two, wrap32_toInt,
      Nat.reduceMul, Nat.reduceDiv, Nat.reduceMod, Nat.reduceAdd, Nat.reduceLT]
     simp [twoSided, h264Matrix, List.range_succ, entryInt, wrap32_add, wrap32_mul, wrap32_neg, wrap32_two, wrap32_toInt]
     ring)

/-- The forward transform is a two-sided product, with either kernel (R194). -/
theorem fwd4_eq (k : Config.Kernel) (x : Block) : fwd4 k x = blockOf fun p =>
    wrap32 (twoSided (match k with | .seq => seqMatrix | .h264 => h264Matrix) x p) := by
  cases k
  · exact sep_fseq x
  · exact sep_fh264 x

/-- A·X·A as a butterfly of butterflies, over the integers. -/
theorem twoSided_seq (x : Block) {p : Nat} (hp : p < 16) : twoSided seqMatrix x p =
    fseq (fseq (entryInt x 0) (entryInt x 1) (entryInt x 2) (entryInt x 3) (p % 4))
      (fseq (entryInt x 4) (entryInt x 5) (entryInt x 6) (entryInt x 7) (p % 4))
      (fseq (entryInt x 8) (entryInt x 9) (entryInt x 10) (entryInt x 11) (p % 4))
      (fseq (entryInt x 12) (entryInt x 13) (entryInt x 14) (entryInt x 15) (p % 4)) (p / 4) := by
  have h : ∀ r, r < 4 → ∀ a b c d : Int,
      seqMatrix r 0 * a + seqMatrix r 1 * b + seqMatrix r 2 * c + seqMatrix r 3 * d = fseq a b c d r := by
    intro r hr a b c d
    interval_cases r <;> (simp [seqMatrix, fseq]; ring)
  rw [← h _ (by omega), ← h _ (by omega), ← h _ (by omega), ← h _ (by omega), ← h _ (by omega)]
  simp only [twoSided, List.range_succ, List.range_zero, List.nil_append, List.map_cons, List.map_nil,
    List.sum_cons, List.sum_nil, List.cons_append, Nat.reduceMul, Nat.reduceAdd]
  ring

theorem fseq_mul (k a b c d : Int) {r : Nat} (hr : r < 4) :
    k * fseq a b c d r = fseq (k * a) (k * b) (k * c) (k * d) r := by
  interval_cases r <;> (simp only [fseq]; ring)

theorem fseq_twice (a b c d : Int) :
    fseq (fseq a b c d 0) (fseq a b c d 1) (fseq a b c d 2) (fseq a b c d 3) 0 = 4 * a ∧
    fseq (fseq a b c d 0) (fseq a b c d 1) (fseq a b c d 2) (fseq a b c d 3) 1 = 4 * b ∧
    fseq (fseq a b c d 0) (fseq a b c d 1) (fseq a b c d 2) (fseq a b c d 3) 2 = 4 * c ∧
    fseq (fseq a b c d 0) (fseq a b c d 1) (fseq a b c d 2) (fseq a b c d 3) 3 = 4 * d := by
  simp only [fseq]
  refine ⟨?_, ?_, ?_, ?_⟩ <;> ring

/-- A·(A·X·A)·A = 16·X (R191), also with the inner product divided exactly. -/
theorem twoSided_seq_twice {x y : Block} {k : Int} (h : ∀ p, p < 16 → k * entryInt y p = twoSided seqMatrix x p)
    {p : Nat} (hp : p < 16) : k * twoSided seqMatrix y p = 16 * entryInt x p := by
  have hx := fun q hq => (h q hq).trans (twoSided_seq x hq)
  rw [twoSided_seq y hp, fseq_mul _ _ _ _ _ (by omega), fseq_mul _ _ _ _ _ (by omega), fseq_mul _ _ _ _ _ (by omega),
    fseq_mul _ _ _ _ _ (by omega), fseq_mul _ _ _ _ _ (by omega),
    hx 0 (by omega), hx 1 (by omega), hx 2 (by omega), hx 3 (by omega), hx 4 (by omega), hx 5 (by omega),
    hx 6 (by omega), hx 7 (by omega), hx 8 (by omega), hx 9 (by omega), hx 10 (by omega), hx 11 (by omega),
    hx 12 (by omega), hx 13 (by omega), hx 14 (by omega), hx 15 (by omega)]
  clear hx h
  generalize entryInt x = e
  interval_cases p <;> (simp only [fseq, Nat.reduceMod, Nat.reduceDiv]; ring)

/-- The products of bounded entries are bounded. -/
theorem twoSided_bound {m : Nat → Nat → Int} {x : Block} {b : Nat} {k : Nat}
    (hm : ∀ r c, r < 4 → c < 4 → (m r c).natAbs ≤ k) (hx : ∀ p, p < 16 → (entryInt x p).natAbs ≤ b) {p : Nat}
    (hp : p < 16) : (twoSided m x p).natAbs ≤ 16 * (k * b * k) := by
  have hsum : ∀ (l : List Nat) (f : Nat → Int) (c : Nat), (∀ i ∈ l, (f i).natAbs ≤ c) →
      ((l.map f).sum).natAbs ≤ l.length * c := by
    intro l f c hf
    induction l with
    | nil => simp
    | cons a l ih =>
      have h1 := hf a (List.mem_cons_self ..)
      have h2 := ih fun i hi => hf i (List.mem_cons_of_mem _ hi)
      have h3 := Int.natAbs_add_le (f a) (l.map f).sum
      rw [List.map_cons, List.sum_cons, List.length_cons, Nat.add_mul]
      omega
  refine (hsum (List.range 4) _ (4 * (k * b * k)) fun i hi => ?_).trans (by simp; omega)
  refine (hsum (List.range 4) _ (k * b * k) fun j hj => ?_).trans (by simp)
  rw [Int.natAbs_mul, Int.natAbs_mul]
  have h1 := List.mem_range.1 hi
  have h2 := List.mem_range.1 hj
  exact Nat.mul_le_mul (Nat.mul_le_mul (hm _ _ (by omega) h1) (hx _ (by omega))) (hm _ _ (by omega) (by omega))

theorem seqMatrix_bound (r c : Nat) (hr : r < 4) (hc : c < 4) : (seqMatrix r c).natAbs ≤ 1 := by
  interval_cases r <;> interval_cases c <;> decide

theorem h264Matrix_bound (r c : Nat) (hr : r < 4) (hc : c < 4) : (h264Matrix r c).natAbs ≤ 2 := by
  interval_cases r <;> interval_cases c <;> decide

/-! ### Halving and dividing (R196, R247) -/

theorem entry_divBlock (x : Block) (d : Nat) {i : Nat} (hi : i < 16) :
    entry (divBlock x d) i = wrap32 (tdiv (entryInt x i) d) := entry_blockOf _ hi

/-- A quotient of a multiple is exact. -/
theorem tdiv_mul (a : Int) {d : Nat} (hd : d ≠ 0) : tdiv (a * d) d = a :=
  Int.mul_tdiv_cancel a (by exact_mod_cast hd)

/-- A quotient of an int32 value by a positive number is an int32 value. -/
theorem tdiv_range {a : Int} (d : Nat) (h1 : -(2 ^ 31) ≤ a) (h2 : a < 2 ^ 31) :
    -(2 ^ 31) ≤ tdiv a d ∧ tdiv a d < 2 ^ 31 := by
  have h : (a.tdiv d).natAbs = a.natAbs / (d : Int).natAbs := Int.natAbs_tdiv a d
  have h3 : a.natAbs / (d : Int).natAbs ≤ a.natAbs := Nat.div_le_self ..
  unfold tdiv
  rcases Int.le_total 0 a with ha | ha
  · have := Int.tdiv_nonneg ha (Int.natCast_nonneg d)
    omega
  · have : Int.tdiv a d ≤ 0 := by
      have := Int.tdiv_nonneg (a := -a) (b := d) (by omega) (Int.natCast_nonneg d)
      rw [Int.neg_tdiv] at this
      omega
    omega

theorem entryInt_range (x : Block) (i : Nat) : -(2 ^ 31) ≤ entryInt x i ∧ entryInt x i < 2 ^ 31 :=
  ⟨BitVec.le_toInt _, BitVec.toInt_lt⟩

theorem entryInt_divBlock (x : Block) (d : Nat) {i : Nat} (hi : i < 16) :
    entryInt (divBlock x d) i = tdiv (entryInt x i) d := by
  obtain ⟨h1, h2⟩ := tdiv_range d (entryInt_range x i).1 (entryInt_range x i).2
  rw [entryInt, entry_divBlock _ _ hi, toInt_wrap32 h1 h2]

theorem had4_eq (x : Block) :
    had4 x = blockOf fun i => wrap32 (tdiv (wrap32 (twoSided seqMatrix x i)).toInt (2 : Nat)) := by
  apply block_ext
  intro i hi
  rw [had4, entry_divBlock _ _ hi, sep_fseq, entryInt, entry_blockOf _ hi, entry_blockOf _ hi]

end Sys2Proof.Machine
end

