-- ==== Sys2Proof/Laws/Quant.lean ====
section
/-! SUPPORT. Scan tables, quantizer and grids (44_quant.md): each operation entry by entry. -/

namespace Sys2Proof.Machine

theorem zz4_lt {p : Nat} (hp : p < 16) : zz4 p < 16 := by interval_cases p <;> decide
theorem izz4_lt {q : Nat} (hq : q < 16) : izz4 q < 16 := by interval_cases q <;> decide
theorem izz4_zz4 {p : Nat} (hp : p < 16) : izz4 (zz4 p) = p := by interval_cases p <;> rfl
theorem zz4_izz4 {q : Nat} (hq : q < 16) : zz4 (izz4 q) = q := by interval_cases q <;> rfl

theorem zz_lt {cnt p : Nat} (hc : cnt = 1 ∨ cnt = 4 ∨ cnt = 16) (hp : p < cnt) : zz cnt p < cnt := by
  rcases hc with rfl | rfl | rfl
  · exact hp
  · exact hp
  · exact zz4_lt hp

theorem izz_lt {cnt p : Nat} (hc : cnt = 1 ∨ cnt = 4 ∨ cnt = 16) (hp : p < cnt) : izz cnt p < cnt := by
  rcases hc with rfl | rfl | rfl
  · exact hp
  · exact hp
  · exact izz4_lt hp

theorem izz_zz {cnt p : Nat} (hc : cnt = 1 ∨ cnt = 4 ∨ cnt = 16) (hp : p < cnt) : izz cnt (zz cnt p) = p := by
  rcases hc with rfl | rfl | rfl
  · rfl
  · rfl
  · exact izz4_zz4 hp

theorem zz_izz {cnt p : Nat} (hc : cnt = 1 ∨ cnt = 4 ∨ cnt = 16) (hp : p < cnt) : zz cnt (izz cnt p) = p := by
  rcases hc with rfl | rfl | rfl
  · rfl
  · rfl
  · exact zz4_izz4 hp

/-- A quantizer step is at least 1 (R9). -/
theorem qtab_pos {c : Config.Params} (h : c.legal = true) (p : Nat) : qtab c p ≠ 0 := by
  simp only [Config.Params.legal, Bool.and_eq_true, List.all_eq_true] at h
  have h1 := h.1.1.1.1.1.1.1.1
  rw [qtab, vector_getD_eq]
  by_cases hp : p < 16
  · rw [Vector.getElem?_eq_getElem hp, Option.getD_some]
    have := h1 c.qtab[p] (by simp)
    intro h0
    rw [show c.qtab[p] = 0#16 from BitVec.eq_of_toNat_eq h0] at this
    simp at this
  · rw [Vector.getElem?_eq_none (by omega)]
    decide

theorem qtab_lt (c : Config.Params) (p : Nat) : qtab c p < 2 ^ 16 := BitVec.isLt _

theorem entry_quant4 (c : Config.Params) (x : Block) {p : Nat} (hp : p < 16) :
    entry (quant4 c x) (zz4 p) = wrap32 (tdiv (entryInt x p) (qtab c p)) := by
  rw [quant4, entry_blockOf _ (zz4_lt hp), izz4_zz4 hp]

theorem entryInt_quant4 (c : Config.Params) (x : Block) {q : Nat} (hq : q < 16) :
    entryInt (quant4 c x) q = tdiv (entryInt x (izz4 q)) (qtab c (izz4 q)) := by
  obtain ⟨h1, h2⟩ := tdiv_range (qtab c (izz4 q)) (entryInt_range x (izz4 q)).1 (entryInt_range x (izz4 q)).2
  rw [quant4, entryInt_blockOf hq h1 h2]

theorem entry_dequant4 (c : Config.Params) (z : Block) {p : Nat} (hp : p < 16) :
    entry (dequant4 c z) p = wrap32 (entryInt z (zz4 p) * qtab c p) := entry_blockOf _ hp

theorem toInt_quantDcEntry (c : Config.Params) (cnt : Nat) (g : Block) (q : Nat) :
    (quantDcEntry c cnt g q).toInt = tdiv (entryInt g (izz cnt q)) (qtab c 0) := by
  obtain ⟨h1, h2⟩ := tdiv_range (qtab c 0) (entryInt_range g (izz cnt q)).1 (entryInt_range g (izz cnt q)).2
  rw [quantDcEntry, toInt_wrap32 h1 h2]

theorem entry_overlay (x : Block) (cnt : Nat) (f : Nat → Word) {i : Nat} (hi : i < 16) :
    entry (overlay x cnt f) i = if i < cnt then f i else entry x i := entry_blockOf _ hi

end Sys2Proof.Machine
end

