-- ==== Sys2Proof/Laws/Predict.lean ====
section
/-! SUPPORT. The intra predictor (43_predict.md): its procedures in the terms of Safety.lean. -/

namespace Sys2Proof.Machine

/-! ### Operands -/

variable {sz : Byte} {s t : State} {mb : Mb} {m : Mode}

theorem MbLegal.mbOk (h : MbLegal sz s) : mbOk sz s = true := by
  have hs : sizeOk sz = true := by
    rcases h.size with e | e | e
    · rw [show sz = 4#8 from BitVec.eq_of_toNat_eq e]; rfl
    · rw [show sz = 8#8 from BitVec.eq_of_toNat_eq e]; rfl
    · rw [show sz = 16#8 from BitVec.eq_of_toNat_eq e]; rfl
  simp only [Machine.mbOk, hs, h.inited, h.alignX, h.alignY, h.insideX, h.insideY, decide_true, Bool.and_true]

theorem MbLegal.side (h : MbLegal sz s) : 4 * (operandMb sz s).side = (operandMb sz s).size := by
  show 4 * (sz.toNat / 4) = sz.toNat
  rcases h.size with e | e | e <;> omega

theorem MbLegal.subs (h : MbLegal sz s) : (operandMb sz s).subs = 1 ∨ (operandMb sz s).subs = 4 ∨
    (operandMb sz s).subs = 16 := by
  show sz.toNat / 4 * (sz.toNat / 4) = 1 ∨ _
  rcases h.size with e | e | e <;> simp [Mb.subs, Mb.side, operandMb, e]

theorem computable_iff (m : Mode) (x y : Nat) : computable m x y = true ↔ modeAllowed m x y := by
  cases m <;> simp [computable, modeAllowed]

theorem modeOf_toCode (m : Mode) : modeOf m.toCode = some m := by cases m <;> rfl

theorem toCode_lt (m : Mode) : m.toCode < 4 := by cases m <;> decide

theorem modeOf_eq {c : Nat} (h : modeOf c = some m) : c = m.toCode := by
  match c with
  | 0 | 1 | 2 | 3 => simp [modeOf] at h; subst h; rfl
  | n + 4 => simp [modeOf] at h

theorem legalMode_toCode {x y : Nat} (h : modeAllowed m x y) : legalMode m.toCode x y = some m := by
  rw [legalMode, modeOf_toCode]
  simp [(computable_iff m x y).2 h]

/-! ### Reading samples -/

theorem readCells_written {mem : Memory} {idx : List Nat} (h : ∀ a ∈ idx, (memRead mem a).isSome) :
    readCells mem idx = some (idx.map fun a => (memRead mem a).getD 0) := by
  rw [readCells_eq_some, List.map_map]
  refine List.map_congr_left fun a ha => ?_
  obtain ⟨v, hv⟩ := Option.isSome_iff_exists.1 (h a ha)
  simp [hv]

theorem readCells_unwritten {mem : Memory} {idx : List Nat} (h : ¬ ∀ a ∈ idx, (memRead mem a).isSome) :
    readCells mem idx = none := by
  rw [readCells_eq_none]
  push Not at h
  obtain ⟨a, ha, hn⟩ := h
  exact ⟨a, ha, by simpa using hn⟩

theorem topWithCorner_eq (h : ∀ i, i ≤ mb.size → (memRead s.ref (sampleIndex s (mb.x - 1 + i) (mb.y - 1))).isSome) :
    topWithCorner mb s = some ((List.range (mb.size + 1)).map fun i =>
      (memRead s.ref (sampleIndex s (mb.x - 1 + i) (mb.y - 1))).getD 0) := by
  rw [topWithCorner, readCells_written, List.map_map]
  · rfl
  · simp only [List.mem_map, List.mem_range, forall_exists_index, and_imp]
    rintro a i hi rfl
    exact h i (by omega)

theorem leftColumn_eq (h : ∀ j, j < mb.size → (memRead s.ref (sampleIndex s (mb.x - 1) (mb.y + j))).isSome) :
    leftColumn mb s = some ((List.range mb.size).map fun j =>
      (memRead s.ref (sampleIndex s (mb.x - 1) (mb.y + j))).getD 0) := by
  rw [leftColumn, readCells_written, List.map_map]
  · rfl
  · simp only [List.mem_map, List.mem_range, forall_exists_index, and_imp]
    rintro a i hi rfl
    exact h i hi

theorem topRow_eq (h : ∀ j, j < mb.size → (memRead s.ref (sampleIndex s (mb.x + j) (mb.y - 1))).isSome) :
    topRow mb s = some ((List.range mb.size).map fun j =>
      (memRead s.ref (sampleIndex s (mb.x + j) (mb.y - 1))).getD 0) := by
  rw [topRow, readCells_written, List.map_map]
  · rfl
  · simp only [List.mem_map, List.mem_range, forall_exists_index, and_imp]
    rintro a i hi rfl
    exact h i hi

theorem sumBytes_eq (l : List Nat) (f : Nat → Byte) :
    (sumBytes (l.map f) : Int) = (l.map fun i => ((f i).toNat : Int)).sum := by
  induction l with
  | nil => rfl
  | cons a l ih => simp [sumBytes] at ih ⊢; omega

/-- Where the samples a mode reads hold values there is a predictor, with R212's values. -/
theorem predictor_written (h : NeighboursWritten m mb s) : ∃ p, predictor m mb s = some p ∧
    ∀ i j, i < mb.size → j < mb.size → (p.value i j : Int) = predicted m mb s i j := by
  cases m with
  | none => exact ⟨.zero, rfl, fun i j _ _ => rfl⟩
  | dc =>
    refine ⟨_, by rw [predictor, topWithCorner_eq h.1, leftColumn_eq h.2], fun i j _ _ => ?_⟩
    rw [Predictor.value, predicted, Int.natCast_ediv, Int.natCast_add, sumBytes_eq, sumBytes_eq]
    rfl
  | horizontal =>
    refine ⟨_, by rw [predictor, leftColumn_eq h]; rfl, fun i j hi _ => ?_⟩
    simp [Predictor.value, predicted, refAt, hi]
  | vertical =>
    refine ⟨_, by rw [predictor, topRow_eq h]; rfl, fun i j _ hj => ?_⟩
    simp [Predictor.value, predicted, refAt, hj]

theorem predictor_unwritten (h : ¬ NeighboursWritten m mb s) : predictor m mb s = none := by
  have hl : ∀ {n : Nat} {f : Nat → Nat}, ¬ (∀ i, i < n → (memRead s.ref (f i)).isSome) →
      readCells s.ref ((List.range n).map f) = none := by
    intro n f hn
    refine readCells_unwritten fun hall => hn fun i hi => hall _ (List.mem_map_of_mem (List.mem_range.2 hi))
  cases m with
  | none => exact absurd trivial h
  | dc =>
    by_cases h1 : ∀ i, i ≤ mb.size → (memRead s.ref (sampleIndex s (mb.x - 1 + i) (mb.y - 1))).isSome
    · rw [predictor, topWithCorner_eq h1, leftColumn, hl fun h2 => h ⟨h1, h2⟩]
    · rw [predictor, topWithCorner, hl fun h2 => h1 fun i hi => h2 i (by omega)]
  | horizontal => rw [predictor, leftColumn, hl h]; rfl
  | vertical => rw [predictor, topRow, hl h]; rfl

/-! ### The source block -/

theorem source_written (h : SourceWritten mb s) : ∃ src, sourceBlock mb s = some src ∧
    ∀ i j, i < mb.size → j < mb.size → (sourceAt mb src i j : Int) = srcAt s (mb.x + j) (mb.y + i) := by
  refine ⟨_, readCells_written ?_, fun i j hi hj => ?_⟩
  · simp only [List.mem_map, List.mem_range, forall_exists_index, and_imp]
    rintro a p hp rfl
    exact h _ _ (Nat.div_lt_of_lt_mul hp) (Nat.mod_lt _ (by rcases Nat.eq_zero_or_pos mb.size with h0 | h0
                                                            · simp [h0] at hp
                                                            · exact h0))
  · have hlt : i * mb.size + j < mb.size * mb.size :=
      calc i * mb.size + j < i * mb.size + mb.size := by omega
        _ = (i + 1) * mb.size := by ring
        _ ≤ mb.size * mb.size := Nat.mul_le_mul_right _ hi
    have h1 : (i * mb.size + j) / mb.size = i := by
      rw [Nat.mul_comm, Nat.mul_add_div (by omega), Nat.div_eq_of_lt hj, Nat.add_zero]
    have h2 : (i * mb.size + j) % mb.size = j := by
      rw [Nat.mul_comm, Nat.mul_add_mod, Nat.mod_eq_of_lt hj]
    simp [sourceAt, hlt, h1, h2, srcAt]

theorem source_unwritten (h : ¬ SourceWritten mb s) : sourceBlock mb s = none := by
  refine readCells_unwritten fun hall => h fun i j hi hj => ?_
  have hlt : i * mb.size + j < mb.size * mb.size :=
    calc i * mb.size + j < i * mb.size + mb.size := by omega
      _ = (i + 1) * mb.size := by ring
      _ ≤ mb.size * mb.size := Nat.mul_le_mul_right _ hi
  have h1 : (i * mb.size + j) / mb.size = i := by
    rw [Nat.mul_comm, Nat.mul_add_div (by omega), Nat.div_eq_of_lt hj, Nat.add_zero]
  have h2 : (i * mb.size + j) % mb.size = j := by
    rw [Nat.mul_comm, Nat.mul_add_mod, Nat.mod_eq_of_lt hj]
  have := hall _ (List.mem_map_of_mem (List.mem_range.2 hlt))
  rwa [h1, h2] at this

/-- A sum over the positions of a square, row by row. -/
theorem sum_range_mul (f : Nat → Nat → Nat) (n k : Nat) (hk : 0 < k) :
    ((List.range (n * k)).map fun q => f (q / k) (q % k)).sum =
      ((List.range n).map fun i => ((List.range k).map fun j => f i j).sum).sum := by
  induction n with
  | zero => simp
  | succ n ih =>
    rw [Nat.add_mul, Nat.one_mul, List.range_add, List.map_append, List.sum_append, ih, List.range_succ,
      List.map_append, List.sum_append, List.map_singleton, List.sum_singleton, List.map_map]
    congr 2
    refine List.map_congr_left fun j hj => ?_
    have hj := List.mem_range.1 hj
    have h1 : (n * k + j) / k = n := by
      rw [Nat.mul_comm, Nat.mul_add_div hk, Nat.div_eq_of_lt hj, Nat.add_zero]
    have h2 : (n * k + j) % k = j := by rw [Nat.mul_comm, Nat.mul_add_mod, Nat.mod_eq_of_lt hj]
    simp [h1, h2]

/-- The comparison loop's cost is R213's. -/
theorem cost_eq {src : List Byte} {p : Predictor} (hsize : 0 < mb.size)
    (hs : ∀ i j, i < mb.size → j < mb.size → (sourceAt mb src i j : Int) = srcAt s (mb.x + j) (mb.y + i))
    (hp : ∀ i j, i < mb.size → j < mb.size → (p.value i j : Int) = predicted m mb s i j) :
    cost mb src p = sad m mb s := by
  rw [cost, sum_range_mul (fun i j => ((sourceAt mb src i j : Int) - p.value i j).natAbs) _ _ hsize, sad]
  congr 1
  refine List.map_congr_left fun i hi => ?_
  congr 1
  refine List.map_congr_left fun j hj => ?_
  rw [hs _ _ (List.mem_range.1 hi) (List.mem_range.1 hj), hp _ _ (List.mem_range.1 hi) (List.mem_range.1 hj)]

/-! ### Mode selection (R214) -/

theorem Selected.allowed (h : Selected m mb s) : modeAllowed m mb.x mb.y := by
  obtain ⟨h1, h2, h3, h4⟩ := h
  rcases Nat.eq_zero_or_pos mb.x with hx | hx <;> rcases Nat.eq_zero_or_pos mb.y with hy | hy
  · rw [h1 ⟨hx, hy⟩]; trivial
  · rw [h3 ⟨hx, hy⟩]; exact hy
  · rw [h2 ⟨hx, hy⟩]; exact hx
  · cases m
    · trivial
    · exact ⟨hx, hy⟩
    · exact hx
    · exact hy

/-- Select answers a selected mode and changes nothing, where the samples it reads hold values. -/
theorem selectMode_selected (hsize : 0 < mb.size) (h : mb.x = 0 ∨ mb.y = 0 ∨ SourceWritten mb s ∧
    NeighboursWritten .dc mb s ∧ NeighboursWritten .horizontal mb s ∧ NeighboursWritten .vertical mb s) :
    ∃ m, Selected m mb s ∧ selectMode mb s = .done m s := by
  rw [selectMode]
  by_cases h1 : mb.x = 0 ∧ mb.y = 0
  · exact ⟨.none, ⟨fun _ => rfl, fun h => by omega, fun h => by omega, fun h => by omega⟩, by rw [if_pos h1]⟩
  rw [if_neg h1]
  by_cases h2 : mb.y = 0
  · exact ⟨.horizontal, ⟨fun h => by omega, fun _ => rfl, fun h => by omega, fun h => by omega⟩, by rw [if_pos h2]⟩
  rw [if_neg h2]
  by_cases h3 : mb.x = 0
  · exact ⟨.vertical, ⟨fun h => by omega, fun h => by omega, fun _ => rfl, fun h => by omega⟩, by rw [if_pos h3]⟩
  rw [if_neg h3]
  obtain ⟨hs, hd, hh, hv⟩ : SourceWritten mb s ∧ NeighboursWritten .dc mb s ∧ NeighboursWritten .horizontal mb s ∧
      NeighboursWritten .vertical mb s := by tauto
  obtain ⟨src, e0, c0⟩ := source_written hs
  obtain ⟨p1, e1, c1⟩ := predictor_written hd
  obtain ⟨p2, e2, c2⟩ := predictor_written hh
  obtain ⟨p3, e3, c3⟩ := predictor_written hv
  have c4 : ∀ i j, i < mb.size → j < mb.size → (Predictor.zero.value i j : Int) = predicted .none mb s i j :=
    fun i j _ _ => rfl
  simp only [e0, e1, e2, e3, orFault, Run.andThen, cost_eq hsize c0 c1, cost_eq hsize c0 c2, cost_eq hsize c0 c3,
    cost_eq hsize c0 c4]
  refine ⟨_, ⟨fun h => by omega, fun h => by omega, fun h => by omega, fun _ m' => ?_⟩, rfl⟩
  simp only [pickMode]
  have r0 : Mode.dc.rank = 0 := rfl
  have r1 : Mode.horizontal.rank = 1 := rfl
  have r2 : Mode.vertical.rank = 2 := rfl
  have r3 : Mode.none.rank = 3 := rfl
  split <;> split <;> split <;> cases m' <;> omega

/-! ### Ranges -/

theorem sum_range_le (f : Nat → Int) (n : Nat) (h : ∀ i, i < n → 0 ≤ f i ∧ f i ≤ 255) :
    0 ≤ ((List.range n).map f).sum ∧ ((List.range n).map f).sum ≤ 255 * n := by
  induction n with
  | zero => simp
  | succ n ih =>
    have h1 := ih fun i hi => h i (by omega)
    have h2 := h n (by omega)
    rw [List.range_succ, List.map_append, List.sum_append, List.map_singleton, List.sum_singleton]
    omega

theorem refAt_range (s : State) (x y : Nat) : 0 ≤ refAt s x y ∧ refAt s x y ≤ 255 := by
  have := ((memRead s.ref (sampleIndex s x y)).getD 0).isLt
  simp only [refAt]
  omega

theorem srcAt_range (s : State) (x y : Nat) : 0 ≤ srcAt s x y ∧ srcAt s x y ≤ 255 := by
  have := ((memRead s.src (sampleIndex s x y)).getD 0).isLt
  simp only [srcAt]
  omega

theorem predicted_range (m : Mode) (mb : Mb) (s : State) (i j : Nat) :
    0 ≤ predicted m mb s i j ∧ predicted m mb s i j ≤ 255 := by
  cases m with
  | none => exact ⟨by simp [predicted], by simp [predicted]⟩
  | dc =>
    have h1 := sum_range_le (fun k => refAt s (mb.x - 1 + k) (mb.y - 1)) (mb.size + 1) fun i _ => refAt_range ..
    have h2 := sum_range_le (fun k => refAt s (mb.x - 1) (mb.y + k)) mb.size fun i _ => refAt_range ..
    simp only [predicted]
    have hpos : (0 : Int) < 2 * (mb.size : Int) + 1 := by omega
    refine ⟨Int.ediv_nonneg (by omega) (by omega), Int.le_of_lt_add_one (Int.ediv_lt_of_lt_mul hpos ?_)⟩
    push_cast at h1 h2 ⊢
    omega
  | horizontal => exact refAt_range ..
  | vertical => exact refAt_range ..

theorem residualAt_range (m : Mode) (mb : Mb) (s : State) (i j : Nat) : (residualAt m mb s i j).natAbs ≤ 255 := by
  have h1 := srcAt_range s (mb.x + j) (mb.y + i)
  have h2 := predicted_range m mb s i j
  simp only [residualAt]
  omega

/-- A value that is a sample stays under the clamp. -/
theorem clampByte_byte (v : Byte) : clampByte (v.toNat : Int) = v := by
  have := v.isLt
  rw [clampByte, show max (0 : Int) (min 255 (v.toNat : Int)) = v.toNat by omega]
  exact BitVec.eq_of_toNat_eq (by simp)

/-! ### Residuals and reconstruction -/

theorem entry_residual {src : List Byte} {p : Predictor} {k e : Nat}
    (hs : ∀ i j, i < mb.size → j < mb.size → (sourceAt mb src i j : Int) = srcAt s (mb.x + j) (mb.y + i))
    (hp : ∀ i j, i < mb.size → j < mb.size → (p.value i j : Int) = predicted m mb s i j)
    (hk : k < mb.subs) (he : e < 16) :
    entry (residual mb src p k) e = wrap32 (residualAt m mb s (mb.row0 k + e / 4) (mb.col0 k + e % 4)) := by
  have hr := mb.row_lt hk he
  have hc := mb.col_lt (e := e) hk
  rw [residual, residualOf, entry_blockOf _ he]
  show wrap32 ((sourceAt mb src (mb.row0 k + e / 4) (mb.col0 k + e % 4) : Int) - _) = _
  rw [hs _ _ hr hc, hp _ _ hr hc, residualAt]

/-- The sub-block and the place in it of an offset. -/
theorem sub_of_offset (hside : 4 * mb.side = mb.size) {i j : Nat} (hi : i < mb.size) (hj : j < mb.size) :
    mb.side * (i / 4) + j / 4 < mb.subs ∧ mb.row0 (mb.side * (i / 4) + j / 4) = 4 * (i / 4) ∧
      mb.col0 (mb.side * (i / 4) + j / 4) = 4 * (j / 4) := by
  have hj4 : j / 4 < mb.side := by omega
  have hi4 : i / 4 + 1 ≤ mb.side := by omega
  refine ⟨?_, ?_, ?_⟩
  · calc mb.side * (i / 4) + j / 4 < mb.side * (i / 4 + 1) := by rw [Nat.mul_add]; omega
      _ ≤ mb.side * mb.side := Nat.mul_le_mul_left _ hi4
  · rw [Mb.row0, Nat.mul_add_div (by omega), Nat.div_eq_of_lt hj4, Nat.add_zero]
  · rw [Mb.col0, Nat.mul_add_mod, Nat.mod_eq_of_lt hj4]

theorem sourceSub_congr (h1 : t.fw = s.fw) (h2 : t.src = s.src) (k : Nat) : sourceSub mb k t = sourceSub mb k s := by
  simp [sourceSub, sampleIndex, h1, h2]

theorem sourceSub_unwritten {k : Nat} (h : ¬ SubWritten mb k s) : sourceSub mb k s = none :=
  readCells_unwritten fun hall => h fun _ he => hall _ (List.mem_map_of_mem (List.mem_range.2 he))

/-- A sub-block whose source samples hold values has the residual of Safety.lean. -/
theorem sourceSub_written {p : Predictor} {k : Nat}
    (hp : ∀ i j, i < mb.size → j < mb.size → (p.value i j : Int) = predicted m mb s i j) (hk : k < mb.subs)
    (h : SubWritten mb k s) : ∃ src, sourceSub mb k s = some src ∧
      residualOf mb p k (fun e => (src.getD e 0).toNat) = residualBlock m mb s k := by
  refine ⟨_, readCells_written ?_, block_ext fun e he => ?_⟩
  · simp only [List.mem_map, List.mem_range, forall_exists_index, and_imp]
    rintro a e he rfl
    exact h e he
  · rw [residualOf, residualBlock, entry_blockOf _ he, entry_blockOf _ he, residualAt,
      ← hp _ _ (mb.row_lt hk he) (mb.col_lt hk), wrap32]
    simp [he, srcAt]

/-- The source samples of a macroblock are those of its sub-blocks. -/
theorem sourceWritten_iff (hside : 4 * mb.side = mb.size) : SourceWritten mb s ↔ ∀ k, k < mb.subs → SubWritten mb k s := by
  refine ⟨fun h k hk e he => h _ _ (mb.row_lt hk he) (mb.col_lt hk), fun h i j hi hj => ?_⟩
  obtain ⟨h1, h2, h3⟩ := sub_of_offset hside hi hj
  have := h _ h1 (4 * (i % 4) + j % 4) (by omega)
  rwa [h2, h3, show 4 * (j / 4) + (4 * (i % 4) + j % 4) % 4 = j by omega,
    show 4 * (i / 4) + (4 * (i % 4) + j % 4) / 4 = i by omega] at this

theorem clampSample_eq (v : Int) : clampSample v = clampByte v := by
  rw [clampSample, clampByte]
  split
  · rw [show max 0 (min 255 v) = 0 by omega]; rfl
  · split
    · rw [show max 0 (min 255 v) = 255 by omega]; rfl
    · rw [show max 0 (min 255 v) = v by omega]

/-- A sample index names one sample of the frame. -/
theorem sampleIndex_inj {s : State} {x y x' y' : Nat} (hx : x < s.fw.toNat) (hx' : x' < s.fw.toNat)
    (h : sampleIndex s x y = sampleIndex s x' y') : x = x' ∧ y = y' := by
  simp only [sampleIndex] at h
  have h1 := congrArg (· / s.fw.toNat) h
  have h2 := congrArg (· % s.fw.toNat) h
  rw [Nat.mul_comm, Nat.mul_comm y', Nat.mul_add_div (by omega), Nat.mul_add_div (by omega), Nat.div_eq_of_lt hx,
    Nat.div_eq_of_lt hx'] at h1
  rw [Nat.mul_comm, Nat.mul_comm y', Nat.mul_add_mod, Nat.mul_add_mod, Nat.mod_eq_of_lt hx, Nat.mod_eq_of_lt hx'] at h2
  omega

/-- Writing a macroblock's cells writes its samples and no other (R217). -/
theorem writeRef_refWrites {p : Predictor} {f : Nat → Block} (hside : 4 * mb.side = mb.size)
    (hx : mb.x + mb.size ≤ s.fw.toNat) :
    RefWrites mb (fun i j => clampByte ((p.value i j : Int) +
      entryInt (f (mb.side * (i / 4) + j / 4)) (4 * (i % 4) + j % 4))) s (writeRef (unpredCells mb p s f) s) := by
  refine ⟨fun i j hi hj => ?_, fun a ha => memRead_memWriteAll_other _ _ fun c hc e => ha (e ▸ unpredCells_covers hc)⟩
  refine memRead_memWriteAll_mem _ _ ?_ ?_
  · obtain ⟨hk, hr, hc⟩ := sub_of_offset hside hi hj
    refine List.mem_flatMap.2 ⟨mb.side * (i / 4) + j / 4, List.mem_range.2 hk, ?_⟩
    refine List.mem_map.2 ⟨4 * (i % 4) + j % 4, List.mem_range.2 (by omega), ?_⟩
    simp only [hr, hc, show 4 * (i / 4) + (4 * (i % 4) + j % 4) / 4 = i by omega,
      show 4 * (j / 4) + (4 * (i % 4) + j % 4) % 4 = j by omega, clampSample_eq]
  · intro c hc e
    obtain ⟨k, hk, hc⟩ := List.mem_flatMap.1 hc
    obtain ⟨q, hq, rfl⟩ := List.mem_map.1 hc
    have hk := List.mem_range.1 hk
    have hq := List.mem_range.1 hq
    have hrl := mb.row_lt hk hq
    have hcl := mb.col_lt (e := q) hk
    obtain ⟨e1, e2⟩ := sampleIndex_inj (by omega) (by omega) e
    have hi' : i = mb.row0 k + q / 4 := by omega
    have hj' : j = mb.col0 k + q % 4 := by omega
    have hi4 : i / 4 = k / mb.side := by rw [hi', Mb.row0]; omega
    have hj4 : j / 4 = k % mb.side := by rw [hj', Mb.col0]; omega
    have hkk : mb.side * (i / 4) + j / 4 = k := by rw [hi4, hj4]; exact Nat.div_add_mod ..
    have hqq : 4 * (i % 4) + j % 4 = q := by
      rw [hi', hj', Mb.row0, Mb.col0]; omega
    simp only [clampSample_eq, hkk, hqq, ← hi', ← hj']

theorem RefWrites.congr {f : Nat → Nat → Byte} {s' t' : State} (h : RefWrites mb f s t) (h1 : s'.fw = s.fw)
    (h2 : s'.ref = s.ref) (h3 : t'.ref = t.ref) : RefWrites mb f s' t' := by
  refine ⟨fun i j hi hj => ?_, fun a ha => ?_⟩
  · rw [h3, show sampleIndex s' (mb.x + j) (mb.y + i) = sampleIndex s (mb.x + j) (mb.y + i) by simp [sampleIndex, h1]]
    exact h.1 i j hi hj
  · rw [h3, h2]
    exact h.2 a fun hc => ha ((covers_congr h1).2 hc)

theorem RefWrites.change {f g : Nat → Nat → Byte} (h : RefWrites mb f s t)
    (hfg : ∀ i j, i < mb.size → j < mb.size → f i j = g i j) : RefWrites mb g s t :=
  ⟨fun i j hi hj => by rw [h.1 i j hi hj, hfg i j hi hj], h.2⟩

end Sys2Proof.Machine
end

