-- ==== Sys2Proof/Laws/Writer.lean ====
section
/-! SUPPORT. The bit writer whether its transactions go well or fail (R131, R141, R312): counts, answers, log and STATUS
after m bits. -/

namespace Sys2Proof.Machine

/-- What m bits written leave, whatever the host answers: one transaction for each 64 bits, the first failure recorded. -/
structure Wrote (m : Nat) (s t : State) : Prop where
  wbuf : t.wbuf.length = (s.wbuf.length + m) % 64
  answers : t.ports.outAnswers = s.ports.outAnswers.drop ((s.wbuf.length + m) / 64)
  log : t.ports.outLog.length = s.ports.outLog.length + (s.wbuf.length + m) / 64
  status : t.status = (if s.status = .ok ∧ .fail ∈ s.ports.outAnswers.take ((s.wbuf.length + m) / 64) then .ioFailed
        else s.status)
  result : t.result = s.result
  banks : t.banks = s.banks
  ref : t.ref = s.ref
  src : t.src = s.src
  rbuf : t.rbuf = s.rbuf
  lost : .fail ∈ s.ports.outAnswers.take ((s.wbuf.length + m) / 64) → t.wlost = true ∧ t.rlost = true
  kept : .fail ∉ s.ports.outAnswers.take ((s.wbuf.length + m) / 64) → t.wlost = s.wlost ∧ t.rlost = s.rlost
  inA : t.ports.inAnswers = s.ports.inAnswers
  inL : t.ports.inLog = s.ports.inLog
  wait : t.wait = s.wait

theorem Wrote.zero {s : State} (h : s.wbuf.length ≤ 63) : Wrote 0 s s := by
  have : s.wbuf.length / 64 = 0 := by omega
  constructor <;> simp [this]; omega

theorem Wrote.trans {m n : Nat} {s t u : State} (h : Wrote m s t) (k : Wrote n t u) : Wrote (m + n) s u := by
  have e : (s.wbuf.length + (m + n)) / 64 = (s.wbuf.length + m) / 64 + (t.wbuf.length + n) / 64 := by
    rw [h.wbuf]; omega
  constructor
  · rw [k.wbuf, h.wbuf]; omega
  · rw [k.answers, h.answers, e, List.drop_drop]
  · rw [k.log, h.log, e]; omega
  · rw [k.status, h.status, e]
    simp only [List.take_add, List.mem_append, h.answers]
    by_cases h1 : s.status = .ok <;> by_cases h2 : OutAnswer.fail ∈ s.ports.outAnswers.take ((s.wbuf.length + m) / 64) <;> simp [h1, h2]
  · rw [k.result, h.result]
  · rw [k.banks, h.banks]
  · rw [k.ref, h.ref]
  · rw [k.src, h.src]
  · rw [k.rbuf, h.rbuf]
  · rw [e, List.take_add, List.mem_append, ← h.answers]
    intro hf
    by_cases h2 : OutAnswer.fail ∈ t.ports.outAnswers.take ((t.wbuf.length + n) / 64)
    · exact k.lost h2
    · rw [(k.kept h2).1, (k.kept h2).2]
      exact h.lost (hf.resolve_right h2)
  · rw [e, List.take_add, List.mem_append, ← h.answers, not_or]
    intro hf
    rw [(k.kept hf.2).1, (k.kept hf.2).2]
    exact h.kept hf.1
  · rw [k.inA, h.inA]
  · rw [k.inL, h.inL]
  · rw [k.wait, h.wait]

theorem transfer_wrote {bytes : List Byte} (s : State) (x : List Bool) (d : Nat) (hf : s.wbuf.length + 1 = 64) :
    (s.ports.outAnswers ≠ [] → ∃ t, transfer bytes { s with wbuf := x, draws := d } = .done () t ∧ Wrote 1 s t) ∧
    (s.ports.outAnswers = [] → ∃ r t, transfer bytes { s with wbuf := x, draws := d } = .waiting r t) := by
  have hk : (s.wbuf.length + 1) / 64 = 1 := by omega
  cases ha : s.ports.outAnswers with
  | nil =>
    refine ⟨fun h => absurd rfl h, fun _ => ?_⟩
    unfold transfer outWrite
    split <;> simp [ha, drew]
  | cons a rest =>
    refine ⟨fun _ => ?_, fun h => by cases h⟩
    unfold transfer outWrite
    cases a <;> split <;> (simp only [drew, ha, andThen_done]; refine ⟨_, rfl, ?_⟩) <;>
      constructor <;> simp [ha, hf]

theorem emitBit_wrote (b : Bool) {s : State} (h : s.wbuf.length ≤ 63) :
    ((s.wbuf.length + 1) / 64 ≤ s.ports.outAnswers.length → ∃ t, emitBit b s = .done () t ∧ Wrote 1 s t) ∧
    (s.ports.outAnswers.length < (s.wbuf.length + 1) / 64 → ∃ r t, emitBit b s = .waiting r t) := by
  unfold emitBit
  simp only
  generalize hv : (if writerExact s then s else drew 1 s) = v
  obtain ⟨d, hv'⟩ : ∃ d, v = { s with draws := d } := by
    subst hv; split
    · exact ⟨s.draws, rfl⟩
    · exact ⟨s.draws + 1, rfl⟩
  subst hv'
  generalize (if writerExact s then b else Config.drawBit s.draws) = bit
  simp only [List.length_append, List.length_singleton]
  by_cases hf : s.wbuf.length + 1 = 64
  · have hk : (s.wbuf.length + 1) / 64 = 1 := by omega
    obtain ⟨h1, h2⟩ := transfer_wrote (bytes := pack (s.wbuf ++ [bit])) s (s.wbuf ++ [bit]) d hf
    rw [if_pos hf, hk]
    exact ⟨fun hl => h1 fun e => by rw [e] at hl; simp at hl,
      fun hl => h2 (List.length_eq_zero_iff.1 (by omega))⟩
  · have hk : (s.wbuf.length + 1) / 64 = 0 := by omega
    rw [if_neg hf, hk]
    refine ⟨fun _ => ⟨_, rfl, ?_⟩, fun h => by simp at h⟩
    constructor <;> simp [hk]
    omega

theorem emitBits_wrote (bits : List Bool) {s : State} (h : s.wbuf.length ≤ 63) :
    ((s.wbuf.length + bits.length) / 64 ≤ s.ports.outAnswers.length → ∃ t, emitBits bits s = .done () t ∧ Wrote bits.length s t) ∧
    (s.ports.outAnswers.length < (s.wbuf.length + bits.length) / 64 → ∃ r t, emitBits bits s = .waiting r t) := by
  induction bits generalizing s with
  | nil =>
    exact ⟨fun _ => ⟨s, rfl, Wrote.zero h⟩, fun hk => by simp at hk; omega⟩
  | cons b bits ih =>
    obtain ⟨h1, h2⟩ := emitBit_wrote b h
    by_cases hc : (s.wbuf.length + 1) / 64 ≤ s.ports.outAnswers.length
    · obtain ⟨t, e, w⟩ := h1 hc
      have hw : t.wbuf.length ≤ 63 := by rw [w.wbuf]; omega
      obtain ⟨g1, g2⟩ := ih hw
      have hl : t.ports.outAnswers.length = s.ports.outAnswers.length - (s.wbuf.length + 1) / 64 := by rw [w.answers]; simp
      have hx : (s.wbuf.length + (b :: bits).length) / 64 = (s.wbuf.length + 1) / 64 + (t.wbuf.length + bits.length) / 64 := by
        rw [w.wbuf, List.length_cons]; omega
      rw [hx]
      refine ⟨fun hk => ?_, fun hk => ?_⟩
      · obtain ⟨u, e2, w2⟩ := g1 (by omega)
        refine ⟨u, by rw [emitBits, e, andThen_done, e2], ?_⟩
        have := w.trans w2
        rwa [Nat.add_comm 1] at this
      · obtain ⟨r, u, e2⟩ := g2 (by omega)
        exact ⟨r, u, by rw [emitBits, e, andThen_done, e2]⟩
    · obtain ⟨r, t, e⟩ := h2 (by omega)
      have hx : (s.wbuf.length + 1) / 64 ≤ (s.wbuf.length + (b :: bits).length) / 64 := by
        rw [List.length_cons]; omega
      exact ⟨fun hk => by omega, fun _ => ⟨r, t, by rw [emitBits, e]; rfl⟩⟩

/-! ### Writing that goes well (R131, R144), whether or not the writer's contents are specified (U4) -/

/-- What a stretch of bits written leaves inside a command while STATUS = OK. -/
structure Emits (bits : List Bool) (s t : State) : Prop extends Written bits s t where
  len : t.wbuf.length = (s.wbuf.length + bits.length) % 64

variable {s t u : State} {xs ys bits : List Bool}

theorem Emits.written : Emits bits s (afterWriting bits s) where
  exact _ := rfl
  frame := by simp [afterWriting]
  wcnt := afterWriting_wbuf_le ..
  log := by
    refine ⟨_, rfl, by simp, fun tx htx => ?_⟩
    simp only [List.mem_map, List.mem_range] at htx
    obtain ⟨j, hj, rfl⟩ := htx
    refine ⟨rfl, ?_, rfl⟩
    rw [pack_length, List.length_take, List.length_drop]
    omega
  len := by simp only [afterWriting, List.length_drop, List.length_append]; omega

theorem Emits.nil (hw : s.wbuf.length ≤ 63) : Emits [] s s := by
  have h := Emits.written (bits := []) (s := s)
  rwa [afterWriting_nil hw] at h

@[simp] theorem Written.status (h : Written bits s t) : t.status = s.status := by rw [h.frame]
@[simp] theorem Written.wlost (h : Written bits s t) : t.wlost = s.wlost := by rw [h.frame]
@[simp] theorem Written.rlost (h : Written bits s t) : t.rlost = s.rlost := by rw [h.frame]
@[simp] theorem Written.cfg (h : Written bits s t) : t.cfg = s.cfg := by rw [h.frame]
@[simp] theorem Written.fw (h : Written bits s t) : t.fw = s.fw := by rw [h.frame]
@[simp] theorem Written.fh (h : Written bits s t) : t.fh = s.fh := by rw [h.frame]
@[simp] theorem Written.src (h : Written bits s t) : t.src = s.src := by rw [h.frame]
@[simp] theorem Written.ref (h : Written bits s t) : t.ref = s.ref := by rw [h.frame]

theorem Emits.trans (h : Emits xs s t) (k : Emits ys t u) : Emits (xs ++ ys) s u := by
  have hl := h.len
  have e : (s.wbuf.length + (xs ++ ys).length) / 64 =
      (s.wbuf.length + xs.length) / 64 + (t.wbuf.length + ys.length) / 64 := by
    rw [hl, List.length_append]; omega
  obtain ⟨m1, a1, a2, a3⟩ := h.log
  obtain ⟨m2, b1, b2, b3⟩ := k.log
  refine ⟨⟨fun hx => ?_, ?_, k.wcnt, m1 ++ m2, by rw [b1, a1, List.append_assoc], by rw [List.length_append, a2, b2, e],
    fun tx htx => (List.mem_append.1 htx).elim (a3 tx) (b3 tx)⟩, ?_⟩
  · rw [afterWriting_append, ← h.exact hx]
    exact k.exact (by rw [h.wlost]; exact hx)
  · have h1 := k.frame
    have h2 := h.frame
    rw [e, ← List.drop_drop]
    conv_lhs => rw [h1]
    generalize (t.wbuf.length + ys.length) / 64 = k2
    rw [h2]
  · rw [k.len, hl, List.length_append]; omega

theorem Emits.accepts (h : Emits xs s t) (ha : acceptsBits (xs ++ ys).length s) : acceptsBits ys.length t := by
  have := (acceptsBits_append ha).2
  have hw : t.wbuf.length = (afterWriting xs s).wbuf.length := by
    rw [h.len]; simp only [afterWriting, List.length_drop, List.length_append]; omega
  have ho : t.ports.outAnswers = (afterWriting xs s).ports.outAnswers := by rw [h.frame]; simp [afterWriting]
  rw [acceptsBits, ← hw, ← ho] at this
  exact this

/-- What the host accepts in two stretches it accepts whole. -/
theorem Emits.accepts_append (h : Emits xs s t) (hx : acceptsBits xs.length s) (hy : acceptsBits ys.length t) :
    acceptsBits (xs ++ ys).length s := by
  have ho : t.ports.outAnswers = s.ports.outAnswers.drop ((s.wbuf.length + xs.length) / 64) := by rw [h.frame]
  have e : (s.wbuf.length + (xs ++ ys).length) / 64 =
      (s.wbuf.length + xs.length) / 64 + (t.wbuf.length + ys.length) / 64 := by
    rw [h.len, List.length_append]; omega
  rw [acceptsBits, ho] at hy
  rw [acceptsBits] at hx ⊢
  rw [e, List.take_add, hx, hy, List.replicate_append_replicate]

/-- A stretch of bits that the host does not accept whole: a failure is recorded at its end, or the command waits. -/
theorem emitBits_refused (bits : List Bool) (hok : s.status = .ok) (hw : s.wbuf.length ≤ 63)
    (h : ¬ acceptsBits bits.length s) :
    (∃ t, emitBits bits s = .done () t ∧ t.status = .ioFailed) ∨ ∃ r t, emitBits bits s = .waiting r t := by
  obtain ⟨h1, h2⟩ := emitBits_wrote bits hw
  by_cases hk : (s.wbuf.length + bits.length) / 64 ≤ s.ports.outAnswers.length
  · obtain ⟨t, e, k⟩ := h1 hk
    have hf : OutAnswer.fail ∈ s.ports.outAnswers.take ((s.wbuf.length + bits.length) / 64) := by
      by_contra hf
      refine h (List.eq_replicate_iff.2 ⟨by rw [List.length_take]; omega, fun a ha => ?_⟩)
      cases a with
      | ok => rfl
      | fail => exact absurd ha hf
    exact .inl ⟨t, e, by rw [k.status, if_pos ⟨hok, hf⟩]⟩
  · exact .inr (h2 (by omega))

theorem emitBit_emits (b : Bool) (hok : s.status = .ok) (hw : s.wbuf.length ≤ 63) (hacc : acceptsBits 1 s) :
    ∃ t, emitBit b s = .done () t ∧ Emits [b] s t := by
  by_cases hl : s.wlost = false
  · exact ⟨_, emitBit_eq b hok hl hw hacc, .written⟩
  · have hl : s.wlost = true := by simpa using hl
    by_cases hf : s.wbuf.length + 1 = 64
    · have hk : (s.wbuf.length + 1) / 64 = 1 := by omega
      simp only [acceptsBits, hk] at hacc
      obtain ⟨rest, hrest⟩ : ∃ rest, s.ports.outAnswers = .ok :: rest := by
        cases h : s.ports.outAnswers with
        | nil => simp [h] at hacc
        | cons a rest => simp [h, List.replicate] at hacc; exact ⟨rest, by rw [hacc]⟩
      generalize hy : emitBit b s = y
      simp [emitBit, writerExact, hl, hf, transfer, outWrite, hrest, drew] at hy
      subst hy
      refine ⟨_, rfl, ⟨⟨fun h => by simp [hl] at h, ?_, by simp, _, rfl, by simp [hk], ?_⟩, by simp [hf]⟩⟩
      · simp [hk, hrest, hl]
      · simp
    · have hk : (s.wbuf.length + 1) / 64 = 0 := by omega
      generalize hy : emitBit b s = y
      simp [emitBit, writerExact, hl, hf, drew] at hy
      subst hy
      refine ⟨_, rfl, ⟨⟨fun h => by simp [hl] at h, by simp [hk, hl], by simp; omega, [], by simp, by simp [hk], by simp⟩, ?_⟩⟩
      simp; omega

/-- A stretch of bits goes out while STATUS = OK and the host accepts it. -/
theorem emitBits_emits (bits : List Bool) (hok : s.status = .ok) (hw : s.wbuf.length ≤ 63)
    (hacc : acceptsBits bits.length s) : ∃ t, emitBits bits s = .done () t ∧ Emits bits s t := by
  induction bits generalizing s with
  | nil => exact ⟨s, rfl, .nil hw⟩
  | cons b rest ih =>
    have hacc : acceptsBits ([b] ++ rest).length s := hacc
    obtain ⟨t, e1, h1⟩ := emitBit_emits b hok hw (acceptsBits_append hacc).1
    obtain ⟨u, e2, h2⟩ := ih (by rw [h1.status]; exact hok) h1.wcnt (h1.accepts hacc)
    exact ⟨u, by rw [emitBits, e1, andThen_done, e2], h1.trans h2⟩

theorem emitBit_done_ok {b : Bool} {a : Unit} (hs : s.status = .ok) (hw : s.wbuf.length ≤ 63)
    (h : emitBit b s = .done a t) (ht : t.status = .ok) : Emits [b] s t ∧ acceptsBits 1 s := by
  have hacc : acceptsBits 1 s := by
    by_cases hf : s.wbuf.length = 63
    · have hk : (s.wbuf.length + 1) / 64 = 1 := by omega
      rw [acceptsBits, hk]
      cases ha : s.ports.outAnswers with
      | nil =>
        obtain ⟨r, v, e⟩ := (emitBit_wrote b hw).2 (by rw [ha, hk]; simp)
        rw [e] at h; cases h
      | cons x rest =>
        cases x with
        | ok => rfl
        | fail =>
          obtain ⟨v, e, hv⟩ := (emitBit_wrote b hw).1 (by rw [ha, hk]; simp)
          rw [e] at h
          cases h
          rw [hv.status, ha, hk, hs] at ht
          simp at ht
    · have hk : (s.wbuf.length + 1) / 64 = 0 := by omega
      rw [acceptsBits, hk]; rfl
  obtain ⟨v, e, hv⟩ := emitBit_emits b hs hw hacc
  rw [e] at h
  cases h
  exact ⟨hv, hacc⟩

/-- A stretch written that leaves no failure has gone out whole. -/
theorem emitBits_done_ok {a : Unit} (hs : s.status = .ok) (hw : s.wbuf.length ≤ 63)
    (h : emitBits bits s = .done a t) (ht : t.status = .ok) : Emits bits s t := by
  induction bits generalizing s with
  | nil =>
    simp only [emitBits, Run.done.injEq] at h
    rw [← h.2]
    exact .nil hw
  | cons b rest ih =>
    obtain ⟨_, u, h1, h2⟩ := andThen_eq_done h
    have hd : Done true false nowhere u t := by
      have := emitBits_may (r := false) (allow := nowhere) rest u
      rw [h2] at this; exact this
    have hu : u.status = .ok := by
      by_contra hn
      exact hn ((hd.sticky hn).symm.trans ht)
    obtain ⟨he, -⟩ := emitBit_done_ok hs hw h1 hu
    exact he.trans (ih hu he.wcnt h2)

/-- At the end of the command a writer whose contents are unspecified takes a free content: still written. -/
theorem Written.settle {i : Instr} (hi : readsStream i = false) {v : State} (hw : v.wlost = s.wlost)
    (hr : v.rlost = s.rlost) : ∃ x d, settle i s v = { v with wbuf := x, draws := d } ∧
      (s.wlost = false → x = v.wbuf ∧ d = v.draws) ∧ (v.wbuf.length ≤ 63 → x.length ≤ 63) := by
  by_cases hl : s.wlost = false
  · exact ⟨v.wbuf, v.draws, by rw [settle_written hi (by rw [hw]; exact hl) hr], fun _ => ⟨rfl, rfl⟩, fun h => h⟩
  · obtain ⟨x, y, d, e, hx, hy⟩ := settle_cases i s v
    refine ⟨x, d, ?_, fun h => absurd h hl, fun h => ?_⟩
    · rcases hy with rfl | hy
      · exact e
      · have := hy.2.1 (by rw [← hr]; exact hy.1)
        rw [hi] at this; cases this
    · rcases hx with rfl | hx
      · exact h
      · exact hx.2.2

theorem Emits.settle {i : Instr} (hi : readsStream i = false) (h : Emits bits s t) : Written bits s (settle i s t) := by
  obtain ⟨x, d, e, h1, h2⟩ := Written.settle (i := i) (s := s) hi h.wlost h.rlost
  rw [e]
  refine ⟨fun hl => ?_, ?_, h2 h.wcnt, h.log⟩
  · obtain ⟨rfl, rfl⟩ := h1 hl
    exact h.exact hl
  · conv_lhs => rw [h.frame]

end Sys2Proof.Machine
end

