-- ==== Sys2Proof/Laws/Pipeline.lean ====
section
/-! SUPPORT. The macroblock pipeline (45_pipeline.md): what EncMB and DecMB do, in the terms of Safety.lean. -/

namespace Sys2Proof.Machine

variable {s t : State} {mb : Mb} {m : Mode}

/-! ### What does not matter to the predictor -/

theorem sampleIndex_congr (h : t.fw = s.fw) (x y : Nat) : sampleIndex t x y = sampleIndex s x y := by
  simp [sampleIndex, h]

theorem predictor_congr (h1 : t.fw = s.fw) (h2 : t.ref = s.ref) : predictor m mb t = predictor m mb s := by
  cases m <;> simp [predictor, topWithCorner, leftColumn, topRow, sampleIndex, h1, h2]

theorem predicted_congr (h1 : t.fw = s.fw) (h2 : t.ref = s.ref) (i j : Nat) :
    predicted m mb t i j = predicted m mb s i j := by
  have h : ∀ x y, refAt t x y = refAt s x y := fun x y => by simp [refAt, sampleIndex, h1, h2]
  cases m <;> simp [predicted, h]

theorem neighbours_congr (h1 : t.fw = s.fw) (h2 : t.ref = s.ref) :
    NeighboursWritten m mb t ↔ NeighboursWritten m mb s := by
  cases m <;> simp [NeighboursWritten, sampleIndex, h1, h2]

theorem operandMb_congr {sz : Byte} (h1 : t.arg0 = s.arg0) (h2 : t.arg1 = s.arg1) :
    operandMb sz t = operandMb sz s := by simp [operandMb, h1, h2]

/-! ### The codes of a macroblock -/

/-- Every residual is the difference of two samples. -/
def SmallResiduals (rs : List Block) : Prop := ∀ r ∈ rs, ∀ e, e < 16 → (entryInt r e).natAbs ≤ 255

theorem residualBlocks_small (m : Mode) (mb : Mb) (s : State) : SmallResiduals (residualBlocks m mb s) := by
  intro r hr e he
  obtain ⟨k, hk, rfl⟩ := List.mem_map.1 hr
  have h := residualAt_range m mb s (mb.row0 k + e / 4) (mb.col0 k + e % 4)
  rw [entryInt, residualBlock, entry_blockOf _ he]
  have := toInt_wrap32 (a := residualAt m mb s (mb.row0 k + e / 4) (mb.col0 k + e % 4)) (by omega) (by omega)
  rw [wrap32] at this
  rw [this]
  exact h

@[simp] theorem residualBlocks_length (m : Mode) (mb : Mb) (s : State) :
    (residualBlocks m mb s).length = mb.subs := by simp [residualBlocks]

theorem getD_small {rs : List Block} (h : SmallResiduals rs) (k : Nat) {e : Nat} (he : e < 16) :
    (entryInt (rs.getD k (blockOf fun _ => 0)) e).natAbs ≤ 255 := by
  by_cases hk : k < rs.length
  · rw [List.getD_eq_getElem _ _ hk]; exact h _ (List.getElem_mem hk) e he
  · rw [List.getD_eq_default _ _ (by omega), entryInt, entry_blockOf _ he]; decide

theorem fwd4_small {r : Block} (h : ∀ e, e < 16 → (entryInt r e).natAbs ≤ 255) (k : Config.Kernel) {p : Nat}
    (hp : p < 16) : (entryInt (fwd4 k r) p).natAbs ≤ 16320 := by
  cases k
  · show (entryInt (sep fseq r) p).natAbs ≤ _
    rw [sep_fseq]
    have := twoSided_bound seqMatrix_bound h hp
    rw [entryInt_blockOf hp (by omega) (by omega)]
    omega
  · show (entryInt (sep fh264 r) p).natAbs ≤ _
    rw [sep_fh264]
    have := twoSided_bound h264Matrix_bound h hp
    rw [entryInt_blockOf hp (by omega) (by omega)]
    omega

theorem tdiv_small {a : Int} {b : Nat} (d : Nat) (h : a.natAbs ≤ b) : (tdiv a d).natAbs ≤ b := by
  have h1 : (a.tdiv d).natAbs = a.natAbs / (d : Int).natAbs := Int.natAbs_tdiv a d
  have h2 : a.natAbs / (d : Int).natAbs ≤ a.natAbs := Nat.div_le_self ..
  rw [tdiv]
  omega

theorem acCodes_small {r : Block} (h : ∀ e, e < 16 → (entryInt r e).natAbs ≤ 255) (c : Config.Params) :
    ∀ x ∈ acCodes c r, x.natAbs ≤ 2 ^ 20 := by
  intro x hx
  obtain ⟨q, hq, rfl⟩ := List.mem_map.1 hx
  have := List.mem_range.1 hq
  exact (tdiv_small _ (fwd4_small h c.kernel (izz4_lt (by omega)))).trans (by decide)

@[simp] theorem acCodes_length (c : Config.Params) (r : Block) : (acCodes c r).length = 15 := by simp [acCodes]
@[simp] theorem dcCodes_length (c : Config.Params) (rs : List Block) : (dcCodes c rs).length = rs.length := by
  simp [dcCodes]

theorem had4_small {g : Block} {b : Nat} (h : ∀ e, e < 16 → (entryInt g e).natAbs ≤ b) (hb : 16 * b < 2 ^ 31)
    {p : Nat} (hp : p < 16) : (entryInt (had4 g) p).natAbs ≤ 16 * b := by
  have := twoSided_bound seqMatrix_bound h hp
  rw [had4, entryInt_divBlock _ _ hp]
  refine tdiv_small _ ?_
  rw [sep_fseq, entryInt_blockOf hp (by omega) (by omega)]
  omega

theorem had2_small {g : Block} {b : Nat} (h : ∀ e, e < 16 → (entryInt g e).natAbs ≤ b) (hb : 4 * b < 2 ^ 31)
    (p : Nat) : (had2Entry g p).toInt.natAbs ≤ 4 * b := by
  have h0 := h 0 (by omega)
  have h1 := h 1 (by omega)
  have h2 := h 2 (by omega)
  have h3 := h 3 (by omega)
  unfold had2Entry
  split <;> (rw [toInt_wrap32 (by omega) (by omega)]; omega)

/-- The grid of the raw DC values of residuals (R269 step 3). -/
def rawGrid (c : Config.Params) (rs : List Block) : Block :=
  blockOf fun k => entry (fwd4 c.kernel (rs.getD k (blockOf fun _ => 0))) 0

theorem rawGrid_small {rs : List Block} (h : SmallResiduals rs) (c : Config.Params) {e : Nat} (he : e < 16) :
    (entryInt (rawGrid c rs) e).natAbs ≤ 16320 := by
  rw [rawGrid, entryInt, entry_blockOf _ he]
  exact fwd4_small (fun p hp => getD_small h e hp) c.kernel (by omega)

theorem dcCodes_small {rs : List Block} (h : SmallResiduals rs) (hn : rs.length ≤ 16) (c : Config.Params) :
    ∀ x ∈ dcCodes c rs, x.natAbs ≤ 2 ^ 20 := by
  intro x hx
  simp only [dcCodes, List.mem_map, List.mem_range] at hx
  obtain ⟨q, hq, rfl⟩ := hx
  have hg := fun e he => rawGrid_small h c (e := e) he
  refine tdiv_small _ ?_
  rw [rawGrid] at hg
  split
  · rename_i h16
    have : izz rs.length q < 16 := by rw [h16]; exact izz4_lt (by omega)
    exact (had4_small hg (by omega) this).trans (by omega)
  · have hq16 : izz rs.length q < 16 := by rw [izz, if_neg (by assumption)]; omega
    split
    · rw [entryInt, entry_blockOf _ hq16]
      exact (had2_small hg (by omega) _).trans (by omega)
    · exact (hg _ hq16).trans (by omega)

theorem acVector_eq (c : Config.Params) (r : Block) : acVector (quant4 c (fwd4 c.kernel r)) = acCodes c r := by
  refine List.map_congr_left fun q hq => ?_
  have := List.mem_range.1 hq
  rw [entryInt_quant4 _ _ (by omega)]

/-- The codes of the DC grid are dcCodes. -/
theorem firstInts_codedGrid (c : Config.Params) (rs : List Block)
    (hn : rs.length = 1 ∨ rs.length = 4 ∨ rs.length = 16) :
    firstInts rs.length (codedGrid c rs.length (rs.map fun r => entry (fwd4 c.kernel r) 0)) = dcCodes c rs := by
  refine List.map_congr_left fun q hq => ?_
  have hq := List.mem_range.1 hq
  have hi : izz rs.length q < rs.length := izz_lt hn hq
  have hraw : ∀ k, k < rs.length → entry (blockOf fun k => (rs.map fun r => entry (fwd4 c.kernel r) 0).getD k 0) k =
      entry (rawGrid c rs) k := by
    intro k hk
    rw [entry_blockOf _ (by omega), rawGrid, entry_blockOf _ (by omega)]
    simp [hk]
  rw [codedGrid, entryInt, entry_blockOf _ (by omega), toInt_quantDcEntry]
  congr 1
  generalize hg : (blockOf fun k => (rs.map fun r => entry (fwd4 c.kernel r) 0).getD k 0) = g at *
  rw [← rawGrid]
  rcases hn with hn | hn | hn <;> simp only [hn] at *
  · exact congrArg BitVec.toInt (hraw _ hi)
  · have h16 : izz 4 q < 16 := by omega
    simp only [gridForward, entryInt]
    rw [entry_blockOf _ h16, if_pos hi, if_neg (by decide), if_true, entry_blockOf _ h16]
    simp only [had2Entry, entryInt, hraw 0 (by omega), hraw 1 (by omega), hraw 2 (by omega), hraw 3 (by omega)]
  · have : g = rawGrid c rs := block_ext fun i hi => hraw i hi
    rw [this]
    rfl

/-! ### The inverse path (R272) -/

/-- The DC values recovered from a coded grid depend on its codes only. -/
theorem gridInverse_eq (c : Config.Params) (dc : List Int) (zd : Block)
    (hn : dc.length = 1 ∨ dc.length = 4 ∨ dc.length = 16)
    (hz : ∀ q, q < dc.length → entryInt zd q = dc.getD q 0) {k : Nat} (hk : k < dc.length) :
    entry (gridInverse dc.length (blockOf (dequantDcEntry c dc.length zd))) k = entry (recoveredDc c dc) k := by
  have he : ∀ p, p < dc.length → entry (blockOf (dequantDcEntry c dc.length zd)) p =
      entry (blockOf fun p => wrap32 (dc.getD (zz dc.length p) 0 * qtab c 0)) p := by
    intro p hp
    rw [entry_blockOf _ (by omega), entry_blockOf _ (by omega), dequantDcEntry, hz _ (zz_lt hn hp)]
  rw [recoveredDc]
  generalize (blockOf (dequantDcEntry c dc.length zd)) = x at *
  generalize (blockOf fun p => wrap32 (dc.getD (zz dc.length p) 0 * qtab c 0)) = y at *
  rcases hn with hn | hn | hn <;> simp only [hn] at *
  · exact he _ hk
  · have h16 : k < 16 := by omega
    simp only [gridInverse]
    rw [entry_blockOf _ h16, if_pos hk, if_neg (by decide), if_true, entry_blockOf _ h16]
    simp only [had2Entry, entryInt, he 0 (by omega), he 1 (by omega), he 2 (by omega), he 3 (by omega)]
  · have : x = y := block_ext fun i hi => he i hi
    rw [this]
    rfl

theorem reconResidual_eq (c : Config.Params) (z : MbCodes) (zs : List Block) (dcRec : Block) {k : Nat}
    (hd : entry dcRec k = entry (recoveredDc c z.dc) k)
    (hz : ∀ q, 1 ≤ q → q < 16 → entryInt (zs.getD k (blockOf fun _ => 0)) q = (z.ac.getD k []).getD (q - 1) 0) :
    reconResidual c dcRec zs k = recoveredResidual c z k := by
  rw [reconResidual, recoveredResidual]
  have : overlay (dequant4 c (zs.getD k (blockOf fun _ => 0))) 1 (fun _ => entry dcRec k) = blockOf fun p =>
      if p = 0 then entry (recoveredDc c z.dc) k
      else wrap32 ((z.ac.getD k []).getD (zz4 p - 1) 0 * qtab c p) := by
    refine block_ext fun p hp => ?_
    rw [entry_overlay _ _ _ hp, entry_blockOf _ hp]
    by_cases h0 : p = 0
    · rw [if_pos (by omega), if_pos h0, hd]
    · have : 1 ≤ zz4 p := by
        have := izz4_zz4 hp
        rcases Nat.eq_zero_or_pos (zz4 p) with h | h
        · rw [h] at this; exact absurd this.symm h0
        · exact h
      rw [if_neg (by omega), if_neg h0, entry_dequant4 _ _ hp, hz _ this (zz4_lt hp)]
  simp only [this]

/-- Reconstruct, from zigzag blocks and a zigzag grid that hold the codes z (R272). -/
theorem reconstruct_codes {z : MbCodes} {zs : List Block} {zd : Block} (hside : 4 * mb.side = mb.size)
    (hx : mb.x + mb.size ≤ s.fw.toNat) (hn : mb.subs = 1 ∨ mb.subs = 4 ∨ mb.subs = 16) (hlen : z.dc.length = mb.subs)
    (hw : NeighboursWritten z.mode mb s)
    (hfw : t.fw = s.fw) (href : t.ref = s.ref) (hcfg : t.cfg = s.cfg)
    (hz : ∀ k, k < mb.subs → ∀ q, 1 ≤ q → q < 16 → entryInt (zs.getD k (blockOf fun _ => 0)) q =
      (z.ac.getD k []).getD (q - 1) 0)
    (hzd : ∀ q, q < mb.subs → entryInt zd q = z.dc.getD q 0) :
    ∃ ref, reconstruct z.mode mb zs zd t = .done () { t with ref := ref } ∧
      ∀ t' : State, t'.ref = ref → RefWrites mb (decodedSample z mb s) s t' := by
  obtain ⟨p, e, hp⟩ := predictor_written hw
  rw [← predictor_congr hfw href] at e
  refine ⟨_, by rw [reconstruct, e, orFault, andThen_done]; rfl, fun t' ht' => ?_⟩
  have h := writeRef_refWrites (p := p) (s := t)
    (f := reconResidual t.cfg (gridInverse mb.subs (blockOf (dequantDcEntry t.cfg mb.subs zd))) zs) hside
    (by rw [hfw]; exact hx)
  refine (h.congr hfw.symm href.symm ht').change fun i j hi hj => ?_
  have hk := (sub_of_offset hside hi hj).1
  rw [decodedSample, hp i j hi hj, hcfg, reconResidual_eq s.cfg z zs _ _ (hz _ hk)]
  rw [← hlen] at hk hn hzd ⊢
  exact gridInverse_eq s.cfg z.dc zd hn hzd hk

theorem macroblockBits_eq (c : Config.Params) (m : Mode) (rs : List Block) : macroblockBits c m rs =
    natBits 2 m.toCode ++ (rs.flatMap fun r => coefficientBits (acCodes c r)) ++ coefficientBits (dcCodes c rs) := by
  rw [macroblockBits, MbCodes.bits, codesOf, List.flatMap_map]

/-- The AC codes of sub-block k. -/
theorem codesOf_ac (c : Config.Params) (m : Mode) (rs : List Block) {k : Nat} (hk : k < rs.length) :
    (codesOf c m rs).ac.getD k [] = acCodes c (rs.getD k (blockOf fun _ => 0)) := by
  simp [codesOf, hk]

theorem codesOf_legal (c : Config.Params) {rs : List Block} (hr : SmallResiduals rs) (hlen : rs.length = mb.subs)
    (hn : mb.subs ≤ 16) (ha : modeAllowed m mb.x mb.y) : (codesOf c m rs).Legal mb where
  mode := ha
  subs := by simp [codesOf, hlen]
  acLength := by simp [codesOf]
  dcLength := by simp [codesOf, hlen]
  acRange := by
    intro v hv x hx
    obtain ⟨r, hr', rfl⟩ := List.mem_map.1 hv
    exact (acCodes_small (hr r hr') c x hx).trans (by decide)
  dcRange := fun x hx => (dcCodes_small hr (by omega) c x hx).trans (by decide)

/-! ### EncMB (R269) -/

theorem writeVector_small {c : List Int} (h : ∀ x ∈ c, x.natAbs ≤ 2 ^ 20) (s : State) :
    writeVector c s = emitBits (coefficientBits c) s := by
  rw [writeVector, if_pos, vectorCode_eq]
  refine List.all_eq_true.2 fun x hx => ?_
  have := h x hx
  simp only [bne_iff_ne, ne_eq]
  omega

theorem checkStatus_ok (h : s.status = .ok) : checkStatus s = .done () s := by rw [checkStatus, if_pos h]

/-- The zigzag block and raw DC value of a residual. -/
def codedSub (c : Config.Params) (r : Block) : Block × Word := (quant4 c (fwd4 c.kernel r), entry (fwd4 c.kernel r) 0)

/-- The same of each residual. -/
def encodedSubs (c : Config.Params) (rs : List Block) : List (Block × Word) := rs.map (codedSub c)

/-- The bits of a sub-block's AC vector. -/
def subBits (c : Config.Params) (r : Block) : List Bool := coefficientBits (acCodes c r)

/-- The part of a command ends with IO_FAILED recorded, or waits. -/
def Stops {α : Type} (x : Run α) : Prop := (∃ t, x = .ended t ∧ t.status = .ioFailed) ∨ ∃ r t, x = .waiting r t

theorem Stops.andThen {α β : Type} {x : Run α} (h : Stops x) (k : α → State → Run β) : Stops (x.andThen k) := by
  obtain ⟨t, rfl, ht⟩ | ⟨r, t, rfl⟩ := h
  · exact .inl ⟨t, rfl, ht⟩
  · exact .inr ⟨r, t, rfl⟩

/-- A stretch of bits that the host does not accept whole, and the check of STATUS after it (R273). -/
theorem emitBits_stops {β : Type} (bits : List Bool) (hok : s.status = .ok) (hw : s.wbuf.length ≤ 63)
    (h : ¬ acceptsBits bits.length s) (k : Unit → State → Run β) :
    Stops ((emitBits bits s).andThen fun _ t => (checkStatus t).andThen k) := by
  obtain ⟨t, e, ht⟩ | ⟨r, t, e⟩ := emitBits_refused bits hok hw h
  · refine .inl ⟨t, ?_, ht⟩
    rw [e, andThen_done, checkStatus, if_neg (by rw [ht]; decide)]
    rfl
  · exact .inr ⟨r, t, by rw [e]; rfl⟩

/-- A sub-block coded: its bits go out, or the host does not accept them (R269, R273). -/
theorem encodeSub_eq {r : Block} (hr : ∀ e, e < 16 → (entryInt r e).natAbs ≤ 255) (hok : s.status = .ok)
    (hw : s.wbuf.length ≤ 63) :
    (acceptsBits (subBits s.cfg r).length s → ∃ t, encodeSub r s = .done (codedSub s.cfg r) t ∧
      Emits (subBits s.cfg r) s t) ∧
    (¬ acceptsBits (subBits s.cfg r).length s → Stops (encodeSub r s)) := by
  have e : encodeSub r s = (emitBits (subBits s.cfg r) s).andThen fun _ t =>
      (checkStatus t).andThen fun _ t => .done (codedSub s.cfg r) t := by
    simp only [encodeSub]
    rw [acVector_eq, writeVector_small (acCodes_small hr _)]
    rfl
  rw [e]
  refine ⟨fun hacc => ?_, fun hacc => emitBits_stops _ hok hw hacc _⟩
  obtain ⟨t, h1, h2⟩ := emitBits_emits _ hok hw hacc
  exact ⟨t, by rw [h1, andThen_done, checkStatus_ok (h2.status.trans hok), andThen_done], h2⟩

theorem encodeSub_done {r : Block} {sub : Block × Word} (hr : ∀ e, e < 16 → (entryInt r e).natAbs ≤ 255)
    (hok : s.status = .ok) (hw : s.wbuf.length ≤ 63) (h : encodeSub r s = .done sub t) :
    sub = codedSub s.cfg r ∧ Emits (subBits s.cfg r) s t := by
  obtain ⟨h1, h2⟩ := encodeSub_eq hr hok hw
  by_cases hacc : acceptsBits (subBits s.cfg r).length s
  · obtain ⟨u, e, hu⟩ := h1 hacc
    rw [e] at h
    cases h
    exact ⟨rfl, hu⟩
  · obtain ⟨u, e, -⟩ | ⟨_, u, e⟩ := h2 hacc <;> rw [e] at h <;> cases h

/-- The residuals f are those of the sub-blocks ks with the source samples there are. -/
def ResidualsFrom (mb : Mb) (p : Predictor) (ks : List Nat) (f : Nat → Block) (s : State) : Prop :=
  ∀ k ∈ ks, (∀ e, e < 16 → (entryInt (f k) e).natAbs ≤ 255) ∧
    ∀ src, sourceSub mb k s = some src → residualOf mb p k (fun e => (src.getD e 0).toNat) = f k

theorem ResidualsFrom.congr {p : Predictor} {ks : List Nat} {f : Nat → Block} (h : ResidualsFrom mb p ks f s)
    (h1 : t.fw = s.fw) (h2 : t.src = s.src) : ResidualsFrom mb p ks f t := fun k hk =>
  ⟨(h k hk).1, fun src hs => (h k hk).2 src (by rw [← sourceSub_congr h1 h2]; exact hs)⟩

/-- Sub-blocks whose source samples hold values, up to the end or to one with a sample that holds none: that fault comes
only when the bits of those before it have been accepted (R84, R269). -/
theorem encodeSubs_eq {p : Predictor} {ks : List Nat} {f : Nat → Block} (hf : ResidualsFrom mb p ks f s)
    (hs : ∀ k ∈ ks, (sourceSub mb k s).isSome) (hok : s.status = .ok) (hw : s.wbuf.length ≤ 63) :
    let bits := ks.flatMap fun k => subBits s.cfg (f k)
    (acceptsBits bits.length s →
      (∃ t, encodeSubs mb p ks s = .done (encodedSubs s.cfg (ks.map f)) t ∧ Emits bits s t) ∧
      ∀ k more, sourceSub mb k s = none → encodeSubs mb p (ks ++ k :: more) s = .faulted .unwrittenSrc) ∧
    (¬ acceptsBits bits.length s → ∀ more, Stops (encodeSubs mb p (ks ++ more) s)) := by
  induction ks generalizing s with
  | nil =>
    refine ⟨fun _ => ⟨⟨s, rfl, .nil hw⟩, fun k more hn => ?_⟩, fun h => absurd ?_ h⟩
    · rw [List.nil_append, encodeSubs, hn]; rfl
    · have : s.wbuf.length / 64 = 0 := by omega
      simp [acceptsBits, this]
  | cons k ks ih =>
    obtain ⟨src, e0⟩ := Option.isSome_iff_exists.1 (hs k (List.mem_cons_self ..))
    obtain ⟨hr, e1⟩ := hf k (List.mem_cons_self ..)
    obtain ⟨g1, g2⟩ := encodeSub_eq hr hok hw
    have hstep : ∀ more, encodeSubs mb p (k :: ks ++ more) s = (encodeSub (f k) s).andThen fun sub s =>
        (encodeSubs mb p (ks ++ more) s).andThen fun rest s => .done (sub :: rest) s := by
      intro more
      rw [List.cons_append, encodeSubs, e0, orFault, andThen_done, e1 src e0]
    have hnil := hstep []
    rw [List.append_nil, List.append_nil] at hnil
    simp only [List.flatMap_cons]
    by_cases hacc : acceptsBits (subBits s.cfg (f k)).length s
    · obtain ⟨u, e2, hu⟩ := g1 hacc
      have hsub : ∀ j, sourceSub mb j u = sourceSub mb j s := sourceSub_congr hu.fw hu.src
      obtain ⟨i1, i2⟩ := ih (s := u) (fun j hj => hf.congr hu.fw hu.src j (List.mem_cons_of_mem _ hj))
        (fun j hj => by rw [hsub]; exact hs j (List.mem_cons_of_mem _ hj)) (hu.status.trans hok) hu.wcnt
      rw [hu.cfg] at i1 i2
      refine ⟨fun ha => ?_, fun hn more => ?_⟩
      · obtain ⟨⟨t, e3, ht⟩, i3⟩ := i1 (hu.accepts ha)
        refine ⟨⟨t, ?_, hu.trans ht⟩, fun j more hj => ?_⟩
        · rw [hnil, e2, andThen_done, e3, andThen_done]; rfl
        · rw [hstep, e2, andThen_done, i3 j more (by rw [hsub]; exact hj)]; rfl
      · rw [hstep, e2, andThen_done]
        exact (i2 (fun ha => hn (hu.accepts_append hacc ha)) more).andThen _
    · refine ⟨fun ha => absurd (acceptsBits_append ha).1 hacc, fun _ more => ?_⟩
      rw [hstep]
      exact (g2 hacc).andThen _

theorem encodeSubs_done {p : Predictor} {ks : List Nat} {f : Nat → Block} {subs : List (Block × Word)}
    (hf : ResidualsFrom mb p ks f s) (hok : s.status = .ok) (hw : s.wbuf.length ≤ 63)
    (h : encodeSubs mb p ks s = .done subs t) : subs = encodedSubs s.cfg (ks.map f) ∧
      Emits (ks.flatMap fun k => subBits s.cfg (f k)) s t ∧ ∀ k ∈ ks, (sourceSub mb k s).isSome := by
  induction ks generalizing s t subs with
  | nil =>
    simp only [encodeSubs, Run.done.injEq] at h
    rw [← h.1, ← h.2]
    exact ⟨rfl, .nil hw, by simp⟩
  | cons k ks ih =>
    obtain ⟨hr, hres⟩ := hf k (List.mem_cons_self ..)
    obtain ⟨src, v, h1, k0⟩ := andThen_eq_done h
    obtain ⟨e1, rfl⟩ := orFault_eq_done h1
    obtain ⟨sub, u, h2, k1⟩ := andThen_eq_done k0
    rw [hres src e1] at h2
    obtain ⟨rfl, hu⟩ := encodeSub_done hr hok hw h2
    obtain ⟨rest, w, h3, k2⟩ := andThen_eq_done k1
    have hsub : ∀ j, sourceSub mb j u = sourceSub mb j v := sourceSub_congr hu.fw hu.src
    obtain ⟨h5, h6, h7⟩ := ih (fun j hj => hf.congr hu.fw hu.src j (List.mem_cons_of_mem _ hj)) (hu.status.trans hok)
      hu.wcnt h3
    simp only [Run.done.injEq] at k2
    rw [hu.cfg] at h5 h6
    rw [← k2.1, ← k2.2, h5]
    refine ⟨rfl, hu.trans h6, fun j hj => ?_⟩
    rcases List.mem_cons.1 hj with rfl | hj
    · rw [e1]; rfl
    · rw [← hsub]; exact h7 j hj

/-- The residuals of mode m, where its predictor has its values. -/
theorem residualsFrom {p : Predictor}
    (hp : ∀ i j, i < mb.size → j < mb.size → (p.value i j : Int) = predicted m mb s i j) :
    ResidualsFrom mb p (List.range mb.subs) (residualBlock m mb s) s := by
  intro k hk
  refine ⟨residualBlocks_small m mb s _ (List.mem_map_of_mem hk), fun src hs => ?_⟩
  have hw : SubWritten mb k s := by
    by_contra hc
    rw [sourceSub_unwritten hc] at hs
    cases hs
  obtain ⟨src', e, h⟩ := sourceSub_written hp (List.mem_range.1 hk) hw
  rw [hs] at e
  cases e
  exact h

/-- The zigzag block of each sub-block holds its AC codes. -/
theorem encodedSubs_codes (c : Config.Params) (rs : List Block) {k : Nat} (hk : k < rs.length) {q : Nat} (h1 : 1 ≤ q)
    (h2 : q < 16) : entryInt (((encodedSubs c rs).map Prod.fst).getD k (blockOf fun _ => 0)) q =
      (acCodes c (rs.getD k (blockOf fun _ => 0))).getD (q - 1) 0 := by
  have h3 : ((encodedSubs c rs).map Prod.fst).getD k (blockOf fun _ => 0) = quant4 c (fwd4 c.kernel rs[k]) := by
    simp [encodedSubs, codedSub, hk]
  rw [h3, entryInt_quant4 _ _ h2, List.getD_eq_getElem _ _ hk, List.getD_eq_getElem _ _ (by simp; omega)]
  simp only [acCodes, List.getElem_map, List.getElem_range, Nat.sub_add_cancel h1]

theorem codedGrid_codes (c : Config.Params) (rs : List Block) (hn : rs.length = 1 ∨ rs.length = 4 ∨ rs.length = 16)
    {q : Nat} (hq : q < rs.length) :
    entryInt (codedGrid c rs.length ((encodedSubs c rs).map Prod.snd)) q = (dcCodes c rs).getD q 0 := by
  have he : (encodedSubs c rs).map Prod.snd = rs.map fun r => entry (fwd4 c.kernel r) 0 := by simp [encodedSubs, codedSub]
  rw [← firstInts_codedGrid c rs hn, he, firstInts]
  simp [hq]

/-- A macroblock that can be in a frame. -/
structure MbFits (mb : Mb) (s : State) : Prop where
  side : 4 * mb.side = mb.size
  subs : mb.subs = 1 ∨ mb.subs = 4 ∨ mb.subs = 16
  inside : mb.x + mb.size ≤ s.fw.toNat

theorem MbLegal.fits {sz : Byte} (h : MbLegal sz s) : MbFits (operandMb sz s) s := ⟨h.side, h.subs, h.insideX⟩

/-- The bits have been written and REF has taken the value it has in t. -/
def EmitsRef (bits : List Bool) (s t : State) : Prop := ∃ u, Emits bits s u ∧ t = { u with ref := t.ref }

/-- At the end of a command that sets RESULT to v, the bits are still written (U4). -/
theorem EmitsRef.settle {i : Instr} (hi : readsStream i = false) {bits : List Bool} (h : EmitsRef bits s t) (v : Word) :
    ∃ u, Written bits s u ∧ settle i s { t with result := v } = { u with ref := t.ref, result := v } := by
  obtain ⟨u, hu, e⟩ := h
  obtain ⟨x, d, h1, h2, h3⟩ := Written.settle (i := i) (s := s) hi (v := { t with result := v })
    (by rw [e]; exact hu.wlost) (by rw [e]; exact hu.rlost)
  have hw : t.wbuf = u.wbuf := by rw [e]
  have hd : t.draws = u.draws := by rw [e]
  refine ⟨{ u with wbuf := x, draws := d }, ⟨fun hl => ?_, ?_, h3 (by rw [hw]; exact hu.wcnt), hu.log⟩, ?_⟩
  · obtain ⟨rfl, rfl⟩ := h2 hl
    rw [hw, hd]
    exact hu.exact hl
  · conv_lhs => rw [hu.frame]
  · rw [h1]
    conv_lhs => rw [e]

/-- The inverse path inside EncMB, on the zigzag blocks and the grid of residuals rs. -/
theorem reconstruct_encoded {rs : List Block} (hf : MbFits mb s) (hlen : rs.length = mb.subs)
    (hn : NeighboursWritten m mb s) (hfw : t.fw = s.fw) (href : t.ref = s.ref) (hcfg : t.cfg = s.cfg) :
    ∃ ref, reconstruct m mb ((encodedSubs s.cfg rs).map Prod.fst)
        (codedGrid s.cfg mb.subs ((encodedSubs s.cfg rs).map Prod.snd)) t = .done () { t with ref := ref } ∧
      ∀ t' : State, t'.ref = ref → RefWrites mb (reconstructedSample m mb rs s) s t' := by
  have hn' : rs.length = 1 ∨ rs.length = 4 ∨ rs.length = 16 := by rw [hlen]; exact hf.subs
  exact reconstruct_codes (s := s) (z := codesOf s.cfg m rs)
    hf.side hf.inside hf.subs (by simpa [codesOf] using hlen) hn hfw href hcfg
    (fun k hk q h1 h2 => by
      rw [codesOf_ac _ _ _ (by omega)]
      exact encodedSubs_codes s.cfg rs (by omega) h1 h2)
    (fun q hq => by rw [← hlen]; exact codedGrid_codes s.cfg rs hn' (by omega))

/-- The DC codes inside EncMB. -/
theorem firstInts_encoded {rs : List Block} (hf : MbFits mb s) (hlen : rs.length = mb.subs) (c : Config.Params) :
    firstInts mb.subs (codedGrid c mb.subs ((encodedSubs c rs).map Prod.snd)) = dcCodes c rs := by
  have hsnd : (encodedSubs c rs).map Prod.snd = rs.map fun r => entry (fwd4 c.kernel r) 0 := by simp [encodedSubs, codedSub]
  rw [hsnd, ← hlen, firstInts_codedGrid _ _ (by rw [hlen]; exact hf.subs)]

/-- The bits of the AC vectors of a macroblock. -/
theorem subBits_residuals (c : Config.Params) (m : Mode) (mb : Mb) (s : State) :
    ((List.range mb.subs).flatMap fun k => subBits c (residualBlock m mb s k)) =
      (residualBlocks m mb s).flatMap fun r => coefficientBits (acCodes c r) := by
  rw [residualBlocks, List.flatMap_map]
  rfl

/-- EncMB where the mode has been selected, every sample is there and the OUT transactions are answered `ok`. -/
theorem encodeMb_eq (hf : MbFits mb s) (hsel : selectMode mb s = .done m s) (hok : s.status = .ok)
    (hw : s.wbuf.length ≤ 63) (hs : SourceWritten mb s) (hn : NeighboursWritten m mb s)
    (hacc : acceptsBits (macroblockBits s.cfg m (residualBlocks m mb s)).length s) :
    ∃ t, encodeMb mb s = .done m t ∧ EmitsRef (macroblockBits s.cfg m (residualBlocks m mb s)) s t ∧
      RefWrites mb (reconstructedSample m mb (residualBlocks m mb s) s) s t := by
  obtain ⟨p, e1, c1⟩ := predictor_written hn
  have hres := residualsFrom (m := m) c1
  have hsome : ∀ k ∈ List.range mb.subs, (sourceSub mb k s).isSome := fun k hk => by
    obtain ⟨src, e, -⟩ := sourceSub_written (m := m) c1 (List.mem_range.1 hk)
      ((sourceWritten_iff hf.side).1 hs k (List.mem_range.1 hk))
    rw [e]; rfl
  have hsmall := residualBlocks_small m mb s
  have hlen := residualBlocks_length m mb s
  have hbits := subBits_residuals s.cfg m mb s
  have hmap : (List.range mb.subs).map (residualBlock m mb s) = residualBlocks m mb s := rfl
  generalize residualBlocks m mb s = rs at *
  generalize residualBlock m mb s = f at *
  rw [macroblockBits_eq, List.append_assoc] at hacc
  obtain ⟨u1, k1, w1⟩ := emitBits_emits _ hok hw (acceptsBits_append hacc).1
  have hacc1 := w1.accepts hacc
  have hok1 := w1.status.trans hok
  obtain ⟨u2, k2, w2⟩ := ((encodeSubs_eq (hres.congr w1.fw w1.src)
    (fun k hk => by rw [sourceSub_congr w1.fw w1.src]; exact hsome k hk) hok1 w1.wcnt).1 (by
      rw [w1.cfg, hbits]; exact (acceptsBits_append hacc1).1)).1
  rw [w1.cfg, hbits] at w2
  rw [w1.cfg, hmap] at k2
  have hok2 := w2.status.trans hok1
  obtain ⟨u3, k3, w3⟩ := emitBits_emits _ hok2 w2.wcnt (w2.accepts hacc1)
  have hok3 := w3.status.trans hok2
  have w := w1.trans (w2.trans w3)
  obtain ⟨ref, hrec, href⟩ := reconstruct_encoded (m := m) hf hlen hn w.fw w.ref w.cfg
  refine ⟨{ u3 with ref := ref }, ?_, ⟨u3, by rw [macroblockBits_eq, List.append_assoc]; exact w, rfl⟩, href _ rfl⟩
  rw [encodeMb, hsel, andThen_done, k1, andThen_done, checkStatus_ok hok1, andThen_done,
    predictor_congr w1.fw w1.ref, e1, orFault, andThen_done, k2, andThen_done]
  simp only [w2.cfg, w1.cfg]
  rw [firstInts_encoded hf hlen, writeVector_small (dcCodes_small hsmall (by have := hf.subs; omega) _), k3,
    andThen_done, checkStatus_ok hok3, andThen_done, hrec, andThen_done]

theorem selectMode_done (h : selectMode mb s = .done m t) : t = s ∧ modeAllowed m mb.x mb.y := by
  rw [selectMode] at h
  split at h
  · simp only [Run.done.injEq] at h; exact ⟨h.2.symm, h.1 ▸ trivial⟩
  split at h
  · simp only [Run.done.injEq] at h
    refine ⟨h.2.symm, h.1 ▸ ?_⟩
    show 0 < mb.x
    omega
  split at h
  · simp only [Run.done.injEq] at h
    refine ⟨h.2.symm, h.1 ▸ ?_⟩
    show 0 < mb.y
    omega
  · obtain ⟨_, s1, h1, k0⟩ := andThen_eq_done h
    obtain ⟨_, s2, h2, k1⟩ := andThen_eq_done k0
    obtain ⟨_, s3, h3, k2⟩ := andThen_eq_done k1
    obtain ⟨_, s4, h4, k3⟩ := andThen_eq_done k2
    obtain ⟨-, rfl⟩ := orFault_eq_done h1
    obtain ⟨-, rfl⟩ := orFault_eq_done h2
    obtain ⟨-, rfl⟩ := orFault_eq_done h3
    obtain ⟨-, rfl⟩ := orFault_eq_done h4
    simp only [Run.done.injEq] at k3
    refine ⟨k3.2.symm, ?_⟩
    cases m
    · trivial
    · exact ⟨by omega, by omega⟩
    · show 0 < mb.x
      omega
    · show 0 < mb.y
      omega

/-- What Select gives is Selected, if it needs no sample or completes. -/
theorem selectMode_done_selected (hsize : 0 < mb.size) (h : selectMode mb s = .done m t) : Selected m mb s := by
  have key : mb.x = 0 ∨ mb.y = 0 ∨ SourceWritten mb s ∧ NeighboursWritten .dc mb s ∧
      NeighboursWritten .horizontal mb s ∧ NeighboursWritten .vertical mb s := by
    by_contra hc
    simp only [not_or] at hc
    obtain ⟨hx, hy, hc⟩ := hc
    rw [selectMode, if_neg (by omega), if_neg (by omega), if_neg (by omega)] at h
    obtain ⟨_, s1, h1, k0⟩ := andThen_eq_done h
    obtain ⟨_, s2, h2, k1⟩ := andThen_eq_done k0
    obtain ⟨_, s3, h3, k2⟩ := andThen_eq_done k1
    obtain ⟨_, s4, h4, k3⟩ := andThen_eq_done k2
    obtain ⟨e1, rfl⟩ := orFault_eq_done h1
    obtain ⟨e2, rfl⟩ := orFault_eq_done h2
    obtain ⟨e3, rfl⟩ := orFault_eq_done h3
    obtain ⟨e4, rfl⟩ := orFault_eq_done h4
    refine hc ⟨?_, ?_, ?_, ?_⟩ <;> by_contra hn
    · rw [source_unwritten hn] at e1; cases e1
    · rw [predictor_unwritten hn] at e2; cases e2
    · rw [predictor_unwritten hn] at e3; cases e3
    · rw [predictor_unwritten hn] at e4; cases e4
  obtain ⟨m', hsel, hrun⟩ := selectMode_selected hsize key
  rw [hrun] at h
  cases h
  exact hsel

/-- EncMB that completes from STATUS = OK: what it read and wrote. -/
theorem encodeMb_done (hf : MbFits mb s) (hok : s.status = .ok) (hw : s.wbuf.length ≤ 63)
    (h : encodeMb mb s = .done m t) : modeAllowed m mb.x mb.y ∧ SourceWritten mb s ∧ NeighboursWritten m mb s ∧
      EmitsRef (macroblockBits s.cfg m (residualBlocks m mb s)) s t ∧
      RefWrites mb (reconstructedSample m mb (residualBlocks m mb s) s) s t := by
  rw [encodeMb] at h
  obtain ⟨m', s1, h1, k0⟩ := andThen_eq_done h
  obtain ⟨rfl, hallow⟩ := selectMode_done h1
  obtain ⟨_, s2, h2, k1⟩ := andThen_eq_done k0
  obtain ⟨_, s3, h3, k2⟩ := andThen_eq_done k1
  obtain ⟨hok3, rfl⟩ := checkStatus_eq_done h3
  have w1 := emitBits_done_ok hok hw h2 hok3
  obtain ⟨p, s4, h4, k3⟩ := andThen_eq_done k2
  obtain ⟨e1, rfl⟩ := orFault_eq_done h4
  rw [predictor_congr w1.fw w1.ref] at e1
  have hn : NeighboursWritten m' mb s1 := by
    by_contra hc
    rw [predictor_unwritten hc] at e1
    cases e1
  obtain ⟨p', e1', c1⟩ := predictor_written hn
  obtain rfl : p' = p := Option.some.inj (e1'.symm.trans e1)
  have hsmall := residualBlocks_small m' mb s1
  have hlen := residualBlocks_length m' mb s1
  obtain ⟨subs, s6, h6, k5⟩ := andThen_eq_done k3
  obtain ⟨rfl, w2, hsome⟩ := encodeSubs_done ((residualsFrom c1).congr w1.fw w1.src) hok3 w1.wcnt h6
  have hok6 := w2.status.trans hok3
  have hs : SourceWritten mb s1 := (sourceWritten_iff hf.side).2 fun k hk => by
    by_contra hc
    have := hsome k (List.mem_range.2 hk)
    rw [sourceSub_congr w1.fw w1.src, sourceSub_unwritten hc] at this
    cases this
  rw [w1.cfg, subBits_residuals] at w2
  rw [w1.cfg, show (List.range mb.subs).map (residualBlock m' mb s1) = residualBlocks m' mb s1 from rfl] at k5
  obtain ⟨_, s7, h7, k6⟩ := andThen_eq_done k5
  obtain ⟨_, s8, h8, k7⟩ := andThen_eq_done k6
  obtain ⟨hok8, rfl⟩ := checkStatus_eq_done h8
  obtain ⟨_, s9, h9, k8⟩ := andThen_eq_done k7
  simp only [Run.done.injEq] at k8
  obtain ⟨rfl, rfl⟩ := k8
  rw [w2.cfg, w1.cfg, firstInts_encoded hf hlen, writeVector_small (dcCodes_small hsmall (by have := hf.subs; omega) _)] at h7
  have w3 := emitBits_done_ok hok6 w2.wcnt h7 hok8
  have w := w1.trans (w2.trans w3)
  rw [w2.cfg, w1.cfg] at h9
  obtain ⟨ref, hrec, href⟩ := reconstruct_encoded (m := m') hf hlen hn w.fw w.ref w.cfg
  rw [hrec] at h9
  cases h9
  exact ⟨hallow, hs, hn, ⟨_, by rw [macroblockBits_eq, List.append_assoc]; exact w, rfl⟩, href _ rfl⟩

end Sys2Proof.Machine
end

