-- ==== Sys2Proof/Laws/StreamEnd.lean ====
section
/-! SUPPORT. What the bit reader does when the stream ends or the host has not answered: it has taken every data
answer, and then the failure or the wait (R132, R138 to R140). -/

namespace Sys2Proof.Machine

/-- All the bits there are need all the data answers. -/
theorem refillsFor_all (g : Nat) (as : List InAnswer) :
    refillsFor (g + ((dataAnswers as).flatMap answerBits).length) g as = (dataAnswers as).length := by
  induction as generalizing g with
  | nil => rfl
  | cons a as ih =>
    by_cases hb : answerBits a = []
    · rw [dataAnswers_cons_end hb]
      exact refillsFor_zero _ (by simp)
    · rw [dataAnswers_cons_data hb, refillsFor, if_neg]
      · have := ih (g + (answerBits a).length)
        simp only [List.flatMap_cons, List.length_append, List.length_cons]
        rw [← Nat.add_assoc, this]
        omega
      · have := List.length_pos_of_ne_nil hb
        simp only [List.flatMap_cons, List.length_append]
        omega

theorem take_dataAnswers (as : List InAnswer) : as.take (dataAnswers as).length = dataAnswers as := by
  have : dataAnswers as <+: as := List.takeWhile_prefix _
  exact (List.prefix_iff_eq_take.1 this).symm

/-- The state after everything readable has been read. -/
theorem afterReading_all (s : State) : afterReading (readable s).length (readable s).length s = { s with
    rbuf := [], ports := { s.ports with
      inAnswers := s.ports.inAnswers.drop (dataAnswers s.ports.inAnswers).length,
      inLog := s.ports.inLog ++ dataAnswers s.ports.inAnswers } } := by
  have hk : refillsFor (readable s).length s.rbuf.length s.ports.inAnswers = (dataAnswers s.ports.inAnswers).length := by
    rw [readable, List.length_append]
    exact refillsFor_all _ _
  unfold afterReading
  simp only [hk, take_dataAnswers]
  rw [show (s.rbuf ++ (dataAnswers s.ports.inAnswers).flatMap answerBits) = readable s from rfl]
  simp

theorem dataAnswers_drop (as : List InAnswer) : dataAnswers (as.drop (dataAnswers as).length) = [] := by
  induction as with
  | nil => rfl
  | cons a as ih =>
    by_cases hb : answerBits a = []
    · rw [dataAnswers_cons_end hb]; simpa using dataAnswers_cons_end hb
    · rw [dataAnswers_cons_data hb]; simpa using ih

theorem streamEnd_drop (as : List InAnswer) : streamEnd (as.drop (dataAnswers as).length) = streamEnd as := by
  unfold streamEnd
  rw [dataAnswers_drop]
  rfl

theorem readable_afterReading_all (s : State) :
    readable (afterReading (readable s).length (readable s).length s) = [] := by
  rw [readable_afterReading (Nat.le_refl _) (Nat.le_refl _), List.drop_length]

@[simp] theorem streamEnd_afterReading_all (s : State) :
    streamEnd (afterReading (readable s).length (readable s).length s).ports.inAnswers = streamEnd s.ports.inAnswers := by
  rw [afterReading_all]; exact streamEnd_drop _

/-- Running out after everything readable is running out. -/
theorem afterRunningOut_afterReading (c : Status) (w r : List Bool) (d : Nat) (s : State) :
    afterRunningOut c w r d (afterReading (readable s).length (readable s).length s) = afterRunningOut c w r d s := by
  rw [afterReading_all]
  simp only [afterRunningOut, dataAnswers_drop, List.length_nil, Nat.zero_add, List.drop_drop]
  congr 2
  rw [List.append_assoc]
  congr 1
  conv_rhs => rw [List.take_add, take_dataAnswers]

theorem readable_eq_nil {s : State} (h : readable s = []) : s.rbuf = [] ∧ dataAnswers s.ports.inAnswers = [] := by
  simp only [readable, List.append_eq_nil_iff, List.flatMap_eq_nil_iff] at h
  refine ⟨h.1, ?_⟩
  cases ha : s.ports.inAnswers with
  | nil => rfl
  | cons a as =>
    by_cases hb : answerBits a = []
    · exact dataAnswers_cons_end hb
    · rw [ha] at h
      exact absurd (h.2 a (by rw [dataAnswers_cons_data hb]; exact List.mem_cons_self ..)) hb

/-- A bit is needed and the stream ends: the failure is recorded (R132). -/
theorem peekBit_end {s : State} {c : Status} (h : readable s = []) (hc : streamEnd s.ports.inAnswers = some c) :
    peekBit s = .ended (afterRunningOut (if s.status = .ok then c else s.status) s.wbuf [] s.draws s) := by
  obtain ⟨hr, hd⟩ := readable_eq_nil h
  simp only [streamEnd, hd, List.length_nil, List.drop_zero] at hc
  unfold peekBit
  rw [hr]
  simp only [refill]
  cases ha : s.ports.inAnswers with
  | nil => rw [ha] at hc; cases hc
  | cons a rest =>
    rw [ha] at hc
    cases a with
    | fail =>
      cases hc
      by_cases hok : s.status = .ok <;> simp [failRun, record, hok, takeIn, afterRunningOut, hr, ha, dataAnswers]
    | ok bytes hb =>
      cases hc
      have he : bytes = [] := by
        cases bytes with
        | nil => rfl
        | cons b bytes => rw [ha] at hd; simp [dataAnswers] at hd
      subst he
      by_cases hok : s.status = .ok <;> simp [failRun, record, hok, takeIn, afterRunningOut, hr, ha, dataAnswers]

/-- A bit is needed and the host has not answered: the command waits (R19). -/
theorem peekBit_wait {s : State} (h : readable s = []) (hc : streamEnd s.ports.inAnswers = none) :
    peekBit s = .waiting .inRead s := by
  obtain ⟨hr, hd⟩ := readable_eq_nil h
  simp only [streamEnd, hd, List.length_nil, List.drop_zero] at hc
  unfold peekBit
  rw [hr]
  simp only [refill]
  cases ha : s.ports.inAnswers with
  | nil => rfl
  | cons a rest =>
    rw [ha] at hc
    cases a <;> cases hc

/-- Reading on where the bits do not suffice is reading on from where they end. -/
theorem readBits_short {s : State} (hl : s.rlost = false) (n v : Nat) (h : (readable s).length < n) :
    ∃ n' v', readBits n v s = readBits (n' + 1) v' (afterReading (readable s).length (readable s).length s) := by
  generalize hL : (readable s).length = L at h
  induction L generalizing s n v with
  | zero => exact ⟨n - 1, v, by rw [afterReading_zero, Nat.sub_add_cancel (by omega)]⟩
  | succ L ih =>
    obtain ⟨b, rest, hb⟩ : ∃ b rest, readable s = b :: rest := by
      cases hr : readable s with
      | nil => rw [hr] at hL; simp at hL
      | cons b rest => exact ⟨b, rest, rfl⟩
    obtain ⟨m, rfl⟩ : ∃ m, n = m + 1 := ⟨n - 1, by omega⟩
    have h1 : 1 ≤ (readable s).length := by omega
    rw [readBits, nextBit_eq hl hb, andThen_done]
    have hL' : (readable (afterReading 1 1 s)).length = L := by
      rw [readable_afterReading h1 (Nat.le_refl _)]; simp; omega
    obtain ⟨n', v', e⟩ := ih (s := afterReading 1 1 s) hl m (2 * v + b.toNat) hL' (by omega)
    refine ⟨n', v', ?_⟩
    rw [e, ← afterReading_add L L h1, Nat.add_comm 1 L]

/-- R138: the stream ends before n bits. -/
theorem readBits_end {s : State} (hl : s.rlost = false) {c : Status} (n v : Nat) (h : (readable s).length < n)
    (hc : streamEnd s.ports.inAnswers = some c) :
    readBits n v s = .ended (afterRunningOut (if s.status = .ok then c else s.status) s.wbuf [] s.draws s) := by
  obtain ⟨n', v', e⟩ := readBits_short hl n v h
  have e2 := peekBit_end (s := afterReading (readable s).length (readable s).length s) (c := c)
    (readable_afterReading_all s) (by simpa using hc)
  rw [e, readBits, nextBit, e2, afterRunningOut_afterReading]
  rfl

/-- R138, R19: the host has not answered before n bits. -/
theorem readBits_wait {s : State} (hl : s.rlost = false) (n v : Nat) (h : (readable s).length < n)
    (hc : streamEnd s.ports.inAnswers = none) :
    readBits n v s = .waiting .inRead (afterReading (readable s).length (readable s).length s) := by
  obtain ⟨n', v', e⟩ := readBits_short hl n v h
  rw [e, readBits, nextBit, peekBit_wait (readable_afterReading_all s) (by simpa using hc)]
  rfl

/-- Counting zeros where only zeros are left is counting on from where they end. -/
theorem zeroLoop_short {s : State} (hl : s.rlost = false) (fuel z0 z : Nat) (hf : z < fuel) (hz : z0 + z < 2 ^ 32)
    (h : readable s = List.replicate z false) :
    ∃ fuel', zeroLoop fuel z0 s = zeroLoop (fuel' + 1) (z0 + z)
      (afterReading (readable s).length (readable s).length s) := by
  induction z generalizing s fuel z0 with
  | zero =>
    rw [h]
    exact ⟨fuel - 1, by rw [show (List.replicate 0 false).length = 0 from rfl, afterReading_zero,
      Nat.sub_add_cancel (by omega)]; rfl⟩
  | succ z ih =>
    obtain ⟨fuel, rfl⟩ : ∃ f, fuel = f + 1 := ⟨fuel - 1, by omega⟩
    have h0 : readable s = false :: List.replicate z false := by rw [h, List.replicate_succ]
    have h1 : 1 ≤ (readable s).length := by rw [h0]; simp
    have hd : readable (afterReading 1 1 s) = List.replicate z false := by
      rw [readable_afterReading h1 (Nat.le_refl _), h0]; rfl
    obtain ⟨f, e⟩ := ih (s := afterReading 1 1 s) hl fuel (z0 + 1) (by omega) (by omega) hd
    refine ⟨f, ?_⟩
    rw [zeroLoop, peekBit_eq hl h0]
    simp only
    rw [if_neg (show ¬ z0 + 1 = 2 ^ 32 by omega), dropBit_afterReading, e, hd, h, List.length_replicate,
      List.length_replicate, ← afterReading_add z z h1, show z0 + 1 + z = z0 + (z + 1) by omega, Nat.add_comm 1 z]

/-- R139: the stream ends in a run of zeros. -/
theorem countZeros_end {s : State} (hl : s.rlost = false) {c : Status} {z : Nat} (hz : z < 2 ^ 32)
    (h : readable s = List.replicate z false) (hc : streamEnd s.ports.inAnswers = some c) :
    countZeros s =
      .done (z, false) (afterRunningOut (if s.status = .ok then c else s.status) s.wbuf [] s.draws s) := by
  have hlen := readable_length_le_bitsAhead s
  rw [h, List.length_replicate] at hlen
  obtain ⟨f, e⟩ := zeroLoop_short (s := s) hl (bitsAhead s + 1) 0 z (by omega) (by omega) h
  have e2 := peekBit_end (s := afterReading (readable s).length (readable s).length s) (c := c)
    (readable_afterReading_all s) (by simpa using hc)
  rw [countZeros, e, zeroLoop, e2, afterRunningOut_afterReading, Nat.zero_add]
  rfl

/-- R139, R19: the host has not answered in a run of zeros. -/
theorem countZeros_wait {s : State} (hl : s.rlost = false) {z : Nat} (hz : z < 2 ^ 32) (h : readable s = List.replicate z false)
    (hc : streamEnd s.ports.inAnswers = none) :
    countZeros s = .waiting .inRead (afterReading (readable s).length (readable s).length s) := by
  have hlen := readable_length_le_bitsAhead s
  rw [h, List.length_replicate] at hlen
  obtain ⟨f, e⟩ := zeroLoop_short (s := s) hl (bitsAhead s + 1) 0 z (by omega) (by omega) h
  rw [countZeros, e, zeroLoop, peekBit_wait (readable_afterReading_all s) (by simpa using hc)]

/-- U10: 2^32 zeros in a row never end. -/
theorem zeroLoop_stuck {s : State} (hl : s.rlost = false) (fuel z0 z : Nat) (rest : List Bool) (hf : z < fuel) (hz : z0 + (z + 1) = 2 ^ 32)
    (h : readable s = List.replicate (z + 1) false ++ rest) : ∃ t, zeroLoop fuel z0 s = .waiting .never t := by
  induction z generalizing s fuel z0 with
  | zero =>
    obtain ⟨fuel, rfl⟩ : ∃ f, fuel = f + 1 := ⟨fuel - 1, by omega⟩
    have h0 : readable s = false :: rest := by rw [h]; rfl
    rw [zeroLoop, peekBit_eq hl h0]
    simp only
    rw [if_pos (show z0 + 1 = 2 ^ 32 by omega)]
    exact ⟨_, rfl⟩
  | succ z ih =>
    obtain ⟨fuel, rfl⟩ : ∃ f, fuel = f + 1 := ⟨fuel - 1, by omega⟩
    have h0 : readable s = false :: (List.replicate (z + 1) false ++ rest) := by
      rw [h, List.replicate_succ (n := z + 1)]; rfl
    have h1 : 1 ≤ (readable s).length := by rw [h0]; simp
    rw [zeroLoop, peekBit_eq hl h0]
    simp only
    rw [if_neg (show ¬ z0 + 1 = 2 ^ 32 by omega), dropBit_afterReading]
    exact ih (s := afterReading 1 1 s) hl fuel (z0 + 1) (by omega) (by omega)
      (by rw [readable_afterReading h1 (Nat.le_refl _), h0]; rfl)

theorem countZeros_stuck {s : State} (hl : s.rlost = false) (rest : List Bool) (h : readable s = List.replicate (2 ^ 32) false ++ rest) :
    ∃ t, countZeros s = .waiting .never t := by
  have hlen := readable_length_le_bitsAhead s
  have hll : (readable s).length = 2 ^ 32 + rest.length := by rw [h, List.length_append, List.length_replicate]
  generalize hN : (2 : Nat) ^ 32 = N at *
  obtain ⟨z, rfl⟩ : ∃ z, N = z + 1 := ⟨N - 1, by omega⟩
  exact zeroLoop_stuck hl _ 0 z rest (by omega) (by omega) h

/-- The answers a prefix of the data takes, and what is left of the data. -/
theorem dataAnswers_split (k : Nat) (as : List InAnswer) (h : as.take k <+: dataAnswers as) :
    dataAnswers as = as.take k ++ dataAnswers (as.drop k) := by
  induction k generalizing as with
  | zero => simp
  | succ k ih =>
    cases as with
    | nil => simp [dataAnswers]
    | cons a as =>
      by_cases hb : answerBits a = []
      · rw [dataAnswers_cons_end hb] at h; simp at h
      · rw [dataAnswers_cons_data hb] at h ⊢
        rw [List.take_succ_cons] at h
        rw [List.take_succ_cons, List.drop_succ_cons, List.cons_append, ← ih as ((List.prefix_cons_inj a).1 h)]

/-- What the answers left after some reading end in is what they ended in before. -/
theorem streamEnd_afterReading {s : State} {m : Nat} (n : Nat) (hm : m ≤ (readable s).length) :
    streamEnd (afterReading n m s).ports.inAnswers = streamEnd s.ports.inAnswers := by
  obtain ⟨-, h2⟩ := refillsFor_enough m s.rbuf.length s.ports.inAnswers (by simpa [readable] using hm)
  have hs := dataAnswers_split _ _ h2
  have hl : (s.ports.inAnswers.take (refillsFor m s.rbuf.length s.ports.inAnswers)).length =
      refillsFor m s.rbuf.length s.ports.inAnswers := by
    rw [List.length_take]; exact Nat.min_eq_left (refillsFor_le ..)
  simp only [afterReading, streamEnd]
  conv_rhs => rw [hs, List.length_append, hl, ← List.drop_drop]

/-- Running out after some reading is running out. -/
theorem afterRunningOut_afterReading_le {s : State} {m : Nat} (n : Nat) (hm : m ≤ (readable s).length) {c : Status}
    {w r : List Bool} {d : Nat} : afterRunningOut c w r d (afterReading n m s) = afterRunningOut c w r d s := by
  obtain ⟨-, h2⟩ := refillsFor_enough m s.rbuf.length s.ports.inAnswers (by simpa [readable] using hm)
  have hs := dataAnswers_split _ _ h2
  have hl : (s.ports.inAnswers.take (refillsFor m s.rbuf.length s.ports.inAnswers)).length =
      refillsFor m s.rbuf.length s.ports.inAnswers := by
    rw [List.length_take]; exact Nat.min_eq_left (refillsFor_le ..)
  have hlen := congrArg List.length hs
  rw [List.length_append, hl] at hlen
  simp only [afterReading, afterRunningOut, hlen]
  generalize refillsFor m s.rbuf.length s.ports.inAnswers = k
  simp only [List.drop_drop, List.append_assoc, ← List.take_add, Nat.add_assoc]

end Sys2Proof.Machine
end

