-- ==== Sys2Proof/Laws/Reader.lean ====
section
/-! SUPPORT. The bit reader and the coefficient decoder read backwards: where they complete, the stream starts with the
code of what they delivered (R132, R138 to R140, R172). -/

namespace Sys2Proof.Machine

variable {s t : State}

/-! ### Bits -/

theorem peekBit_done {b : Bool} (hl : s.rlost = false) (h : peekBit s = .done b t) : ∃ rest, readable s = b :: rest := by
  cases hr : readable s with
  | cons c rest =>
    rw [peekBit_eq hl hr] at h
    simp only [Run.done.injEq] at h
    exact ⟨rest, by rw [h.1]⟩
  | nil =>
    obtain ⟨h1, h2⟩ := readable_eq_nil hr
    unfold peekBit at h
    rw [h1] at h
    simp only [refill] at h
    cases ha : s.ports.inAnswers with
    | nil => rw [ha] at h; cases h
    | cons a rest =>
      rw [ha] at h h2
      cases a with
      | fail => cases h
      | ok bytes hb =>
        cases bytes with
        | nil => cases h
        | cons x xs => simp [dataAnswers] at h2

theorem nextBit_done {b : Bool} (hl : s.rlost = false) (h : nextBit s = .done b t) :
    ∃ rest, readable s = b :: rest := by
  obtain ⟨c, u, h1, h2⟩ := andThen_eq_done h
  simp only [Run.done.injEq] at h2
  exact peekBit_done hl (h2.1 ▸ h1)

theorem readBits_done {n v x : Nat} (hl : s.rlost = false) (h : readBits n v s = .done x t) :
    n ≤ (readable s).length := by
  by_contra hn
  obtain ⟨n', v', e⟩ := readBits_short hl n v (by omega)
  rw [e, readBits] at h
  obtain ⟨b, u, h1, -⟩ := andThen_eq_done h
  obtain ⟨rest, h2⟩ := nextBit_done (by simpa using hl) h1
  rw [readable_afterReading_all] at h2
  cases h2

theorem zeroLoop_done {fuel z0 z : Nat} (hl : s.rlost = false) (h : zeroLoop fuel z0 s = .done (z, true) t) :
    ∃ k rest, z = z0 + k ∧ readable s = List.replicate k false ++ true :: rest := by
  induction fuel generalizing z0 s with
  | zero => cases h
  | succ fuel ih =>
    rw [zeroLoop] at h
    cases hp : peekBit s with
    | done b u =>
      rw [hp] at h
      obtain ⟨rest, hr⟩ := peekBit_done hl hp
      cases b with
      | true =>
        simp only [Run.done.injEq, Prod.mk.injEq, and_true] at h
        exact ⟨0, rest, by omega, hr⟩
      | false =>
        simp only at h
        split at h
        · cases h
        · have hle : 1 ≤ (readable s).length := by rw [hr]; simp
          rw [peekBit_eq hl hr] at hp
          simp only [Run.done.injEq, true_and] at hp
          rw [← hp, dropBit_afterReading] at h
          obtain ⟨k, rest', e1, e2⟩ := ih (by exact hl) h
          rw [readable_afterReading hle (Nat.le_refl _), hr] at e2
          have e2 : rest = _ := e2
          exact ⟨k + 1, rest', by omega, by rw [hr, e2, List.replicate_succ]; rfl⟩
    | ended u => rw [hp] at h; cases h
    | waiting r u => rw [hp] at h; cases h
    | faulted f => rw [hp] at h; cases h

/-- A code of z zeros, the one-bit and z low bits. -/
theorem egBits_of_low (low : List Bool) : egBits (2 ^ low.length + bitsVal low - 1) =
    List.replicate low.length false ++ true :: low := by
  have hlt := bitsVal_lt low
  have hp : 0 < 2 ^ low.length := Nat.two_pow_pos _
  have hv : 2 ^ low.length + bitsVal low - 1 + 1 = 2 ^ low.length + bitsVal low := by omega
  have hlog : Nat.log2 (2 ^ low.length + bitsVal low) = low.length := by
    refine (Nat.log2_eq_iff (by omega)).2 ⟨by omega, ?_⟩
    rw [Nat.pow_succ]; omega
  have hmod : (2 ^ low.length + bitsVal low) % 2 ^ low.length = bitsVal low := by
    rw [Nat.add_mod_left, Nat.mod_eq_of_lt hlt]
  rw [egBits_eq, hv, hlog, ← natBits_mod, hmod, natBits_bitsVal]

/-- Where GETEG's sequence completes, it has read the code of its value (R140). -/
theorem readEg_done {v : Nat} (hl : s.rlost = false) (h : readEg s = .done v t) :
    v ≤ 2 ^ 32 - 2 ∧ ∃ rest, readable s = egBits v ++ rest := by
  obtain ⟨⟨z, b⟩, u, h1, h2⟩ := andThen_eq_done h
  cases b with
  | false => cases h2
  | true =>
    simp only [if_true] at h2
    split at h2
    · cases h2
    · rename_i hz
      obtain ⟨x, w, h3, h4⟩ := andThen_eq_done h2
      simp only [Run.done.injEq] at h4
      obtain ⟨k, rest, e, hr⟩ := zeroLoop_done hl h1
      obtain rfl : z = k := by omega
      rw [countZeros_eq hl z rest (by omega) hr] at h1
      simp only [Run.done.injEq, true_and] at h1
      have hle1 : z + 1 ≤ (readable s).length := by rw [hr]; simp
      have hu : readable u = true :: rest := by
        rw [← h1, readable_afterReading hle1 (by omega), hr]; simp
      have hlen := readBits_done (by rw [← h1]; exact hl) h3
      rw [hu, List.length_cons] at hlen
      have hsplit : rest = rest.take z ++ rest.drop z := (List.take_append_drop ..).symm
      have hlow : (rest.take z).length = z := by rw [List.length_take]; omega
      generalize rest.take z = low at *
      rw [hsplit] at hr
      have hv := readEg_eq hl z low (rest.drop z) (by omega) hlow hr
      rw [hv] at h
      simp only [Run.done.injEq] at h
      have hb := bitsVal_lt low
      rw [hlow] at hb
      have h32 : 2 ^ z ≤ 2 ^ 31 := Nat.pow_le_pow_right (by omega) (by omega)
      refine ⟨by rw [← h.1]; omega, rest.drop z, ?_⟩
      have he := egBits_of_low low
      rw [hlow] at he
      rw [← h.1, he, hr]
      simp

/-! ### The coefficient decoder -/

theorem scanCode_abs {l l' : List Int} (h : l.map Int.natAbs = l'.map Int.natAbs) (run : Nat) :
    scanCode run l = scanCode run l' := by
  induction l generalizing l' run with
  | nil =>
    cases l' with
    | nil => rfl
    | cons x l' => simp at h
  | cons x l ih =>
    cases l' with
    | nil => simp at h
    | cons y l' =>
      simp only [List.map_cons, List.cons.injEq] at h
      have hz : x = 0 ↔ y = 0 := by omega
      rw [scanCode, scanCode, h.1]
      simp only [hz, ih h.2]

theorem scanCode_replicate (n run : Nat) (l : List Int) :
    scanCode run (List.replicate n 0 ++ l) = scanCode (run + n) l := by
  induction n generalizing run with
  | zero => rfl
  | succ n ih =>
    rw [List.replicate_succ, List.cons_append, scanCode, if_pos rfl, ih]
    congr 1; omega

/-- The magnitudes the loop adds, highest index first, with their range; the stream starts with their code (R172). -/
theorem decodeMags_done {fuel pos : Nat} {mags r : List Nat} (hf : pos ≤ fuel)
    (h : decodeMags fuel pos mags s = .done r t) : ∃ l : List Nat, l.length = pos ∧ r = l.reverse ++ mags ∧
      (∀ x ∈ l, x ≤ 2 ^ 31 - 1) ∧
      (s.rlost = false → ∃ rest, readable s = scanCode 0 (l.map Int.ofNat) ++ rest) := by
  induction fuel generalizing pos mags s with
  | zero =>
    obtain rfl : pos = 0 := by omega
    simp only [decodeMags, Run.done.injEq] at h
    exact ⟨[], rfl, by simp [h.1], by simp, fun _ => ⟨readable s, rfl⟩⟩
  | succ fuel ih =>
    rw [decodeMags] at h
    split at h
    · rename_i h0
      subst h0
      simp only [Run.done.injEq] at h
      exact ⟨[], rfl, by simp [h.1], by simp, fun _ => ⟨readable s, rfl⟩⟩
    · obtain ⟨run, u, h1, k1⟩ := andThen_eq_done h
      split at k1
      · cases k1
      · split at k1
        · rename_i hlt heq
          simp only [Run.done.injEq] at k1
          refine ⟨List.replicate run 0, by simp [heq], by simp [← k1.1], ?_, fun hl => ?_⟩
          · intro x hx
            rw [(List.mem_replicate.1 hx).2]; omega
          · obtain ⟨-, rest, e⟩ := readEg_done hl h1
            refine ⟨rest, ?_⟩
            have := scanCode_replicate run 0 []
            rw [List.append_nil] at this
            rw [List.map_replicate]
            show readable s = scanCode 0 (List.replicate run 0) ++ rest
            rw [this, Nat.zero_add, scanCode, if_pos (by omega), e]
        · obtain ⟨m, w, h2, k2⟩ := andThen_eq_done k1
          split at k2
          · cases k2
          · rename_i hm
            obtain ⟨l, a1, a2, a3, a4⟩ := ih (by omega) k2
            refine ⟨List.replicate run 0 ++ (m + 1) :: l, ?_, ?_, ?_, fun hl => ?_⟩
            · simp only [List.length_append, List.length_replicate, List.length_cons]; omega
            · rw [a2]; simp
            · intro x hx
              rcases List.mem_append.1 hx with hx | hx
              · rw [(List.mem_replicate.1 hx).2]; omega
              · rcases List.mem_cons.1 hx with rfl | hx
                · omega
                · exact a3 x hx
            · obtain ⟨b1, rest1, e1⟩ := readEg_done hl h1
              rw [readEg_egBits hl run rest1 b1 e1] at h1
              simp only [Run.done.injEq, true_and] at h1
              obtain ⟨g1, -⟩ := read_stretch e1
              rw [egBits_length, h1] at g1
              have hlu : u.rlost = false := by rw [← h1]; exact hl
              obtain ⟨b2, rest2, e2⟩ := readEg_done hlu h2
              rw [readEg_egBits hlu m rest2 b2 e2] at h2
              simp only [Run.done.injEq, true_and] at h2
              obtain ⟨g2, -⟩ := read_stretch e2
              rw [egBits_length, h2] at g2
              obtain ⟨rest3, e3⟩ := a4 (by rw [← h2]; exact hlu)
              refine ⟨rest3, ?_⟩
              rw [List.map_append, List.map_replicate, List.map_cons]
              show readable s = scanCode 0 (List.replicate run 0 ++ Int.ofNat (m + 1) :: l.map Int.ofNat) ++ rest3
              rw [scanCode_replicate, Nat.zero_add, scanCode, if_neg (by simp; omega)]
              have habs : (Int.ofNat (m + 1)).natAbs - 1 = m := by
                show m + 1 - 1 = m
                omega
              rw [habs, e1, ← g1, e2, ← g2, e3]
              simp

theorem decodeSigns_done {mags : List Nat} {cs : List Int} (h : decodeSigns mags s = .done cs t) :
    cs.map Int.natAbs = mags ∧ (s.rlost = false → ∃ rest, readable s = signField cs ++ rest) := by
  induction mags generalizing s t cs with
  | nil =>
    simp only [decodeSigns, Run.done.injEq] at h
    rw [← h.1]
    exact ⟨rfl, fun _ => ⟨readable s, rfl⟩⟩
  | cons m mags ih =>
    rw [decodeSigns] at h
    split at h
    · rename_i hm
      obtain ⟨x, u, h1, h2⟩ := andThen_eq_done h
      simp only [Run.done.injEq] at h2
      obtain ⟨a1, a2⟩ := ih h1
      rw [← h2.1, hm]
      refine ⟨by rw [List.map_cons, a1]; rfl, fun hl => ?_⟩
      obtain ⟨rest, e⟩ := a2 hl
      exact ⟨rest, by rw [e]; simp [signField]⟩
    · rename_i hm
      obtain ⟨b, v, h0, h⟩ := andThen_eq_done h
      obtain ⟨x, u, h1, h2⟩ := andThen_eq_done h
      simp only [Run.done.injEq] at h2
      obtain ⟨a1, a2⟩ := ih h1
      rw [← h2.1]
      have hx : (if b = true then (m : Int) else -(m : Int)).natAbs = m := by cases b <;> simp
      refine ⟨by rw [List.map_cons, a1, hx], fun hl => ?_⟩
      obtain ⟨rest, e⟩ := nextBit_done hl h0
      rw [nextBit_eq hl e] at h0
      simp only [Run.done.injEq, true_and] at h0
      obtain ⟨rest', e'⟩ := a2 (by rw [← h0]; exact hl)
      have hle : 1 ≤ (readable s).length := by rw [e]; simp
      rw [← h0, readable_afterReading hle (Nat.le_refl _), e] at e'
      have e' : rest = _ := e'
      refine ⟨rest', ?_⟩
      have hs : signField ((if b = true then (m : Int) else -(m : Int)) :: x) = b :: signField x := by
        have hne : (if b = true then (m : Int) else -(m : Int)) ≠ 0 := by
          intro hc; rw [hc] at hx; exact hm hx.symm
        have hb : decide (0 < (if b = true then (m : Int) else -(m : Int))) = b := by
          cases b
          · simp
          · simp; omega
        rw [signField, List.filter_cons_of_pos (by simpa using hne), List.map_cons, hb, signField]
      rw [hs, e, e']
      rfl

/-- Where the decoder of a vector completes: what it delivers, and that the stream starts with its code (R172). -/
theorem readVector_done {cnt : Nat} {c : List Int} (hcnt : cnt ≤ 2 ^ 32 - 2) (h : readVector cnt s = .done c t) :
    c.length = cnt ∧ (∀ x ∈ c, x.natAbs ≤ 2 ^ 31 - 1) ∧
      (s.rlost = false → ∃ rest, readable s = coefficientBits c ++ rest) := by
  obtain ⟨mags, u, h1, h2⟩ := andThen_eq_done h
  obtain ⟨l, a1, a2, a3, a4⟩ := decodeMags_done (Nat.le_refl _) h1
  obtain ⟨b1, b2⟩ := decodeSigns_done h2
  rw [List.append_nil] at a2
  refine ⟨readVector_length h, fun x hx => ?_, fun hl => ?_⟩
  · have : x.natAbs ∈ mags := by rw [← b1]; exact List.mem_map_of_mem hx
    rw [a2, List.mem_reverse] at this
    exact a3 _ this
  · obtain ⟨rest, e⟩ := a4 hl
    have hc : scanCode 0 (l.map Int.ofNat) = scanCode 0 c.reverse := by
      refine scanCode_abs ?_ 0
      rw [List.map_map, List.map_reverse, b1, a2, List.reverse_reverse]
      conv_rhs => rw [← List.map_id l]
      rfl
    rw [hc] at e
    obtain ⟨g1, -⟩ := read_stretch e
    have hm := decodeMags_scanCode hl cnt 0 c.reverse [] rest (by simpa using (readVector_length h).le)
      (by simpa [readVector_length h] using hcnt) (by
        intro x hx
        have : x.natAbs ∈ mags := by rw [← b1]; exact List.mem_map_of_mem (List.mem_reverse.1 hx)
        rw [a2, List.mem_reverse] at this
        exact a3 _ this) e
    rw [List.length_reverse, Nat.zero_add, readVector_length h, h1] at hm
    simp only [Run.done.injEq] at hm
    obtain ⟨rest', e'⟩ := b2 (by rw [hm.2]; exact hl)
    refine ⟨rest', ?_⟩
    rw [← vectorCode_eq, vectorCode, e, ← g1, ← hm.2, e']
    simp

end Sys2Proof.Machine
end

