-- ==== Sys2Proof/Laws/Tiles.lean ====
section
/-! SUPPORT. The macroblocks of a frame: which they are, that they lie inside it, and which of them holds a sample
(R261, R262). -/

namespace Sys2Proof.Machine

/-- The tail's macroblock size (R261). -/
def tailSize (fh : Nat) : Nat := if fh - 16 * (fh / 16) = 8 then 8 else 4

theorem mem_tiles {fw fh : Nat} {mb : Mb} : mb ∈ tiles fw fh ↔
    (∃ my mx, my < fh / 16 ∧ mx < fw / 16 ∧ mb = ⟨16 * mx, 16 * my, 16⟩) ∨
    (∃ ty tx, ty < (fh - 16 * (fh / 16)) / tailSize fh ∧ tx < fw / tailSize fh ∧
      mb = ⟨tailSize fh * tx, 16 * (fh / 16) + tailSize fh * ty, tailSize fh⟩) := by
  simp only [tiles, tailSize, List.mem_append, List.mem_flatMap, List.mem_range, List.mem_map]
  constructor
  · rintro (⟨a, ha, b, hb, rfl⟩ | ⟨a, ha, b, hb, rfl⟩)
    · exact .inl ⟨a, b, ha, hb, rfl⟩
    · exact .inr ⟨a, b, ha, hb, rfl⟩
  · rintro (⟨a, b, ha, hb, rfl⟩ | ⟨a, b, ha, hb, rfl⟩)
    · exact .inl ⟨a, ha, b, hb, rfl⟩
    · exact .inr ⟨a, ha, b, hb, rfl⟩

theorem tailSize_cases {fh : Nat} (h : fh % 4 = 0) :
    (tailSize fh = 8 ∧ fh - 16 * (fh / 16) = 8) ∨
    (tailSize fh = 4 ∧ (fh - 16 * (fh / 16) = 0 ∨ fh - 16 * (fh / 16) = 4 ∨ fh - 16 * (fh / 16) = 12)) := by
  unfold tailSize
  split
  · exact .inl ⟨rfl, by assumption⟩
  · exact .inr ⟨rfl, by omega⟩

/-- Every macroblock is aligned to its size and lies inside the frame. -/
theorem tiles_inside {fw fh : Nat} (hw : fw % 16 = 0) (hh : fh % 4 = 0) {mb : Mb} (h : mb ∈ tiles fw fh) :
    (mb.size = 4 ∨ mb.size = 8 ∨ mb.size = 16) ∧ mb.x % mb.size = 0 ∧ mb.y % mb.size = 0 ∧
      mb.x + mb.size ≤ fw ∧ mb.y + mb.size ≤ fh := by
  rcases mem_tiles.1 h with ⟨a, b, ha, hb, rfl⟩ | ⟨a, b, ha, hb, rfl⟩
  · refine ⟨.inr (.inr rfl), ?_, ?_, ?_, ?_⟩ <;> simp only <;> omega
  · rcases tailSize_cases hh with ⟨e, hr⟩ | ⟨e, hr⟩
    · rw [e] at ha hb ⊢
      refine ⟨.inr (.inl rfl), ?_, ?_, ?_, ?_⟩ <;> simp only <;> omega
    · rw [e] at ha hb ⊢
      refine ⟨.inl rfl, ?_, ?_, ?_, ?_⟩ <;> simp only <;> omega

/-- Some macroblock holds each sample. -/
theorem tiles_cover {fw fh x y : Nat} (hw : fw % 16 = 0) (hh : fh % 4 = 0) (hx : x < fw) (hy : y < fh) :
    ∃ mb ∈ tiles fw fh, mb.holds x y := by
  by_cases hf : y < 16 * (fh / 16)
  · refine ⟨⟨16 * (x / 16), 16 * (y / 16), 16⟩, mem_tiles.2 (.inl ⟨y / 16, x / 16, by omega, by omega, rfl⟩), ?_⟩
    simp only [Mb.holds]; omega
  · rcases tailSize_cases hh with ⟨e, hr⟩ | ⟨e, hr⟩
    · refine ⟨⟨8 * (x / 8), 16 * (fh / 16) + 8 * ((y - 16 * (fh / 16)) / 8), 8⟩, mem_tiles.2 (.inr
        ⟨(y - 16 * (fh / 16)) / 8, x / 8, by rw [e]; omega, by rw [e]; omega, by rw [e]⟩), ?_⟩
      simp only [Mb.holds]; omega
    · refine ⟨⟨4 * (x / 4), 16 * (fh / 16) + 4 * ((y - 16 * (fh / 16)) / 4), 4⟩, mem_tiles.2 (.inr
        ⟨(y - 16 * (fh / 16)) / 4, x / 4, by rw [e]; omega, by rw [e]; omega, by rw [e]⟩), ?_⟩
      simp only [Mb.holds]; omega

/-- No two macroblocks hold the same sample. -/
theorem tiles_disjoint {fw fh x y : Nat} (hh : fh % 4 = 0) {mb mb' : Mb} (h : mb ∈ tiles fw fh)
    (h' : mb' ∈ tiles fw fh) (hs : mb.holds x y) (hs' : mb'.holds x y) : mb = mb' := by
  have ht : tailSize fh = 8 ∨ tailSize fh = 4 := by
    rcases tailSize_cases hh with ⟨e, _⟩ | ⟨e, _⟩
    · exact .inl e
    · exact .inr e
  rcases mem_tiles.1 h with ⟨a, b, ha, hb, rfl⟩ | ⟨a, b, ha, hb, rfl⟩ <;>
    rcases mem_tiles.1 h' with ⟨c, d, hc, hd, rfl⟩ | ⟨c, d, hc, hd, rfl⟩ <;>
    simp only [Mb.holds] at hs hs' <;> rcases ht with e | e <;> simp only [e] at * <;>
    first
      | (exfalso; omega)
      | (have h1 : a = c := by omega
         have h2 : b = d := by omega
         rw [h1, h2])

/-- mb comes before mb' in raster order of their corners. -/
def Mb.before (mb mb' : Mb) : Prop := mb.y < mb'.y ∨ mb.y = mb'.y ∧ mb.x < mb'.x

/-- Coding order is raster order of the corners. -/
theorem tiles_sorted (fw fh : Nat) : (tiles fw fh).Pairwise Mb.before := by
  have ht : 0 < tailSize fh := by unfold tailSize; split <;> omega
  have hrow : ∀ (n m k : Nat) (f : Nat → Nat) (sz : Nat), 0 < k → (∀ a b, a < b → f a < f b) →
      ((List.range n).flatMap fun r => (List.range m).map fun c => (⟨k * c, f r, sz⟩ : Mb)).Pairwise Mb.before := by
    intro n m k f sz hk hf
    rw [List.pairwise_flatMap]
    refine ⟨fun r _ => ?_, ?_⟩
    · rw [List.pairwise_map]
      exact List.pairwise_lt_range.imp fun h => .inr ⟨rfl, Nat.mul_lt_mul_of_pos_left h hk⟩
    · refine List.pairwise_lt_range.imp ?_
      intro a b hab x hx x' hx'
      simp only [List.mem_map] at hx hx'
      obtain ⟨c, _, rfl⟩ := hx
      obtain ⟨d, _, rfl⟩ := hx'
      exact .inl (hf a b hab)
  unfold tiles
  rw [List.pairwise_append]
  refine ⟨hrow _ _ 16 (fun r => 16 * r) 16 (by omega) (by intro a b h; omega), ?_, ?_⟩
  · exact hrow _ _ (tailSize fh) (fun r => 16 * (fh / 16) + tailSize fh * r) (tailSize fh) ht fun a b h =>
      Nat.add_lt_add_left (Nat.mul_lt_mul_of_pos_left h ht) _
  · intro mb h1 mb' h2
    simp only [List.mem_flatMap, List.mem_range, List.mem_map] at h1 h2
    obtain ⟨a, ha, b, hb, rfl⟩ := h1
    obtain ⟨c, hc, d, hd, rfl⟩ := h2
    exact .inl (by simp only; omega)

theorem tiles_nodup (fw fh : Nat) : (tiles fw fh).Nodup :=
  (tiles_sorted fw fh).imp fun h e => by subst e; rcases h with h | ⟨_, h⟩ <;> omega

/-- A macroblock that holds a sample left of another, in its rows, starts in the same row. -/
theorem tiles_same_row {fw fh x y : Nat} (hh : fh % 4 = 0) {mb mb' : Mb} (h : mb ∈ tiles fw fh)
    (h' : mb' ∈ tiles fw fh) (hy : mb.y ≤ y ∧ y < mb.y + mb.size) (hs' : mb'.holds x y) : mb'.y = mb.y := by
  have ht : tailSize fh = 8 ∨ tailSize fh = 4 := by
    rcases tailSize_cases hh with ⟨e, _⟩ | ⟨e, _⟩
    · exact .inl e
    · exact .inr e
  rcases mem_tiles.1 h with ⟨a, b, ha, hb, rfl⟩ | ⟨a, b, ha, hb, rfl⟩ <;>
    rcases mem_tiles.1 h' with ⟨c, d, hc, hd, rfl⟩ | ⟨c, d, hc, hd, rfl⟩ <;>
    simp only [Mb.holds] at hy hs' ⊢ <;> rcases ht with e | e <;> simp only [e] at * <;> omega

/-- R262: the macroblock that holds a neighbour sample comes earlier in coding order. -/
theorem tiles_earlier {fw fh k : Nat} {mb : Mb} (hw : fw % 16 = 0) (hh : fh % 4 = 0)
    (hk : (tiles fw fh)[k]? = some mb) {x y : Nat}
    (hn : y + 1 = mb.y ∧ mb.x ≤ x + 1 ∧ x < mb.x + mb.size ∨ x + 1 = mb.x ∧ mb.y ≤ y ∧ y < mb.y + mb.size) :
    ∃ k' mb', k' < k ∧ (tiles fw fh)[k']? = some mb' ∧ mb'.holds x y := by
  have hmem : mb ∈ tiles fw fh := List.mem_of_getElem? hk
  obtain ⟨hs, _, _, hx, hy⟩ := tiles_inside hw hh hmem
  obtain ⟨mb', hm', hholds⟩ := tiles_cover (x := x) (y := y) hw hh (by omega) (by omega)
  obtain ⟨k', hlt', hk'⟩ := List.mem_iff_getElem.1 hm'
  obtain ⟨hlt, hk0⟩ := List.getElem?_eq_some_iff.1 hk
  refine ⟨k', mb', ?_, by rw [List.getElem?_eq_getElem hlt', hk'], hholds⟩
  by_contra hge
  have hbefore : mb = mb' ∨ mb.before mb' := by
    rcases Nat.lt_or_eq_of_le (Nat.le_of_not_lt hge) with h | h
    · right
      have := List.pairwise_iff_getElem.1 (tiles_sorted fw fh) k k' hlt hlt' h
      rwa [hk0, hk'] at this
    · left; subst h; rw [← hk0, hk']
  have hd : mb'.y ≤ mb.y ∧ (mb'.y = mb.y → mb'.x < mb.x) := by
    unfold Mb.holds at hholds
    rcases hn with hn | hn
    · exact ⟨by omega, fun e => by omega⟩
    · exact ⟨Nat.le_of_eq (tiles_same_row hh hmem hm' hn.2 hholds), fun e => by omega⟩
  rcases hbefore with rfl | h | ⟨h1, h2⟩
  · exact absurd (hd.2 rfl) (Nat.lt_irrefl _)
  · omega
  · have := hd.2 h1.symm; omega

end Sys2Proof.Machine
end

