-- ==== Sys2Proof/Laws/Frame.lean ====
section
/-! SUPPORT. DecMB, and the macroblocks of a frame one after another (45_pipeline.md): what the encoder writes the
decoder reads back to the same samples (R270, R271, R274, R275), and what a frame leaves in REF, whole or aborted
(R268, R272, R273). -/

namespace Sys2Proof.Machine

variable {s t r : State} {mb : Mb} {m : Mode} {z : MbCodes}

/-! ### DecMB (R270) -/

theorem readVector_codes {c : List Int} {rest : List Bool} (hl : s.rlost = false) (hlen : c.length ≤ 16)
    (hc : ∀ x ∈ c, x.natAbs ≤ 2 ^ 31 - 1) (h : readable s = coefficientBits c ++ rest) :
    readVector c.length s = .done c (afterReading (coefficientBits c).length (coefficientBits c).length s) := by
  rw [← vectorCode_eq] at h ⊢
  exact readVector_vectorCode hl c rest (by omega) hc h

theorem decodeSubs_eq {vs : List (List Int)} {rest : List Bool} (hl : s.rlost = false) (h15 : ∀ v ∈ vs, v.length = 15)
    (hr : ∀ v ∈ vs, ∀ x ∈ v, x.natAbs ≤ 2 ^ 31 - 1) (h : readable s = vs.flatMap coefficientBits ++ rest) :
    decodeSubs vs.length s = .done (vs.map acBlock)
      (afterReading (vs.flatMap coefficientBits).length (vs.flatMap coefficientBits).length s) := by
  induction vs generalizing s with
  | nil => simp [decodeSubs, afterReading_zero]
  | cons x more ih =>
    rw [List.flatMap_cons, List.append_assoc] at h
    obtain ⟨h1, h2⟩ := read_stretch h
    have hx := h15 x (List.mem_cons_self ..)
    have hv := readVector_codes hl (by omega) (hr x (List.mem_cons_self ..)) h
    rw [hx] at hv
    have hrest := ih (s := afterReading (coefficientBits x).length (coefficientBits x).length s) hl
      (fun y hy => h15 y (List.mem_cons_of_mem _ hy)) (fun y hy => hr y (List.mem_cons_of_mem _ hy)) h1
    rw [h2] at hrest
    rw [List.length_cons, decodeSubs, hv, andThen_done, hrest, andThen_done, List.flatMap_cons, List.length_append,
      List.map_cons]

/-- Where the AC vectors are decoded: what they are, and that the stream starts with their codes. -/
theorem decodeSubs_done {k : Nat} {bs : List Block} (h : decodeSubs k s = .done bs t) : ∃ vs : List (List Int),
    vs.length = k ∧ bs = vs.map acBlock ∧ (∀ v ∈ vs, v.length = 15) ∧ (∀ v ∈ vs, ∀ x ∈ v, x.natAbs ≤ 2 ^ 31 - 1) ∧
      (s.rlost = false → ∃ rest, readable s = vs.flatMap coefficientBits ++ rest) := by
  induction k generalizing s t bs with
  | zero =>
    simp only [decodeSubs, Run.done.injEq] at h
    exact ⟨[], rfl, h.1.symm, by simp, by simp, fun _ => ⟨readable s, rfl⟩⟩
  | succ k ih =>
    rw [decodeSubs] at h
    obtain ⟨c, u, h1, k1⟩ := andThen_eq_done h
    obtain ⟨more, w, h2, k2⟩ := andThen_eq_done k1
    simp only [Run.done.injEq] at k2
    obtain ⟨a1, a2, a3⟩ := readVector_done (by decide) h1
    obtain ⟨vs, b1, b2, b3, b4, b5⟩ := ih h2
    refine ⟨c :: vs, by rw [List.length_cons, b1], by rw [← k2.1, b2]; rfl, ?_, ?_, fun hl => ?_⟩
    · intro v hv
      rcases List.mem_cons.1 hv with rfl | hv
      · exact a1
      · exact b3 v hv
    · intro v hv
      rcases List.mem_cons.1 hv with rfl | hv
      · exact a2
      · exact b4 v hv
    · obtain ⟨rest, e⟩ := a3 hl
      have hv := readVector_codes hl (by omega) a2 e
      rw [a1, h1] at hv
      simp only [Run.done.injEq, true_and] at hv
      obtain ⟨g1, -⟩ := read_stretch e
      obtain ⟨rest', e'⟩ := b5 (by rw [hv]; exact hl)
      rw [hv, g1] at e'
      exact ⟨rest', by rw [e, e', List.flatMap_cons, List.append_assoc]⟩

theorem acBlock_codes {vs : List (List Int)} (h15 : ∀ v ∈ vs, v.length = 15)
    (hr : ∀ v ∈ vs, ∀ x ∈ v, x.natAbs ≤ 2 ^ 31 - 1) {k : Nat} (hk : k < vs.length) {q : Nat} (h1 : 1 ≤ q) (h2 : q < 16) :
    entryInt ((vs.map acBlock).getD k (blockOf fun _ => 0)) q = (vs.getD k []).getD (q - 1) 0 := by
  have h3 : (vs.map acBlock).getD k (blockOf fun _ => 0) = acBlock vs[k] := by simp [hk]
  rw [h3, List.getD_eq_getElem _ _ hk, acBlock, entryInt, entry_blockOf _ h2, if_neg (by omega)]
  have hm : (vs[k]).getD (q - 1) 0 ∈ vs[k] := by
    rw [List.getD_eq_getElem _ _ (by have := h15 _ (List.getElem_mem hk); omega)]
    exact List.getElem_mem _
  have := hr _ (List.getElem_mem hk) _ hm
  exact toInt_wrap32 (by omega) (by omega)

theorem intsBlock_codes {dc : List Int} (hr : ∀ x ∈ dc, x.natAbs ≤ 2 ^ 31 - 1) (hn : dc.length ≤ 16) {q : Nat}
    (hq : q < dc.length) : entryInt (intsBlock dc) q = dc.getD q 0 := by
  have hm : dc.getD q 0 ∈ dc := by
    rw [List.getD_eq_getElem _ _ hq]
    exact List.getElem_mem _
  have := hr _ hm
  exact entryInt_blockOf (by omega) (by omega) (by omega)

/-- The inverse path inside DecMB, on decoded codes. -/
theorem reconstruct_decoded (hf : MbFits mb s) (hz : z.Legal mb) (hn : NeighboursWritten z.mode mb s)
    (hfw : t.fw = s.fw) (href : t.ref = s.ref) (hcfg : t.cfg = s.cfg) :
    ∃ ref, reconstruct z.mode mb (z.ac.map acBlock) (intsBlock z.dc) t = .done () { t with ref := ref } ∧
      ∀ t' : State, t'.ref = ref → RefWrites mb (decodedSample z mb s) s t' :=
  reconstruct_codes (s := s) hf.side hf.inside hf.subs hz.dcLength hn hfw href hcfg
    (fun k hk q h1 h2 => acBlock_codes hz.acLength hz.acRange (by rw [hz.subs]; exact hk) h1 h2)
    (fun q hq => intsBlock_codes hz.dcRange (by have := hf.subs; rw [hz.dcLength]; omega)
      (by rw [hz.dcLength]; exact hq))

/-- DecMB on the bits of codes that it accepts. -/
theorem decodeMb_eq {rest : List Bool} (hl : s.rlost = false) (hf : MbFits mb s) (hz : z.Legal mb)
    (hn : NeighboursWritten z.mode mb s) (h : readable s = z.bits ++ rest) :
    ∃ ref, decodeMb mb s = .done z.mode { afterReading z.bits.length z.bits.length s with ref := ref } ∧
      ∀ t' : State, t'.ref = ref → RefWrites mb (decodedSample z mb s) s t' := by
  have hd16 : z.dc.length ≤ 16 := by have := hf.subs; rw [hz.dcLength]; omega
  rw [MbCodes.bits, List.append_assoc, List.append_assoc] at h
  obtain ⟨h1, h1'⟩ := read_stretch h
  obtain ⟨h2, h2'⟩ := read_stretch h1
  have hb := readBits_eq (s := s) hl 2 (by rw [h]; simp)
  have hcode : bitsVal ((readable s).take 2) = z.mode.toCode := by
    rw [h, List.take_left' (by simp), bitsVal_natBits, Nat.mod_eq_of_lt (by have := toCode_lt z.mode; omega)]
  rw [hcode] at hb
  have hs := decodeSubs_eq (s := afterReading (natBits 2 z.mode.toCode).length (natBits 2 z.mode.toCode).length s) hl
    hz.acLength hz.acRange h1
  have hv := readVector_codes (by exact hl) hd16 hz.dcRange h2
  rw [natBits_length] at hs hv h1' h2'
  rw [hz.dcLength] at hv
  rw [hz.subs] at hs
  obtain ⟨ref, hrec, href⟩ := reconstruct_decoded (t := afterReading (coefficientBits z.dc).length
    (coefficientBits z.dc).length (afterReading (z.ac.flatMap coefficientBits).length
      (z.ac.flatMap coefficientBits).length (afterReading 2 2 s))) hf hz hn rfl rfl rfl
  refine ⟨ref, ?_, href⟩
  rw [decodeMb, hb, andThen_done]
  simp only [legalMode_toCode hz.mode]
  rw [hs, andThen_done, hv, andThen_done, hrec, andThen_done, h2', h1', MbCodes.bits, List.length_append,
    List.length_append, natBits_length, Nat.add_assoc]

theorem legalMode_some {c x y : Nat} (h : legalMode c x y = some m) : c = m.toCode ∧ modeAllowed m x y := by
  rw [legalMode] at h
  cases hm : modeOf c with
  | none => rw [hm] at h; cases h
  | some m' =>
    rw [hm] at h
    simp only at h
    split at h
    · rename_i hc
      cases h
      exact ⟨modeOf_eq hm, (computable_iff _ _ _).1 hc⟩
    · cases h

/-- DecMB that completes: the codes it read and the samples it wrote. -/
theorem decodeMb_done (hf : MbFits mb s) (h : decodeMb mb s = .done m t) : ∃ z : MbCodes, z.mode = m ∧ z.Legal mb ∧
    NeighboursWritten z.mode mb s ∧ RefWrites mb (decodedSample z mb s) s t ∧
    (s.rlost = false → ∃ rest, readable s = z.bits ++ rest) := by
  have hd : ∀ {α : Type} {x : Run α} {a : α} {v u : State}, x.May false true nowhere v → x = .done a u →
      u.fw = v.fw ∧ u.ref = v.ref ∧ u.cfg = v.cfg := by
    intro α x a v u hx e
    rw [e] at hx
    have hx : Done false true nowhere v u := hx
    exact ⟨hx.fw_eq, hx.refSame (fun _ h => h), hx.cfg_eq⟩
  rw [decodeMb] at h
  obtain ⟨code, s1, h1, k1⟩ := andThen_eq_done h
  obtain ⟨f1, r1, c1⟩ := hd (readBits_may _ _ s) h1
  split at k1
  · cases k1
  · rename_i m' hm
    obtain ⟨hcode, ha⟩ := legalMode_some hm
    obtain ⟨bs, s2, h2, k2⟩ := andThen_eq_done k1
    obtain ⟨f2, r2, c2⟩ := hd (decodeSubs_may _ s1) h2
    obtain ⟨dc, s3, h3, k3⟩ := andThen_eq_done k2
    obtain ⟨f3, r3, c3⟩ := hd (readVector_may _ s2) h3
    obtain ⟨_, s4, h4, k4⟩ := andThen_eq_done k3
    simp only [Run.done.injEq] at k4
    obtain ⟨rfl, rfl⟩ := k4
    obtain ⟨vs, b1, rfl, b3, b4, b5⟩ := decodeSubs_done h2
    have hsub16 : mb.subs ≤ 16 := by have := hf.subs; omega
    obtain ⟨d1, d2, d3⟩ := readVector_done (by omega) h3
    have hz : (⟨m', vs, dc⟩ : MbCodes).Legal mb := ⟨ha, b1, b3, d1, b4, d2⟩
    have hn : NeighboursWritten m' mb s := by
      by_contra hc
      rw [reconstruct, predictor_congr (s := s) (by rw [f3, f2, f1]) (by rw [r3, r2, r1]), predictor_unwritten hc] at h4
      cases h4
    obtain ⟨ref, hrec, href⟩ := reconstruct_decoded hf hz hn (t := s3) (by rw [f3, f2, f1]) (by rw [r3, r2, r1])
      (by rw [c3, c2, c1])
    have hrec : reconstruct m' mb (vs.map acBlock) (intsBlock dc) s3 = _ := hrec
    rw [hrec] at h4
    cases h4
    refine ⟨_, rfl, hz, hn, href _ rfl, fun hl => ?_⟩
    have hlen := readBits_done hl h1
    rw [readBits_eq hl 2 hlen] at h1
    simp only [Run.done.injEq] at h1
    obtain ⟨x1, x2⟩ := h1
    have hbits : natBits 2 m'.toCode = (readable s).take 2 := by
      rw [← hcode, ← x1]
      have := natBits_bitsVal ((readable s).take 2)
      rwa [show ((readable s).take 2).length = 2 by rw [List.length_take]; omega] at this
    have hs0 : readable s = natBits 2 m'.toCode ++ (readable s).drop 2 := by rw [hbits, List.take_append_drop]
    obtain ⟨g1, -⟩ := read_stretch hs0
    rw [natBits_length, x2] at g1
    have hl1 : s1.rlost = false := by rw [← x2]; exact hl
    obtain ⟨rest1, e1⟩ := b5 hl1
    have hsub := decodeSubs_eq hl1 b3 b4 e1
    rw [b1, h2] at hsub
    simp only [Run.done.injEq, true_and] at hsub
    obtain ⟨g2, -⟩ := read_stretch e1
    rw [← hsub] at g2
    obtain ⟨rest2, e2⟩ := d3 (by rw [hsub]; exact hl1)
    refine ⟨rest2, ?_⟩
    rw [hs0, ← g1, e1, ← g2, e2, MbCodes.bits]
    simp

/-! ### States that agree on what a macroblock reads -/

/-- r's REF holds what s's holds at every sample next to the macroblock (R211). -/
def NeighboursAgree (mb : Mb) (s r : State) : Prop :=
  ∀ x y, (y + 1 = mb.y ∧ mb.x ≤ x + 1 ∧ x < mb.x + mb.size ∨ x + 1 = mb.x ∧ mb.y ≤ y ∧ y < mb.y + mb.size) →
    memRead r.ref (sampleIndex r x y) = memRead s.ref (sampleIndex s x y)

theorem NeighboursAgree.written (h : NeighboursAgree mb s r) (ha : modeAllowed m mb.x mb.y) :
    NeighboursWritten m mb r ↔ NeighboursWritten m mb s := by
  have top : ∀ j, j < mb.size → 0 < mb.y → memRead r.ref (sampleIndex r (mb.x + j) (mb.y - 1)) =
      memRead s.ref (sampleIndex s (mb.x + j) (mb.y - 1)) := fun j hj hy => h _ _ (by omega)
  have left : ∀ j, j < mb.size → 0 < mb.x → memRead r.ref (sampleIndex r (mb.x - 1) (mb.y + j)) =
      memRead s.ref (sampleIndex s (mb.x - 1) (mb.y + j)) := fun j hj hx => h _ _ (by omega)
  have corner : ∀ i, i ≤ mb.size → 0 < mb.x → 0 < mb.y → memRead r.ref (sampleIndex r (mb.x - 1 + i) (mb.y - 1)) =
      memRead s.ref (sampleIndex s (mb.x - 1 + i) (mb.y - 1)) := fun i hi hx hy => h _ _ (by omega)
  cases m with
  | none => exact Iff.rfl
  | dc =>
    refine and_congr (forall_congr' fun i => imp_congr_right fun hi => ?_)
      (forall_congr' fun i => imp_congr_right fun hi => ?_)
    · rw [corner i hi ha.1 ha.2]
    · rw [left i hi ha.1]
  | horizontal => exact forall_congr' fun i => imp_congr_right fun hi => by rw [left i hi ha]
  | vertical => exact forall_congr' fun i => imp_congr_right fun hi => by rw [top i hi ha]

theorem NeighboursAgree.predicted (h : NeighboursAgree mb s r) (ha : modeAllowed m mb.x mb.y) {i j : Nat}
    (hi : i < mb.size) (hj : j < mb.size) : predicted m mb r i j = predicted m mb s i j := by
  have href : ∀ x y, (y + 1 = mb.y ∧ mb.x ≤ x + 1 ∧ x < mb.x + mb.size ∨ x + 1 = mb.x ∧ mb.y ≤ y ∧ y < mb.y + mb.size) →
      refAt r x y = refAt s x y := fun x y hc => by rw [refAt, refAt, h x y hc]
  cases m with
  | none => rfl
  | dc =>
    simp only [Machine.predicted]
    have hx : 0 < mb.x := ha.1
    have hy : 0 < mb.y := ha.2
    rw [List.map_congr_left (g := fun k => refAt s (mb.x - 1 + k) (mb.y - 1)) fun k hk => href _ _ (by
        have := List.mem_range.1 hk; omega),
      List.map_congr_left (g := fun k => refAt s (mb.x - 1) (mb.y + k)) fun k hk => href _ _ (by
        have := List.mem_range.1 hk; omega)]
  | horizontal =>
    have hx : 0 < mb.x := ha
    exact href _ _ (by omega)
  | vertical =>
    have hy : 0 < mb.y := ha
    exact href _ _ (by omega)

/-- The codes and samples of a macroblock depend on the kernel and the quantizer table only. -/
theorem codesOf_congr {c c' : Config.Params} (hk : c'.kernel = c.kernel) (hq : c'.qtab = c.qtab) (m : Mode)
    (rs : List Block) : codesOf c' m rs = codesOf c m rs := by
  have hqt : ∀ p, qtab c' p = qtab c p := fun p => by simp [qtab, hq]
  have ha : acCodes c' = acCodes c := funext fun x => by simp [acCodes, hk, hqt]
  have hd : dcCodes c' rs = dcCodes c rs := by simp [dcCodes, hk, hqt]
  simp [codesOf, ha, hd]

theorem recoveredResidual_congr {c c' : Config.Params} (hk : c'.kernel = c.kernel) (hq : c'.qtab = c.qtab)
    (z : MbCodes) (k : Nat) : recoveredResidual c' z k = recoveredResidual c z k := by
  have hqt : ∀ p, qtab c' p = qtab c p := fun p => by simp [qtab, hq]
  have hr : ∀ zd, recoveredDc c' zd = recoveredDc c zd := fun zd => by simp [recoveredDc, hqt]
  simp [recoveredResidual, hr, hk, hqt]

theorem decodedSample_agree (h : NeighboursAgree mb s r) (ha : modeAllowed z.mode mb.x mb.y)
    (hk : r.cfg.kernel = s.cfg.kernel) (hq : r.cfg.qtab = s.cfg.qtab) {i j : Nat} (hi : i < mb.size) (hj : j < mb.size) :
    decodedSample z mb r i j = decodedSample z mb s i j := by
  rw [decodedSample, decodedSample, h.predicted ha hi hj, recoveredResidual_congr hk hq]

/-! ### A frame (R267, R268) -/

/-- The macroblocks done so far: r's REF holds what s's holds at all their samples. -/
def DoneAgree (pre : List Mb) (s r : State) : Prop := ∀ mb ∈ pre, ∀ a, mb.covers s a → memRead r.ref a = memRead s.ref a

/-- The neighbours of the next macroblock belong to macroblocks done (R262). -/
theorem DoneAgree.neighbours {pre more : List Mb} {fw fh : Nat} (hw : fw % 16 = 0) (hh : fh % 4 = 0)
    (hpre : pre ++ mb :: more = tiles fw fh) (hfw : r.fw = s.fw) (h : DoneAgree pre s r) : NeighboursAgree mb s r := by
  intro x y hc
  have hk : (tiles fw fh)[pre.length]? = some mb := by rw [← hpre]; simp
  obtain ⟨k', mb', hlt, hk', hholds⟩ := tiles_earlier hw hh hk hc
  rw [← hpre, List.getElem?_append_left hlt] at hk'
  rw [sampleIndex_congr hfw]
  refine h mb' (List.mem_of_getElem? hk') _ ⟨y - mb'.y, x - mb'.x, ?_, ?_, ?_⟩
  · have := hholds.2.2; omega
  · have := hholds.1; have := hholds.2.1; omega
  · have h1 := hholds.1
    have h2 := hholds.2.2.1
    rw [show mb'.x + (x - mb'.x) = x by omega, show mb'.y + (y - mb'.y) = y by omega]

/-- After the same writes to the next macroblock the states agree one macroblock further. -/
theorem DoneAgree.next {pre : List Mb} {f g : Nat → Nat → Byte} {s' r' : State} (h : DoneAgree pre s r)
    (hfw : r.fw = s.fw) (hfw' : s'.fw = s.fw)
    (hs : RefWrites mb f s s') (hr : RefWrites mb g r r') (hfg : ∀ i j, i < mb.size → j < mb.size → g i j = f i j) :
    DoneAgree (pre ++ [mb]) s' r' := by
  intro mb' hm a hc
  rw [covers_congr hfw'] at hc
  by_cases hcov : mb.covers s a
  · obtain ⟨i, j, hi, hj, rfl⟩ := hcov
    rw [hs.1 i j hi hj, ← sampleIndex_congr hfw, hr.1 i j hi hj, hfg i j hi hj]
  · rw [hs.2 a hcov, hr.2 a fun h => hcov ((covers_congr hfw).1 h)]
    rcases List.mem_append.1 hm with hm | hm
    · exact h mb' hm a hc
    · rw [List.mem_singleton.1 hm] at hc
      exact absurd hc hcov

/-- A tile fits. -/
theorem tiles_fits {fw fh : Nat} (hw : fw % 16 = 0) (hh : fh % 4 = 0) (hm : mb ∈ tiles fw fh) (hfw : s.fw.toNat = fw) :
    MbFits mb s := by
  obtain ⟨hs, -, -, hx, -⟩ := tiles_inside hw hh hm
  refine ⟨?_, ?_, by rw [hfw]; exact hx⟩
  · rw [Mb.side]; omega
  · rcases hs with h | h | h <;> simp [Mb.subs, Mb.side, h]

theorem tiles_size_pos {fw fh : Nat} (hw : fw % 16 = 0) (hh : fh % 4 = 0) (hm : mb ∈ tiles fw fh) : 0 < mb.size := by
  have := (tiles_inside hw hh hm).1
  omega

/-! ### The mode and the residuals depend on the neighbours and SRC -/

theorem Selected.unique {m' : Mode} (h : Selected m mb s) (h' : Selected m' mb s) : m = m' := by
  obtain ⟨h1, h2, h3, h4⟩ := h
  obtain ⟨g1, g2, g3, g4⟩ := h'
  rcases Nat.eq_zero_or_pos mb.x with hx | hx <;> rcases Nat.eq_zero_or_pos mb.y with hy | hy
  · rw [h1 ⟨hx, hy⟩, g1 ⟨hx, hy⟩]
  · rw [h3 ⟨hx, hy⟩, g3 ⟨hx, hy⟩]
  · rw [h2 ⟨hx, hy⟩, g2 ⟨hx, hy⟩]
  · have a := h4 ⟨hx, hy⟩ m'
    have b := g4 ⟨hx, hy⟩ m
    have hr : m.rank = m'.rank := by omega
    cases m <;> cases m' <;> first | rfl | (simp [Mode.rank] at hr)

theorem srcAt_congr (h1 : t.fw = s.fw) (h2 : t.src = s.src) (x y : Nat) : srcAt t x y = srcAt s x y := by
  simp [srcAt, sampleIndex, h1, h2]

theorem sourceWritten_congr (h1 : t.fw = s.fw) (h2 : t.src = s.src) : SourceWritten mb t ↔ SourceWritten mb s := by
  simp [SourceWritten, sampleIndex, h1, h2]

theorem Selected.agree (hag : NeighboursAgree mb s r) (h1 : r.fw = s.fw) (h2 : r.src = s.src) (h : Selected m mb s) :
    Selected m mb r := by
  have hsad : 0 < mb.x → 0 < mb.y → ∀ m', sad m' mb r = sad m' mb s := by
    intro hx hy m'
    have ha : modeAllowed m' mb.x mb.y := by
      cases m'
      · trivial
      · exact ⟨hx, hy⟩
      · exact hx
      · exact hy
    rw [sad, sad]
    congr 1
    refine List.map_congr_left fun i hi => ?_
    congr 1
    refine List.map_congr_left fun j hj => ?_
    rw [srcAt_congr h1 h2, hag.predicted ha (List.mem_range.1 hi) (List.mem_range.1 hj)]
  refine ⟨h.1, h.2.1, h.2.2.1, fun hc m' => ?_⟩
  rw [hsad hc.1 hc.2, hsad hc.1 hc.2]
  exact h.2.2.2 hc m'

theorem residualBlocks_agree (hag : NeighboursAgree mb s r) (h1 : r.fw = s.fw) (h2 : r.src = s.src)
    (ha : modeAllowed m mb.x mb.y) : residualBlocks m mb r = residualBlocks m mb s := by
  refine List.map_congr_left fun k hk => block_ext fun e he => ?_
  rw [residualBlock, residualBlock, entry_blockOf _ he, entry_blockOf _ he, residualAt, residualAt, srcAt_congr h1 h2,
    hag.predicted ha (mb.row_lt (List.mem_range.1 hk) he) (mb.col_lt (List.mem_range.1 hk))]

/-! ### REF indices of a frame -/

theorem covers_holds {a : Nat} (h : mb.covers s a) : ∃ x y, mb.holds x y ∧ a = sampleIndex s x y := by
  obtain ⟨i, j, hi, hj, rfl⟩ := h
  exact ⟨_, _, ⟨by omega, by omega, by omega, by omega⟩, rfl⟩

theorem holds_covers {x y : Nat} (h : mb.holds x y) (s : State) : mb.covers s (sampleIndex s x y) := by
  obtain ⟨h1, h2, h3, h4⟩ := h
  exact ⟨y - mb.y, x - mb.x, by omega, by omega, by
    rw [show mb.x + (x - mb.x) = x by omega, show mb.y + (y - mb.y) = y by omega]⟩

/-- Every index of the frame belongs to a macroblock (R261). -/
theorem index_covered {fw fh a : Nat} (hfw : s.fw.toNat = fw) (hw : fw % 16 = 0) (hh : fh % 4 = 0) (ha : a < fw * fh) :
    ∃ mb ∈ tiles fw fh, mb.covers s a := by
  have h0 : 0 < fw := by
    rcases Nat.eq_zero_or_pos fw with h | h
    · simp [h] at ha
    · exact h
  have hx : a % fw < fw := Nat.mod_lt _ h0
  have hy : a / fw < fh := Nat.div_lt_of_lt_mul ha
  obtain ⟨mb, hm, hc⟩ := tiles_cover hw hh hx hy
  refine ⟨mb, hm, ?_⟩
  have := holds_covers hc s
  rwa [sampleIndex, hfw, Nat.mul_comm, Nat.div_add_mod] at this

/-- A macroblock of the frame covers no index outside it. -/
theorem covers_inside {fw fh a : Nat} (hfw : s.fw.toNat = fw) (hw : fw % 16 = 0) (hh : fh % 4 = 0)
    (hm : mb ∈ tiles fw fh) (hc : mb.covers s a) : a < fw * fh := by
  obtain ⟨-, -, -, hx, hy⟩ := tiles_inside hw hh hm
  obtain ⟨i, j, hi, hj, rfl⟩ := hc
  have : (mb.y + i + 1) * fw ≤ fh * fw := Nat.mul_le_mul_right _ (by omega)
  rw [Nat.add_mul, Nat.one_mul] at this
  rw [sampleIndex, hfw, Nat.mul_comm fw]
  omega

theorem RefKeptOutside.outside {fw fh a : Nat} (h : RefKeptOutside (tiles fw fh) s t) (hfw : s.fw.toNat = fw)
    (hw : fw % 16 = 0) (hh : fh % 4 = 0) (ha : fw * fh ≤ a) : memRead t.ref a = memRead s.ref a :=
  h a fun _ hm hc => absurd (covers_inside hfw hw hh hm hc) (by omega)

/-- No index belongs to two macroblocks of a frame. -/
theorem covers_unique {fw fh : Nat} (hw : fw % 16 = 0) (hh : fh % 4 = 0) (hfw : s.fw.toNat = fw) {mb' : Mb} {a : Nat}
    (h : mb ∈ tiles fw fh) (h' : mb' ∈ tiles fw fh) (hc : mb.covers s a) (hc' : mb'.covers s a) : mb = mb' := by
  obtain ⟨x, y, h1, rfl⟩ := covers_holds hc
  obtain ⟨x', y', h2, e⟩ := covers_holds hc'
  have b1 := (tiles_inside hw hh h).2.2.2.1
  have b2 := (tiles_inside hw hh h').2.2.2.1
  obtain ⟨rfl, rfl⟩ := sampleIndex_inj (s := s) (by have := h1.2.1; omega) (by have := h2.2.1; omega) e
  exact tiles_disjoint hh h h' h1 h2

/-- Writes to a macroblock and to later ones leave its neighbours (R262). -/
theorem neighbours_kept {fw fh : Nat} (hw : fw % 16 = 0) (hh : fh % 4 = 0) {pre more post l : List Mb}
    (hpre : pre ++ mb :: more ++ post = tiles fw fh) (hfw : s.fw.toNat = fw) (ht : t.fw = s.fw)
    (hl : ∀ x ∈ l, x ∈ mb :: more) (h : RefKeptOutside l s t) : NeighboursAgree mb s t := by
  have hpre' : pre ++ mb :: (more ++ post) = tiles fw fh := by simpa using hpre
  refine DoneAgree.neighbours (pre := pre) hw hh hpre' ht fun mb' hm a hc => h a fun x hx hcx => ?_
  have hnd := tiles_nodup fw fh
  rw [← hpre', List.nodup_append] at hnd
  have hin : x ∈ mb :: (more ++ post) := by
    rcases List.mem_cons.1 (hl x hx) with rfl | hx
    · exact List.mem_cons_self ..
    · exact List.mem_cons_of_mem _ (List.mem_append_left _ hx)
  have e : mb' = x := covers_unique hw hh hfw (by rw [← hpre']; exact List.mem_append_left _ hm)
    (by rw [← hpre']; exact List.mem_append_right _ hin) hc hcx
  exact hnd.2.2 mb' hm x hin e

theorem RefKeptOutside.refl (l : List Mb) (s : State) : RefKeptOutside l s s := fun _ _ => rfl

theorem RefKeptOutside.cons {f : Nat → Nat → Byte} {u : State} {l : List Mb} (h1 : RefWrites mb f s u)
    (hu : u.fw = s.fw) (h2 : RefKeptOutside l u t) : RefKeptOutside (mb :: l) s t := fun a ha => by
  rw [h2 a fun x hx hc => ha x (List.mem_cons_of_mem _ hx) ((covers_congr hu).1 hc),
    h1.2 a (ha mb (List.mem_cons_self ..))]

/-! ### A frame said of the REF it leaves -/

/-- One macroblock more in front of macroblocks that hold what their codes give. -/
theorem DecodedAs.cons {fw fh : Nat} (hw : fw % 16 = 0) (hh : fh % 4 = 0) {pre more post l : List Mb}
    {zs : List MbCodes} {u : State} (hpre : pre ++ mb :: more ++ post = tiles fw fh) (hfw : s.fw.toNat = fw)
    (ha : modeAllowed z.mode mb.x mb.y) (h1 : RefWrites mb (decodedSample z mb s) s u) (hu : u.fw = s.fw)
    (ht : t.fw = s.fw) (hc : t.cfg = s.cfg) (hl : ∀ x ∈ l, x ∈ more) (h2 : RefKeptOutside l u t)
    (h3 : DecodedAs more zs t) : DecodedAs (mb :: more) (z :: zs) t := by
  intro mb' z' hm i j hi hj
  rw [List.zip_cons_cons, List.mem_cons] at hm
  rcases hm with hm | hm
  · cases hm
    have hag : NeighboursAgree mb s t := neighbours_kept hw hh hpre hfw ht (l := mb :: l)
      (fun x hx => (List.mem_cons.1 hx).elim (fun e => e ▸ List.mem_cons_self ..)
        fun hx => List.mem_cons_of_mem _ (hl x hx)) (.cons h1 hu h2)
    rw [decodedSample_agree hag ha (by rw [hc]) (by rw [hc]) hi hj, sampleIndex_congr ht, ← h1.1 i j hi hj]
    refine h2 _ fun x hx hcx => ?_
    have hnd := tiles_nodup fw fh
    have hpre' : pre ++ mb :: (more ++ post) = tiles fw fh := by simpa using hpre
    rw [← hpre', List.nodup_append, List.nodup_cons] at hnd
    have e : mb = x := covers_unique hw hh hfw (by rw [← hpre']; simp) (by rw [← hpre']; simp [hl x hx])
      ⟨i, j, hi, hj, rfl⟩ ((covers_congr hu).1 hcx)
    exact hnd.2.1.1 (List.mem_append_left _ (e ▸ hl x hx))
  · exact h3 mb' z' hm i j hi hj

/-- The same for the codes that the encoder chose. -/
theorem EncodedAs.cons {zs : List MbCodes} {more : List Mb} (hag : NeighboursAgree mb s t) (ht : t.fw = s.fw)
    (hsrc : t.src = s.src) (hc : t.cfg = s.cfg) (hsel : Selected m mb s) (ha : modeAllowed m mb.x mb.y)
    (h : EncodedAs more zs t) : EncodedAs (mb :: more) (codesOf s.cfg m (residualBlocks m mb s) :: zs) t := by
  intro mb' z' hm
  rw [List.zip_cons_cons, List.mem_cons] at hm
  rcases hm with hm | hm
  · cases hm
    exact ⟨hsel.agree hag ht hsrc, by
      show _ = codesOf t.cfg m (residualBlocks m mb t)
      rw [residualBlocks_agree hag ht hsrc ha, hc]⟩
  · exact h mb' z' hm

theorem CodesLegal.cons {zs : List MbCodes} {more : List Mb} (hz : z.Legal mb) (h : CodesLegal more zs) :
    CodesLegal (mb :: more) (z :: zs) := by
  intro mb' z' hm
  rw [List.zip_cons_cons, List.mem_cons] at hm
  rcases hm with hm | hm
  · cases hm; exact hz
  · exact h mb' z' hm

/-- Two frames that hold what the same codes give are the same frame (R275). -/
theorem DecodedAs.agree {fw fh : Nat} (hw : fw % 16 = 0) (hh : fh % 4 = 0) {zs : List MbCodes}
    (hlen : zs.length = (tiles fw fh).length) (hz : CodesLegal (tiles fw fh) zs)
    (ht : t.fw = s.fw) (hk : t.cfg.kernel = s.cfg.kernel) (hq : t.cfg.qtab = s.cfg.qtab)
    (h1 : DecodedAs (tiles fw fh) zs s) (h2 : DecodedAs (tiles fw fh) zs t) : DoneAgree (tiles fw fh) s t := by
  suffices key : ∀ n, n ≤ (tiles fw fh).length → DoneAgree ((tiles fw fh).take n) s t by
    have := key _ (Nat.le_refl _)
    rwa [List.take_length] at this
  intro n
  induction n with
  | zero => intro _ mb' hm; simp at hm
  | succ n ih =>
    intro hn mb' hm a hc
    have hlt : n < (tiles fw fh).length := by omega
    rw [← List.take_concat_get' _ _ hlt, List.mem_append, List.mem_singleton] at hm
    have ih := ih (by omega)
    rcases hm with hm | rfl
    · exact ih mb' hm a hc
    · obtain ⟨i, j, hi, hj, rfl⟩ := hc
      have hzip : ((tiles fw fh)[n], zs[n]'(by omega)) ∈ (tiles fw fh).zip zs := by
        rw [List.mem_iff_getElem]
        exact ⟨n, by simp; omega, by simp⟩
      have hag : NeighboursAgree (tiles fw fh)[n] s t := ih.neighbours hw hh (more := (tiles fw fh).drop (n + 1))
        (by rw [List.cons_getElem_drop_succ, List.take_append_drop]) ht
      rw [h1 _ _ hzip i j hi hj, ← sampleIndex_congr ht, h2 _ _ hzip i j hi hj,
        decodedSample_agree hag (hz _ _ hzip).mode hk hq hi hj]

/-! ### FRAMEDEC's macroblocks (R268) -/

/-- What decoding the first macroblocks of mbs has left. -/
structure FrameRead (mbs : List Mb) (zs : List MbCodes) (s t : State) : Prop where
  legal : CodesLegal mbs zs
  decoded : DecodedAs mbs zs t
  kept : RefKeptOutside (mbs.take zs.length) s t
  codes : s.rlost = false → ∃ rest, readable s = codesBits zs ++ rest

theorem FrameRead.nil (mbs : List Mb) (hr : t.ref = s.ref) : FrameRead mbs [] s t where
  legal := fun _ _ h => by simp at h
  decoded := fun _ _ h => by simp at h
  kept := fun _ _ => by rw [hr]
  codes := fun _ => ⟨readable s, rfl⟩

theorem decodeMbs_run {fw fh : Nat} (hw : fw % 16 = 0) (hh : fh % 4 = 0) (mbs : List Mb) :
    ∀ (pre post : List Mb) (s : State), pre ++ mbs ++ post = tiles fw fh → s.fw.toNat = fw →
      (∀ t, decodeMbs mbs s = .done () t → ∃ zs, zs.length = mbs.length ∧ FrameRead mbs zs s t) ∧
      (∀ t, decodeMbs mbs s = .ended t → ∃ zs, zs.length < mbs.length ∧ FrameRead mbs zs s t) := by
  induction mbs with
  | nil =>
    intro pre post s hpre hfw
    refine ⟨fun t h => ⟨[], rfl, ?_⟩, fun t h => by cases h⟩
    simp only [decodeMbs, Run.done.injEq, true_and] at h
    rw [← h]
    exact .nil [] rfl
  | cons mb more ih =>
    intro pre post s hpre hfw
    have hmem : mb ∈ tiles fw fh := by rw [← hpre]; simp
    have hf := tiles_fits (s := s) hw hh hmem hfw
    have hat := decodeMb_atomic (w := false) mb s
    -- one macroblock done, and then the rest
    have step : ∀ m u t zs, decodeMb mb s = .done m u → zs.length ≤ more.length → FrameRead more zs u t →
        t.fw = u.fw → t.cfg = u.cfg → ∃ z, FrameRead (mb :: more) (z :: zs) s t := by
      intro m u t zs h hlen hfr htf htc
      obtain ⟨z, -, hz, hn, hrw, hcode⟩ := decodeMb_done hf h
      rw [h] at hat
      have hat : Done false true _ s u := hat
      refine ⟨z, .cons hz hfr.legal, .cons hw hh hpre hfw hz.mode hrw hat.fw_eq (htf.trans hat.fw_eq)
        (htc.trans hat.cfg_eq) (fun x hx => List.mem_of_mem_take hx) hfr.kept hfr.decoded,
        .cons hrw hat.fw_eq hfr.kept, fun hl => ?_⟩
      obtain ⟨rest, e⟩ := hcode hl
      obtain ⟨ref, hd, -⟩ := decodeMb_eq hl hf hz hn e
      rw [h] at hd
      simp only [Run.done.injEq] at hd
      obtain ⟨g1, -⟩ := read_stretch e
      have hru : readable u = rest := by rw [hd.2]; exact g1
      obtain ⟨rest', e'⟩ := hfr.codes (by rw [hd.2]; exact hl)
      refine ⟨rest', ?_⟩
      rw [e, ← hru, e', codesBits, codesBits, List.flatMap_cons, List.append_assoc]
    have hih := fun (u : State) (hu : u.fw = s.fw) => ih (pre ++ [mb]) post u (by simpa using hpre) (by rw [hu]; exact hfw)
    constructor
    · intro t h
      obtain ⟨m, u, h1, h2⟩ := andThen_eq_done h
      have hat1 : Done false true (mb.covers s) s u := by rw [h1] at hat; exact hat
      obtain ⟨zs, hlen, hfr⟩ := (hih u hat1.fw_eq).1 t h2
      have hd := decodeMbs_may (w := false) more u
      rw [h2] at hd
      obtain ⟨z, hz⟩ := step m u t zs h1 hlen.le hfr (Moved.fw_eq (Done.toMoved hd)) (Moved.cfg_eq (Done.toMoved hd))
      exact ⟨z :: zs, by simp [hlen], hz⟩
    · intro t h
      rcases andThen_eq_ended h with h1 | ⟨m, u, h1, h2⟩
      · rw [h1] at hat
        have hat : Ended false true nowhere s t := hat
        exact ⟨[], by simp, .nil _ (hat.refSame fun _ h => h)⟩
      · have hat1 : Done false true (mb.covers s) s u := by rw [h1] at hat; exact hat
        obtain ⟨zs, hlen, hfr⟩ := (hih u hat1.fw_eq).2 t h2
        have hd := decodeMbs_may (w := false) more u
        rw [h2] at hd
        obtain ⟨z, hz⟩ := step m u t zs h1 hlen.le hfr (Moved.fw_eq (Ended.toMoved hd)) (Moved.cfg_eq (Ended.toMoved hd))
        exact ⟨z :: zs, by simp [hlen], hz⟩

/-- Every sample of the macroblocks done holds a value. -/
def DoneWritten (pre : List Mb) (s : State) : Prop := ∀ mb ∈ pre, ∀ a, mb.covers s a → (memRead s.ref a).isSome

theorem DoneWritten.next {pre : List Mb} {f : Nat → Nat → Byte} {u : State} (h : DoneWritten pre s)
    (hu : u.fw = s.fw) (hr : RefWrites mb f s u) : DoneWritten (pre ++ [mb]) u := by
  intro mb' hm a hc
  have hc := (covers_congr hu).1 hc
  by_cases hcov : mb.covers s a
  · obtain ⟨i, j, hi, hj, rfl⟩ := hcov
    rw [hr.1 i j hi hj]; rfl
  · rw [hr.2 a hcov]
    rcases List.mem_append.1 hm with hm | hm
    · exact h mb' hm a hc
    · rw [List.mem_singleton.1 hm] at hc
      exact absurd hc hcov

/-- Where the macroblocks before mb hold values, so do its neighbours (R54, R262). -/
theorem DoneWritten.neighbours {fw fh : Nat} (hw : fw % 16 = 0) (hh : fh % 4 = 0) {pre more : List Mb}
    (hpre : pre ++ mb :: more = tiles fw fh) (hdone : DoneWritten pre s) (ha : modeAllowed m mb.x mb.y) :
    NeighboursWritten m mb s := by
  have key : ∀ x y, (y + 1 = mb.y ∧ mb.x ≤ x + 1 ∧ x < mb.x + mb.size ∨
      x + 1 = mb.x ∧ mb.y ≤ y ∧ y < mb.y + mb.size) → (memRead s.ref (sampleIndex s x y)).isSome := by
    intro x y hc
    have hk : (tiles fw fh)[pre.length]? = some mb := by rw [← hpre]; simp
    obtain ⟨k', mb', hlt, hk', hholds⟩ := tiles_earlier hw hh hk hc
    rw [← hpre, List.getElem?_append_left hlt] at hk'
    exact hdone mb' (List.mem_of_getElem? hk') _ (holds_covers hholds s)
  cases m with
  | none => trivial
  | dc =>
    have hx : 0 < mb.x := ha.1
    have hy : 0 < mb.y := ha.2
    exact ⟨fun i hi => key _ _ (by omega), fun j hj => key _ _ (by omega)⟩
  | horizontal =>
    have hx : 0 < mb.x := ha
    exact fun j hj => key _ _ (by omega)
  | vertical =>
    have hy : 0 < mb.y := ha
    exact fun j hj => key _ _ (by omega)

/-- The macroblocks decode from their bits (R268, R270). -/
theorem decodeMbs_eq {fw fh : Nat} (hw : fw % 16 = 0) (hh : fh % 4 = 0) (mbs : List Mb) :
    ∀ (pre post : List Mb) (s : State) (zs : List MbCodes) (rest : List Bool), pre ++ mbs ++ post = tiles fw fh →
      s.fw.toNat = fw → DoneWritten pre s → s.rlost = false → zs.length = mbs.length → CodesLegal mbs zs →
      readable s = codesBits zs ++ rest →
      ∃ t, decodeMbs mbs s = .done () t ∧
        t = { afterReading (codesBits zs).length (codesBits zs).length s with ref := t.ref } ∧
        DecodedAs mbs zs t ∧ RefKeptOutside mbs s t := by
  induction mbs with
  | nil =>
    intro pre post s zs rest hpre hfw hdone hl hlen hz hr
    obtain rfl := List.length_eq_zero_iff.1 hlen
    exact ⟨s, rfl, by rw [codesBits, List.flatMap_nil, List.length_nil, afterReading_zero],
      fun _ _ h => by simp at h, .refl _ _⟩
  | cons mb more ih =>
    intro pre post s zs rest hpre hfw hdone hl hlen hz hr
    cases zs with
    | nil => simp at hlen
    | cons z zs =>
      have hmem : mb ∈ tiles fw fh := by rw [← hpre]; simp
      have hf := tiles_fits (s := s) hw hh hmem hfw
      have hzl : z.Legal mb := hz mb z (by simp)
      have hn := hdone.neighbours (m := z.mode) hw hh (more := more ++ post) (by simpa using hpre) hzl.mode
      have e : codesBits (z :: zs) = z.bits ++ codesBits zs := List.flatMap_cons
      rw [e, List.append_assoc] at hr
      obtain ⟨ref, hd, href⟩ := decodeMb_eq hl hf hzl hn hr
      obtain ⟨g1, g2⟩ := read_stretch hr
      generalize hu : { afterReading z.bits.length z.bits.length s with ref := ref } = u at hd
      have hrw := href u (by rw [← hu])
      have hufw : u.fw = s.fw := by rw [← hu]; rfl
      have hucfg : u.cfg = s.cfg := by rw [← hu]; rfl
      obtain ⟨t, h1, h2, h3, h4⟩ := ih (pre ++ [mb]) post u zs rest (by simpa using hpre) (by rw [hufw]; exact hfw)
        (hdone.next hufw hrw) (by rw [← hu]; exact hl) (by simpa using hlen)
        (fun mb' z' hm => hz mb' z' (by simp [hm])) (by rw [← hu]; exact g1)
      have htfw : t.fw = u.fw := by rw [h2]; rfl
      have htcfg : t.cfg = u.cfg := by rw [h2]; rfl
      refine ⟨t, by rw [decodeMbs, hd, andThen_done, h1], ?_, .cons hw hh hpre hfw hzl.mode hrw hufw
        (htfw.trans hufw) (htcfg.trans hucfg) (fun _ h => h) h4 h3, .cons hrw hufw h4⟩
      rw [e, List.length_append, ← g2]
      conv_lhs => rw [h2, ← hu]
      rfl

/-! ### FRAMEENC's macroblocks (R267) -/

/-- What coding the first macroblocks of mbs has left. -/
structure FrameCoded (mbs : List Mb) (zs : List MbCodes) (s t : State) : Prop where
  coded : EncodedAs mbs zs t
  decoded : DecodedAs mbs zs t
  kept : RefKeptOutside (mbs.take zs.length) s t

theorem FrameCoded.nil (mbs : List Mb) (hr : t.ref = s.ref) : FrameCoded mbs [] s t where
  coded := fun _ _ h => by simp at h
  decoded := fun _ _ h => by simp at h
  kept := fun _ _ => by rw [hr]

theorem EmitsRef.trans {xs ys : List Bool} {u : State} (h : EmitsRef xs s u) (k : EmitsRef ys u t) :
    EmitsRef (xs ++ ys) s t := by
  obtain ⟨v, h1, h2⟩ := h
  obtain ⟨w, k1, k2⟩ := k
  -- REF has no part in writing
  have k1' : Emits ys v { w with ref := v.ref } := by
    obtain ⟨⟨a, b, c, d⟩, e⟩ := k1
    have hv : v = { u with ref := v.ref } := by rw [h2]
    refine ⟨⟨fun hl => ?_, ?_, c, by rw [h2] at d; exact d⟩, by rw [h2] at e; exact e⟩
    · have := a (by rw [h2]; exact hl)
      rw [this, h2]
      rfl
    · conv_lhs => rw [b]
      rw [h2]
  exact ⟨_, h1.trans k1', by rw [k2]⟩

theorem EmitsRef.accepts {xs ys : List Bool} (h : EmitsRef xs s t) (ha : acceptsBits (xs ++ ys).length s) :
    acceptsBits ys.length t := by
  obtain ⟨u, h1, h2⟩ := h
  have := h1.accepts ha
  rw [h2]
  exact this

theorem encodeMbs_run {fw fh : Nat} (hw : fw % 16 = 0) (hh : fh % 4 = 0) (mbs : List Mb) :
    ∀ (pre post : List Mb) (s : State), pre ++ mbs ++ post = tiles fw fh → s.fw.toNat = fw → s.status = .ok →
      s.wbuf.length ≤ 63 →
      (∀ t, encodeMbs mbs s = .done () t → ∃ zs, zs.length = mbs.length ∧ FrameCoded mbs zs s t ∧
        EmitsRef (codesBits zs) s t) ∧
      (∀ t, encodeMbs mbs s = .ended t → ∃ zs, zs.length < mbs.length ∧ FrameCoded mbs zs s t) := by
  induction mbs with
  | nil =>
    intro pre post s hpre hfw hok hwb
    refine ⟨fun t h => ⟨[], rfl, ?_⟩, fun t h => by cases h⟩
    simp only [encodeMbs, Run.done.injEq, true_and] at h
    rw [← h]
    exact ⟨.nil [] rfl, s, .nil hwb, rfl⟩
  | cons mb more ih =>
    intro pre post s hpre hfw hok hwb
    have hmem : mb ∈ tiles fw fh := by rw [← hpre]; simp
    have hf := tiles_fits (s := s) hw hh hmem hfw
    have hsize := tiles_size_pos hw hh hmem
    have hat := encodeMb_atomic (r := false) mb s
    have step : ∀ m u t zs, encodeMb mb s = .done m u → zs.length ≤ more.length → FrameCoded more zs u t →
        t.fw = u.fw → t.cfg = u.cfg → t.src = u.src →
        FrameCoded (mb :: more) (codesOf s.cfg m (residualBlocks m mb s) :: zs) s t := by
      intro m u t zs h hlen hfr htf htc hts
      obtain ⟨ha, -, hn, -, hrw⟩ := encodeMb_done hf hok hwb h
      have hsel : Selected m mb s := by
        have h' := h
        rw [encodeMb] at h'
        obtain ⟨m', v, h1, k0⟩ := andThen_eq_done h'
        obtain ⟨rfl, -⟩ := selectMode_done h1
        have hs := selectMode_done_selected hsize h1
        obtain ⟨_, _, -, k1⟩ := andThen_eq_done k0
        obtain ⟨_, _, -, k2⟩ := andThen_eq_done k1
        obtain ⟨_, _, -, k3⟩ := andThen_eq_done k2
        obtain ⟨_, _, -, k4⟩ := andThen_eq_done k3
        obtain ⟨_, _, -, k5⟩ := andThen_eq_done k4
        obtain ⟨_, _, -, k6⟩ := andThen_eq_done k5
        obtain ⟨_, _, -, k7⟩ := andThen_eq_done k6
        simp only [Run.done.injEq] at k7
        rw [← k7.1]; exact hs
      rw [h] at hat
      have hat : Done true false _ s u := hat
      have hag : NeighboursAgree mb s t := neighbours_kept hw hh hpre hfw (htf.trans hat.fw_eq)
        (l := mb :: more.take zs.length) (fun x hx => (List.mem_cons.1 hx).elim (fun e => e ▸ List.mem_cons_self ..)
          fun hx => List.mem_cons_of_mem _ (List.mem_of_mem_take hx)) (.cons hrw hat.fw_eq hfr.kept)
      exact ⟨.cons hag (htf.trans hat.fw_eq) (hts.trans hat.src_eq) (htc.trans hat.cfg_eq) hsel ha hfr.coded,
        .cons (z := codesOf s.cfg m (residualBlocks m mb s)) hw hh hpre hfw ha hrw hat.fw_eq (htf.trans hat.fw_eq)
          (htc.trans hat.cfg_eq) (fun x hx => List.mem_of_mem_take hx) hfr.kept hfr.decoded,
        .cons hrw hat.fw_eq hfr.kept⟩
    have after : ∀ m u, encodeMb mb s = .done m u → EmitsRef (macroblockBits s.cfg m (residualBlocks m mb s)) s u ∧
        u.fw = s.fw ∧ u.status = .ok ∧ u.wbuf.length ≤ 63 := by
      intro m u h
      obtain ⟨-, -, -, ⟨v, hv, e⟩, -⟩ := encodeMb_done hf hok hwb h
      exact ⟨⟨v, hv, e⟩, by rw [e]; exact hv.fw, by rw [e]; exact hv.status.trans hok, by rw [e]; exact hv.wcnt⟩
    have hih := fun (u : State) (hu : u.fw = s.fw) =>
      ih (pre ++ [mb]) post u (by simpa using hpre) (by rw [hu]; exact hfw)
    constructor
    · intro t h
      obtain ⟨m, u, h1, h2⟩ := andThen_eq_done h
      obtain ⟨a1, a2, a3, a4⟩ := after m u h1
      obtain ⟨zs, hlen, hfr, hem⟩ := (hih u a2 a3 a4).1 t h2
      have hd := encodeMbs_may (r := false) more u
      rw [h2] at hd
      exact ⟨_ :: zs, by simp [hlen], step m u t zs h1 hlen.le hfr (Moved.fw_eq (Done.toMoved hd))
        (Moved.cfg_eq (Done.toMoved hd)) (Moved.src_eq (Done.toMoved hd)), a1.trans hem⟩
    · intro t h
      rcases andThen_eq_ended h with h1 | ⟨m, u, h1, h2⟩
      · rw [h1] at hat
        have hat : Ended true false nowhere s t := hat
        exact ⟨[], by simp, .nil _ (hat.refSame fun _ h => h)⟩
      · obtain ⟨a1, a2, a3, a4⟩ := after m u h1
        obtain ⟨zs, hlen, hfr⟩ := (hih u a2 a3 a4).2 t h2
        have hd := encodeMbs_may (r := false) more u
        rw [h2] at hd
        exact ⟨_ :: zs, by simp [hlen], step m u t zs h1 hlen.le hfr (Moved.fw_eq (Ended.toMoved hd))
          (Moved.cfg_eq (Ended.toMoved hd)) (Moved.src_eq (Ended.toMoved hd))⟩

/-- The codes an encoder chose are legal. -/
theorem EncodedAs.legal {fw fh : Nat} (hw : fw % 16 = 0) (hh : fh % 4 = 0) (hfw : s.fw.toNat = fw) {zs : List MbCodes}
    (h : EncodedAs (tiles fw fh) zs s) : CodesLegal (tiles fw fh) zs := by
  intro mb z hm
  obtain ⟨hsel, e⟩ := h mb z hm
  have hf := tiles_fits (s := s) hw hh (List.of_mem_zip hm).1 hfw
  rw [e]
  exact codesOf_legal s.cfg (residualBlocks_small _ _ _) (residualBlocks_length ..) (by have := hf.subs; omega)
    hsel.allowed

/-! ### A frame that completes (R267, R271) -/

/-- EncMB at the next macroblock, where SRC and the macroblocks done hold values. -/
theorem encodeMb_next {fw fh : Nat} (hw : fw % 16 = 0) (hh : fh % 4 = 0) {pre more : List Mb}
    (hpre : pre ++ mb :: more = tiles fw fh) (hfw : s.fw.toNat = fw) (hsrc : SourceWritten mb s)
    (hdone : DoneWritten pre s) (hok : s.status = .ok) (hwb : s.wbuf.length ≤ 63) (hsel : Selected m mb s)
    (hacc : acceptsBits (macroblockBits s.cfg m (residualBlocks m mb s)).length s) :
    ∃ t, encodeMb mb s = .done m t ∧ EmitsRef (macroblockBits s.cfg m (residualBlocks m mb s)) s t ∧
      RefWrites mb (reconstructedSample m mb (residualBlocks m mb s) s) s t := by
  have hmem : mb ∈ tiles fw fh := by rw [← hpre]; simp
  have hf := tiles_fits (s := s) hw hh hmem hfw
  have hsize := tiles_size_pos hw hh hmem
  have hn : ∀ m, modeAllowed m mb.x mb.y → NeighboursWritten m mb s := fun m ha => hdone.neighbours hw hh hpre ha
  have hcond : mb.x = 0 ∨ mb.y = 0 ∨ SourceWritten mb s ∧ NeighboursWritten .dc mb s ∧
      NeighboursWritten .horizontal mb s ∧ NeighboursWritten .vertical mb s := by
    rcases Nat.eq_zero_or_pos mb.x with hx | hx
    · exact .inl hx
    · rcases Nat.eq_zero_or_pos mb.y with hy | hy
      · exact .inr (.inl hy)
      · exact .inr (.inr ⟨hsrc, hn .dc ⟨hx, hy⟩, hn .horizontal hx, hn .vertical hy⟩)
  obtain ⟨m', hsel', hrun⟩ := selectMode_selected hsize hcond
  obtain rfl := hsel'.unique hsel
  exact encodeMb_eq hf hrun hok hwb hsrc (hn _ hsel'.allowed) hacc

/-- Some mode is Selected where the samples it is chosen by hold values. -/
theorem selected_exists {fw fh : Nat} (hw : fw % 16 = 0) (hh : fh % 4 = 0) {pre more : List Mb}
    (hpre : pre ++ mb :: more = tiles fw fh) (hsrc : SourceWritten mb s) (hdone : DoneWritten pre s) :
    ∃ m, Selected m mb s := by
  have hsize := tiles_size_pos hw hh (mb := mb) (by rw [← hpre]; simp)
  have hn : ∀ m, modeAllowed m mb.x mb.y → NeighboursWritten m mb s := fun m ha => hdone.neighbours hw hh hpre ha
  have hcond : mb.x = 0 ∨ mb.y = 0 ∨ SourceWritten mb s ∧ NeighboursWritten .dc mb s ∧
      NeighboursWritten .horizontal mb s ∧ NeighboursWritten .vertical mb s := by
    rcases Nat.eq_zero_or_pos mb.x with hx | hx
    · exact .inl hx
    · rcases Nat.eq_zero_or_pos mb.y with hy | hy
      · exact .inr (.inl hy)
      · exact .inr (.inr ⟨hsrc, hn .dc ⟨hx, hy⟩, hn .horizontal hx, hn .vertical hy⟩)
  obtain ⟨m, h, -⟩ := selectMode_selected hsize hcond
  exact ⟨m, h⟩

/-- The rest of a frame, where SRC and the macroblocks done hold values: its codes and the frame it leaves depend on
neither the ports, the buffered bits nor any other REF sample. -/
theorem encodeMbs_complete {fw fh : Nat} (hw : fw % 16 = 0) (hh : fh % 4 = 0) (mbs : List Mb) :
    ∀ (pre post : List Mb) (s : State), pre ++ mbs ++ post = tiles fw fh → s.fw.toNat = fw →
      (∀ mb ∈ mbs, SourceWritten mb s) → DoneWritten pre s →
      ∃ (zs : List MbCodes) (frame : Memory), zs.length = mbs.length ∧
        EncodedAs mbs zs { s with ref := frame } ∧ DecodedAs mbs zs { s with ref := frame } ∧
        RefKeptOutside mbs s { s with ref := frame } ∧ DoneWritten (pre ++ mbs) { s with ref := frame } ∧
        ∀ r : State, r.cfg = s.cfg → r.fw = s.fw → r.src = s.src → r.status = .ok → r.wbuf.length ≤ 63 →
          DoneAgree pre s r → acceptsBits (codesBits zs).length r →
          ∃ t, encodeMbs mbs r = .done () t ∧ EmitsRef (codesBits zs) r t ∧
            DoneAgree (pre ++ mbs) { s with ref := frame } t ∧ RefKeptOutside mbs r t := by
  induction mbs with
  | nil =>
    intro pre post s hpre hfw hsrc hdone
    refine ⟨[], s.ref, rfl, fun _ _ h => by simp at h, fun _ _ h => by simp at h, .refl _ _, by simpa using hdone,
      fun r h1 h2 h3 h4 h5 h6 h7 => ⟨r, rfl, ⟨r, .nil h5, rfl⟩, by simpa using h6, .refl _ _⟩⟩
  | cons mb more ih =>
    intro pre post s hpre hfw hsrc hdone
    have hpre' : pre ++ mb :: (more ++ post) = tiles fw fh := by simpa using hpre
    obtain ⟨m, hsel⟩ := selected_exists hw hh hpre' (hsrc mb (List.mem_cons_self ..)) hdone
    have ha := hsel.allowed
    -- what any state that agrees does at this macroblock
    have hrun : ∀ r : State, r.cfg = s.cfg → r.fw = s.fw → r.src = s.src → r.status = .ok → r.wbuf.length ≤ 63 →
        DoneAgree pre s r → acceptsBits (macroblockBits s.cfg m (residualBlocks m mb s)).length r →
        ∃ t, encodeMb mb r = .done m t ∧ EmitsRef (macroblockBits s.cfg m (residualBlocks m mb s)) r t ∧
          RefWrites mb (reconstructedSample m mb (residualBlocks m mb s) s) r t := by
      intro r h1 h2 h3 h4 h5 h6 h7
      have hag := h6.neighbours hw hh hpre' h2
      have hres := residualBlocks_agree (m := m) hag h2 h3 ha
      have hdr : DoneWritten pre r := fun mb' hm a hc => by
        have hc' := (covers_congr h2).1 hc
        rw [h6 mb' hm a hc']
        exact hdone mb' hm a hc'
      rw [← h1, ← hres] at h7
      obtain ⟨t, e1, e2, e3⟩ := encodeMb_next hw hh hpre' (by rw [h2]; exact hfw)
        ((sourceWritten_congr h2 h3).2 (hsrc mb (List.mem_cons_self ..))) hdr h4 h5 (hsel.agree hag h2 h3) h7
      rw [h1, hres] at e2
      rw [hres] at e3
      refine ⟨t, e1, e2, e3.change fun i j hi hj => ?_⟩
      rw [reconstructedSample, reconstructedSample, h1]
      exact decodedSample_agree (z := codesOf s.cfg m (residualBlocks m mb s)) hag ha (by rw [h1]) (by rw [h1]) hi hj
    -- the REF after this macroblock
    obtain ⟨ref0, href0⟩ : ∃ ref, ∀ t' : State, t'.ref = ref →
        RefWrites mb (reconstructedSample m mb (residualBlocks m mb s) s) s t' := by
      obtain ⟨t, -, -, h⟩ := hrun { s with status := .ok, wbuf := [], ports := { s.ports with
          outAnswers := List.replicate (macroblockBits s.cfg m (residualBlocks m mb s)).length .ok } } rfl rfl rfl rfl
        (by simp) (fun _ _ _ _ => rfl) (by
          simp only [acceptsBits, List.length_nil, Nat.zero_add, List.take_replicate]
          congr 1
          omega)
      exact ⟨t.ref, fun t' ht' => h.congr rfl rfl ht'⟩
    have hrw0 := href0 { s with ref := ref0 } rfl
    obtain ⟨zs, frame, hlen, henc, hdec, hkept, hdw, hall⟩ := ih (pre ++ [mb]) post { s with ref := ref0 }
      (by simpa using hpre) hfw (fun x hx => (sourceWritten_congr rfl rfl).2 (hsrc x (List.mem_cons_of_mem _ hx)))
      (hdone.next rfl hrw0)
    have hkept' : RefKeptOutside (mb :: more) s { s with ref := frame } := .cons hrw0 rfl hkept
    have hag : NeighboursAgree mb s { s with ref := frame } :=
      neighbours_kept hw hh hpre hfw rfl (fun _ h => h) hkept'
    have hass : pre ++ [mb] ++ more = pre ++ mb :: more := by simp
    refine ⟨codesOf s.cfg m (residualBlocks m mb s) :: zs, frame, by simp [hlen],
      .cons (t := { s with ref := frame }) hag rfl rfl rfl hsel ha henc,
      .cons (s := s) (t := { s with ref := frame }) hw hh hpre hfw ha hrw0 rfl rfl rfl (fun _ h => h) hkept hdec,
      hkept', by rw [← hass]; exact hdw, fun r h1 h2 h3 h4 h5 h6 h7 => ?_⟩
    have hacc : acceptsBits (macroblockBits s.cfg m (residualBlocks m mb s) ++ codesBits zs).length r := h7
    obtain ⟨u, e1, e2, e3⟩ := hrun r h1 h2 h3 h4 h5 h6 (acceptsBits_append hacc).1
    have hacc2 := e2.accepts hacc
    obtain ⟨v, hv, hue⟩ := id e2
    have hag' : DoneAgree (pre ++ [mb]) { s with ref := ref0 } u :=
      h6.next h2 rfl hrw0 e3 fun _ _ _ _ => rfl
    have hufw : u.fw = r.fw := by rw [hue]; exact hv.fw
    obtain ⟨t, k1, k2, k3, k4⟩ := hall u (by rw [hue]; exact hv.cfg.trans h1) (hufw.trans h2)
      (by rw [hue]; exact hv.src.trans h3) (by rw [hue]; exact hv.status.trans h4) (by rw [hue]; exact hv.wcnt) hag' hacc2
    rw [hass] at k3
    exact ⟨t, by rw [encodeMbs, e1, andThen_done, k1], e2.trans k2, k3, .cons e3 hufw k4⟩

theorem encodeMbs_append (xs ys : List Mb) (s : State) :
    encodeMbs (xs ++ ys) s = (encodeMbs xs s).andThen fun _ t => encodeMbs ys t := by
  induction xs generalizing s with
  | nil => rfl
  | cons mb xs ih => simp only [List.cons_append, encodeMbs, andThen_assoc, ih]

/-! ### Where an encoder ends early (R273) -/

/-- The part of a command never ends it with STATUS = OK. -/
def EndsBad {α : Type} (x : Run α) : Prop := ∀ t, x = .ended t → t.status ≠ .ok

theorem EndsBad.andThen {α β : Type} {x : Run α} {k : α → State → Run β} (h : EndsBad x) (hk : ∀ a t, EndsBad (k a t)) :
    EndsBad (x.andThen k) := by
  intro t he
  rcases andThen_eq_ended he with h1 | ⟨a, v, -, h2⟩
  · exact h t h1
  · exact hk a v t h2

theorem EndsBad.done {α : Type} (a : α) (s : State) : EndsBad (Run.done a s) := fun t h => by cases h

theorem EndsBad.orFault {α : Type} (f : Fault) (o : Option α) (s : State) : EndsBad (orFault f o s) := by
  cases o <;> intro t h <;> cases h

theorem checkStatus_endsBad (s : State) : EndsBad (checkStatus s) := by
  intro t h
  rw [checkStatus] at h
  split at h
  · cases h
  · simp only [Run.ended.injEq] at h
    rw [← h]; assumption

theorem emitBits_endsBad (bits : List Bool) (s : State) : EndsBad (emitBits bits s) := by
  have hbit : ∀ b s, EndsBad (emitBit b s) := by
    intro b s t h
    simp only [emitBit] at h
    generalize (if writerExact s then s else drew 1 s) = v at h
    generalize (if writerExact s then b else Config.drawBit s.draws) = c at h
    split at h
    · rw [transfer] at h
      rcases andThen_eq_ended h with h1 | ⟨a, w, -, h2⟩
      · rw [outWrite] at h1
        split at h1 <;> cases h1
      · cases a <;> cases h2
    · cases h
  induction bits generalizing s with
  | nil => exact EndsBad.done _ _
  | cons b rest ih => exact (hbit b s).andThen fun _ u => ih u

theorem writeVector_endsBad (c : List Int) (s : State) : EndsBad (writeVector c s) := by
  intro t h
  rw [writeVector] at h
  split at h
  · exact emitBits_endsBad _ _ t h
  · simp only [Run.ended.injEq] at h
    rw [← h]
    by_cases hs : s.status = .ok <;> simp [record, hs]

theorem encodeSub_endsBad {r : Block} {y : Run (Block × Word)} (h : encodeSub r s = y) : EndsBad y := by
  subst h
  unfold encodeSub
  extract_lets ck zk
  clear_value zk ck
  exact (writeVector_endsBad _ _).andThen fun _ u => (checkStatus_endsBad u).andThen fun _ u => EndsBad.done _ _

theorem encodeSubs_endsBad (mb : Mb) (p : Predictor) (ks : List Nat) (s : State) : EndsBad (encodeSubs mb p ks s) := by
  induction ks generalizing s with
  | nil => exact EndsBad.done _ _
  | cons k more ih =>
    rw [encodeSubs]
    refine (EndsBad.orFault _ _ _).andThen fun src u => ?_
    generalize hy : encodeSub (residualOf mb p k fun e => (src.getD e 0).toNat) u = y
    exact (encodeSub_endsBad hy).andThen fun _ u => (ih u).andThen fun _ u => EndsBad.done _ _

theorem selectMode_endsBad (mb : Mb) (s : State) : EndsBad (selectMode mb s) := by
  rw [selectMode]
  split
  · exact EndsBad.done _ _
  split
  · exact EndsBad.done _ _
  split
  · exact EndsBad.done _ _
  · exact (EndsBad.orFault _ _ _).andThen fun _ u => (EndsBad.orFault _ _ _).andThen fun _ u =>
      (EndsBad.orFault _ _ _).andThen fun _ u => (EndsBad.orFault _ _ _).andThen fun _ u => EndsBad.done _ _

theorem encodeMb_endsBad (mb : Mb) (s : State) : EndsBad (encodeMb mb s) := by
  rw [encodeMb]
  refine (selectMode_endsBad mb s).andThen fun m s => (emitBits_endsBad _ s).andThen fun _ s =>
    (checkStatus_endsBad s).andThen fun _ s => (EndsBad.orFault _ _ _).andThen fun p s =>
    (encodeSubs_endsBad mb p _ s).andThen fun subs s =>
    (writeVector_endsBad _ s).andThen fun _ s => (checkStatus_endsBad s).andThen fun _ s => EndsBad.andThen ?_
      fun _ s => EndsBad.done _ _
  exact (EndsBad.orFault _ _ _).andThen fun p s => EndsBad.done _ _

/-- A frame's encoder ends early only with a failure recorded. -/
theorem encodeMbs_endsBad (mbs : List Mb) (s : State) : EndsBad (encodeMbs mbs s) := by
  induction mbs generalizing s with
  | nil => exact EndsBad.done _ _
  | cons mb more ih => exact (encodeMb_endsBad mb s).andThen fun _ u => ih u

end Sys2Proof.Machine
end

