-- ==== Sys2Proof/Laws/PerInstr.lean ====
section
/-! SUPPORT. The family RoundTrip, one lemma a command: the word of a command, whatever its fields hold, decodes to that
command (R100, R103). -/

namespace Sys2Proof.Laws.RoundTrip

/-- The encoder's word decodes to the command. -/
def Statement (i : Instr) : Prop := decode (encode i) = .ok i

theorem nop : Statement .nop := by
  simp [Statement, decode, encode, field_commandWord, unusedZero]

theorem clrstat : Statement .clrstat := by
  simp [Statement, decode, encode, field_commandWord, unusedZero]

theorem init : Statement .init := by
  simp [Statement, decode, encode, field_commandWord, unusedZero]

theorem deinit : Statement .deinit := by
  simp [Statement, decode, encode, field_commandWord, unusedZero]

theorem wrinit : Statement .wrinit := by
  simp [Statement, decode, encode, field_commandWord, unusedZero]

theorem rdinit : Statement .rdinit := by
  simp [Statement, decode, encode, field_commandWord, unusedZero]

theorem putbits (n : Byte) : Statement (.putbits n) := by
  simp [Statement, decode, encode, field_commandWord, unusedZero]

theorem putones : Statement .putones := by
  simp [Statement, decode, encode, field_commandWord, unusedZero]

theorem putzeroes : Statement .putzeroes := by
  simp [Statement, decode, encode, field_commandWord, unusedZero]

theorem puteg : Statement .puteg := by
  simp [Statement, decode, encode, field_commandWord, unusedZero]

theorem flush : Statement .flush := by
  simp [Statement, decode, encode, field_commandWord, unusedZero]

theorem getbits (n : Byte) : Statement (.getbits n) := by
  simp [Statement, decode, encode, field_commandWord, unusedZero]

theorem getzeroes : Statement .getzeroes := by
  simp [Statement, decode, encode, field_commandWord, unusedZero]

theorem geteg : Statement .geteg := by
  simp [Statement, decode, encode, field_commandWord, unusedZero]

theorem entenc (b off cnt : Byte) : Statement (.entenc b off cnt) := by
  simp [Statement, decode, encode, field_commandWord]

theorem entdec (b off cnt : Byte) : Statement (.entdec b off cnt) := by
  simp [Statement, decode, encode, field_commandWord]

theorem fwd4 (d src : Byte) : Statement (.fwd4 d src) := by
  simp [Statement, decode, encode, field_commandWord, unusedZero]

theorem inv4 (d src : Byte) : Statement (.inv4 d src) := by
  simp [Statement, decode, encode, field_commandWord, unusedZero]

theorem had4 (d src : Byte) : Statement (.had4 d src) := by
  simp [Statement, decode, encode, field_commandWord, unusedZero]

theorem ihad4 (d src : Byte) : Statement (.ihad4 d src) := by
  simp [Statement, decode, encode, field_commandWord, unusedZero]

theorem had2 (d src : Byte) : Statement (.had2 d src) := by
  simp [Statement, decode, encode, field_commandWord, unusedZero]

theorem quant4 (d src : Byte) : Statement (.quant4 d src) := by
  simp [Statement, decode, encode, field_commandWord, unusedZero]

theorem dequant4 (d src : Byte) : Statement (.dequant4 d src) := by
  simp [Statement, decode, encode, field_commandWord, unusedZero]

theorem quantdc (d src cnt : Byte) : Statement (.quantdc d src cnt) := by
  simp [Statement, decode, encode, field_commandWord]

theorem dequantdc (d src cnt : Byte) : Statement (.dequantdc d src cnt) := by
  simp [Statement, decode, encode, field_commandWord]

theorem gatherdc (g b cnt : Byte) : Statement (.gatherdc g b cnt) := by
  simp [Statement, decode, encode, field_commandWord]

theorem scatterdc (b g cnt : Byte) : Statement (.scatterdc b g cnt) := by
  simp [Statement, decode, encode, field_commandWord]

theorem bdiv (d src div : Byte) : Statement (.bdiv d src div) := by
  simp [Statement, decode, encode, field_commandWord]

theorem predsel (size : Byte) : Statement (.predsel size) := by
  simp [Statement, decode, encode, field_commandWord, unusedZero]

theorem predres (size m b : Byte) : Statement (.predres size m b) := by
  simp [Statement, decode, encode, field_commandWord]

theorem unpred (size m b : Byte) : Statement (.unpred size m b) := by
  simp [Statement, decode, encode, field_commandWord]

theorem mbenc (size : Byte) : Statement (.mbenc size) := by
  simp [Statement, decode, encode, field_commandWord, unusedZero]

theorem mbdec (size : Byte) : Statement (.mbdec size) := by
  simp [Statement, decode, encode, field_commandWord, unusedZero]

theorem frameenc : Statement .frameenc := by
  simp [Statement, decode, encode, field_commandWord, unusedZero]

theorem framedec : Statement .framedec := by
  simp [Statement, decode, encode, field_commandWord, unusedZero]

end Sys2Proof.Laws.RoundTrip
end

