-- ==== Sys2Proof/Tests/Slice0.lean ====
section
/-! SUPPORT. Tests of the model and witnesses for the hypotheses of its statements. Every expected value is the spec's:
the words are written out from R100 and R103, the results come from 95_test_vectors.md. -/

namespace Sys2Proof.Tests

open Sys2Proof Sys2Proof.Machine

/-! ### Small states -/

/-- QTAB_EX of 95_test_vectors.md. -/
def qtabEx : Vector (BitVec 16) 16 := #v[8, 12, 16, 20, 12, 16, 20, 24, 16, 20, 24, 28, 20, 24, 28, 32]

/-- A block after reset whose open values are 0 and whose host has answered nothing. -/
def demo : State where
  cfg := ⟨qtabEx, .seq, 16, 20, 320⟩
  arg0 := 0
  arg1 := 0
  result := 0
  status := .ok
  width := 0
  height := 0
  fw := 0
  fh := 0
  inited := false
  banks := Vector.replicate 32 (Vector.replicate 16 0)
  wbuf := []
  rbuf := []
  wlost := false
  rlost := false
  src := []
  ref := []
  ports := ⟨[], [], [], []⟩
  wait := none
  host := []
  hostLog := []
  draws := 0

/-- f of the next state. -/
def seen {α : Type} (o : Host.Outcome State Fault Refusal) (f : State → α) : Option α :=
  match o with
  | .next t => some (f t)
  | _ => none

/-- The fault a step ends in. -/
def faultOf (o : Host.Outcome State Fault Refusal) : Option Fault :=
  match o with
  | .fault f => some f
  | _ => none

/-- f of the state after one command and then another. -/
def seen2 {α : Type} (i j : Instr) (s : State) (f : State → α) : Option α :=
  match exec i s with
  | .next t => seen (exec j t) f
  | _ => none

/-- demo with bank b holding the given entries, then zeros. -/
def holding (b : Nat) (l : List Int) (s : State := demo) : State := setBank b (blockOf fun i => wrap32 (l.getD i 0)) s

/-- The entries of bank b. -/
def ints (b : Nat) (t : State) : List Int := (List.range 16).map fun i => entryInt (bank t b) i

/-- demo whose host has answered these IN transactions, each of at most 8 bytes. -/
def fed (l : List (List Byte)) : State :=
  { demo with ports := ⟨[], l.map fun b => .ok (b.take 8) (by simp), [], []⟩ }

/-- demo whose host has answered these OUT transactions. -/
def accepting (l : List OutAnswer) : State := { demo with ports := ⟨l, [], [], []⟩ }

/-- The bytes of the OUT transactions made. -/
def sent (t : State) : List (List Byte) := t.ports.outLog.map OutTx.bytes

/-- [1..16]. -/
def upTo16 : List Int := [1, 2, 3, 4, 5, 6, 7, 8, 9, 10, 11, 12, 13, 14, 15, 16]

/-- A 16×4 frame with the sample rows of program P5 and 20 answers `ok`. -/
def frame : State := { demo with
  width := 16
  height := 4
  fw := 16
  fh := 4
  inited := true
  ports := ⟨List.replicate 20 .ok, [], [], []⟩
  src := (List.range 64).map fun a => (a, BitVec.ofNat 8 (120 + 20 * (a % 4) + (a / 16 + 1) % 3)) }

/-- The setup of 95_test_vectors.md 2.5 at (4, 4), with row i of the source block given by f. -/
def inside (f : Nat → List Nat) : State := { demo with
  width := 16
  height := 16
  fw := 16
  fh := 16
  inited := true
  arg0 := 4
  arg1 := 4
  src := (List.range 4).flatMap fun i => (List.range 4).map fun j =>
    (16 * (4 + i) + 4 + j, BitVec.ofNat 8 ((f i).getD j 0))
  ref := [(51, 10), (52, 20), (53, 30), (54, 40), (55, 50), (67, 60), (83, 70), (99, 80), (115, 90)] }

/-- A 16×8 frame whose only written source samples are those of the sub-block at (0, 0), with 60 bits buffered. -/
def partSource : State := { demo with
  width := 16
  height := 8
  fw := 16
  fh := 8
  inited := true
  wbuf := List.replicate 60 true
  src := (List.range 4).flatMap fun y => (List.range 4).map fun x => (16 * y + x, 100) }

/-- The sample of REF at (x, y). -/
def refSample (x y : Nat) (t : State) : Option Nat := (memRead t.ref (sampleIndex t x y)).map BitVec.toNat

/-- Row y of REF from x0 on. -/
def refRow (x0 y n : Nat) (t : State) : List (Option Nat) := (List.range n).map fun j => refSample (x0 + j) y t

/-! ### WellFormed: an ill-formed term for each check -/

theorem test_illFormed_bank : wellFormed (.fwd4 32 0) = false ∧ wellFormed (.fwd4 0 32) = false := by decide
theorem test_illFormed_vector :
    wellFormed (.entenc 0 16 1) = false ∧ wellFormed (.entdec 0 0 0) = false ∧ wellFormed (.entenc 0 0 17) = false ∧
    wellFormed (.entenc 0 10 7) = false ∧ wellFormed (.entenc 32 0 1) = false := by decide
theorem test_illFormed_grid :
    wellFormed (.quantdc 0 0 5) = false ∧ wellFormed (.dequantdc 0 0 0) = false ∧
    wellFormed (.gatherdc 0 0 2) = false := by decide
theorem test_illFormed_banks :
    wellFormed (.gatherdc 0 17 16) = false ∧ wellFormed (.scatterdc 29 0 4) = false := by decide
theorem test_illFormed_size : wellFormed (.predsel 5) = false ∧ wellFormed (.mbenc 0) = false ∧
    wellFormed (.mbdec 32) = false := by decide
theorem test_illFormed_mode : wellFormed (.predres 4 4 0) = false ∧ wellFormed (.unpred 8 255 0) = false := by decide
theorem test_illFormed_subBanks : wellFormed (.predres 16 0 17) = false ∧ wellFormed (.unpred 8 0 29) = false := by
  decide
theorem test_illFormed_count :
    wellFormed (.putbits 0) = false ∧ wellFormed (.putbits 32) = false ∧ wellFormed (.getbits 0) = false ∧
    wellFormed (.getbits 33) = false ∧ wellFormed (.bdiv 0 0 0) = false := by decide
theorem test_wellFormed_edges :
    wellFormed (.putbits 31) ∧ wellFormed (.getbits 32) ∧ wellFormed (.entenc 31 15 1) ∧
    wellFormed (.gatherdc 31 16 16) ∧ wellFormed (.predres 16 3 16) ∧ wellFormed (.bdiv 31 31 255) := by decide

/-! ### Decoding: a word for every command, bytes OPC, FA, FB, FC from the table of R103 -/

theorem test_decode_system :
    decode 0x00000000 = .ok .nop ∧ decode 0x01000000 = .ok .clrstat ∧ decode 0x02000000 = .ok .init ∧
    decode 0x03000000 = .ok .deinit ∧ decode 0x04000000 = .ok .wrinit ∧ decode 0x05000000 = .ok .rdinit := by decide
theorem test_decode_bitstream :
    decode 0x10100000 = .ok (.putbits 16) ∧ decode 0x11000000 = .ok .putones ∧
    decode 0x12000000 = .ok .putzeroes ∧ decode 0x13000000 = .ok .puteg ∧ decode 0x14000000 = .ok .flush ∧
    decode 0x18200000 = .ok (.getbits 32) ∧ decode 0x19000000 = .ok .getzeroes ∧
    decode 0x1A000000 = .ok .geteg := by decide
theorem test_decode_entropy :
    decode 0x2003010F = .ok (.entenc 3 1 15) ∧ decode 0x21000010 = .ok (.entdec 0 0 16) := by decide
theorem test_decode_transform :
    decode 0x30010000 = .ok (.fwd4 1 0) ∧ decode 0x31020100 = .ok (.inv4 2 1) ∧ decode 0x32010000 = .ok (.had4 1 0) ∧
    decode 0x33020100 = .ok (.ihad4 2 1) ∧ decode 0x34060500 = .ok (.had2 6 5) := by decide
theorem test_decode_quant :
    decode 0x40020100 = .ok (.quant4 2 1) ∧ decode 0x41030200 = .ok (.dequant4 3 2) ∧
    decode 0x42030104 = .ok (.quantdc 3 1 4) ∧ decode 0x43040301 = .ok (.dequantdc 4 3 1) ∧
    decode 0x440A0004 = .ok (.gatherdc 10 0 4) ∧ decode 0x45050401 = .ok (.scatterdc 5 4 1) ∧
    decode 0x46020210 = .ok (.bdiv 2 2 16) := by decide
theorem test_decode_predict :
    decode 0x50040000 = .ok (.predsel 4) ∧ decode 0x51100100 = .ok (.predres 16 1 0) ∧
    decode 0x52040006 = .ok (.unpred 4 0 6) := by decide
theorem test_decode_pipeline :
    decode 0x60100000 = .ok (.mbenc 16) ∧ decode 0x61080000 = .ok (.mbdec 8) ∧ decode 0x62000000 = .ok .frameenc ∧
    decode 0x63000000 = .ok .framedec := by decide
/-- The edges of the reserved opcode ranges, and nonzero unused fields (R105). -/
theorem test_decode_rejects :
    ([0x06, 0x0F, 0x15, 0x17, 0x1B, 0x1F, 0x22, 0x2F, 0x35, 0x3F, 0x47, 0x4F, 0x53, 0x5F, 0x64, 0xFF].all
      fun opc => decodeTableWord 32 (opc * 2 ^ 24) == none) = true ∧
    decode 0x30010001 = .error .nonzeroField ∧ decode 0x00010000 = .error .nonzeroField ∧
    decode 0x10100100 = .error .nonzeroField := by decide

/-! ### One step of each command -/

theorem test_nop : seen (exec .nop frame) (fun t => decide (t = frame)) = some true := by decide
theorem test_clrstat : seen (exec .clrstat { demo with status := .eof }) (·.status) = some .ok := by decide
/-- P6: 20 is not a multiple of 16; 16 is accepted. -/
theorem test_init :
    seen (exec .init { demo with width := 20, height := 8 }) (fun t => (t.status, t.inited)) = some (.inval, false) ∧
    seen (exec .init { demo with width := 16, height := 8 }) (fun t => (t.fw, t.fh, t.inited)) =
      some (16, 8, true) := by decide
/-- R293: a frame beyond the implementation's limits. -/
theorem test_init_too_large :
    seen (exec .init { demo with width := 32, height := 8 }) (·.status) = some .nomem := by decide
theorem test_deinit : seen (exec .deinit frame) (fun t => (t.inited, t.ref)) = some (false, []) := by decide
theorem test_wrinit : seen (exec .wrinit { demo with wbuf := [true] }) (·.wbuf) = some [] := by decide
theorem test_rdinit : seen (exec .rdinit { demo with rbuf := [true] }) (·.rbuf) = some [] := by decide
/-- E2. -/
theorem test_putbits :
    seen (exec (.putbits 16) { demo with arg0 := 0xABCD }) (fun t => pack t.wbuf) = some [0xAB, 0xCD] := by decide
/-- B2: 60 zeros are buffered; 10 ones more make one transaction and leave 6 bits. -/
theorem test_putones :
    seen (exec .putones { accepting [.ok] with wbuf := List.replicate 60 false, arg0 := 10 })
      (fun t => (sent t, t.wbuf.length)) = some ([[0, 0, 0, 0, 0, 0, 0, 0x0F]], 6) := by decide
/-- E2: ten one-bits, then six zero-bits. -/
theorem test_putzeroes :
    seen (exec .putzeroes { demo with wbuf := List.replicate 10 true, arg0 := 6 }) (fun t => pack t.wbuf) =
      some [0xFF, 0xC0] := by decide
/-- E1. -/
theorem test_puteg :
    seen (exec .puteg { demo with arg0 := 256 }) (fun t => (t.wbuf.length, pack t.wbuf)) =
      some (17, [0x00, 0x80]) := by decide
/-- B6. -/
theorem test_puteg_too_large :
    seen (exec .puteg { demo with arg0 := 0x7FFFFFFF }) (fun t => (t.status, t.wbuf)) = some (.inval, []) := by decide
/-- B3. -/
theorem test_flush :
    seen (exec .flush { accepting [.ok] with wbuf := List.replicate 6 true })
      (fun t => (sent t, t.wbuf, t.result)) = some ([[0xFC]], [], 0) := by decide
/-- B11. -/
theorem test_flush_fails :
    seen (exec .flush { accepting [.fail] with wbuf := [true, false, true, true, false] })
      (fun t => (t.status, t.result)) = some (.ioFailed, 3) := by decide
/-- G10. -/
theorem test_getbits :
    seen2 (.getbits 4) (.getbits 12) (fed [[0xA5, 0x5A]]) (fun t => (t.result, t.rbuf)) =
      some (0x55A, []) := by decide
/-- G6. -/
theorem test_getbits_eof :
    seen (exec (.getbits 8) (fed [[]])) (fun t => (t.result, t.status)) = some (0, .eof) := by decide
/-- G2. -/
theorem test_getzeroes :
    seen (exec .getzeroes (fed [[0x10]])) (fun t => (t.result, t.rbuf.length)) = some (3, 5) := by decide
/-- G9. -/
theorem test_getzeroes_eof :
    seen (exec .getzeroes (fed [[0x00], []])) (fun t => (t.result, t.status)) = some (8, .eof) := by decide
/-- G4. -/
theorem test_geteg :
    seen (exec .geteg (fed [[0x00, 0x80, 0x80]])) (fun t => (t.result, t.rbuf.length)) = some (256, 7) := by decide
/-- G5. -/
theorem test_geteg_overlong :
    seen (exec .geteg (fed [[0, 0, 0, 0, 0x80]])) (fun t => (t.result, t.status)) =
      some (0, .inval) := by decide
/-- N4, N2. -/
theorem test_entenc :
    seen2 (.entenc 0 0 4) .flush (holding 0 [0, 0, 0, 7] (accepting [.ok])) sent = some [[0x9C, 0x90]] ∧
    seen2 (.entenc 0 0 1) .flush (holding 0 [5] (accepting [.ok])) sent = some [[0x96]] := by decide
/-- E3, third vector. -/
theorem test_entdec :
    seen (exec (.entdec 1 0 16) (fed [[0x13, 0xD7, 0x4B, 0x40]])) (ints 1) =
      some [-1, 2, 0, -1, -1, 0, -1, -1, 0, 0, 0, 0, 0, 0, 0, 0] := by decide
/-- N14. -/
theorem test_entdec_overrun :
    seen (exec (.entdec 1 0 1) (fed [[0x20]])) (·.status) = some .inval := by decide
/-- E4. -/
theorem test_fwd4 : seen (exec (.fwd4 1 0) (holding 0 upTo16)) (ints 1) =
    some [136, -16, 0, -8, -64, 0, 0, 0, 0, 0, 0, 0, -32, 0, 0, 0] := by decide
/-- T3. -/
theorem test_fwd4_h264 :
    seen (exec (.fwd4 1 0) (holding 0 upTo16 { demo with cfg := { demo.cfg with kernel := .h264 } })) (ints 1) =
      some [136, -28, 0, -4, -112, 0, 0, 0, 0, 0, 0, 0, -16, 0, 0, 0] := by decide
/-- P2. -/
theorem test_inv4 :
    seen (exec (.inv4 4 3) (holding 3 [136, -12, 0, 0, -60, 0, 0, 0, 0, 0, 0, 0, -20, 0, 0, 0])) (ints 4) =
      some [44, 44, 68, 68, 84, 84, 108, 108, 164, 164, 188, 188, 204, 204, 228, 228] := by decide
/-- T5. -/
theorem test_inv4_h264 :
    seen (exec (.inv4 1 0) (holding 0 [1, 2, 1, 1, 2, 4, 2, 2, 1, 2, 1, 1, 1, 2, 1, 1]
      { demo with cfg := { demo.cfg with kernel := .h264 } })) (ints 1) =
      some [19, 0, 0, -1, 0, 0, 0, -1, 0, 0, 0, 1, -3, 0, 0, 1] := by decide
/-- E5. -/
theorem test_had4 : seen (exec (.had4 1 0) (holding 0 upTo16)) (ints 1) =
    some [68, -8, 0, -4, -32, 0, 0, 0, 0, 0, 0, 0, -16, 0, 0, 0] := by decide
/-- T14. -/
theorem test_ihad4 :
    seen (exec (.ihad4 1 0) (holding 0 [1, 1, 0, 0, 1, 1, 0, 0, 1, 1, 0, 0, 1, 1, 0, 0])) (ints 1) =
      some [8, 8, 0, 0, 0, 0, 0, 0, 0, 0, 0, 0, 0, 0, 0, 0] := by decide
/-- T7. -/
theorem test_had2 :
    seen (exec (.had2 1 0) (holding 1 upTo16 (holding 0 [5, 3, -2, 7, 9, 9]))) (ints 1) =
      some [13, -7, 3, 11, 5, 6, 7, 8, 9, 10, 11, 12, 13, 14, 15, 16] := by decide
/-- Q1. -/
theorem test_quant4 :
    seen (exec (.quant4 2 1) (holding 1 [136, -16, 0, -8, -64, 0, 0, 0, 0, 0, 0, 0, -32, 0, 0, 0])) (ints 2) =
      some [17, -1, -5, 0, 0, 0, 0, 0, 0, -1, 0, 0, 0, 0, 0, 0] := by decide
/-- Q2. -/
theorem test_dequant4 :
    seen (exec (.dequant4 3 2) (holding 2 [17, -1, -5, 0, 0, 0, 0, 0, 0, -1, 0, 0, 0, 0, 0, 0])) (ints 3) =
      some [136, -12, 0, 0, -60, 0, 0, 0, 0, 0, 0, 0, -20, 0, 0, 0] := by decide
/-- Q3. -/
theorem test_quantdc : seen (exec (.quantdc 1 0 4) (holding 0 [100, -37, 5, 0, 77])) (ints 1) =
    some [12, -4, 0, 0, 0, 0, 0, 0, 0, 0, 0, 0, 0, 0, 0, 0] := by decide
/-- Q4. -/
theorem test_dequantdc : seen (exec (.dequantdc 1 0 4) (holding 0 [12, -4, 0, 0, 77])) (ints 1) =
    some [96, -32, 0, 0, 0, 0, 0, 0, 0, 0, 0, 0, 0, 0, 0, 0] := by decide
/-- Q10. -/
theorem test_gatherdc :
    seen (exec (.gatherdc 10 0 4) (holding 10 upTo16 (holding 0 [389] (holding 1 [1034]
      (holding 2 [714] (holding 3 [1349])))))) (ints 10) =
      some [389, 1034, 714, 1349, 5, 6, 7, 8, 9, 10, 11, 12, 13, 14, 15, 16] := by decide
/-- Q11. -/
theorem test_scatterdc :
    seen (exec (.scatterdc 0 10 4) (holding 3 upTo16 (holding 10 [388, 1032, 712, 1348])))
      (fun t => (entryInt (bank t 0) 0, entryInt (bank t 2) 0, ints 3 t)) =
      some (388, 712, [1348, 2, 3, 4, 5, 6, 7, 8, 9, 10, 11, 12, 13, 14, 15, 16]) := by decide
/-- Q6, Q7. -/
theorem test_bdiv :
    seen (exec (.bdiv 1 0 16) (holding 0 [-17, -16, 15, -1])) (fun t => (ints 1 t).take 4) = some [-1, -1, 0, 0] ∧
    seen (exec (.bdiv 1 0 1) (holding 0 [-(2 ^ 31)])) (fun t => entryInt (bank t 1) 0) = some (-(2 ^ 31)) := by decide
/-- P-a, P-b, P-c, P-d. -/
theorem test_predsel :
    seen (exec (.predsel 4) (inside fun _ => [20, 30, 40, 50])) (·.result) = some 3 ∧
    seen (exec (.predsel 4) (inside fun _ => [50, 50, 50, 50])) (·.result) = some 1 ∧
    seen (exec (.predsel 4) (inside fun i => List.replicate 4 (60 + 10 * i))) (·.result) = some 2 ∧
    seen (exec (.predsel 4) (inside fun _ => [0, 0, 0, 0])) (·.result) = some 0 := by decide
/-- P-i, P-j, P-k, P-l. -/
theorem test_predsel_edges :
    seen (exec (.predsel 4) { inside (fun _ => []) with arg0 := 0, arg1 := 0 }) (·.result) = some 0 ∧
    seen (exec (.predsel 4) { inside (fun _ => []) with arg0 := 4, arg1 := 0 }) (·.result) = some 2 ∧
    seen (exec (.predsel 4) { inside (fun _ => []) with arg0 := 0, arg1 := 4 }) (·.result) = some 3 ∧
    seen (exec (.predsel 4) { inside (fun _ => []) with arg0 := 2, arg1 := 4 }) (·.status) = some .inval := by decide
/-- P-e. -/
theorem test_predres :
    seen (exec (.predres 4 3 0) (inside fun i => [20 + i, 30 + i, 40 + i, 50 + i])) (ints 0) =
      some [0, 0, 0, 0, 1, 1, 1, 1, 2, 2, 2, 2, 3, 3, 3, 3] := by decide
/-- P-h. -/
theorem test_predres_not_computable :
    seen (exec (.predres 4 3 0) { frame with arg0 := 4 }) (·.status) = some .inval := by decide
/-- P-f. -/
theorem test_unpred :
    seen (exec (.unpred 4 3 0) (holding 0 [0, 0, 0, 0, 1, 1, 1, 1, 2, 2, 2, 2, 3, 3, 3, 3] (inside fun _ => [])))
      (fun t => (refRow 4 4 4 t, refRow 4 7 4 t, refSample 3 7 t)) =
      some ([some 20, some 30, some 40, some 50], [some 23, some 33, some 43, some 53], some 90) := by decide
/-- P-g. -/
theorem test_unpred_clamps :
    seen (exec (.unpred 4 0 0) (holding 0 (List.replicate 16 (-5)) frame)) (refSample 3 3) = some (some 0) ∧
    seen (exec (.unpred 4 0 0) (holding 0 (List.replicate 16 300) frame)) (refSample 3 3) = some (some 255) := by decide
/-- P5: MBENC and FLUSH send the seven bytes. -/
theorem test_mbenc :
    seen2 (.mbenc 4) .flush frame sent = some [[0x05, 0x08, 0x28, 0x68, 0x80, 0x4B, 0xA0]] := by decide
/-- P5: the reconstruction. -/
theorem test_mbenc_ref : seen (exec (.mbenc 4) frame) (fun t => (t.result, refRow 0 3 4 t)) =
    some (0, [some 121, some 141, some 160, some 180]) := by decide
/-- R84, R269: sub-block 1's samples are read after sub-block 0's vector has gone out: a failed or unanswered transaction
of that vector comes first. -/
theorem test_mbenc_order :
    seen (exec (.mbenc 8) { partSource with ports := (accepting [.fail]).ports }) (·.status) = some .ioFailed ∧
    seen (exec (.mbenc 8) partSource) busy = some true ∧
    faultOf (exec (.mbenc 8) { partSource with ports := (accepting [.ok]).ports }) = some .unwrittenSrc := by decide +kernel
/-- P5, decoded: R275 for one macroblock. -/
theorem test_mbdec :
    seen (exec (.mbdec 4) { frame with ports := (fed [[0x05, 0x08, 0x28, 0x68, 0x80, 0x4B, 0xA0]]).ports })
      (fun t => (t.result, t.rbuf.length, refRow 0 3 4 t)) =
      some (0, 5, [some 121, some 141, some 160, some 180]) := by decide
/-- R267: the key-frame flag is the first bit; a 16×4 frame is four macroblocks, none at (0, 4). -/
theorem test_frameenc :
    seen (exec .frameenc frame) (fun t => (t.status, t.result, (sent t).head?.bind List.head?, t.ref.length)) =
      some (.ok, 0, some 0x82, 64) := by decide +kernel
/-- R276. -/
theorem test_framedec_predicted :
    seen (exec .framedec { frame with ports := (fed [[0x7F]]).ports, result := 9 })
      (fun t => (t.result, t.rbuf.length, t.ref)) = some (0, 7, []) := by decide

/-! ### Tilings (E7) -/

theorem test_tiles :
    tiles 16 20 = [⟨0, 0, 16⟩, ⟨0, 16, 4⟩, ⟨4, 16, 4⟩, ⟨8, 16, 4⟩, ⟨12, 16, 4⟩] ∧
    tiles 16 8 = [⟨0, 0, 8⟩, ⟨8, 0, 8⟩] ∧
    tiles 32 24 = [⟨0, 0, 16⟩, ⟨16, 0, 16⟩, ⟨0, 16, 8⟩, ⟨8, 16, 8⟩, ⟨16, 16, 8⟩, ⟨24, 16, 8⟩] := by decide

/-! ### Steps of the host -/

/-- A command that needs a byte waits with BUSY = 1, and the answer lets it end (R19). -/
theorem test_wait_and_answer :
    seen (step { demo with host := [.busWrite 4 0 0x18080000] }) (fun t => (busy t, t.result)) = some (true, 0) ∧
    (seen (step { demo with host := [.busWrite 4 0 0x18080000, .answerIn (.ok [0xA5] (by decide))] })
      fun t => seen (step t) fun u => (busy u, u.result)) = some (some (false, 0xA5)) := by decide
/-- R38: WIDTH ignores a write while INITED = 1. -/
theorem test_width_frozen :
    seen (step { frame with host := [.busWrite 4 0x18 32] }) (·.width) = some 16 := by decide
/-- R37: STATE of a block with INITED = 1 and six bits buffered. -/
theorem test_state_register :
    seen (step { frame with wbuf := List.replicate 6 true, host := [.busRead 4 0x14] }) (·.hostLog) =
      some [0x00000602] := by decide

/-- R76, R344: STATE polled while GETBITS waits for its byte, with six bits written: BUSY, INITED, WCNT 6, RAVAIL 0. -/
theorem test_state_polled :
    (seen (step { demo with
        inited := true
        wbuf := List.replicate 6 true
        host := [.busWrite 4 0 0x18080000, .busRead 4 0x14] })
      fun t => seen (step t) (·.hostLog)) = some (some [0x00000603]) := by decide
/-- R316, U4: CLRSTAT after a failure while running leaves both buffers unspecified; WRINIT clears the writer alone, and a
failed check touches neither. -/
theorem test_unspecified_until_cleared :
    seen2 (.getbits 8) .clrstat (fed [[]]) (fun t => (t.status, t.wlost, t.rlost)) = some (.ok, true, true) ∧
    seen2 (.getbits 8) .wrinit (fed [[]]) (fun t => (t.wbuf, t.wlost, t.rlost)) = some ([], false, true) ∧
    seen (exec (.getbits 0) demo) (fun t => (t.status, t.wlost, t.rlost)) = some (.inval, false, false) := by decide

/-! ### Witnesses: states and operands that meet the hypotheses of each statement -/

/-- s with ARG0 = x and ARG1 = y. -/
def placed (x y : Nat) (s : State) : State := { s with arg0 := BitVec.ofNat 32 x, arg1 := BitVec.ofNat 32 y }

theorem inv_demo : Inv demo where
  params := by decide
  wcnt := by decide
  ravail := by decide
  srcForm := by decide
  refForm := by decide
  srcRange := by decide
  refRange := by decide
  geometry := fun h => by cases h
  ports := by intro tx h; cases h
  waiting := by intro w h; cases h

theorem inv_frame : Inv frame where
  params := by decide
  wcnt := by decide
  ravail := by decide
  srcForm := by decide
  refForm := by decide
  srcRange := by decide
  refRange := by decide
  geometry := fun _ => by refine ⟨rfl, rfl, ?_⟩; decide
  ports := by intro tx h; cases h
  waiting := by intro w h; cases h

/-- A command that waits for a byte. -/
def waitRec : PortWait := ⟨.getbits 8, .inRead, .ok, ⟨[], [], [], []⟩, 0, some 0, some 0⟩

/-- demo while it waits. -/
def polled : State := { demo with wait := some waitRec }

theorem inv_polled : Inv { polled with host := [.reset] } where
  params := inv_demo.params
  wcnt := inv_demo.wcnt
  ravail := inv_demo.ravail
  srcForm := inv_demo.srcForm
  refForm := inv_demo.refForm
  srcRange := inv_demo.srcRange
  refRange := inv_demo.refRange
  geometry := inv_demo.geometry
  ports := inv_demo.ports
  waiting := by
    intro w h
    cases h
    exact ⟨fun tx h => (by cases h), trivial, List.nil_prefix, List.nil_prefix, fun n h => (by cases h; decide),
      fun n h => (by cases h; decide)⟩

/-- demo whose host has answered n IN transactions of eight zero bytes, and then these. -/
def zeros (n : Nat) (l : List (List Byte)) : State :=
  { demo with ports := ⟨[], List.replicate n (.ok (List.replicate 8 0) (by decide)) ++ (fed l).ports.inAnswers, [], []⟩ }

theorem readable_zeros (n : Nat) (l : List (List Byte)) :
    readable (zeros n l) = List.replicate (64 * n) false ++ readable (fed l) := by
  have hz : ∀ h, answerBits (.ok (List.replicate 8 0) h) = List.replicate 64 false := by decide
  induction n with
  | zero => rfl
  | succ n ih =>
    have e : readable (zeros (n + 1) l) = List.replicate 64 false ++ readable (zeros n l) := by
      rw [← hz (by decide)]
      simp only [readable, zeros, demo, List.replicate_succ, List.cons_append, dataAnswers, List.takeWhile_cons,
        List.isEmpty_cons, Bool.not_false, if_true, List.flatMap_cons, List.nil_append]
    rw [e, ih, ← List.append_assoc, List.replicate_append_replicate, Nat.mul_succ, Nat.add_comm]

theorem mbLegal_frame : MbLegal 4 frame := ⟨by decide, by decide, by decide, by decide, by decide, by decide⟩
theorem mbLegal_inside : MbLegal 4 (inside fun _ => [20, 30, 40, 50]) :=
  ⟨by decide, by decide, by decide, by decide, by decide, by decide⟩

theorem source_frame : SourceWritten (operandMb 4 frame) frame := by
  have h : ∀ i, i < 4 → ∀ j, j < 4 →
      (memRead frame.src (sampleIndex frame (0 + j) (0 + i))).isSome := by decide
  exact fun i j hi hj => h i hi j hj

theorem source_inside : SourceWritten (operandMb 4 (inside fun _ => [20, 30, 40, 50])) (inside fun _ => [20, 30, 40, 50]) := by
  have h : ∀ i, i < 4 → ∀ j, j < 4 → (memRead (inside fun _ => [20, 30, 40, 50]).src
      (sampleIndex (inside fun _ => [20, 30, 40, 50]) (4 + j) (4 + i))).isSome := by decide
  exact fun i j hi hj => h i hi j hj

theorem neighbours_inside (m : Mode) (f : Nat → List Nat) :
    NeighboursWritten m (operandMb 4 (inside f)) (inside f) := by
  have hl : ∀ j, j < 4 → (memRead (inside fun _ => []).ref
      (sampleIndex (inside fun _ => []) (4 - 1) (4 + j))).isSome := by decide
  have ht : ∀ i, i ≤ 4 → (memRead (inside fun _ => []).ref
      (sampleIndex (inside fun _ => []) (4 - 1 + i) (4 - 1))).isSome := by decide
  have hv : ∀ j, j < 4 → (memRead (inside fun _ => []).ref
      (sampleIndex (inside fun _ => []) (4 + j) (4 - 1))).isSome := by decide
  cases m with
  | none => trivial
  | dc => exact ⟨ht, hl⟩
  | horizontal => exact hl
  | vertical => exact hv

/-- The edges of R105's ranges and, for each class of unused field, a word that has it nonzero. -/
theorem witness_ReservedWordsRaiseInval :
    ([0x06, 0x0F, 0x15, 0x17, 0x1B, 0x1F, 0x22, 0x2F, 0x35, 0x3F, 0x47, 0x4F, 0x53, 0x5F, 0x64, 0xFF].all fun opc =>
      (fieldOPC (BitVec.ofNat 32 (opc * 2 ^ 24))).toNat == opc) = true ∧
    ((fieldOPC 0x63010000).toNat = 0x63 ∧ fieldFA 0x63010000 ≠ 0) ∧
    ((fieldOPC 0x61080100).toNat = 0x61 ∧ fieldFB 0x61080100 ≠ 0) ∧
    ((fieldOPC 0x410000FF).toNat = 0x41 ∧ fieldFC 0x410000FF ≠ 0) := by decide

theorem witness_FailedChecksOnlyRaiseInval :
    decode 0xFF000000 = .error .reservedOpcode ∧ wellFormed (.putbits 32) = false ∧ demo.inited = false ∧
    (placed 2 0 frame).arg0.toNat % (4 : Byte).toNat ≠ 0 ∧ (placed 0 6 frame).arg1.toNat % (4 : Byte).toNat ≠ 0 ∧
    frame.fw.toNat < (placed 16 0 frame).arg0.toNat + (4 : Byte).toNat ∧
    frame.fh.toNat < (placed 0 4 frame).arg1.toNat + (4 : Byte).toNat ∧
    ((1 : Byte) = 1 ∧ (placed 0 4 demo).arg0 = 0) ∧ (placed 4 0 demo).arg1 = 0 ∧
    2 ^ 31 - 2 < ({ demo with arg0 := 0x7FFFFFFF } : State).arg0.toNat ∧
    (-(2 ^ 31) : Int) ∈ bankVector 0 15 1 (holding 0 (List.replicate 15 0 ++ [-(2 ^ 31)])) ∧
    frame.inited = true ∧ demo.width = 0 ∧ demo.height = 0 ∧
    ({ demo with width := 8 } : State).width.toNat % 16 ≠ 0 ∧
    ({ demo with height := 2 } : State).height.toNat % 4 ≠ 0 := by decide

theorem witness_StepRunsDecodedCommand :
    ∃ (s : State) (w : Word) (rest : List HostAction) (i : Instr), s.host = .busWrite 4 0 w :: rest ∧ s.wait = none ∧
      decode w = .ok i ∧ demo.host = [] :=
  ⟨{ demo with host := [.busWrite 4 0 0x60040000] }, 0x60040000, [], .mbenc 4, rfl, rfl, by decide, rfl⟩

theorem witness_StepKeepsInvariant : ∃ s t : State, Inv s ∧ step s = .next t ∧ t ≠ s :=
  ⟨{ demo with host := [.busWrite 4 4 7] }, { demo with arg0 := 7 },
    ⟨inv_demo.params, inv_demo.wcnt, inv_demo.ravail, inv_demo.srcForm, inv_demo.refForm, inv_demo.srcRange,
      inv_demo.refRange, inv_demo.geometry, inv_demo.ports, fun w h => by cases h⟩, rfl, by decide⟩

theorem witness_HostResetFromAnyState :
    ∃ (s q : State) (rest : List HostAction), s.host = .reset :: rest ∧ s.wait = none ∧
      q.host = .reset :: rest ∧ q.wait = some waitRec ∧ Inv q :=
  ⟨{ demo with host := [.reset] }, { polled with host := [.reset] }, [], rfl, rfl, rfl, rfl, inv_polled⟩

/-- The edges of each range of HostAccesses, in a frame of 64 samples and an SRC of 320. -/
theorem witness_HostAccesses :
    frame.wait = none ∧
    ([0x020, 0x03C, 0x080, 0xFFC, 0x1800, 0xFFFFFC].all fun a : Word => a.toNat % 4 == 0 &&
      (decide (0x020 ≤ a.toNat ∧ a.toNat < 0x040) || decide (0x080 ≤ a.toNat ∧ a.toNat < 0x1000) ||
        decide (0x1800 ≤ a.toNat ∧ a.toNat < 0x01000000))) = true ∧
    (319 < frame.cfg.maxSamples ∧ 319 < 2 ^ 24) ∧ memRead frame.src 63 = some 181 ∧
    (63 < frame.fw.toNat * frame.fh.toNat ∧ frame.cfg.maxSamples ≤ 2 ^ 24 ∧ frame.inited = true) ∧
    memRead ({ frame with ref := [(63, 5)] } : State).ref 63 = some 5 ∧
    ((0x00FFFFFD : Word).toNat < 0x01000000 ∧ (0x00FFFFFD : Word).toNat % 4 ≠ 0) ∧
    0x01000000 + frame.cfg.maxSamples ≤ (0x01000140 : Word).toNat ∧
    0x02000000 + frame.fw.toNat * frame.fh.toNat ≤ (0x02000040 : Word).toNat := by decide

/-- The codes of a macroblock of n zero sub-blocks. -/
def blank (m : Mode) (n : Nat) : MbCodes := ⟨m, List.replicate n (List.replicate 15 0), List.replicate n 0⟩

theorem blank_legal {m : Mode} {mb : Mb} (h : modeAllowed m mb.x mb.y) : (blank m mb.subs).Legal mb where
  mode := h
  subs := List.length_replicate
  acLength v hv := by rw [List.eq_of_mem_replicate hv]; rfl
  dcLength := List.length_replicate
  acRange v hv x hx := by rw [List.eq_of_mem_replicate hv] at hx; rw [List.eq_of_mem_replicate hx]; decide
  dcRange x hx := by rw [List.eq_of_mem_replicate hx]; decide

theorem readable_of_rbuf (s : State) (h : s.ports.inAnswers = []) : readable s = s.rbuf := by
  simp [readable, h, dataAnswers]

/-- MBENC at (0, 0) with a first gap at sub-block 1 of 4, its bits accepted or not. -/
theorem witness_UnwrittenSamplesFault_gap : ∃ s q : State, MbLegal 8 s ∧ MbLegal 8 q ∧ s.arg0 = 0 ∧ q.arg0 = 0 ∧
    Selected .none (operandMb 8 s) s ∧ Selected .none (operandMb 8 q) q ∧ s.status = .ok ∧ q.status = .ok ∧
    s.wbuf.length ≤ 63 ∧ q.wbuf.length ≤ 63 ∧ NeighboursWritten .none (operandMb 8 s) s ∧
    NeighboursWritten .none (operandMb 8 q) q ∧ 1 < (operandMb 8 s).subs ∧
    (∀ j, j < 1 → SubWritten (operandMb 8 s) j s ∧ SubWritten (operandMb 8 q) j q) ∧
    ¬ SubWritten (operandMb 8 s) 1 s ∧ ¬ SubWritten (operandMb 8 q) 1 q ∧
    acceptsBits (bitsBefore .none (operandMb 8 s) s 1).length s ∧
    ¬ acceptsBits (bitsBefore .none (operandMb 8 q) q 1).length q := by
  have sel : ∀ s, Selected .none ⟨0, 0, 8⟩ s := fun s =>
    ⟨fun _ => rfl, fun h => absurd h.1 (by decide), fun h => absurd h.2 (by decide), fun h => absurd h.1 (by decide)⟩
  have h0 : ∀ e, e < 16 → (memRead partSource.src (sampleIndex partSource (0 + (0 + e % 4)) (0 + (0 + e / 4)))).isSome := by
    decide
  refine ⟨{ partSource with ports := (accepting [.ok]).ports }, partSource, ⟨.inr (.inl rfl), rfl, rfl, rfl, by decide,
    by decide⟩, ⟨.inr (.inl rfl), rfl, rfl, rfl, by decide, by decide⟩, rfl, rfl, sel _, sel _, rfl, rfl, by decide,
    by decide, trivial, trivial, by decide, fun j hj => ?_, fun h => ?_, fun h => ?_, ?_, ?_⟩
  · obtain rfl : j = 0 := by omega
    exact ⟨h0, h0⟩
  · exact absurd (h 0 (by decide)) (by decide)
  · exact absurd (h 0 (by decide)) (by decide)
  · unfold acceptsBits; decide +kernel
  · unfold acceptsBits; decide +kernel

/-- MBENC at the edges (no source sample; at (4, 0) no sample to the left, its mode's bits accepted or not), MBDEC of a
horizontal macroblock there, and a frame no sample of which is written. -/
theorem witness_UnwrittenSamplesFault_edges :
    (∃ s : State, MbLegal 4 s ∧ s.arg0 = 0 ∧ Selected .none (operandMb 4 s) s ∧ s.status = .ok ∧ s.wbuf.length ≤ 63 ∧
      NeighboursWritten .none (operandMb 4 s) s ∧ 0 < (operandMb 4 s).subs ∧ ¬ SubWritten (operandMb 4 s) 0 s ∧
      acceptsBits (bitsBefore .none (operandMb 4 s) s 0).length s) ∧
    (∃ s : State, MbLegal 4 s ∧ s.arg1 = 0 ∧ Selected .horizontal (operandMb 4 s) s ∧ s.status = .ok ∧
      s.wbuf.length ≤ 63 ∧ acceptsBits 2 s ∧ ¬ NeighboursWritten .horizontal (operandMb 4 s) s) ∧
    (∃ s : State, MbLegal 4 s ∧ s.arg1 = 0 ∧ Selected .horizontal (operandMb 4 s) s ∧ s.status = .ok ∧
      s.wbuf.length ≤ 63 ∧ ¬ acceptsBits 2 s ∧ ¬ NeighboursWritten .horizontal (operandMb 4 s) s) ∧
    (∃ (s : State) (z : MbCodes), MbLegal 4 s ∧ s.status = .ok ∧ s.rlost = false ∧ z.Legal (operandMb 4 s) ∧
      readable s = z.bits ++ [] ∧ ¬ NeighboursWritten z.mode (operandMb 4 s) s) ∧
    (∃ s : State, s.wait = none ∧ Inv s ∧ s.inited = true ∧ s.status = .ok ∧ ¬ FrameWritten s) := by
  have selH : ∀ s, Selected .horizontal ⟨4, 0, 4⟩ s := fun s =>
    ⟨fun h => absurd h.1 (by decide), fun _ => rfl, fun h => absurd h.2 (by decide), fun h => absurd h.2 (by decide)⟩
  refine ⟨⟨{ frame with src := [] }, ⟨.inl rfl, rfl, rfl, rfl, by decide, by decide⟩, rfl, ?_, rfl, by decide, trivial,
      by decide, fun h => ?_, rfl⟩,
    ⟨placed 4 0 frame, ⟨.inl rfl, rfl, rfl, rfl, by decide, by decide⟩, rfl, selH _, rfl, by decide, rfl, fun h => ?_⟩,
    ⟨{ placed 4 0 frame with ports := demo.ports, wbuf := List.replicate 63 true },
      ⟨.inl rfl, rfl, rfl, rfl, by decide, by decide⟩, rfl, selH _, rfl, by decide, ?_, fun h => ?_⟩,
    ⟨{ placed 4 0 frame with rbuf := (blank .horizontal 1).bits }, blank .horizontal 1, ⟨.inl rfl, rfl, rfl, rfl, by decide, by decide⟩, rfl, rfl,
      blank_legal (mb := ⟨4, 0, 4⟩) (by simp [modeAllowed]), ?_, fun h => ?_⟩,
    ⟨{ frame with src := [] }, rfl, ?_, rfl, rfl, fun h => ?_⟩⟩
  · exact ⟨fun _ => rfl, fun h => absurd h.1 (by decide), fun h => absurd h.2 (by decide), fun h => absurd h.1 (by decide)⟩
  · exact absurd (h 0 (by decide)) (by decide)
  · exact absurd (h 0 (by decide)) (by decide)
  · unfold acceptsBits; decide
  · exact absurd (h 0 (by decide)) (by decide)
  · rw [readable_of_rbuf _ rfl, List.append_nil]
  · exact absurd (h 0 (by decide)) (by decide)
  · exact { inv_frame with
      srcForm := by decide
      srcRange := by intro c hc; cases hc
      waiting := by intro w h; cases h }
  · exact absurd (h 0 (by decide)) (by decide)

/-- Frames whose samples at (0, 0), or the neighbours of (4, 4), are missing. -/
theorem witness_UnwrittenSamplesFault :
    (demo.wait = none ∧ memRead demo.src 319 = none ∧ memRead frame.ref 63 = none) ∧
    (MbLegal 4 { inside (fun _ => []) with ref := [] } ∧ modeOf (3 : Byte).toNat = some .vertical ∧
      modeAllowed .vertical 4 4 ∧
      ¬ NeighboursWritten .vertical (operandMb 4 { inside (fun _ => []) with ref := [] })
        { inside (fun _ => []) with ref := [] }) ∧
    (MbLegal 4 { inside (fun _ => []) with src := [] } ∧
      NeighboursWritten .dc (operandMb 4 { inside (fun _ => []) with src := [] }) { inside (fun _ => []) with src := [] } ∧
      ¬ SourceWritten (operandMb 4 { inside (fun _ => []) with src := [] }) { inside (fun _ => []) with src := [] }) ∧
    (SourceWritten (operandMb 4 { inside (fun _ => [20, 30, 40, 50]) with ref := [] })
        { inside (fun _ => [20, 30, 40, 50]) with ref := [] } ∧
      ¬ NeighboursWritten .dc (operandMb 4 { inside (fun _ => [20, 30, 40, 50]) with ref := [] })
        { inside (fun _ => [20, 30, 40, 50]) with ref := [] }) :=
  ⟨by decide, ⟨⟨by decide, by decide, by decide, by decide, by decide, by decide⟩, rfl, by simp [modeAllowed],
      fun h => absurd (h 0 (by decide)) (by decide)⟩,
    ⟨⟨by decide, by decide, by decide, by decide, by decide, by decide⟩, neighbours_inside .dc fun _ => [],
      fun h => absurd (h 0 0 (by decide) (by decide)) (by decide)⟩,
    source_inside, fun h => absurd (h.1 0 (by decide)) (by decide)⟩

theorem witness_WaitingCommandChangesNothingElse : ∃ (i : Instr) (s t u : State), s.wait = none ∧
    exec i s = .next t ∧ t.wait ≠ none ∧ exec .nop s = .next u ∧ u.wait = none :=
  ⟨.getbits 8, demo, polled, demo, rfl, rfl, by decide, rfl, rfl⟩

/-- A wait for the OUT port and one for the IN port with the counts specified, and the stuck state. -/
theorem witness_WaitingCommandChangesNothingElse_counts :
    (∃ w, seen (exec .flush { demo with wbuf := [true] }) (·.wait) = some (some w) ∧ w.status = .ok ∧
      writesStream .flush = true) ∧
    (waitRec.status = .ok ∧ demo.wlost = false ∧ demo.rlost = false ∧ demo.wbuf.length ≤ 63 ∧
      readsStream waitRec.instr = true ∧ waitRec.request = .inRead) ∧
    ∃ t w, exec .getzeroes (zeros (2 ^ 26) []) = .next t ∧ t.wait = some w ∧ w.request = .never := by
  refine ⟨⟨_, rfl, rfl, rfl⟩, by decide, ?_⟩
  obtain ⟨t, ht⟩ := countZeros_stuck (s := zeros (2 ^ 26) []) rfl (readable (fed [])) (readable_zeros (2 ^ 26) [])
  exact ⟨_, waitRecord .getzeroes .never t, by simp only [exec, execGetzeroes, ht]; rfl, rfl, rfl⟩

theorem witness_AnswerResumesWaitingCommand : ∃ (s q : State) (a : InAnswer) (b : OutAnswer) (w : PortWait),
    s.host = [.answerIn a] ∧ q.host = [.answerOut b] ∧ s.wait = some w ∧ q.wait = some w ∧
    ({ s with wait := none } : State).wait = none :=
  ⟨{ polled with host := [.answerIn .fail] },
    { polled with host := [.answerOut .fail] }, .fail, .fail, waitRec, rfl, rfl, rfl, rfl, rfl⟩

/-- Records with both counts and with neither. -/
theorem witness_BusyHostCanOnlyPoll : ∃ (s q : State) (w v : PortWait), s.wait = some w ∧ w.wcnt = some 0 ∧
    w.ravail = some 0 ∧ q.wait = some v ∧ v.wcnt = none ∧ v.ravail = none ∧
    ((4 : Nat), (0x00C : Word)) ≠ (4, 0x010) ∧ ((4 : Nat), (0x00C : Word)) ≠ (4, 0x014) :=
  ⟨polled, { demo with wait := some { waitRec with wcnt := none, ravail := none } }, waitRec, _, rfl, rfl, rfl, rfl,
    rfl, rfl, by decide, by decide⟩

theorem witness_CommandsNeverWriteOperands : ∃ (i : Instr) (s t : State), exec i s = .next t ∧ i ≠ .init ∧
    i ≠ .deinit := ⟨.clrstat, demo, { demo with status := .ok }, rfl, by decide, by decide⟩

theorem witness_OnlyDestinationBanksChange : ∃ (i : Instr) (s t : State) (k : Nat), exec i s = .next t ∧
    writesBank i k = false ∧ bank t 1 ≠ bank s 1 :=
  ⟨.fwd4 1 0, holding 0 upTo16, setBank 1 (fwd4 .seq (blockOf fun i => wrap32 (upTo16.getD i 0))) (holding 0 upTo16), 0,
    by rw [show exec (.fwd4 1 0) (holding 0 upTo16) = .next (setBank 1 (fwd4 .seq (bank (holding 0 upTo16) 0)) (holding 0 upTo16))
      from rfl]; congr 2, by decide, by decide⟩

/-- A command that returns no value, and one that ends in a failure. -/
theorem witness_ResultChangesOnlyWhereListed : ∃ (s t : State), exec .nop s = .next t ∧ returnsResult .nop = false ∧
    s.status = .ok ∧ ∃ q u : State, q.status = .ok ∧ exec (.getbits 0) q = .next u ∧ u.status ≠ .ok :=
  ⟨demo, demo, rfl, rfl, rfl, demo, { demo with status := .inval }, rfl, rfl, by decide⟩

theorem witness_OnlyListedCommandsChangeRef : ∃ (s t u : State), exec .nop s = .next t ∧ changesRef .nop = false ∧
    exec (.unpred 4 0 0) frame = .next u ∧ u.ref ≠ frame.ref ∧ ¬ (operandMb 4 frame).covers frame 4 := by
  refine ⟨demo, demo, writeRef (unpredCells (operandMb 4 frame) .zero frame fun k => bank frame (0 + k)) frame, rfl, rfl,
    rfl, by decide, ?_⟩
  rintro ⟨i, j, hi, hj, h⟩
  have key : ∀ i, i < 4 → ∀ j, j < 4 → ¬ 4 = sampleIndex frame (0 + j) (0 + i) := by decide
  exact key i hi j hj h

theorem witness_StreamsChangeOnlyWhereListed : ∃ s t u v : State, exec .nop s = .next t ∧
    writesStream .nop = false ∧ readsStream .nop = false ∧ exec .putones s = .next u ∧
    writesStream .putones = true ∧ exec (.getbits 8) s = .next v ∧ readsStream (.getbits 8) = true :=
  ⟨demo, demo, demo, polled, rfl, rfl, rfl, rfl, rfl, rfl, rfl⟩

theorem witness_FirstFailureStays : ∃ (s t u : State) (a : HostAction), s.wait = none ∧ s.status ≠ .ok ∧
    exec .nop s = .next t ∧ s.host = [a] ∧ a ≠ .reset ∧
    (∀ width addr w, a = .busWrite width addr w → decode w ≠ .ok .clrstat) ∧ step s = .next u :=
  ⟨{ demo with status := .eof, host := [.busWrite 4 0 0x10000000] },
    { demo with status := .eof, host := [.busWrite 4 0 0x10000000] }, { demo with status := .eof },
    .busWrite 4 0 0x10000000, rfl, by decide, rfl, rfl, by decide, by
      intro width addr w h; cases h; decide, rfl⟩

/-- Each code: NOMEM, EOF, IO_FAILED on reading and on writing. -/
theorem witness_StatusCodesHaveTheirCauses :
    demo.status = .ok ∧ seen (exec .init { demo with width := 32, height := 8 }) (·.status) = some .nomem ∧
    seen (exec (.getbits 8) (fed [[]])) (·.status) = some .eof ∧
    seen (exec (.getbits 1) { demo with ports := ⟨[], [.fail], [], []⟩ }) (·.status) = some .ioFailed ∧
    seen (exec .flush { accepting [.fail] with wbuf := [true] }) (·.status) = some .ioFailed := by decide

theorem witness_CommandsThatDoNothing : ∃ s : State, s.status ≠ .ok := ⟨{ demo with status := .noent }, by decide⟩

theorem witness_ClearingCommands : ∃ w : Word, fieldOPC w = 0x05 ∧ w ≠ 0x01000000 ∧ w ≠ 0x04000000 ∧ w ≠ 0x05000000 :=
  ⟨0x05000001, by decide⟩

/-- A frame at the limits, frames just beyond each, and each failing check. -/
theorem witness_InitLatchesGeometry :
    (fieldOPC 0x02000100 = 0x02 ∧ (0x02000100 : Word) ≠ 0x02000000) ∧ frame.inited = true ∧ demo.inited = false ∧
    demo.width.toNat = 0 ∧ ({ demo with width := 24, height := 4 } : State).width.toNat % 16 ≠ 0 ∧
    demo.cfg.maxW < ({ demo with width := 32, height := 4 } : State).width.toNat ∧
    demo.cfg.maxH < ({ demo with width := 16, height := 24 } : State).height.toNat ∧
    (let s : State := { demo with width := 16, height := 20 }
     s.width.toNat ≠ 0 ∧ s.height.toNat ≠ 0 ∧ s.width.toNat % 16 = 0 ∧ s.height.toNat % 4 = 0 ∧
     s.width.toNat ≤ s.cfg.maxW ∧ s.height.toNat ≤ s.cfg.maxH ∧
     s.width.toNat * s.height.toNat ≤ s.cfg.maxSamples) ∧
    (let s : State := { demo with width := 16, height := 20, cfg := { demo.cfg with maxSamples := 256 } }
     s.cfg.maxSamples < s.width.toNat * s.height.toNat) := by decide

theorem witness_DeinitReleasesFrame : ∃ s t : State, s.inited = false ∧ t.inited = true := ⟨demo, frame, rfl, rfl⟩

theorem witness_EmitBitTransfersFullBuffer :
    (demo.status = .ok ∧ demo.wlost = false ∧ ({ demo with wlost := true } : State).wlost = true) ∧
    ({ demo with wbuf := List.replicate 62 true } : State).wbuf.length + 1 ≠ 64 ∧
    ({ demo with wbuf := List.replicate 63 true } : State).wbuf.length + 1 = 64 ∧
    (accepting [.ok]).ports.outAnswers = .ok :: [] ∧ (accepting [.fail]).ports.outAnswers = .fail :: [] ∧
    demo.ports.outAnswers = [] := by decide

/-- PUTBITS at both ends of its range, and ARG0 at its largest for PUTEG: 61 bits. -/
theorem witness_PutCommandsAppendBits :
    (demo.status = .ok ∧ demo.wbuf.length ≤ 63) ∧ (1 ≤ (1 : Byte).toNat ∧ (31 : Byte).toNat ≤ 31) ∧
    acceptsBits 31 demo ∧ acceptsBits 1 { accepting [.ok] with wbuf := List.replicate 63 true } ∧
    acceptsBits demo.arg0.toNat demo ∧
    (let s : State := { demo with arg0 := 0x7FFFFFFE }
     s.arg0.toNat ≤ 2 ^ 31 - 2 ∧ acceptsBits (2 * bitlength (s.arg0.toNat + 1) - 1) s) := by
  unfold acceptsBits; decide

theorem witness_PutCommandsGoOnAfterFailure :
    putCount .putones { demo with arg0 := 64 } = some 64 ∧ demo.wbuf.length ≤ 63 ∧ demo.rbuf.length ≤ 64 ∧ demo.wait = none ∧
    (demo.wbuf.length + 64) / 64 ≤ (accepting [.fail]).ports.outAnswers.length ∧
    demo.ports.outAnswers.length < (demo.wbuf.length + 64) / 64 := by decide

theorem witness_FlushSendsBufferAndReturnsStatus :
    demo.wbuf = [] ∧ ({ demo with wbuf := List.replicate 63 true } : State).wbuf ≠ [] ∧
    ({ demo with wbuf := List.replicate 63 true } : State).wbuf.length ≤ 63 ∧ demo.rbuf.length ≤ 64 ∧
    demo.status = .ok ∧ demo.wlost = false ∧
    (accepting [.ok]).ports.outAnswers = .ok :: [] ∧ (accepting [.fail]).ports.outAnswers = .fail :: [] ∧
    ({ demo with status := .eof } : State).status ≠ .ok ∧ demo.ports.outAnswers = [] := by decide

theorem witness_GetbitsReadsMsbFirst :
    ¬ (1 ≤ (0 : Byte).toNat ∧ (0 : Byte).toNat ≤ 32) ∧ ¬ (1 ≤ (33 : Byte).toNat ∧ (33 : Byte).toNat ≤ 32) ∧
    (1 ≤ (32 : Byte).toNat ∧ (32 : Byte).toNat ≤ 32 ∧ (32 : Byte).toNat ≤ (readable (fed [[1, 2, 3, 4]])).length) ∧
    demo.status = .ok ∧ demo.rlost = false ∧ demo.wbuf.length ≤ 63 ∧
    ({ demo with status := .eof } : State).status ≠ .ok ∧
    ((readable (fed [[1], []])).length < (9 : Byte).toNat ∧ streamEnd (fed [[1], []]).ports.inAnswers = some .eof) ∧
    ((readable demo).length < (1 : Byte).toNat ∧ streamEnd demo.ports.inAnswers = none) := by decide

theorem witness_GetzeroesCountsZeros :
    (demo.rlost = false ∧ demo.wbuf.length ≤ 63 ∧ demo.status = .ok ∧ ({ demo with status := .eof } : State).status ≠ .ok) ∧
    readable (fed [[0x10]]) = List.replicate 3 false ++ true :: [false, false, false, false] ∧
    (readable (fed [[0], []]) = List.replicate 8 false ∧ streamEnd (fed [[0], []]).ports.inAnswers = some .eof) ∧
    (readable (fed [[0]]) = List.replicate 8 false ∧ streamEnd (fed [[0]]).ports.inAnswers = none) := by decide

/-- 2^26 IN transactions: 2^32 − 1 zero bits and a one-bit, the most GETZEROES counts, and 2^32 zero bits, where it (and
GETEG) is stuck. -/
theorem witness_GetzeroesCountsZeros_last :
    readable (zeros (2 ^ 26 - 1) [[0, 0, 0, 0, 0, 0, 0, 1]]) = List.replicate (2 ^ 32 - 1) false ++ true :: [] ∧
    readable (zeros (2 ^ 26) []) = List.replicate (2 ^ 32) false ++ [] := by
  have h : readable (fed [[0, 0, 0, 0, 0, 0, 0, 1]]) = List.replicate 63 false ++ [true] := by decide
  constructor
  · rw [readable_zeros, h, ← List.append_assoc, List.replicate_append_replicate]
    norm_num
  · rw [readable_zeros, show readable (fed []) = [] from rfl]
    norm_num

/-- Codes with no zero, with 31, with 32 and with 2^32 − 1, and codes cut short in the zeros and after the one-bit. -/
theorem witness_GetegReadsExpGolomb :
    (demo.rlost = false ∧ demo.wbuf.length ≤ 63 ∧ demo.status = .ok ∧ ({ demo with status := .eof } : State).status ≠ .ok) ∧
    (readable (fed [[0x80]]) = List.replicate 0 false ++ true :: ([] ++ List.replicate 7 false)) ∧
    (readable (fed [[0, 0, 0, 1, 0, 0, 0, 0]]) =
      List.replicate 31 false ++ true :: (List.replicate 31 false ++ [false])) ∧
    (readable (fed [[0, 0, 0, 0, 0x80]]) = List.replicate 32 false ++ true :: List.replicate 7 false) ∧
    (readable (fed [[0], []]) = List.replicate 8 false ∧ streamEnd (fed [[0], []]).ports.inAnswers = some .eof) ∧
    (readable (fed [[1]]) = List.replicate 7 false ++ true :: [] ∧ ([] : List Bool).length < 7 ∧
      streamEnd (fed [[1]]).ports.inAnswers = none) := by decide

theorem witness_StreamsAreIndependentOfBuffering :
    (demo.status = .ok ∧ demo.wlost = false ∧ demo.wbuf.length ≤ 63 ∧ (∀ a ∈ (accepting [.ok, .ok]).ports.outAnswers, a = .ok) ∧
      (demo.wbuf.length + (List.replicate 64 true).length) / 64 < (accepting [.ok, .ok]).ports.outAnswers.length) ∧
    ((fed [[1, 2]]).rlost = false ∧ readable (fed [[1, 2]]) = readable (fed [[1], [2]]) ∧ 16 ≤ (readable (fed [[1, 2]])).length) := by decide

theorem supplies_single (bytes : List Byte) : supplies (bytes.map fun b => .ok [b] (by simp)) bytes := by
  constructor
  · intro a ha
    simp only [List.mem_map] at ha
    obtain ⟨b, -, rfl⟩ := ha
    intro h
    have := congrArg List.length h
    simp [answerBits, bytesBits_length] at this
  · rw [List.flatMap_map]; simp

/-- A reader with an empty buffer whose host has answered with the given bytes, one a transaction. -/
def reading (bytes : List Byte) (s : State) : State :=
  { s with ports := ⟨[], bytes.map fun b => .ok [b] (by simp), [], []⟩, rbuf := [] }

theorem witness_ExpGolombRoundTrip : ∃ (s : State) (rest : List OutAnswer), s.status = .ok ∧ s.wbuf = [] ∧ s.wlost = false ∧
    s.arg0.toNat = 2 ^ 31 - 2 ∧ s.ports.outAnswers = .ok :: rest ∧
    ∀ bytes, ∃ r : State, r.status = .ok ∧ r.rbuf = [] ∧ r.rlost = false ∧ supplies r.ports.inAnswers bytes :=
  ⟨{ accepting [.ok] with arg0 := 0x7FFFFFFE }, [], rfl, rfl, rfl, by decide, rfl,
    fun bytes => ⟨reading bytes demo, rfl, rfl, rfl, supplies_single bytes⟩⟩

theorem witness_CoefficientCodeLength : ∃ c : List Int, c ≠ [] := ⟨[5], by decide⟩

/-- The last entry of the last bank. -/
theorem witness_EntencAppendsCoefficientCode :
    wellFormed (.entenc 31 15 1) = true ∧ demo.status = .ok ∧ demo.wbuf.length ≤ 63 ∧
    (∀ x ∈ (List.range 1).map fun k => (entry (bank (holding 31 [] demo) 31) (15 + k)).toInt, x ≠ -(2 ^ 31)) ∧
    acceptsBits (coefficientBits [0]).length demo := by
  unfold acceptsBits; decide

theorem witness_EntdecStoresDecodedVector :
    wellFormed (.entdec 31 15 1) = true ∧ demo.status = .ok ∧ demo.rlost = false ∧
    (readable { demo with rbuf := coefficientBits [-(2 ^ 31 - 1)] } = coefficientBits [-(2 ^ 31 - 1)] ++ [] ∧
      (-(2 ^ 31 - 1) : Int).natAbs ≤ 2 ^ 31 - 1) ∧
    ((1 : Byte).toNat < 2 ^ 32 - 2 ∧ 2 ^ 32 - 2 ≤ 2 ^ 32 - 2 ∧
      readable { demo with rbuf := egBits (2 ^ 32 - 2) } = egBits (2 ^ 32 - 2) ++ []) := by decide

theorem witness_EntdecStoresDecodedVector_next : ∃ s t : State, exec (.entdec 31 15 1) s = .next t := ⟨demo, _, rfl⟩

theorem witness_EntropyRoundTrip :
    wellFormed (.entenc 0 0 16) = true ∧ wellFormed (.entdec 31 0 16) = true ∧
    (accepting (List.replicate 64 .ok)).status = .ok ∧ (accepting (List.replicate 64 .ok)).wbuf = [] ∧
    (accepting (List.replicate 64 .ok)).wlost = false ∧
    (∀ k, k < 16 → (entry (bank (accepting (List.replicate 64 .ok)) 0) (0 + k)).toInt ≠ -(2 ^ 31)) ∧
    (∀ a ∈ (accepting (List.replicate 64 .ok)).ports.outAnswers, a = .ok) ∧
    64 ≤ (accepting (List.replicate 64 .ok)).ports.outAnswers.length := by decide

/-- A reader for it. -/
theorem witness_EntropyRoundTrip_reader (bytes : List Byte) :
    ∃ r : State, r.status = .ok ∧ r.rbuf = [] ∧ r.rlost = false ∧ supplies r.ports.inAnswers bytes :=
  ⟨reading bytes demo, rfl, rfl, rfl, supplies_single bytes⟩

theorem witness_bankOperands : (31 : Byte).toNat < 32 ∧ (0 : Byte).toNat < 32 ∧ demo.cfg.kernel = .seq ∧
    ({ demo with cfg := { demo.cfg with kernel := .h264 } } : State).cfg.kernel = .h264 := by decide

/-- Transforms run one after another from the same states as TransformLaws, on the grid [1, 1, 0, …]. -/
theorem witness_TransformLaws : ∃ s t u v t1 u1 t2 u2 : State, s.cfg.kernel = .seq ∧
    exec (.fwd4 1 0) s = .next t1 ∧ exec (.inv4 2 1) t1 = .next u1 ∧
    exec (.had4 1 0) s = .next t ∧ exec (.ihad4 2 1) t = .next u ∧ exec (.bdiv 3 2 8) u = .next v ∧
    exec (.had2 1 0) s = .next t2 ∧ exec (.had2 2 1) t2 = .next u2 ∧
    ((List.range 16).map fun i => entryInt (bank s 0) i).sum % 2 = 0 ∧
    ∀ i, i < 16 → (entryInt (bank s 0) i).natAbs < 2 ^ 24 :=
  ⟨holding 0 [1, 1], _, _, _, _, _, _, _, rfl, rfl, rfl, rfl, rfl, rfl, rfl, rfl, by decide, by decide⟩

theorem witness_DcGridQuantization : ((1 : Byte) = 1 ∧ (4 : Byte) = 4 ∧ (16 : Byte) = 16) ∧ (31 : Byte).toNat < 32 := by
  decide

theorem witness_GatherAndScatterDc : (31 : Byte).toNat < 32 ∧ (16 : Byte).toNat + (16 : Byte).toNat ≤ 32 ∧
    (31 : Byte).toNat + (1 : Byte).toNat ≤ 32 := by decide

theorem witness_BdivTruncates : 1 ≤ (1 : Byte).toNat ∧ 1 ≤ (255 : Byte).toNat ∧ (31 : Byte).toNat < 32 := by decide

theorem witness_QuantizationProperties : ∃ s t u v w : State, demo.cfg.legal = true ∧ s.cfg.legal = true ∧
    exec (.dequant4 1 0) s = .next t ∧ exec (.quant4 2 1) t = .next u ∧
    exec (.dequantdc 1 0 4) s = .next v ∧ exec (.quantdc 2 1 4) v = .next w ∧
    (∀ p, p < 16 → -(2 ^ 31) ≤ entryInt (bank s 0) (zz4 p) * qtab s.cfg p ∧
      entryInt (bank s 0) (zz4 p) * qtab s.cfg p < 2 ^ 31) ∧
    (∀ p, p < 4 → -(2 ^ 31) ≤ entryInt (bank s 0) p * qtab s.cfg 0 ∧
      entryInt (bank s 0) p * qtab s.cfg 0 < 2 ^ 31) :=
  ⟨holding 0 upTo16, _, _, _, _, by decide, by decide, rfl, rfl, rfl, rfl, by decide, by decide⟩

theorem witness_PredictorValues (m : Mode) : ∃ (mb : Mb) (s : State), 0 < mb.size ∧ modeAllowed m mb.x mb.y ∧
    NeighboursWritten m mb s :=
  ⟨⟨4, 4, 4⟩, inside fun _ => [], by decide, by cases m <;> simp [modeAllowed], neighbours_inside m _⟩

theorem witness_PredselReturnsSelectedMode :
    (MbLegal 4 frame ∧ frame.arg0 = 0) ∧ ∃ s : State, MbLegal 4 s ∧ SourceWritten (operandMb 4 s) s ∧
      NeighboursWritten .dc (operandMb 4 s) s ∧ NeighboursWritten .horizontal (operandMb 4 s) s ∧
      NeighboursWritten .vertical (operandMb 4 s) s :=
  ⟨⟨mbLegal_frame, rfl⟩, _, mbLegal_inside, source_inside, neighbours_inside _ _, neighbours_inside _ _,
    neighbours_inside _ _⟩

/-- PREDRES, UNPRED and their round trip: every mode at (4, 4), the last bank. -/
theorem witness_PredresFormsResidual (mode : Mode) : ∃ (m b : Byte) (s : State), MbLegal 4 s ∧ m.toNat = mode.toCode ∧
    modeAllowed mode s.arg0.toNat s.arg1.toNat ∧ b.toNat + ((4 : Byte).toNat / 4) * ((4 : Byte).toNat / 4) = 32 ∧
    SourceWritten (operandMb 4 s) s ∧ NeighboursWritten mode (operandMb 4 s) s :=
  ⟨BitVec.ofNat 8 mode.toCode, 31, inside fun _ => [20, 30, 40, 50], mbLegal_inside, by cases mode <;> decide,
    by cases mode <;> simp [modeAllowed, inside], by decide, source_inside, neighbours_inside _ _⟩

theorem witness_TilesPartitionTheFrame : 16 % 16 = 0 ∧ 20 % 4 = 0 ∧ (tiles 16 20)[4]? = some ⟨12, 16, 4⟩ ∧ 15 < 16 ∧
    19 < 20 := by decide

theorem witness_NeighboursComeEarlier : (tiles 16 20)[4]? = some ⟨12, 16, 4⟩ ∧
    (15 + 1 = 16 ∧ 12 ≤ 11 + 1 ∧ 11 < 12 + 4) ∧ (11 + 1 = 12 ∧ 16 ≤ 19 ∧ 19 < 16 + 4) := by decide

theorem witness_MbencWritesMacroblock : ∃ s : State, MbLegal 4 s ∧ s.cfg.legal = true ∧ s.status = .ok ∧
    s.wbuf.length ≤ 63 ∧ SourceWritten (operandMb 4 s) s ∧
    (∀ m, modeAllowed m s.arg0.toNat s.arg1.toNat → NeighboursWritten m (operandMb 4 s) s) ∧
    acceptsBits (macroblockBits s.cfg .vertical (residualBlocks .vertical (operandMb 4 s) s)).length s := by
  refine ⟨inside fun _ => [20, 30, 40, 50], mbLegal_inside, by decide, rfl, by decide, source_inside,
    fun m _ => neighbours_inside m _, ?_⟩
  unfold acceptsBits; decide +kernel

/-- The most negative residual. -/
def darkest : List Block := [blockOf fun _ => wrap32 (-255)]

/-- A reader that holds the code of a macroblock with that residual. -/
def coded : State := { inside (fun _ => []) with rbuf := macroblockBits (inside fun _ => []).cfg .vertical darkest }

theorem witness_MbdecReadsMacroblock : ∃ (m : Mode) (rs : List Block) (s : State), MbLegal 4 s ∧
    s.cfg.legal = true ∧ s.status = .ok ∧ s.rlost = false ∧ modeAllowed m s.arg0.toNat s.arg1.toNat ∧
    NeighboursWritten m (operandMb 4 s) s ∧ rs.length = ((4 : Byte).toNat / 4) * ((4 : Byte).toNat / 4) ∧
    (∀ r ∈ rs, ∀ e, e < 16 → (entryInt r e).natAbs ≤ 255) ∧ readable s = macroblockBits s.cfg m rs ++ [] := by
  refine ⟨.vertical, darkest, coded, ⟨by decide, rfl, rfl, rfl, by decide, by decide⟩, by decide, rfl, rfl,
    by simp [modeAllowed, coded, inside], neighbours_inside .vertical fun _ => [], rfl, ?_, ?_⟩
  · intro r hr
    rw [List.mem_singleton.1 hr]
    decide
  · rw [readable_of_rbuf coded rfl, List.append_nil, coded]

/-- Codes that are no encoder's: a coefficient of −(2^31 − 1). -/
def deep : MbCodes := { blank .none 1 with dc := [-(2 ^ 31 - 1)] }

theorem witness_MbdecReadsMacroblock_codes : ∃ (z : MbCodes) (s : State), MbLegal 4 s ∧ s.cfg.legal = true ∧
    s.status = .ok ∧ s.rlost = false ∧ z.Legal (operandMb 4 s) ∧ NeighboursWritten z.mode (operandMb 4 s) s ∧
    readable s = z.bits ++ [] := by
  have hz := blank_legal (m := .none) (mb := ⟨0, 0, 4⟩) trivial
  refine ⟨deep, { frame with rbuf := deep.bits, ports := demo.ports }, ⟨.inl rfl, rfl, rfl, rfl, by decide, by decide⟩, by decide, rfl, rfl,
    ⟨trivial, by decide, hz.acLength, by decide, hz.acRange, ?_⟩, trivial, ?_⟩
  · intro x hx; rw [List.mem_singleton.1 hx]; decide
  · rw [readable_of_rbuf _ rfl, List.append_nil]

/-- MBENC, MBDEC, FRAMEENC and FRAMEDEC that end in a failure. -/
theorem witness_FailedMacroblockLeavesRef : demo.wait = none ∧
    seen (exec (.mbdec 4) { frame with ports := (fed [[]]).ports }) (fun t => (t.wait, t.status)) = some (none, .eof) ∧
    seen (exec (.mbenc 4) { frame with ports := (accepting [.fail]).ports, wbuf := List.replicate 63 true })
      (fun t => (t.wait, t.status)) = some (none, .ioFailed) ∧
    seen (exec .framedec { frame with ports := (fed [[]]).ports }) (fun t => (t.wait, t.status)) = some (none, .eof) := by
  decide

/-- FRAMEENC and FRAMEDEC that abort after the first macroblock, of a frame that meets Inv. -/
theorem witness_FailedMacroblockLeavesRef_frames : Inv frame ∧ frame.inited = true ∧ frame.status = .ok ∧
    seen (exec .frameenc { frame with ports := (accepting [.fail]).ports }) (fun t => (t.wait, t.status)) =
      some (none, .ioFailed) ∧
    seen (exec .framedec { frame with ports := (fed [[0x82, 0x84, 0x14, 0x34, 0x40, 0x25, 0xD0], []]).ports })
      (fun t => (t.wait, t.status, t.result, t.ref.length)) = some (none, .eof, 1, 16) :=
  ⟨inv_frame, rfl, rfl, by decide +kernel⟩

theorem frame_written : FrameWritten frame := by
  have h : ∀ a, a < 64 → (memRead frame.src a).isSome := by decide
  exact h

theorem witness_FrameencCompletes : ∃ s : State, Inv s ∧ s.inited = true ∧ s.status = .ok ∧ FrameWritten s ∧
    ∀ n, ∃ (ports : Ports) (wbuf : List Bool) (ref : Memory), wbuf.length ≤ 63 ∧
      acceptsBits n { s with ports := ports, wbuf := wbuf, ref := ref } :=
  ⟨frame, inv_frame, rfl, rfl, frame_written, fun n => ⟨⟨List.replicate n .ok, [], [], []⟩, [], [], by decide, by
    simp only [acceptsBits, List.length_nil, Nat.zero_add, List.take_replicate]
    rw [Nat.min_eq_left (Nat.div_le_self n 64)]⟩⟩

/-- The frame encodes and flushes with STATUS = OK, and a reader gets what was sent. -/
theorem witness_ClosedLoop : ∃ s t u r : State, Inv s ∧ s.inited = true ∧ s.status = .ok ∧ s.wait = none ∧
    s.wbuf = [] ∧ s.wlost = false ∧ exec .frameenc s = .next t ∧ t.wait = none ∧ t.status = .ok ∧ exec .flush t = .next u ∧
    u.wait = none ∧ u.status = .ok ∧ Inv r ∧ r.inited = true ∧ r.status = .ok ∧ r.wait = none ∧ r.rbuf = [] ∧
    r.rlost = false ∧ r.fw = s.fw ∧ r.fh = s.fh ∧ r.cfg.qtab = s.cfg.qtab ∧ r.cfg.kernel = s.cfg.kernel ∧
    supplies r.ports.inAnswers (newOutBytes s u) := by
  have h : (seen (exec .frameenc frame) fun t => (t.wait, t.status, seen (exec .flush t) fun u => (u.wait, u.status))) =
      some (none, .ok, some (none, .ok)) := by decide +kernel
  cases ht : exec .frameenc frame with
  | next t =>
    rw [ht] at h
    simp only [seen, Option.some.injEq, Prod.mk.injEq] at h
    cases hu : exec .flush t with
    | next u =>
      rw [hu] at h
      simp only [Option.some.injEq, Prod.mk.injEq] at h
      exact ⟨frame, t, u, reading (newOutBytes frame u) frame, inv_frame, rfl, rfl, rfl, rfl, rfl, ht, h.1, h.2.1, hu,
        h.2.2.1, h.2.2.2, ⟨inv_frame.params, inv_frame.wcnt, Nat.zero_le _, inv_frame.srcForm, inv_frame.refForm,
          inv_frame.srcRange, inv_frame.refRange, inv_frame.geometry, inv_frame.ports, fun w h => by cases h⟩, rfl, rfl,
        rfl, rfl, rfl, rfl, rfl, rfl, rfl, supplies_single _⟩
    | fault f => rw [hu] at h; simp at h
    | refused f => rw [hu] at h; simp at h
  | fault f => rw [ht] at h; simp [seen] at h
  | refused f => rw [ht] at h; simp [seen] at h

/-- A key-frame flag of 0; and one of 1 with a blank macroblock for each of the frame's four. -/
theorem witness_FramedecReadsFrame : ∃ (s q : State) (rest : List Bool) (zs : List MbCodes), s.status = .ok ∧
    s.inited = true ∧ s.rlost = false ∧ readable s = false :: rest ∧ q.status = .ok ∧ q.inited = true ∧
    q.rlost = false ∧ Inv q ∧ zs.length = (tiles q.fw.toNat q.fh.toNat).length ∧
    CodesLegal (tiles q.fw.toNat q.fh.toNat) zs ∧ readable q = true :: codesBits zs ++ [] := by
  refine ⟨{ frame with ports := (fed [[0x7F]]).ports },
    { frame with ports := demo.ports, rbuf := true :: codesBits (List.replicate 4 (blank .none 1)) },
    List.replicate 7 true, List.replicate 4 (blank .none 1), rfl, rfl, rfl, by decide, rfl, rfl, rfl,
    ⟨inv_frame.params, inv_frame.wcnt, by decide, inv_frame.srcForm, inv_frame.refForm, inv_frame.srcRange,
      inv_frame.refRange, inv_frame.geometry, inv_frame.ports, fun w h => by cases h⟩, by decide, ?_, ?_⟩
  · intro mb z h
    have hm : ∀ mb ∈ tiles frame.fw.toNat frame.fh.toNat, mb.subs = 1 := by decide
    obtain ⟨h1, h2⟩ := List.of_mem_zip h
    rw [List.eq_of_mem_replicate h2, ← hm mb h1]
    exact blank_legal trivial
  · rw [readable_of_rbuf _ rfl, List.append_nil]

end Sys2Proof.Tests
end

section
/-! Waiting at a port (R19, R76, R318, R344): what the record of a wait holds, and how the host's answer takes the
command up again. -/

namespace Sys2Proof.Machine

variable {i : Instr} {s t u : State} {req : PortRequest}

/-! ### The next state of a command -/

theorem Finished.wait_eq (h : Finished i s t) : t.wait = s.wait := by
  obtain ⟨u, hu, ht, -⟩ := h.moved
  rw [ht]
  exact hu.wait_eq

theorem setup_wait (hi : isSetup i = true) (h : exec i s = .next t) : t.wait = s.wait := by
  obtain ⟨-, rfl⟩ | ⟨-, rfl⟩ | ⟨-, rfl⟩ | ⟨-, rfl | ⟨rfl, -⟩ | ⟨rfl, -⟩⟩ | ⟨-, rfl | ⟨_, _, rfl⟩⟩ := setup_next hi h
  · rfl
  · rfl
  · rfl
  · exact record_wait ..
  · exact record_wait ..
  · rfl
  · rfl
  · rfl

/-- A command with a next state waits, or leaves the record of a wait alone. -/
theorem exec_waited_or_wait_eq (h : exec i s = .next t) : Waited i s t ∨ t.wait = s.wait := by
  cases hi : isSetup i with
  | true => exact .inr (setup_wait hi h)
  | false => exact (exec_effect hi h).imp_right Finished.wait_eq

/-! ### What a command waits for, and the counts it shows -/

theorem Waits.request_cases (h : Waits (writesStream i) (readsStream i) s req u) :
    (∃ bytes, req = .outWrite bytes ∧ writesStream i = true ∧ u.ports.outAnswers = []) ∨
      (req = .inRead ∧ readsStream i = true ∧ u.ports.inAnswers = []) ∨ (req = .never ∧ readsStream i = true) := by
  obtain ⟨hw, ⟨bytes, hreq⟩, hdry⟩ | ⟨hr, hreq, hdry⟩ | ⟨hr, hreq⟩ := h.dry
  · exact .inl ⟨bytes, hreq, hw, hdry⟩
  · exact .inr (.inl ⟨hreq, hr, hdry⟩)
  · exact .inr (.inr ⟨hreq, hr⟩)

/-- Until a failure is recorded, the marks of unspecified buffers are as they were (U4). -/
theorem Waits.lost_eq {w r : Bool} (h : Waits w r s req u) (hok : u.status = .ok) :
    u.wlost = s.wlost ∧ u.rlost = s.rlost :=
  h.lost.resolve_right fun ⟨_, _, hne⟩ => hne hok

theorem Waits.ravail_of_writer (h : Waits (writesStream i) (readsStream i) s req u) (hi : writesStream i = true)
    (hr : u.rlost = false) : (waitRecord i req u).ravail = some s.rbuf.length := by
  have hreads := writes_not_reads hi
  have hreq : req ≠ .never := by
    rintro rfl
    simpa [hreads] using h.dry
  simp [waitRecord, hr, hreq, h.rkept hreads]

theorem Waits.wcnt_of_reader (h : Waits (writesStream i) (readsStream i) s req u) (hi : readsStream i = true)
    (hw : u.wlost = false) (hlen : s.wbuf.length ≤ 63) : (waitRecord i req u).wcnt = some s.wbuf.length := by
  have hfull : s.wbuf.length ≠ 64 := by omega
  simp [waitRecord, hw, h.wkept (reads_not_writes hi), hfull]

theorem Waits.ravail_of_inRead {w r : Bool} (h : Waits w r s .inRead u) (hr : u.rlost = false) :
    (waitRecord i .inRead u).ravail = some 0 := by
  simp [waitRecord, hr, h.rdry rfl]

/-! ### The host's answer -/

theorem step_of_host {a : HostAction} {rest : List HostAction} (h : s.host = a :: rest) :
    step s = hostMove a { s with host := rest } := by
  simp [step, h]

theorem resume_of_wait {w : PortWait} (h : s.wait = some w) : resume s = exec w.instr { s with wait := none } := by
  simp [resume, h]

theorem resume_of_idle (h : s.wait = none) : resume s = .next s := by
  simp [resume, h]

/-! ### The obligations -/

/-- Settles O12: what waits is the `Waited` of exec_effect, whose `Waits` gives the request, the transactions and the
counts of the record. -/
theorem waitingCommandChangesNothingElse : Obligations.WaitingCommandChangesNothingElse := by
  intro i s t hidle h
  obtain ⟨req, u, hwaits, ht⟩ | hkept := exec_waited_or_wait_eq h
  · refine .inr ⟨waitRecord i req u, ht, rfl, hwaits.outGrows, hwaits.inGrows, hwaits.request_cases, ?_⟩
    intro hok hwl hrl hlen
    obtain ⟨hw, hr⟩ := hwaits.lost_eq hok
    refine ⟨fun hi => hwaits.ravail_of_writer hi (hr.trans hrl), fun hi =>
      ⟨hwaits.wcnt_of_reader hi (hw.trans hwl) hlen, ?_⟩⟩
    rintro rfl
    exact hwaits.ravail_of_inRead (hr.trans hrl)
  · exact .inl (hkept.trans hidle)

/-- Settles O13: an answer is queued and `resume` runs the command that waits, if one does. -/
theorem answerResumesWaitingCommand : Obligations.AnswerResumesWaitingCommand := by
  refine fun s rest => ⟨fun a w hh hw => ?_, fun a w hh hw => ?_, fun a hh hw => ?_, fun a hh hw => ?_⟩
  · exact (step_of_host hh).trans (resume_of_wait hw)
  · exact (step_of_host hh).trans (resume_of_wait hw)
  · exact (step_of_host hh).trans (resume_of_idle hw)
  · exact (step_of_host hh).trans (resume_of_idle hw)

end Sys2Proof.Machine
end

section
/-! What the commands leave alone (R33 to R35, R41, R45 to R47, R51), read off the effect that a command can have. -/

namespace Sys2Proof.Machine

variable {i : Instr} {s t : State}

/-! ### The frame of a command -/

/-- What a command that has finished, but for the set-up commands, can have changed. -/
theorem Finished.only (h : Finished i s t) : t = { s with
    status := t.status, result := t.result, banks := t.banks, wbuf := t.wbuf, rbuf := t.rbuf, wlost := t.wlost,
    rlost := t.rlost, ports := t.ports, draws := t.draws, ref := t.ref } := by
  obtain ⟨u, hu, ht, -⟩ := h.moved
  rw [ht]
  conv_lhs => rw [hu.only]

/-- What a set-up command can have changed, and which of them changes it (R291, R293 to R296). -/
structure SetUp (i : Instr) (s t : State) : Prop where
  only : t = { s with
    status := t.status, fw := t.fw, fh := t.fh, inited := t.inited, ref := t.ref, wbuf := t.wbuf, rbuf := t.rbuf,
    wlost := t.wlost, rlost := t.rlost, draws := t.draws }
  frame : i ≠ .init → i ≠ .deinit → t.fw = s.fw ∧ t.fh = s.fh ∧ t.inited = s.inited ∧ t.ref = s.ref
  writer : i ≠ .wrinit → t.wbuf = s.wbuf ∧ t.wlost = s.wlost
  reader : i ≠ .rdinit → t.rbuf = s.rbuf ∧ t.rlost = s.rlost

theorem SetUp.of_status (c : Status) : SetUp i s { s with status := c } where
  only := rfl
  frame _ _ := ⟨rfl, rfl, rfl, rfl⟩
  writer _ := ⟨rfl, rfl⟩
  reader _ := ⟨rfl, rfl⟩

theorem SetUp.of_record (c : Status) : SetUp i s (record c s) := by
  unfold record
  split <;> exact .of_status _

theorem setup_effect (hi : isSetup i = true) (h : exec i s = .next t) : SetUp i s t := by
  obtain ⟨-, rfl⟩ | ⟨rfl, rfl⟩ | ⟨rfl, rfl⟩ | ⟨rfl, rfl | ⟨rfl, -⟩ | ⟨rfl, -⟩⟩ | ⟨rfl, rfl | ⟨_, _, rfl⟩⟩ :=
    setup_next hi h
  · exact .of_status _
  · exact ⟨rfl, fun _ _ => ⟨rfl, rfl, rfl, rfl⟩, fun h => absurd rfl h, fun _ => ⟨rfl, rfl⟩⟩
  · exact ⟨rfl, fun _ _ => ⟨rfl, rfl, rfl, rfl⟩, fun _ => ⟨rfl, rfl⟩, fun h => absurd rfl h⟩
  · exact .of_record _
  · exact .of_record _
  · exact ⟨rfl, fun h => absurd rfl h, fun _ => ⟨rfl, rfl⟩, fun _ => ⟨rfl, rfl⟩⟩
  · exact .of_status _
  · exact ⟨rfl, fun _ h => absurd rfl h, fun _ => ⟨rfl, rfl⟩, fun _ => ⟨rfl, rfl⟩⟩

/-- The three ways a command can have a next state. -/
theorem exec_outcome (h : exec i s = .next t) : Waited i s t ∨ Finished i s t ∨ SetUp i s t := by
  cases hi : isSetup i with
  | true => exact .inr (.inr (setup_effect hi h))
  | false => exact (exec_effect hi h).imp_right .inl

/-! ### Where REF and the stream's buffers stay -/

theorem reach_eq_nowhere (hi : changesRef i = false) : reach i s = nowhere := by
  cases i with
  | unpred _ _ _ | mbenc _ | mbdec _ | frameenc | framedec => cases hi
  | _ => rfl

theorem Finished.ref_eq (h : Finished i s t) (hi : changesRef i = false) : t.ref = s.ref := by
  obtain ⟨u, hu, ht, -⟩ := h.moved
  rw [ht]
  exact hu.refSame fun a ha => by rwa [reach_eq_nowhere hi] at ha

theorem Finished.memRead_ref (h : Finished i s t) {a : Nat} (ha : ¬ reach i s a) :
    memRead t.ref a = memRead s.ref a := by
  obtain ⟨u, hu, ht, -⟩ := h.moved
  rw [ht]
  exact hu.refRead a ha

/-- A buffer z that a command does not use, where it has run to buffer y: it is the x it was, with its mark, or the mark
b has been set while the command ran. -/
theorem buffer_kept_or_lost {x y z : List Bool} {a b : Bool} {failed inRange : Prop}
    (hset : z = y ∨ b = true ∧ (a = true → false = true) ∧ inRange) (hbuf : y = x) (hlost : b = a ∨ b = true ∧ failed) :
    z = x ∧ b = a ∨ a = false ∧ failed := by
  have hkept : a = b → z = x := fun e =>
    hset.elim (fun h => h.trans hbuf) fun ⟨hb, hno, _⟩ => nomatch hno (e.trans hb)
  rcases hlost with e | ⟨hb, hfail⟩
  · exact .inl ⟨hkept e.symm, e⟩
  · cases a with
    | true => exact .inl ⟨hkept hb.symm, hb⟩
    | false => exact .inr ⟨rfl, hfail⟩

/-- A command that does not write the stream leaves the OUT port, and the writer's buffer unless a failure while it ran
has made the buffers unspecified (U4). -/
theorem Finished.writer_kept (h : Finished i s t) (hi : writesStream i = false) :
    t.ports.outAnswers = s.ports.outAnswers ∧ t.ports.outLog = s.ports.outLog ∧
      (t.wbuf = s.wbuf ∧ t.wlost = s.wlost ∨ s.wlost = false ∧ t.wlost = true ∧ t.rlost = true ∧ t.status ≠ .ok) := by
  obtain ⟨u, hu, ht, hset⟩ := h.moved
  obtain ⟨hbuf, hans, hlog⟩ := hu.noWrite hi
  have hkept := buffer_kept_or_lost (hi ▸ hset.wbuf) hbuf (hu.lost.imp And.left fun h => ⟨h.1, h⟩)
  rw [ht]
  exact ⟨hans, hlog, hkept⟩

/-- The same of a command that does not read the stream. -/
theorem Finished.reader_kept (h : Finished i s t) (hi : readsStream i = false) :
    t.ports.inAnswers = s.ports.inAnswers ∧ t.ports.inLog = s.ports.inLog ∧
      (t.rbuf = s.rbuf ∧ t.rlost = s.rlost ∨ s.rlost = false ∧ t.wlost = true ∧ t.rlost = true ∧ t.status ≠ .ok) := by
  obtain ⟨u, hu, ht, hset⟩ := h.moved
  obtain ⟨hbuf, hans, hlog⟩ := hu.noRead hi
  have hkept := buffer_kept_or_lost (hi ▸ hset.rbuf) hbuf (hu.lost.imp And.right fun h => ⟨h.2.1, h⟩)
  rw [ht]
  exact ⟨hans, hlog, hkept⟩

/-- A command that uses neither port makes no transaction and sets no mark (R51). -/
theorem Finished.stream_kept (h : Finished i s t) (hw : writesStream i = false) (hr : readsStream i = false) :
    t.ports = s.ports ∧ (t.wbuf = s.wbuf ∧ t.wlost = s.wlost) ∧ (t.rbuf = s.rbuf ∧ t.rlost = s.rlost) := by
  obtain ⟨u, hu, ht, -⟩ := h.moved
  have e := hu.quiet hw hr
  have hwl : t.wlost = s.wlost := by rw [ht, e]
  have hrl : t.rlost = s.rlost := by rw [ht, e]
  refine ⟨by rw [ht, e], ?_, ?_⟩
  · refine (h.writer_kept hw).2.2.resolve_right fun ⟨h1, h2, _⟩ => ?_
    rw [hwl, h1] at h2; cases h2
  · refine (h.reader_kept hr).2.2.resolve_right fun ⟨h1, _, h2, _⟩ => ?_
    rw [hrl, h1] at h2; cases h2

/-- A command that waits uses a port. -/
theorem Waited.uses_port (h : Waited i s t) : writesStream i = true ∨ readsStream i = true := by
  obtain ⟨req, u, hwaits, -⟩ := h
  rcases hwaits.dry with ⟨h, -⟩ | ⟨h, -⟩ | ⟨h, -⟩
  · exact .inl h
  · exact .inr h
  · exact .inr h

/-! ### The obligations -/

/-- Settles O15: a command that waits or finishes, and a set-up command, leave the operands. -/
theorem commandsNeverWriteOperands : Obligations.CommandsNeverWriteOperands := by
  intro i s t h
  rcases exec_outcome h with ⟨req, u, -, rfl⟩ | hfin | hset
  · exact ⟨rfl, rfl, rfl, rfl, rfl, rfl, rfl, rfl, fun _ _ => ⟨rfl, rfl, rfl⟩⟩
  · rw [hfin.only]
    exact ⟨rfl, rfl, rfl, rfl, rfl, rfl, rfl, rfl, fun _ _ => ⟨rfl, rfl, rfl⟩⟩
  · rw [hset.only]
    refine ⟨rfl, rfl, rfl, rfl, rfl, rfl, rfl, rfl, fun h1 h2 => ?_⟩
    obtain ⟨hfw, hfh, hinit, -⟩ := hset.frame h1 h2
    exact ⟨hfw, hfh, hinit⟩

/-- Settles O16: only a command that has finished changes banks, its destinations. -/
theorem onlyDestinationBanksChange : Obligations.OnlyDestinationBanksChange := by
  intro i s t k h hk
  rcases exec_outcome h with ⟨req, u, -, rfl⟩ | hfin | hset
  · rfl
  · exact hfin.banks k hk
  · exact bank_congr (by rw [hset.only]) k

/-- Settles O17: RESULT is set only by a command that finishes, and not when it fails. -/
theorem resultChangesOnlyWhereListed : Obligations.ResultChangesOnlyWhereListed := by
  intro i s t h
  rcases exec_outcome h with ⟨req, u, -, rfl⟩ | hfin | hset
  · exact ⟨fun _ => rfl, fun _ _ _ _ _ => rfl⟩
  · exact ⟨hfin.result, hfin.failure⟩
  · have hres : t.result = s.result := by rw [hset.only]
    exact ⟨fun _ => hres, fun _ _ _ _ _ => hres⟩

/-- Settles O18: a command changes REF inside its reach, and only when it finishes. -/
theorem onlyListedCommandsChangeRef : Obligations.OnlyListedCommandsChangeRef := by
  intro i s t h
  rcases exec_outcome h with ⟨req, u, -, rfl⟩ | hfin | hset
  · exact ⟨fun _ => rfl, fun _ _ _ _ _ _ => rfl⟩
  · refine ⟨hfin.ref_eq, fun sz m b hi a ha => hfin.memRead_ref ?_⟩
    have hreach : reach i s = (operandMb sz s).covers s := by rcases hi with rfl | rfl | rfl <;> rfl
    rwa [hreach]
  · have href : i ≠ .init → i ≠ .deinit → t.ref = s.ref := fun h1 h2 => (hset.frame h1 h2).2.2.2
    refine ⟨fun hi => href ?_ ?_, fun sz m b hi a _ => ?_⟩
    · rintro rfl; cases hi
    · rintro rfl; cases hi
    · rw [href (by rcases hi with rfl | rfl | rfl <;> nofun) (by rcases hi with rfl | rfl | rfl <;> nofun)]

/-- Settles O19: a command that waits leaves every buffer; one that finishes keeps the side it does not use. -/
theorem streamsChangeOnlyWhereListed : Obligations.StreamsChangeOnlyWhereListed := by
  intro i s t h
  rcases exec_outcome h with hwait | hfin | hset
  · refine ⟨fun h1 h2 => ?_, fun _ => ?_, fun _ => ?_⟩
    · rcases hwait.uses_port with h | h
      · rw [h1] at h; cases h
      · rw [h2] at h; cases h
    · obtain ⟨req, u, -, rfl⟩ := hwait
      exact ⟨rfl, rfl, .inl ⟨rfl, rfl⟩⟩
    · obtain ⟨req, u, -, rfl⟩ := hwait
      exact ⟨rfl, rfl, .inl ⟨rfl, rfl⟩⟩
  · refine ⟨fun h1 h2 => ?_, fun h1 => hfin.reader_kept (writes_not_reads h1), fun h1 =>
      hfin.writer_kept (reads_not_writes h1)⟩
    obtain ⟨hports, hw, hr⟩ := hfin.stream_kept h1 h2
    exact ⟨hports, hfin.wait_eq, fun _ => hw, fun _ => hr⟩
  · have hports : t.ports = s.ports := by rw [hset.only]
    refine ⟨fun _ _ => ⟨hports, by rw [hset.only], hset.writer, hset.reader⟩, fun hi => ?_, fun hi => ?_⟩
    · exact ⟨by rw [hports], by rw [hports], .inl (hset.reader (by rintro rfl; cases hi))⟩
    · exact ⟨by rw [hports], by rw [hports], .inl (hset.writer (by rintro rfl; cases hi))⟩

end Sys2Proof.Machine
end

section
/-! The invariant (R9, R37 to R46, R80, R82, R293, R340): which samples a host access and a command can reach, and why
every command and every move of the host keeps what `Inv` says. -/

namespace Sys2Proof.Machine

variable {i : Instr} {s t : State}

/-! ### The samples an address reaches (R74, R75) -/

theorem wordTarget_ne_sample (a k : Nat) : wordTarget a ≠ .src k ∧ wordTarget a ≠ .ref k := by
  unfold wordTarget
  split_ifs <;> exact ⟨nofun, nofun⟩

theorem target_src_lt {width a k : Nat} (h : target width a s = some (.src k)) : k < s.cfg.maxSamples := by
  unfold target at h
  split at h
  · split at h
    · exact absurd (Option.some.inj h) (wordTarget_ne_sample ..).1
    · cases h
  · split at h
    · split at h
      · simp only [Option.some.injEq, Target.src.injEq] at h
        omega
      · split at h <;> cases h
    · cases h

theorem target_ref_lt {width a k : Nat} (h : target width a s = some (.ref k)) :
    s.inited = true ∧ k < s.fw.toNat * s.fh.toNat := by
  unfold target at h
  split at h
  · split at h
    · exact absurd (Option.some.inj h) (wordTarget_ne_sample ..).2
    · cases h
  · split at h
    · split at h
      · cases h
      · split at h
        · rename_i hc
          obtain ⟨h1, h2, h3⟩ := hc
          simp only [Option.some.injEq, Target.ref.injEq] at h
          exact ⟨h3, by omega⟩
        · cases h
    · cases h

/-! ### What keeps the invariant -/

/-- The registers, the banks, the host's lists, the marks and the count of draws have no part in the invariant. -/
theorem Inv.congr (h : Inv s) (e : t = { s with
    arg0 := t.arg0, arg1 := t.arg1, result := t.result, status := t.status, banks := t.banks, wlost := t.wlost,
    rlost := t.rlost, host := t.host, hostLog := t.hostLog, draws := t.draws }) : Inv t := by
  rw [e]
  exact { h with waiting := fun w hw => (h.waiting w hw).congr rfl }

theorem Inv.record (h : Inv s) (c : Status) : Inv (record c s) := by
  unfold Machine.record
  split
  · exact h.congr rfl
  · exact h

/-- The record of a wait is a matter of its own. -/
theorem Inv.withWait (h : Inv s) {w : Option PortWait} (hw : ∀ v, w = some v → WaitOk s v) :
    Inv { s with wait := w } where
  __ := h
  waiting v hv := (hw v hv).congr rfl

theorem Inv.writeSrc (h : Inv s) {a : Nat} (ha : a < s.cfg.maxSamples) (v : Byte) :
    Inv { s with src := memWrite s.src a v } where
  __ := h
  srcForm := memWrite_wf a v h.srcForm
  srcRange c hc := by
    rcases mem_memWrite hc with rfl | hc
    · exact ha
    · exact h.srcRange c hc
  waiting w hw := (h.waiting w hw).congr rfl

theorem Inv.writeRef (h : Inv s) {a : Nat} (ha : s.inited = true ∧ a < s.fw.toNat * s.fh.toNat) (v : Byte) :
    Inv { s with ref := memWrite s.ref a v } where
  __ := h
  refForm := memWrite_wf a v h.refForm
  refRange c hc := by
    rcases mem_memWrite hc with rfl | hc
    · exact ha
    · exact h.refRange c hc
  waiting w hw := (h.waiting w hw).congr rfl

/-! ### Where a command may write REF -/

/-- Index a is one of the latched frame's (R46, R70). -/
def InFrame (s : State) (a : Nat) : Prop := s.inited = true ∧ a < s.fw.toNat * s.fh.toNat

theorem mbOk_legal {sz : Byte} (h : mbOk sz s = true) : MbLegal sz s := by
  simp only [mbOk, sizeOk, Bool.and_eq_true, Bool.or_eq_true, beq_iff_eq, decide_eq_true_eq] at h
  obtain ⟨⟨⟨⟨⟨hsize, hinit⟩, hax⟩, hay⟩, hix⟩, hiy⟩ := h
  refine ⟨?_, hinit, hax, hay, hix, hiy⟩
  rcases hsize with (rfl | rfl) | rfl <;> decide

/-- A macroblock inside the frame covers indices of the frame only. -/
theorem covers_lt {mb : Mb} {a : Nat} (hx : mb.x + mb.size ≤ s.fw.toNat) (hy : mb.y + mb.size ≤ s.fh.toNat)
    (h : mb.covers s a) : a < s.fw.toNat * s.fh.toNat := by
  obtain ⟨i, j, hi, hj, rfl⟩ := h
  have hrow : (mb.y + i + 1) * s.fw.toNat ≤ s.fh.toNat * s.fw.toNat := Nat.mul_le_mul_right _ (by omega)
  rw [Nat.add_mul, Nat.one_mul] at hrow
  rw [sampleIndex, Nat.mul_comm s.fw.toNat]
  omega

theorem MbLegal.covers_inFrame {sz : Byte} {a : Nat} (h : MbLegal sz s) (hc : (operandMb sz s).covers s a) :
    InFrame s a :=
  ⟨h.inited, covers_lt h.insideX h.insideY hc⟩

theorem geometryOk.tiles_inFrame {a : Nat} (h : geometryOk s) (hi : s.inited = true)
    (hc : ∃ mb ∈ tiles s.fw.toNat s.fh.toNat, mb.covers s a) : InFrame s a := by
  obtain ⟨-, -, -, -, hw, hh, -⟩ := h
  obtain ⟨mb, hm, hc⟩ := hc
  exact ⟨hi, covers_inside rfl hw hh hm hc⟩

/-- A command that passes its checks reaches REF samples of the frame only; one that does not changes STATUS at most. -/
theorem exec_unready_or_reach_inFrame (hg : s.inited = true → geometryOk s) (h : exec i s = .next t) :
    t = record .inval s ∨ t = s ∨ ∀ a, reach i s a → InFrame s a := by
  have inval : invalid s = .next t → t = record .inval s := fun h => (next_inj h).symm
  cases i with
  | unpred sz m b =>
    cases hok : mbOk sz s with
    | true => exact .inr (.inr fun _ => (mbOk_legal hok).covers_inFrame)
    | false => simp only [exec, execUnpred, hok] at h; exact .inl (inval h)
  | mbenc sz =>
    cases hok : mbOk sz s with
    | true => exact .inr (.inr fun _ => (mbOk_legal hok).covers_inFrame)
    | false =>
      simp only [exec, execMbenc, hok] at h
      split at h
      · exact .inr (.inl (next_inj h).symm)
      · exact .inl (inval h)
  | mbdec sz =>
    cases hok : mbOk sz s with
    | true => exact .inr (.inr fun _ => (mbOk_legal hok).covers_inFrame)
    | false =>
      simp only [exec, execMbdec, hok] at h
      split at h
      · exact .inr (.inl (next_inj h).symm)
      · exact .inl (inval h)
  | frameenc =>
    cases hi : s.inited with
    | true => exact .inr (.inr fun _ => (hg hi).tiles_inFrame hi)
    | false =>
      simp only [exec, execFrameenc, hi] at h
      split at h
      · exact .inr (.inl (next_inj h).symm)
      · exact .inl (inval h)
  | framedec =>
    cases hi : s.inited with
    | true => exact .inr (.inr fun _ => (hg hi).tiles_inFrame hi)
    | false =>
      simp only [exec, execFramedec, hi] at h
      split at h
      · exact .inr (.inl (next_inj h).symm)
      · exact .inl (inval h)
  | _ => exact .inr (.inr fun _ hr => hr.elim)

/-! ### Commands keep the invariant -/

theorem Finished.inv (hs : Inv s) (hidle : s.wait = none) (h : Finished i s t)
    (hreach : ∀ a, reach i s a → InFrame s a) : Inv t := by
  obtain ⟨u, hu, ht, hset⟩ := h.moved
  have hports : t.ports = u.ports := by rw [ht]
  have href : t.ref = u.ref := by rw [ht]
  have hw : t.wbuf.length ≤ 63 := by
    rcases hset.wbuf with e | ⟨-, -, hle⟩
    · rw [e]; exact hu.wlen hs.wcnt
    · exact hle
  have hr : t.rbuf.length ≤ 64 := by
    rcases hset.rbuf with e | ⟨-, -, hle⟩
    · rw [e]; exact hu.rlen hs.ravail
    · exact hle
  rw [h.only, hports, href]
  exact { hs with
    wcnt := hw
    ravail := hr
    refForm := hu.refForm hs.refForm
    refRange := fun c hc => (hu.refCells c hc).elim (hs.refRange c) (hreach c.1)
    ports := hu.portsKept hs.wcnt hs.ports
    waiting := fun w hw => by rw [hidle] at hw; cases hw }

theorem setup_inv (hs : Inv s) (hi : isSetup i = true) (h : exec i s = .next t) : Inv t := by
  obtain ⟨-, rfl⟩ | ⟨-, rfl⟩ | ⟨-, rfl⟩ | ⟨-, rfl | ⟨rfl, -⟩ | ⟨rfl, -, hw0, hh0, hw16, hh4, hwm, hhm, hm⟩⟩ |
    ⟨-, rfl | ⟨_, _, rfl⟩⟩ := setup_next hi h
  · exact hs.congr rfl
  · exact { hs with wcnt := Nat.zero_le _, waiting := fun w hw => (hs.waiting w hw).congr rfl }
  · exact { hs with ravail := Nat.zero_le _, waiting := fun w hw => (hs.waiting w hw).congr rfl }
  · exact hs.record _
  · exact hs.record _
  · exact { hs with
      refForm := rfl
      refRange := fun c hc => by cases hc
      geometry := fun _ => ⟨rfl, rfl, hw0, hh0, hw16, hh4, hwm, hhm, hm⟩
      waiting := fun w hw => (hs.waiting w hw).congr rfl }
  · exact hs
  · exact { hs with
      refForm := rfl
      refRange := fun c hc => by cases hc
      geometry := fun hi => by cases hi
      waiting := fun w hw => (hs.waiting w hw).congr rfl }

/-- Every command keeps the invariant. -/
theorem exec_inv (hs : Inv s) (hidle : s.wait = none) (h : exec i s = .next t) : Inv t := by
  cases hi : isSetup i with
  | true => exact setup_inv hs hi h
  | false =>
    rcases exec_effect hi h with ⟨req, u, hwaits, rfl⟩ | hfin
    · exact hs.withWait fun v hv => by cases hv; exact hwaits.ok hs.wcnt hs.ravail hs.ports i
    · obtain rfl | rfl | hreach := exec_unready_or_reach_inFrame hs.geometry h
      · exact hs.record _
      · exact hs
      · exact hfin.inv hs hidle hreach

/-! ### The host's moves keep the invariant -/

theorem idle_of_not_busy (h : ¬ busy s = true) : s.wait = none := by simpa [busy] using h

theorem issue_inv {w : Word} (hs : Inv s) (hidle : s.wait = none) (h : issue w s = .next t) : Inv t := by
  unfold issue at h
  split at h
  · exact exec_inv hs hidle h
  · rw [← next_inj h]; exact hs.record _

theorem returned_inv {v : Word} (hs : Inv s) (h : returned v s = .next t) : Inv t := by
  rw [← next_inj h]; exact hs.congr rfl

theorem returnedSample_inv {f : Fault} {v : Option Byte} (hs : Inv s) (h : returnedSample f v s = .next t) : Inv t := by
  cases v with
  | some b => exact returned_inv hs h
  | none => cases h

theorem hostRead_inv {width : Nat} {addr : Word} (hs : Inv s) (h : hostRead width addr s = .next t) : Inv t := by
  unfold hostRead at h
  split at h
  · cases h
  · exact returned_inv hs h
  · exact returned_inv hs h
  · rename_i tg _ _ _
    split at h
    · cases h
    · cases tg with
      | src _ | ref _ => exact returnedSample_inv hs h
      | _ => exact returned_inv hs h

/-- WIDTH and HEIGHT change only while no geometry is latched (R38, R39). -/
theorem Inv.writeSize (hs : Inv s) (hi : ¬ s.inited = true) (w h : BitVec 16) :
    Inv { s with width := w, height := h } where
  __ := hs
  geometry hc := absurd hc hi
  waiting w hw := (hs.waiting w hw).congr rfl

theorem hostWrite_inv {width : Nat} {addr value : Word} (hs : Inv s) (h : hostWrite width addr value s = .next t) :
    Inv t := by
  unfold hostWrite at h
  split at h
  · cases h
  · rename_i tg htg
    split at h
    · cases h
    · rename_i hbusy
      cases tg with
      | cmd => exact issue_inv hs (idle_of_not_busy hbusy) h
      | width =>
        rw [← next_inj h]
        split
        · exact hs
        · exact hs.writeSize ‹_› _ _
      | height =>
        rw [← next_inj h]
        split
        · exact hs
        · exact hs.writeSize ‹_› _ _
      | src a => rw [← next_inj h]; exact hs.writeSrc (target_src_lt htg) _
      | ref a => rw [← next_inj h]; exact hs.writeRef (target_ref_lt htg) _
      | arg0 | arg1 | bank b i => rw [← next_inj h]; exact hs.congr rfl
      | result | status | state | qtab _ | reserved => rw [← next_inj h]; exact hs

/-- The answers the host has queued have no part in the invariant. -/
theorem Inv.withAnswers (hs : Inv s) (o : List OutAnswer) (n : List InAnswer) :
    Inv { s with ports := { s.ports with outAnswers := o, inAnswers := n } } where
  __ := hs
  waiting w hw := { hs.waiting w hw with }

theorem resume_inv (hs : Inv s) (h : resume s = .next t) : Inv t := by
  unfold resume at h
  split at h
  · rw [← next_inj h]; exact hs
  · exact exec_inv (hs.withWait fun v hv => by cases hv) rfl h

/-- Reset keeps what the ports have carried, an abandoned command's transactions too (R340). -/
theorem hostReset_inv (hs : Inv s) : Inv (hostReset s) where
  params := hs.params
  wcnt := Nat.zero_le _
  ravail := Nat.zero_le _
  srcForm := rfl
  refForm := rfl
  srcRange c hc := by cases hc
  refRange c hc := by cases hc
  geometry hi := by cases hi
  ports := by
    simp only [hostReset]
    split
    · exact (hs.waiting _ ‹_›).ports
    · exact hs.ports
  waiting w hw := by cases hw

theorem hostMove_inv {a : HostAction} (hs : Inv s) (h : hostMove a s = .next t) : Inv t := by
  cases a with
  | busWrite width addr value => exact hostWrite_inv hs h
  | busRead width addr => exact hostRead_inv hs h
  | answerOut r => exact resume_inv (hs.withAnswers _ _) h
  | answerIn r => exact resume_inv (hs.withAnswers _ _) h
  | reset => rw [← next_inj h]; exact hostReset_inv hs

/-- Settles O8: with no move left nothing changes, and each kind of move keeps the invariant. -/
theorem stepKeepsInvariant : Obligations.StepKeepsInvariant := by
  intro s t hs h
  unfold step at h
  split at h
  · rw [← next_inj h]; exact hs
  · exact hostMove_inv (hs.congr rfl) h

end Sys2Proof.Machine
end

section
/-! The host's side of a busy and of an idle block: what it may poll, and how it issues a command (R31, R32, R37, R76,
R104, R344). -/

namespace Sys2Proof.Machine

variable {s t : State}

/-! ### The two registers a busy host may read (R76, R344) -/

theorem wordTarget_eq_status {a : Nat} (h : wordTarget a = .status) : a = 0x010 := by
  unfold wordTarget at h
  split_ifs at h
  assumption

theorem wordTarget_eq_state {a : Nat} (h : wordTarget a = .state) : a = 0x014 := by
  unfold wordTarget at h
  split_ifs at h
  assumption

/-- An address that reaches anything but a sample is an aligned word's. -/
theorem target_eq_word {width a : Nat} {tg : Target} (h : target width a s = some tg) (hsrc : ∀ k, tg ≠ .src k)
    (href : ∀ k, tg ≠ .ref k) : width = 4 ∧ wordTarget a = tg := by
  unfold target at h
  split at h
  · split at h
    · rename_i hc
      exact ⟨hc.1, Option.some.inj h⟩
    · cases h
  · split at h
    · split at h
      · exact absurd (Option.some.inj h).symm (hsrc _)
      · split at h
        · exact absurd (Option.some.inj h).symm (href _)
        · cases h
    · cases h

theorem target_eq_status {width : Nat} {addr : Word} (h : target width addr.toNat s = some .status) :
    (width, addr) = (4, 0x010) := by
  obtain ⟨rfl, ha⟩ := target_eq_word h (fun _ h => nomatch h) fun _ h => nomatch h
  rw [BitVec.eq_of_toNat_eq (y := 0x010) (wordTarget_eq_status ha)]

theorem target_eq_state {width : Nat} {addr : Word} (h : target width addr.toNat s = some .state) :
    (width, addr) = (4, 0x014) := by
  obtain ⟨rfl, ha⟩ := target_eq_word h (fun _ h => nomatch h) fun _ h => nomatch h
  rw [BitVec.eq_of_toNat_eq (y := 0x014) (wordTarget_eq_state ha)]

theorem hostRead_status (s : State) : hostRead 4 0x010 s = returned (statusWord (polledStatus s)) s := by
  have ht : target 4 (0x010 : Word).toNat s = some .status := target_word (by decide) (by decide)
  simp only [hostRead, ht]

theorem hostRead_state (s : State) : hostRead 4 0x014 s = returned (polledState s) s := by
  have ht : target 4 (0x014 : Word).toNat s = some .state := target_word (by decide) (by decide)
  simp only [hostRead, ht]

theorem hostRead_busy {width : Nat} {addr : Word} (hb : busy s = true) (h1 : (width, addr) ≠ (4, 0x010))
    (h2 : (width, addr) ≠ (4, 0x014)) : ∃ r, hostRead width addr s = .refused r := by
  unfold hostRead
  split
  · exact ⟨_, rfl⟩
  · exact absurd (target_eq_status ‹_›) h1
  · exact absurd (target_eq_state ‹_›) h2
  · exact ⟨_, by rw [if_pos hb]⟩

theorem hostWrite_busy (hb : busy s = true) (width : Nat) (addr v : Word) :
    ∃ r, hostWrite width addr v s = .refused r := by
  unfold hostWrite
  split
  · exact ⟨_, rfl⟩
  · exact ⟨_, by rw [if_pos hb]⟩

theorem polledStatus_of_wait {w : PortWait} (h : s.wait = some w) : polledStatus s = w.status := by
  simp [polledStatus, h]

/-- STATE while a command waits: a count its record does not hold is a free value (log 11). -/
theorem polledState_of_wait {w : PortWait} (h : s.wait = some w) : ∃ free, polledState s =
    stateWord true s.inited (w.wcnt.getD (free % 64)) (w.ravail.getD (free / 64 % 65)) :=
  ⟨(Config.busyCounts s.hostLog.length).toNat, by simp [polledState, h]⟩

/-- A count the record of a wait holds is shown; one it does not hold is a free value in its range (log 11). -/
theorem getD_shown (c : Option Nat) {free most : Nat} (hf : free ≤ most) :
    (∀ n, c = some n → c.getD free = n) ∧ (c = none → c.getD free ≤ most) := by
  cases c with
  | none => exact ⟨fun _ h => (nomatch h), fun _ => hf⟩
  | some m => exact ⟨fun _ h => Option.some.inj h, fun h => nomatch h⟩

/-! ### Issuing a command (R31, R104) -/

/-- The decoder reads a command back from its word (R100, R103). -/
theorem decode_encode (i : Instr) : decode (encode i) = .ok i := by
  cases i with
  | nop => exact Laws.RoundTrip.nop
  | clrstat => exact Laws.RoundTrip.clrstat
  | init => exact Laws.RoundTrip.init
  | deinit => exact Laws.RoundTrip.deinit
  | wrinit => exact Laws.RoundTrip.wrinit
  | rdinit => exact Laws.RoundTrip.rdinit
  | putbits => exact Laws.RoundTrip.putbits _
  | putones => exact Laws.RoundTrip.putones
  | putzeroes => exact Laws.RoundTrip.putzeroes
  | puteg => exact Laws.RoundTrip.puteg
  | flush => exact Laws.RoundTrip.flush
  | getbits => exact Laws.RoundTrip.getbits _
  | getzeroes => exact Laws.RoundTrip.getzeroes
  | geteg => exact Laws.RoundTrip.geteg
  | entenc => exact Laws.RoundTrip.entenc ..
  | entdec => exact Laws.RoundTrip.entdec ..
  | fwd4 => exact Laws.RoundTrip.fwd4 ..
  | inv4 => exact Laws.RoundTrip.inv4 ..
  | had4 => exact Laws.RoundTrip.had4 ..
  | ihad4 => exact Laws.RoundTrip.ihad4 ..
  | had2 => exact Laws.RoundTrip.had2 ..
  | quant4 => exact Laws.RoundTrip.quant4 ..
  | dequant4 => exact Laws.RoundTrip.dequant4 ..
  | quantdc => exact Laws.RoundTrip.quantdc ..
  | dequantdc => exact Laws.RoundTrip.dequantdc ..
  | gatherdc => exact Laws.RoundTrip.gatherdc ..
  | scatterdc => exact Laws.RoundTrip.scatterdc ..
  | bdiv => exact Laws.RoundTrip.bdiv ..
  | predsel => exact Laws.RoundTrip.predsel _
  | predres => exact Laws.RoundTrip.predres ..
  | unpred => exact Laws.RoundTrip.unpred ..
  | mbenc => exact Laws.RoundTrip.mbenc _
  | mbdec => exact Laws.RoundTrip.mbdec _
  | frameenc => exact Laws.RoundTrip.frameenc
  | framedec => exact Laws.RoundTrip.framedec

theorem busy_of_idle (h : s.wait = none) : busy s = false := by rw [busy, h]; rfl

/-- A word that decodes, written to CMD while the block is idle, runs (R32, R104). -/
theorem hostWrite_cmd {w : Word} {i : Instr} (hidle : s.wait = none) (hd : decode w = .ok i) :
    hostWrite 4 0 w s = exec i s := by
  have ht : target 4 (0 : Word).toNat s = some .cmd := target_word (by decide) (by decide)
  rw [hostWrite, ht]
  simp [busy_of_idle hidle, issue, hd]

theorem withFetchWord_host (s : State) (w : Word) :
    (s.withFetchWord 32 w.toNat).host = .busWrite 4 0 w :: s.host := by
  simp [State.withFetchWord, Nat.mod_eq_of_lt w.isLt]

/-! ### The obligations -/

/-- Settles O14: of the addresses only those of STATUS and STATE pass the check of BUSY. -/
theorem busyHostCanOnlyPoll : Obligations.BusyHostCanOnlyPoll := by
  intro s w hw
  have hb : busy s = true := by rw [busy, hw]; rfl
  refine ⟨?_, ?_, hostWrite_busy hb, fun _ _ => hostRead_busy hb⟩
  · rw [hostRead_status, polledStatus_of_wait hw, returned]
  · obtain ⟨free, hfree⟩ := polledState_of_wait hw
    obtain ⟨hw1, hw2⟩ := getD_shown w.wcnt (show free % 64 ≤ 63 by omega)
    obtain ⟨hr1, hr2⟩ := getD_shown w.ravail (show free / 64 % 65 ≤ 64 by omega)
    exact ⟨_, _, by rw [hostRead_state, hfree, returned], hw1, hw2, hr1, hr2⟩

/-- Settles O5: the step takes the host's next move, and a write to CMD issues the word it carries. -/
theorem stepRunsDecodedCommand : Obligations.StepRunsDecodedCommand := by
  refine ⟨fun s w rest i hh hidle hd => ?_, fun s hh => ?_, fun s i => ?_⟩
  · exact (step_of_host hh).trans (hostWrite_cmd hidle hd)
  · rw [step, hh]
  · exact (step_of_host (withFetchWord_host s (encode i))).trans
      (hostWrite_cmd (s := { s with wait := none }) rfl (decode_encode i))

end Sys2Proof.Machine
end

section
/-! Samples that hold no value (R53, R84, R269, R318): the host reads, the commands and the frame that fault on them,
and the commands that end or wait before they come to them. -/

namespace Sys2Proof.Machine

variable {s t r : State} {sz : Byte} {mb : Mb} {m : Mode}

/-! ### The host's reads -/

theorem hostRead_src {a : Nat} (hidle : s.wait = none) (ha : a < s.cfg.maxSamples) (h24 : a < 2 ^ 24) :
    hostRead 1 (BitVec.ofNat 32 (0x01000000 + a)) s = returnedSample .unwrittenSrc (memRead s.src a) s := by
  rw [hostRead, toNat_small (by omega), target_sample ha h24]
  simp [busy_of_idle hidle]

theorem hostRead_ref {a : Nat} (hidle : s.wait = none) (ha : a < s.fw.toNat * s.fh.toNat)
    (h32 : 0x02000000 + a < 2 ^ 32) (hm : s.cfg.maxSamples ≤ 2 ^ 24) (hi : s.inited = true) :
    hostRead 1 (BitVec.ofNat 32 (0x02000000 + a)) s = returnedSample .unwrittenRef (memRead s.ref a) s := by
  rw [hostRead, toNat_small h32, target_ref ha hm hi]
  simp [busy_of_idle hidle]

/-! ### Commands that pass their checks -/

theorem exec_predsel_legal (h : MbLegal sz s) : exec (.predsel sz) s = finish (.predsel sz) s
    ((selectMode (operandMb sz s) s).andThen fun m t => .done () { t with result := BitVec.ofNat 32 m.toCode }) := by
  rw [exec, execPredsel, if_pos h.mbOk]

theorem exec_mbenc_legal (h : MbLegal sz s) (hok : s.status = .ok) : exec (.mbenc sz) s = finish (.mbenc sz) s
    ((encodeMb (operandMb sz s) s).andThen fun m t => .done () { t with result := BitVec.ofNat 32 m.toCode }) := by
  rw [exec, execMbenc, if_neg (not_not_intro hok), if_pos h.mbOk]

theorem exec_mbdec_legal (h : MbLegal sz s) (hok : s.status = .ok) : exec (.mbdec sz) s = finish (.mbdec sz) s
    ((decodeMb (operandMb sz s) s).andThen fun m t => .done () { t with result := BitVec.ofNat 32 m.toCode }) := by
  rw [exec, execMbdec, if_neg (not_not_intro hok), if_pos h.mbOk]

theorem exec_mbenc_fault {f : Fault} (h : MbLegal sz s) (hok : s.status = .ok)
    (hf : encodeMb (operandMb sz s) s = .faulted f) : exec (.mbenc sz) s = .fault f := by
  rw [exec_mbenc_legal h hok, hf]; rfl

theorem Stops.finish_next {i : Instr} {x : Run Unit} (h : Stops x) :
    ∃ t, finish i s x = .next t ∧ (t.status = .ioFailed ∨ t.wait ≠ none) := by
  obtain ⟨t, rfl, ht⟩ | ⟨req, t, rfl⟩ := h
  · exact ⟨_, rfl, .inl (by rw [settle_status, ht])⟩
  · exact ⟨_, rfl, .inr (by simp)⟩

/-- Where EncMB ends with IO_FAILED or waits, so does MBENC. -/
theorem exec_mbenc_stops (h : MbLegal sz s) (hok : s.status = .ok) (hstop : Stops (encodeMb (operandMb sz s) s)) :
    ∃ t, exec (.mbenc sz) s = .next t ∧ (t.status = .ioFailed ∨ t.wait ≠ none) := by
  rw [exec_mbenc_legal h hok]
  exact (hstop.andThen _).finish_next

/-- The mode a field names, where it can be computed. -/
theorem legalMode_of_field {f : Byte} {x y : Nat} (hm : modeOf f.toNat = some m) (ha : modeAllowed m x y) :
    legalMode f.toNat x y = some m := by
  rw [modeOf_eq hm, legalMode_toCode ha]

section Operands
variable {f b : Byte} (h : MbLegal sz s) (hm : modeOf f.toNat = some m)
  (ha : modeAllowed m s.arg0.toNat s.arg1.toNat) (hb : b.toNat + (operandMb sz s).subs ≤ 32)
include h hm ha hb

theorem exec_predres_legal : exec (.predres sz f b) s = finish (.predres sz f b) s
    ((orFault .unwrittenRef (predictor m (operandMb sz s) s) s).andThen fun p s' =>
      (orFault .unwrittenSrc (sourceBlock (operandMb sz s) s') s').andThen fun src s' =>
        .done () (mapBanks b.toNat (operandMb sz s).subs (fun k _ => residual (operandMb sz s) src p k) s')) := by
  have hmode : legalMode f.toNat (operandMb sz s).x (operandMb sz s).y = some m := legalMode_of_field hm ha
  simp [exec, execPredres, h.mbOk, hmode, subBanksOk, hb]

theorem exec_unpred_legal : exec (.unpred sz f b) s = finish (.unpred sz f b) s
    ((orFault .unwrittenRef (predictor m (operandMb sz s) s) s).andThen fun p s' =>
      .done () (writeRef (unpredCells (operandMb sz s) p s' fun k => bank s' (b.toNat + k)) s')) := by
  have hmode : legalMode f.toNat (operandMb sz s).x (operandMb sz s).y = some m := legalMode_of_field hm ha
  simp [exec, execUnpred, h.mbOk, hmode, subBanksOk, hb]

theorem exec_unwrittenRef (hn : ¬ NeighboursWritten m (operandMb sz s) s) :
    exec (.predres sz f b) s = .fault .unwrittenRef ∧ exec (.unpred sz f b) s = .fault .unwrittenRef := by
  rw [exec_predres_legal h hm ha hb, exec_unpred_legal h hm ha hb, predictor_unwritten hn]
  exact ⟨rfl, rfl⟩

theorem exec_predres_unwrittenSrc (hn : NeighboursWritten m (operandMb sz s) s)
    (hs : ¬ SourceWritten (operandMb sz s) s) : exec (.predres sz f b) s = .fault .unwrittenSrc := by
  obtain ⟨p, hp, -⟩ := predictor_written hn
  rw [exec_predres_legal h hm ha hb, hp, orFault, andThen_done, source_unwritten hs]
  rfl

end Operands

/-! ### Mode selection (R214) -/

theorem selectMode_unwrittenSrc (hx : 0 < mb.x) (hy : 0 < mb.y) (hs : ¬ SourceWritten mb s) :
    selectMode mb s = .faulted .unwrittenSrc := by
  rw [selectMode, if_neg (by omega), if_neg (by omega), if_neg (by omega), source_unwritten hs]
  rfl

theorem selectMode_unwrittenRef (hx : 0 < mb.x) (hy : 0 < mb.y) (hs : SourceWritten mb s)
    (hn : ¬ NeighboursWritten .dc mb s) : selectMode mb s = .faulted .unwrittenRef := by
  obtain ⟨src, hsrc, -⟩ := source_written hs
  rw [selectMode, if_neg (by omega), if_neg (by omega), if_neg (by omega), hsrc, orFault, andThen_done,
    predictor_unwritten hn]
  rfl

/-- At an edge the mode needs no sample. -/
theorem selectMode_edge (hsize : 0 < mb.size) (he : mb.x = 0 ∨ mb.y = 0) (hsel : Selected m mb s) :
    selectMode mb s = .done m s := by
  obtain ⟨m', hsel', hrun⟩ := selectMode_selected hsize (s := s) (he.imp_right .inl)
  rwa [hsel.unique hsel']

/-- Inside the frame PREDSEL and MBENC fault where mode selection does. -/
theorem exec_select_fault {f : Fault} (h : MbLegal sz s) (hsel : selectMode (operandMb sz s) s = .faulted f) :
    exec (.predsel sz) s = .fault f ∧ (s.status = .ok → exec (.mbenc sz) s = .fault f) := by
  refine ⟨?_, fun hok => ?_⟩
  · rw [exec_predsel_legal h, hsel]; rfl
  · exact exec_mbenc_fault h hok (by rw [encodeMb, hsel]; rfl)

/-! ### EncMB where the mode is known (R269) -/

theorem encodeMb_unwrittenRef (hsel : selectMode mb s = .done m s) (hok : s.status = .ok) (hw : s.wbuf.length ≤ 63)
    (hn : ¬ NeighboursWritten m mb s) :
    (acceptsBits 2 s → encodeMb mb s = .faulted .unwrittenRef) ∧ (¬ acceptsBits 2 s → Stops (encodeMb mb s)) := by
  have hlen : (natBits 2 m.toCode).length = 2 := natBits_length ..
  rw [encodeMb, hsel, andThen_done]
  refine ⟨fun hacc => ?_, fun hacc => emitBits_stops _ hok hw (by rwa [hlen]) _⟩
  obtain ⟨u, hu, hem⟩ := emitBits_emits (natBits 2 m.toCode) hok hw (by rwa [hlen])
  rw [hu, andThen_done, checkStatus_ok (hem.status.trans hok), andThen_done, predictor_congr hem.fw hem.ref,
    predictor_unwritten hn]
  rfl

theorem range_split {k n : Nat} (h : k < n) : ∃ more, List.range n = List.range k ++ k :: more := by
  obtain ⟨d, rfl⟩ := Nat.exists_eq_add_of_lt h
  exact ⟨_, by rw [Nat.add_assoc, List.range_add, List.range_succ_eq_map, List.map_cons, Nat.add_zero]⟩

/-- The first sub-block with an unwritten source sample: its fault comes when the host has accepted the bits before it;
if the host does not, EncMB has ended or waits (R84, R269, R273). -/
theorem encodeMb_unwrittenSrc (hsel : selectMode mb s = .done m s) (hok : s.status = .ok) (hw : s.wbuf.length ≤ 63)
    (hn : NeighboursWritten m mb s) {k : Nat} (hk : k < mb.subs) (hbefore : ∀ j, j < k → SubWritten mb j s)
    (hgap : ¬ SubWritten mb k s) :
    (acceptsBits (bitsBefore m mb s k).length s → encodeMb mb s = .faulted .unwrittenSrc) ∧
      (¬ acceptsBits (bitsBefore m mb s k).length s → Stops (encodeMb mb s)) := by
  obtain ⟨p, hp, hvals⟩ := predictor_written hn
  obtain ⟨more, hrange⟩ := range_split hk
  have hres : ResidualsFrom mb p (List.range k) (residualBlock m mb s) s := fun j hj =>
    residualsFrom hvals j (List.mem_range.2 ((List.mem_range.1 hj).trans hk))
  have hsome : ∀ j ∈ List.range k, (sourceSub mb j s).isSome := fun j hj => by
    have hj := List.mem_range.1 hj
    obtain ⟨src, hsrc, -⟩ := sourceSub_written hvals (hj.trans hk) (hbefore j hj)
    rw [hsrc]; rfl
  rw [encodeMb, hsel, andThen_done]
  by_cases hmode : acceptsBits (natBits 2 m.toCode).length s
  · obtain ⟨u, hu, hem⟩ := emitBits_emits _ hok hw hmode
    obtain ⟨hfault, hstops⟩ := encodeSubs_eq (hres.congr hem.fw hem.src)
      (fun j hj => by rw [sourceSub_congr hem.fw hem.src]; exact hsome j hj) (hem.status.trans hok) hem.wcnt
    rw [hem.cfg] at hfault hstops
    rw [hu, andThen_done, checkStatus_ok (hem.status.trans hok), andThen_done, predictor_congr hem.fw hem.ref, hp,
      orFault, andThen_done, hrange]
    refine ⟨fun hacc => ?_, fun hacc => ?_⟩
    · rw [(hfault (hem.accepts hacc)).2 k more (by rw [sourceSub_congr hem.fw hem.src, sourceSub_unwritten hgap])]
      rfl
    · exact (hstops (fun hsubs => hacc (hem.accepts_append hmode hsubs)) _).andThen _
  · exact ⟨fun hacc => absurd (acceptsBits_append hacc).1 hmode, fun _ => emitBits_stops _ hok hw hmode _⟩

/-! ### DecMB (R270) -/

/-- DecMB on legal codes comes to the reconstruction, with REF as it was. -/
theorem decodeMb_codes {z : MbCodes} {rest : List Bool} (hl : s.rlost = false) (hz : z.Legal mb) (h16 : mb.subs ≤ 16)
    (h : readable s = z.bits ++ rest) : ∃ t, t.fw = s.fw ∧ t.ref = s.ref ∧ decodeMb mb s =
      (reconstruct z.mode mb (z.ac.map acBlock) (intsBlock z.dc) t).andThen fun _ s => .done z.mode s := by
  rw [MbCodes.bits, List.append_assoc, List.append_assoc] at h
  obtain ⟨h1, -⟩ := read_stretch h
  obtain ⟨h2, -⟩ := read_stretch h1
  have hcode : readBits 2 0 s = .done z.mode.toCode (afterReading 2 2 s) := by
    rw [readBits_eq hl 2 (by rw [h]; simp), h, List.take_left' (by simp), bitsVal_natBits,
      Nat.mod_eq_of_lt (by have := toCode_lt z.mode; omega)]
  rw [natBits_length] at h1 h2
  have hsubs := decodeSubs_eq (by exact hl) hz.acLength hz.acRange h1
  have hdc := readVector_codes (by exact hl) (by rw [hz.dcLength]; exact h16) hz.dcRange h2
  rw [hz.subs] at hsubs
  rw [hz.dcLength] at hdc
  refine ⟨afterReading (coefficientBits z.dc).length (coefficientBits z.dc).length (afterReading
    (z.ac.flatMap coefficientBits).length (z.ac.flatMap coefficientBits).length (afterReading 2 2 s)), rfl, rfl, ?_⟩
  rw [decodeMb, hcode, andThen_done]
  simp only [legalMode_toCode hz.mode]
  rw [hsubs, andThen_done, hdc, andThen_done]

/-! ### The first gap of a frame (R267) -/

theorem subWritten_congr (h1 : r.fw = s.fw) (h2 : r.src = s.src) (k : Nat) : SubWritten mb k r ↔ SubWritten mb k s := by
  simp [SubWritten, sampleIndex, h1, h2]

/-- The bits before sub-block k depend on SRC and the macroblock's neighbours. -/
theorem bitsBefore_agree (hag : NeighboursAgree mb s r) (h1 : r.cfg = s.cfg) (h2 : r.fw = s.fw) (h3 : r.src = s.src)
    (ha : modeAllowed m mb.x mb.y) {k : Nat} (hk : k < mb.subs) : bitsBefore m mb r k = bitsBefore m mb s k := by
  have hblocks := List.map_inj_left.1 (residualBlocks_agree hag h2 h3 ha)
  have hbits : ∀ j ∈ List.range k, coefficientBits (acCodes r.cfg (residualBlock m mb r j)) =
      coefficientBits (acCodes s.cfg (residualBlock m mb s j)) := fun j hj => by
    rw [h1, hblocks j (List.mem_range.2 ((List.mem_range.1 hj).trans hk))]
  rw [bitsBefore, bitsBefore, List.flatMap_congr hbits]

theorem exists_first_unwritten_sub (hside : 4 * mb.side = mb.size) (hs : ¬ SourceWritten mb s) :
    ∃ k, k < mb.subs ∧ ¬ SubWritten mb k s ∧ ∀ j, j < k → SubWritten mb j s := by
  have hgap : ∃ k, k < mb.subs ∧ ¬ SubWritten mb k s := by
    rw [sourceWritten_iff hside] at hs
    push Not at hs
    exact hs
  classical
  obtain ⟨hk, hnot⟩ := Nat.find_spec hgap
  refine ⟨_, hk, hnot, fun j hj => ?_⟩
  by_contra hc
  exact Nat.find_min hgap hj ⟨hj.trans hk, hc⟩

/-- EncMB at the next macroblock of a frame, where an SRC sample of it holds no value: after how many bits it faults
depends on neither the ports, the buffered bits nor REF beyond the macroblocks done. -/
theorem encodeMb_unwrittenSrc_in_frame {fw fh : Nat} (hw : fw % 16 = 0) (hh : fh % 4 = 0) {pre more : List Mb}
    (hpre : pre ++ mb :: more = tiles fw fh) (hfw : s.fw.toNat = fw) (hdone : DoneWritten pre s)
    (hs : ¬ SourceWritten mb s) : ∃ bits : List Bool, ∀ r : State, r.cfg = s.cfg → r.fw = s.fw → r.src = s.src →
      r.status = .ok → r.wbuf.length ≤ 63 → DoneAgree pre s r → acceptsBits bits.length r →
      encodeMb mb r = .faulted .unwrittenSrc := by
  have hmem : mb ∈ tiles fw fh := by rw [← hpre]; simp
  have hsize := tiles_size_pos hw hh hmem
  by_cases hedge : mb.x = 0 ∨ mb.y = 0
  · -- at an edge: the mode is forced, and the first sub-block with a gap faults
    obtain ⟨m, hsel, -⟩ := selectMode_selected hsize (s := s) (hedge.imp_right .inl)
    obtain ⟨k, hk, hnot, hmin⟩ := exists_first_unwritten_sub (tiles_fits hw hh hmem hfw).side hs
    refine ⟨bitsBefore m mb s k, fun r h1 h2 h3 h4 h5 h6 hacc => ?_⟩
    have hag := h6.neighbours hw hh hpre h2
    have hn := (hag.written hsel.allowed).2 (hdone.neighbours hw hh hpre hsel.allowed)
    rw [← bitsBefore_agree hag h1 h2 h3 hsel.allowed hk] at hacc
    exact (encodeMb_unwrittenSrc (selectMode_edge hsize hedge (hsel.agree hag h2 h3)) h4 h5 hn hk
      (fun j hj => (subWritten_congr h2 h3 j).2 (hmin j hj)) fun hc => hnot ((subWritten_congr h2 h3 k).1 hc)).1 hacc
  · -- inside the frame mode selection reads the source samples first
    refine ⟨[], fun r _ h2 h3 _ _ _ _ => ?_⟩
    rw [encodeMb, selectMode_unwrittenSrc (by omega) (by omega) fun hc => hs ((sourceWritten_congr h2 h3).1 hc)]
    rfl

/-- A frame with an unwritten SRC sample has a first macroblock with one. -/
theorem exists_first_unwritten_macroblock (hg : geometryOk s) (h : ¬ FrameWritten s) : ∃ pre mb post,
    tiles s.fw.toNat s.fh.toNat = pre ++ mb :: post ∧ (∀ x ∈ pre, SourceWritten x s) ∧ ¬ SourceWritten mb s := by
  obtain ⟨-, -, -, -, hw, hh, -⟩ := hg
  classical
  have hex : ∃ mb ∈ tiles s.fw.toNat s.fh.toNat, ¬ SourceWritten mb s := by
    by_contra hall
    push Not at hall
    refine h fun a ha => ?_
    obtain ⟨mb, hm, i, j, hi, hj, rfl⟩ := index_covered rfl hw hh ha
    exact hall mb hm i j hi hj
  obtain ⟨mb0, hm0, hs0⟩ := hex
  obtain ⟨mb, hfind⟩ := Option.isSome_iff_exists.1 (List.find?_isSome (p := fun mb => decide (¬ SourceWritten mb s))
    |>.2 ⟨mb0, hm0, decide_eq_true hs0⟩)
  obtain ⟨hs, pre, post, htiles, hpre⟩ := List.find?_eq_some_iff_append.1 hfind
  exact ⟨pre, mb, post, htiles, fun x hx => by simpa using hpre x hx, of_decide_eq_true hs⟩

/-- FRAMEENC of a frame with an unwritten SRC sample faults when the host has accepted enough bits (R53, R267). -/
theorem exec_frameenc_unwrittenSrc (hg : geometryOk s) (hi : s.inited = true) (hok : s.status = .ok)
    (h : ¬ FrameWritten s) :
    ∃ n, ∀ (ports : Ports) (wbuf : List Bool) (ref : Memory), wbuf.length ≤ 63 →
      acceptsBits n { s with ports := ports, wbuf := wbuf, ref := ref } →
      exec .frameenc { s with ports := ports, wbuf := wbuf, ref := ref } = .fault .unwrittenSrc := by
  obtain ⟨pre, mb, post, htiles, hwritten, hgap⟩ := exists_first_unwritten_macroblock hg h
  obtain ⟨-, -, -, -, hw, hh, -⟩ := hg
  obtain ⟨zs, frame, -, -, -, -, hdone, hrun⟩ := encodeMbs_complete hw hh pre [] (mb :: post) s htiles.symm rfl hwritten
    fun _ hm => nomatch hm
  obtain ⟨bits, hfault⟩ :=
    encodeMb_unwrittenSrc_in_frame (s := { s with ref := frame }) hw hh htiles.symm rfl hdone hgap
  refine ⟨(natBits 1 1 ++ (codesBits zs ++ bits)).length, fun ports wbuf ref hlen hacc => ?_⟩
  generalize hr : { s with ports := ports, wbuf := wbuf, ref := ref } = r at hacc
  have hrcfg : r.cfg = s.cfg := by rw [← hr]
  have hrfw : r.fw = s.fw := by rw [← hr]
  have hrfh : r.fh = s.fh := by rw [← hr]
  have hrsrc : r.src = s.src := by rw [← hr]
  have hrok : r.status = .ok := by rw [← hr]; exact hok
  have hri : r.inited = true := by rw [← hr]; exact hi
  have hrlen : r.wbuf.length ≤ 63 := by rw [← hr]; exact hlen
  obtain ⟨u, hu, hem⟩ := emitBits_emits _ hrok hrlen (acceptsBits_append hacc).1
  have hacc1 := hem.accepts hacc
  have huok := hem.status.trans hrok
  obtain ⟨t, ht, hemr, hagree, -⟩ := hrun u (hem.cfg.trans hrcfg) (hem.fw.trans hrfw) (hem.src.trans hrsrc) huok
    hem.wcnt (fun _ hm => nomatch hm) (acceptsBits_append hacc1).1
  have hacc2 := hemr.accepts hacc1
  obtain ⟨v, hv, htv⟩ := hemr
  have hmb : encodeMb mb t = .faulted .unwrittenSrc := by
    refine hfault t ?_ ?_ ?_ ?_ ?_ hagree hacc2
    · rw [htv]; exact hv.cfg.trans (hem.cfg.trans hrcfg)
    · rw [htv]; exact hv.fw.trans (hem.fw.trans hrfw)
    · rw [htv]; exact hv.src.trans (hem.src.trans hrsrc)
    · rw [htv]; exact hv.status.trans huok
    · rw [htv]; exact hv.wcnt
  rw [exec, execFrameenc, if_neg (not_not_intro hrok), if_pos hri, hu, andThen_done, checkStatus_ok huok, andThen_done,
    hem.fw, hem.fh, hrfw, hrfh, htiles, encodeMbs_append, ht, andThen_done, encodeMbs, hmb]
  rfl

/-! ### The obligation -/

/-- Settles O11: each reader of samples faults on the first one that holds no value. -/
theorem unwrittenSamplesFault : Obligations.UnwrittenSamplesFault := by
  refine ⟨exec_next_of_no_sample, fun s hidle => ⟨?_, ?_, ?_, ?_, ?_, ?_, ?_⟩⟩
  · intro a ha h24 hn
    rw [hostRead_src hidle ha h24, hn, returnedSample]
  · intro a ha h32 hm hi hn
    rw [hostRead_ref hidle ha h32 hm hi, hn, returnedSample]
  · intro sz f b m h hm ha hb
    exact ⟨exec_unwrittenRef h hm ha hb, exec_predres_unwrittenSrc h hm ha hb⟩
  · intro sz h hx hy
    exact ⟨fun hs => exec_select_fault h (selectMode_unwrittenSrc hx hy hs),
      fun hs hn => exec_select_fault h (selectMode_unwrittenRef hx hy hs hn)⟩
  · intro sz m h hedge hsel hok hw
    have hsize : 0 < (operandMb sz s).size := by
      have := h.size
      show 0 < sz.toNat
      omega
    have hrun := selectMode_edge hsize (hedge.imp (congrArg BitVec.toNat) (congrArg BitVec.toNat)) hsel
    refine ⟨fun hn => ?_, fun hn k hk hbefore hgap => ?_⟩
    · obtain ⟨hfault, hstop⟩ := encodeMb_unwrittenRef hrun hok hw hn
      exact ⟨fun hacc => exec_mbenc_fault h hok (hfault hacc), fun hacc => exec_mbenc_stops h hok (hstop hacc)⟩
    · obtain ⟨hfault, hstop⟩ := encodeMb_unwrittenSrc hrun hok hw hn hk hbefore hgap
      exact ⟨fun hacc => exec_mbenc_fault h hok (hfault hacc), fun hacc => exec_mbenc_stops h hok (hstop hacc)⟩
  · intro sz z rest h hok hl hz hr hn
    have h16 : (operandMb sz s).subs ≤ 16 := by
      have := h.subs
      omega
    obtain ⟨t, hfw, href, hrun⟩ := decodeMb_codes hl hz h16 hr
    rw [exec_mbdec_legal h hok, hrun, reconstruct, predictor_congr hfw href, predictor_unwritten hn]
    rfl
  · exact fun hinv hi hok h => exec_frameenc_unwrittenSrc (hinv.geometry hi) hi hok h

end Sys2Proof.Machine
end

section
/-! The host's accesses to an idle block (R32 to R41, R45, R46, R74, R75, R81): what each address reaches, what a write
there stores and a read there gives, and which accesses reach nothing. -/

namespace Sys2Proof.Machine

variable {s : State} {tg : Target} {width a : Nat} {addr v x : Word}

/-! ### What the addresses reach (R74, R75) -/

theorem wordTarget_bank_lt {b i : Nat} (h : wordTarget a = .bank b i) : i < 16 := by
  unfold wordTarget at h
  split_ifs at h
  simp only [Target.bank.injEq] at h
  omega

theorem target_qtab {p : Nat} (hp : p < 16) : target 4 (BitVec.ofNat 32 (0x40 + 4 * p)).toNat s = some (.qtab p) := by
  rw [toNat_small (by omega), target_word (by omega) (by omega), wordTarget_qtab hp]

theorem target_bank {b i : Nat} (hb : b < 32) (hi : i < 16) :
    target 4 (BitVec.ofNat 32 (0x1000 + 64 * b + 4 * i)).toNat s = some (.bank b i) := by
  rw [toNat_small (by omega), target_word (by omega) (by omega), wordTarget_bank hb hi]

theorem target_reserved (h4 : a % 4 = 0)
    (h : 0x020 ≤ a ∧ a < 0x040 ∨ 0x080 ≤ a ∧ a < 0x1000 ∨ 0x1800 ≤ a ∧ a < 0x01000000) :
    target 4 a s = some .reserved := by
  rw [target_word (by omega) h4, wordTarget_reserved (by omega)]

theorem target_eq_none (h : a < 0x01000000 ∧ (width ≠ 4 ∨ a % 4 ≠ 0) ∨ 0x01000000 ≤ a ∧ width ≠ 1 ∨
    0x01000000 + s.cfg.maxSamples ≤ a ∧ 0x01000000 ≤ a ∧ a < 0x02000000 ∨
    0x02000000 ≤ a ∧ s.cfg.maxSamples ≤ 2 ^ 24 ∧ (s.inited = false ∨ 0x02000000 + s.fw.toNat * s.fh.toNat ≤ a)) :
    target width a s = none := by
  unfold target
  by_cases hword : a < 0x01000000
  · rw [if_pos hword, if_neg (by omega)]
  · rw [if_neg hword]
    by_cases hone : width = 1
    · have href : ¬ (0x02000000 ≤ a ∧ a < 0x02000000 + s.fw.toNat * s.fh.toNat ∧ s.inited = true) := by
        rintro ⟨hlo, hhi, hi⟩
        simp only [hi, Bool.true_eq_false, false_or] at h
        omega
      rw [if_pos hone, if_neg (by omega), if_neg href]
    · rw [if_neg hone]

/-! ### What an access does, by what it reaches -/

/-- The state after a write of v to tg while the block is idle. A write to CMD stores nothing: it issues a command
(R32). -/
def writeTarget (tg : Target) (v : Word) (s : State) : State :=
  match tg with
  | .arg0 => { s with arg0 := v }
  | .arg1 => { s with arg1 := v }
  | .width => if s.inited then s else { s with width := v.setWidth 16 }
  | .height => if s.inited then s else { s with height := v.setWidth 16 }
  | .bank b i => setBank b (blockOf fun j => if j = i then v else entry (bank s b) j) s
  | .src a => { s with src := memWrite s.src a (v.setWidth 8) }
  | .ref a => { s with ref := memWrite s.ref a (v.setWidth 8) }
  | .cmd | .result | .status | .state | .qtab _ | .reserved => s

/-- What a read of tg gives while the block is idle; none for a sample that holds no value (R53). -/
def readTarget (tg : Target) (s : State) : Option Word :=
  match tg with
  | .arg0 => some s.arg0
  | .arg1 => some s.arg1
  | .result => some s.result
  | .status => some (statusWord s.status)
  | .state => some (stateWord false s.inited s.wbuf.length s.rbuf.length)
  | .width => some (s.width.setWidth 32)
  | .height => some (s.height.setWidth 32)
  | .qtab p => some (BitVec.ofNat 32 (qtab s.cfg p))
  | .bank b i => some (entry (bank s b) i)
  | .src a => (memRead s.src a).map (·.setWidth 32)
  | .ref a => (memRead s.ref a).map (·.setWidth 32)
  | .cmd | .reserved => some 0

theorem hostWrite_of_target (hidle : s.wait = none) (ht : target width addr.toNat s = some tg) (hcmd : tg ≠ .cmd) :
    hostWrite width addr v s = .next (writeTarget tg v s) := by
  rw [hostWrite, ht]
  simp only [busy_of_idle hidle, Bool.false_eq_true, if_false]
  cases tg with
  | cmd => exact absurd rfl hcmd
  | bank b i =>
    obtain ⟨-, hw⟩ := target_eq_word ht nofun nofun
    exact congrArg (fun y => Host.Outcome.next (setBank b y s)) (setIfInBounds_block (wordTarget_bank_lt hw) v)
  | _ => rfl

theorem hostWrite_word (hidle : s.wait = none) (hlt : addr.toNat < 0x01000000) (h4 : addr.toNat % 4 = 0)
    (hcmd : wordTarget addr.toNat ≠ .cmd) :
    hostWrite 4 addr v s = .next (writeTarget (wordTarget addr.toNat) v s) :=
  hostWrite_of_target hidle (target_word hlt h4) hcmd

theorem polledStatus_of_idle (h : s.wait = none) : polledStatus s = s.status := by
  simp [polledStatus, h]

theorem polledState_of_idle (h : s.wait = none) :
    polledState s = stateWord false s.inited s.wbuf.length s.rbuf.length := by
  simp [polledState, h]

theorem returnedSample_of_map {f : Fault} {o : Option Byte} (h : o.map (·.setWidth 32) = some x) :
    returnedSample f o s = returned x s := by
  obtain ⟨b, rfl, rfl⟩ := Option.map_eq_some_iff.mp h
  rfl

theorem hostRead_of_target (hidle : s.wait = none) (ht : target width addr.toNat s = some tg)
    (hx : readTarget tg s = some x) : hostRead width addr s = .next { s with hostLog := s.hostLog ++ [x] } := by
  change _ = returned x s
  rw [hostRead, ht]
  simp only [busy_of_idle hidle, Bool.false_eq_true, if_false, polledStatus_of_idle hidle, polledState_of_idle hidle]
  cases tg with
  | src a | ref a => exact returnedSample_of_map hx
  | _ => exact congrArg (returned · s) (Option.some.inj hx)

theorem access_refused (ht : target width addr.toNat s = none) :
    hostWrite width addr v s = .refused .hostAccess ∧ hostRead width addr s = .refused .hostAccess := by
  rw [hostWrite, hostRead, ht]
  exact ⟨rfl, rfl⟩

/-- The eight registers: each address and what an idle block shows there. -/
theorem readTarget_register (h : (addr, x) ∈ [(0x000, 0), (0x004, s.arg0), (0x008, s.arg1), (0x00C, s.result),
    (0x010, statusWord s.status), (0x014, stateWord false s.inited s.wbuf.length s.rbuf.length),
    (0x018, s.width.setWidth 32), (0x01C, s.height.setWidth 32)]) :
    addr.toNat < 0x01000000 ∧ readTarget (wordTarget addr.toNat) s = some x := by
  simp only [List.mem_cons, Prod.mk.injEq, List.not_mem_nil, or_false] at h
  obtain ⟨rfl, rfl⟩ | ⟨rfl, rfl⟩ | ⟨rfl, rfl⟩ | ⟨rfl, rfl⟩ | ⟨rfl, rfl⟩ | ⟨rfl, rfl⟩ | ⟨rfl, rfl⟩ | ⟨rfl, rfl⟩ := h <;>
    exact ⟨by decide, rfl⟩

/-! ### The obligation -/

/-- Settles O10: the address decides what an access reaches, and that what the access does. -/
theorem hostAccesses : Obligations.HostAccesses := by
  intro s hidle v
  refine ⟨?_, ?_, ?_, ?_, ?_, ?_, ?_, ?_⟩
  · refine ⟨?_, ?_, ?_, ?_, ?_, ?_, ?_⟩ <;> exact hostWrite_word hidle (by decide) (by decide) (by decide)
  · intro addr x h4 hmem
    obtain ⟨hlt, hx⟩ := readTarget_register hmem
    exact hostRead_of_target hidle (target_word hlt h4) hx
  · intro p hp
    exact ⟨hostWrite_of_target hidle (target_qtab hp) nofun, hostRead_of_target hidle (target_qtab hp) rfl⟩
  · intro b i hb hi
    exact ⟨hostWrite_of_target hidle (target_bank hb hi) nofun, hostRead_of_target hidle (target_bank hb hi) rfl⟩
  · intro addr h4 h
    exact ⟨hostWrite_of_target hidle (target_reserved h4 h) nofun, hostRead_of_target hidle (target_reserved h4 h) rfl⟩
  · intro a ha h24
    have ht : target 1 (BitVec.ofNat 32 (0x01000000 + a)).toNat s = some (.src a) := by
      rw [toNat_small (by omega), target_sample ha h24]
    exact ⟨hostWrite_of_target hidle ht nofun, fun x hx => hostRead_of_target hidle ht (congrArg (Option.map _) hx)⟩
  · intro a ha h32 hm hi
    have ht : target 1 (BitVec.ofNat 32 (0x02000000 + a)).toNat s = some (.ref a) := by
      rw [toNat_small h32, target_ref ha hm hi]
    exact ⟨hostWrite_of_target hidle ht nofun, fun x hx => hostRead_of_target hidle ht (congrArg (Option.map _) hx)⟩
  · exact fun width addr h => access_refused (target_eq_none h)

end Sys2Proof.Machine
end

section
/-! The command word (30_encoding.md): the decoder accepts the encoder's words and no others (R100, R103, R104), so a
word with a reserved opcode or a nonzero unused field is no command's word and raises INVAL (R105). -/

namespace Sys2Proof.Machine

variable {w : Word} {s : State} {i j : Instr}

/-! ### The decoder and the encoder -/

theorem eq_commandWord_iff {opc fa fb fc : Byte} : w = commandWord opc fa fb fc ↔
    (fieldOPC w).toNat = opc.toNat ∧ fieldFA w = fa ∧ fieldFB w = fb ∧ fieldFC w = fc := by
  rw [BitVec.toNat_inj]
  constructor
  · rintro rfl
    exact field_commandWord opc fa fb fc
  · rintro ⟨rfl, rfl, rfl, rfl⟩
    exact (commandWord_field w).symm

/-- A row without unused fields, in the form of `unusedZero_eq_ok`. -/
theorem decoded_eq_ok : (Except.ok i : Except DecodeError Instr) = .ok j ↔ j = i := by
  rw [Except.ok.injEq, eq_comm]

/-- Each row of the table fixes OPC, and the fields it does not hand to the command are 0: four fields, so one word. -/
theorem eq_encode_of_decode (h : decode w = .ok i) : w = encode i := by
  unfold decode at h
  dsimp only at h
  split at h <;> rename_i hopc <;>
    simp only [unusedZero_eq_ok, decoded_eq_ok, List.forall_mem_cons, reduceCtorEq] at h
  all_goals simp [h, encode, eq_commandWord_iff, hopc]

/-- Settles O1: a word that decodes has the command's four fields, and the decoder reads each command back. -/
theorem decodeInvertsEncode : Obligations.DecodeInvertsEncode := by
  intro i w
  constructor
  · exact eq_encode_of_decode
  · rintro rfl
    exact decode_encode i

/-! ### What the opcode of a command says (R103, R105) -/

/-- The reserved ranges of R105, both ends included. -/
def reservedRanges : List (Nat × Nat) :=
  [(0x06, 0x0F), (0x15, 0x17), (0x1B, 0x1F), (0x22, 0x2F), (0x35, 0x3F), (0x47, 0x4F), (0x53, 0x5F), (0x64, 0xFF)]

/-- The rows of R103 that use no field. -/
def rowsWithoutFA : List Nat := [0x00, 0x01, 0x02, 0x03, 0x04, 0x05, 0x11, 0x12, 0x13, 0x14, 0x19, 0x1A, 0x62, 0x63]

/-- The rows of R103 that use FA at most. -/
def rowsWithoutFB : List Nat := rowsWithoutFA ++ [0x10, 0x18, 0x50, 0x60, 0x61]

/-- The rows of R103 that use FA and FB at most. -/
def rowsWithoutFC : List Nat := rowsWithoutFB ++ [0x30, 0x31, 0x32, 0x33, 0x34, 0x40, 0x41]

theorem fieldOPC_encode_not_reserved (i : Instr) :
    ∀ r ∈ reservedRanges, r.1 ≤ (fieldOPC (encode i)).toNat → ¬ (fieldOPC (encode i)).toNat ≤ r.2 := by
  cases i <;> simp [reservedRanges, encode, field_commandWord]

theorem fieldFA_encode (i : Instr) : (fieldOPC (encode i)).toNat ∈ rowsWithoutFA → fieldFA (encode i) = 0 := by
  cases i <;> simp [rowsWithoutFA, encode, field_commandWord]

theorem fieldFB_encode (i : Instr) : (fieldOPC (encode i)).toNat ∈ rowsWithoutFB → fieldFB (encode i) = 0 := by
  cases i <;> simp [rowsWithoutFB, rowsWithoutFA, encode, field_commandWord]

theorem fieldFC_encode (i : Instr) : (fieldOPC (encode i)).toNat ∈ rowsWithoutFC → fieldFC (encode i) = 0 := by
  cases i <;> simp [rowsWithoutFC, rowsWithoutFB, rowsWithoutFA, encode, field_commandWord]

/-! ### A word that is no command's (R104, R313) -/

theorem invalid_eq_raises (s : State) : invalid s = raises .inval s := by
  unfold invalid record raises
  split <;> rfl

theorem issue_of_not_decoded (h : ∀ i, decode w ≠ .ok i) : issue w s = raises .inval s := by
  unfold issue
  split
  · exact absurd ‹_› (h _)
  · exact invalid_eq_raises s

theorem issue_of_ne_encode (h : ∀ i, w ≠ encode i) : issue w s = raises .inval s :=
  issue_of_not_decoded fun i hd => h i (eq_encode_of_decode hd)

/-! ### The obligations on words -/

/-- Settles O3: were such a word a command's, its opcode would be assigned and its unused fields 0. -/
theorem reservedWordsRaiseInval : Obligations.ReservedWordsRaiseInval := by
  intro w s
  refine ⟨fun r hr hlo hhi => ?_, fun hrow hfa => ?_, fun hrow hfb => ?_, fun hrow hfc => ?_⟩ <;>
    apply issue_of_ne_encode <;> rintro i rfl
  · exact fieldOPC_encode_not_reserved i r hr hlo hhi
  · exact hfa (fieldFA_encode i hrow)
  · exact hfb (fieldFB_encode i hrow)
  · exact hfc (fieldFC_encode i hrow)

/-- Settles O2: each word of R109's table is the encoder's word of its command. -/
theorem exampleWordsDecode : Obligations.ExampleWordsDecode := by
  refine ⟨?_, ?_, ?_, ?_, ?_, ?_, ?_, ?_, ?_, ?_⟩ <;> exact (decodeInvertsEncode _ _).mpr (by decide)

end Sys2Proof.Machine
end

section
/-! The writing commands (40_bitstream.md R131, R133 to R137): one OUT transaction said once for every answer, a PUT
command as the stretch of bits it emits, and FLUSH. -/

namespace Sys2Proof.Machine

variable {s t : State} {i : Instr} {b : Bool} {bits : List Bool} {a : OutAnswer} {rest : List OutAnswer}

/-! ### One OUT transaction (R82, R131) -/

/-- The state after the writer's buffer has gone out as `sent` and the host has answered a, d values drawn so far (R131,
U4). -/
def afterTransfer (a : OutAnswer) (rest : List OutAnswer) (sent : List Byte) (reached : List Bool) (d : Nat) (s : State) :
    State :=
  { s with
    status := if s.status = .ok ∧ a = .fail then .ioFailed else s.status
    wbuf := []
    wlost := s.wlost || a == .fail
    rlost := s.rlost || a == .fail
    draws := d
    ports := { s.ports with outAnswers := rest, outLog := s.ports.outLog ++ [⟨sent, a, reached⟩] } }

theorem failRun_eq (c : Status) (s : State) : failRun c s =
    { s with status := if s.status = .ok then c else s.status, wlost := true, rlost := true } := by
  unfold failRun record
  split <;> rfl

theorem afterTransfer_fail (rest : List OutAnswer) (sent : List Byte) (reached : List Bool) (d : Nat) (s : State) :
    afterTransfer .fail rest sent reached d s = failRun .ioFailed { s with
      wbuf := [], draws := d, ports := { s.ports with
        outAnswers := rest, outLog := s.ports.outLog ++ [⟨sent, .fail, reached⟩] } } := by
  rw [failRun_eq]
  by_cases hok : s.status = .ok <;> simp [afterTransfer, hok]

/-- The bytes are the writer's or drawn; their fates are all true, or drawn where the answer is `fail`. -/
theorem transfer_answered (bytes : List Byte) (ha : s.ports.outAnswers = a :: rest) : ∃ sent reached d,
    sent.length = bytes.length ∧ reached.length = bytes.length ∧ (writerExact s = true → sent = bytes) ∧
      transfer bytes s = .done () (afterTransfer a rest sent reached d s) := by
  cases hx : writerExact s with
  | true =>
    cases a with
    | ok =>
      exact ⟨bytes, List.replicate bytes.length true, s.draws, by simp [transfer, outWrite, hx, ha, afterTransfer]⟩
    | fail =>
      exact ⟨bytes, drawnBits s.draws bytes.length, s.draws + bytes.length, by
        simp [transfer, outWrite, hx, ha, afterTransfer_fail, drew]⟩
  | false =>
    refine ⟨drawnBytes s.draws bytes.length, ?_⟩
    cases a with
    | ok =>
      exact ⟨List.replicate bytes.length true, s.draws + bytes.length, by
        simp [transfer, outWrite, hx, ha, afterTransfer, drew]⟩
    | fail =>
      exact ⟨drawnBits (s.draws + bytes.length) bytes.length, s.draws + bytes.length + bytes.length, by
        simp [transfer, outWrite, hx, ha, afterTransfer_fail, drew]⟩

theorem transfer_unanswered (bytes : List Byte) (ha : s.ports.outAnswers = []) : ∃ sent t,
    transfer bytes s = .waiting (.outWrite sent) t ∧ (writerExact s = true → sent = bytes ∧ t = s) := by
  cases hx : writerExact s <;> simp [transfer, outWrite, hx, ha]

/-! ### One bit (R131) -/

/-- The state with the bit b appended to WBUF. -/
def appendBit (b : Bool) (s : State) : State := { s with wbuf := s.wbuf ++ [b] }

theorem emitBit_of_exact (hx : writerExact s = true) : emitBit b s =
    if s.wbuf.length + 1 = 64 then transfer (pack (s.wbuf ++ [b])) (appendBit b s) else .done () (appendBit b s) := by
  simp [emitBit, hx, appendBit]

theorem emitBit_of_not_exact (hx : writerExact s = false) (hlen : s.wbuf.length + 1 ≠ 64) : emitBit b s =
    .done () { s with wbuf := s.wbuf ++ [Config.drawBit s.draws], draws := s.draws + 1 } := by
  simp [emitBit, hx, hlen, drew]

theorem writerExact_false (h : s.status ≠ .ok ∨ s.wlost = true) : writerExact s = false := by
  rcases h with h | h <;> simp [writerExact, h]

/-- Settles O26: the 64th bit makes the one transaction, every other bit is appended. -/
theorem emitBitTransfersFullBuffer : Obligations.EmitBitTransfersFullBuffer := by
  intro b s
  refine ⟨fun hok hl => ⟨fun hlen => ?_, fun hlen => ?_⟩, fun h hlen => ?_⟩
  · rw [emitBit_of_exact (writerExact_true hok hl), if_neg hlen, appendBit]
  · have hx : writerExact (appendBit b s) = true := writerExact_true hok hl
    have hpack : (pack (s.wbuf ++ [b])).length = 8 := by simp [hlen]
    rw [emitBit_of_exact (writerExact_true hok hl), if_pos hlen]
    refine ⟨fun rest ha => ?_, fun rest ha => ?_, fun ha => ?_⟩
    · rw [transfer_ok (s := appendBit b s) hok hl ha, hpack, appendBit]
    · obtain ⟨sent, reached, d, -, hreached, hsent, e⟩ :=
        transfer_answered (s := appendBit b s) (pack (s.wbuf ++ [b])) ha
      exact ⟨reached, d, hreached.trans hpack, by rw [e, hsent hx]; simp [afterTransfer, appendBit, hok]⟩
    · obtain ⟨sent, t, e, hsent⟩ := transfer_unanswered (s := appendBit b s) (pack (s.wbuf ++ [b])) ha
      obtain ⟨rfl, rfl⟩ := hsent hx
      exact e
  · exact ⟨_, _, emitBit_of_not_exact (writerExact_false h) hlen⟩

/-! ### The buffers at the end of a command (R316, U4) -/

theorem settle_lengths (i : Instr) (s : State) (hw : t.wbuf.length ≤ 63) (hr : t.rbuf.length ≤ 64) :
    (settle i s t).wbuf.length ≤ 63 ∧ (settle i s t).rbuf.length ≤ 64 := by
  obtain ⟨x, y, d, e, hx, hy⟩ := settle_cases i s t
  rw [e]
  exact ⟨hx.elim (fun h => h ▸ hw) fun h => h.2.2, hy.elim (fun h => h ▸ hr) fun h => h.2.2⟩

/-! ### The PUT commands (R133 to R136) -/

theorem finish_emitBits_written (hi : readsStream i = false) (hok : s.status = .ok) (hw : s.wbuf.length ≤ 63)
    (hacc : acceptsBits bits.length s) : ∃ t, finish i s (emitBits bits s) = .next t ∧ Written bits s t := by
  obtain ⟨t, e, hem⟩ := emitBits_emits bits hok hw hacc
  exact ⟨settle i s t, by rw [e, finish_done], hem.settle hi⟩

theorem exec_putbits {n : Byte} (h1 : 1 ≤ n.toNat) (h31 : n.toNat ≤ 31) :
    exec (.putbits n) s = finish (.putbits n) s (emitBits (natBits n.toNat s.arg0.toNat) s) :=
  if_pos ⟨h1, h31⟩

theorem exec_puteg (h : s.arg0.toNat ≤ 2 ^ 31 - 2) :
    exec .puteg s = finish .puteg s (emitBits (egBits s.arg0.toNat) s) :=
  if_pos h

/-- Settles O27: each command emits its stretch of bits, which the host accepts whole. -/
theorem putCommandsAppendBits : Obligations.PutCommandsAppendBits := by
  intro s hok hw
  refine ⟨fun n h1 h31 hacc => ?_, fun hacc => ⟨?_, ?_⟩, fun hv hacc => ?_⟩
  · rw [exec_putbits h1 h31]
    exact finish_emitBits_written rfl hok hw (by rwa [natBits_length])
  · exact finish_emitBits_written rfl hok hw (by rwa [List.length_replicate])
  · exact finish_emitBits_written rfl hok hw (by rwa [List.length_replicate])
  · rw [exec_puteg hv]
    exact finish_emitBits_written rfl hok hw (by rwa [egBits_length])

/-- A PUT command that passes its checks is a stretch of bits written. -/
theorem exec_of_putCount {m : Nat} (h : putCount i s = some m) : readsStream i = false ∧
    ∃ bits, bits.length = m ∧ exec i s = finish i s (emitBits bits s) := by
  cases i with
  | putbits n =>
    obtain ⟨⟨h1, h31⟩, ⟨⟩⟩ := Option.ite_none_right_eq_some.mp h
    exact ⟨rfl, _, natBits_length .., exec_putbits h1 h31⟩
  | putones =>
    obtain rfl := Option.some.inj h
    exact ⟨rfl, _, List.length_replicate, rfl⟩
  | putzeroes =>
    obtain rfl := Option.some.inj h
    exact ⟨rfl, _, List.length_replicate, rfl⟩
  | puteg =>
    obtain ⟨hv, ⟨⟩⟩ := Option.ite_none_right_eq_some.mp h
    exact ⟨rfl, _, egBits_length _, exec_puteg hv⟩
  | _ => cases h

/-- Settles O28: what the bits leave in any case is `Wrote`, and the end of the command touches only buffers whose
contents are unspecified. -/
theorem putCommandsGoOnAfterFailure : Obligations.PutCommandsGoOnAfterFailure := by
  intro i m s hput hw hr hidle
  obtain ⟨hi, bits, rfl, e⟩ := exec_of_putCount hput
  obtain ⟨hdone, hwait⟩ := emitBits_wrote bits hw
  rw [e]
  refine ⟨fun hk => ?_, fun hk => ?_⟩
  · obtain ⟨t, et, hwr⟩ := hdone hk
    have hw' : t.wbuf.length ≤ 63 := by rw [hwr.wbuf]; omega
    refine ⟨settle i s t, by rw [et, finish_done], ?_⟩
    simp only [settle_wait, settle_ports, settle_status, settle_result, settle_banks, settle_ref, settle_src,
      settle_wlost, settle_rlost]
    refine ⟨hwr.wait.trans hidle, hwr.answers, hwr.log, hwr.status, hwr.result, hwr.banks, hwr.ref, hwr.src, hwr.inA,
      hwr.inL, fun hnf => ?_, hwr.lost, settle_lengths i s hw' (hwr.rbuf ▸ hr)⟩
    obtain ⟨hwl, hrl⟩ := hwr.kept hnf
    obtain ⟨x, d, es, hkept, -⟩ := Written.settle hi hwl hrl
    rw [es]
    exact ⟨hwl, hrl, hwr.rbuf, fun hl => by rw [← hwr.wbuf, (hkept hl).1]⟩
  · obtain ⟨req, t, et⟩ := hwait hk
    exact ⟨waitRecord i req t, by rw [et, finish_waiting]⟩

/-! ### FLUSH (R137) -/

theorem exec_flush_empty (h : s.wbuf = []) :
    exec .flush s = .next (settle .flush s { s with result := statusWord s.status }) := by
  rw [exec, execFlush, if_pos (by rw [h]; rfl), andThen_done, finish_done]

theorem exec_flush_buffered (h : s.wbuf ≠ []) : exec .flush s = finish .flush s
    ((transfer (flushBytes s.wbuf) s).andThen fun _ t => .done () { t with result := statusWord t.status }) := by
  rw [exec, execFlush, if_neg (mt List.length_eq_zero_iff.mp h)]

theorem flushBytes_length (wbuf : List Bool) : (flushBytes wbuf).length = (wbuf.length + 7) / 8 := by
  simp only [flushBytes, pack_length, List.length_append, List.length_replicate]
  omega

/-- What FLUSH leaves where the host answers its transaction a, before the buffers are settled. -/
def afterFlush (a : OutAnswer) (rest : List OutAnswer) (sent : List Byte) (reached : List Bool) (d : Nat) (s : State) :
    State :=
  { afterTransfer a rest sent reached d s with result := statusWord (afterTransfer a rest sent reached d s).status }

/-- FLUSH where the host answers its transaction a: one transaction is made, and only buffers whose contents are
unspecified are free afterwards. -/
theorem exec_flush_answered (hne : s.wbuf ≠ []) (hr : s.rbuf.length ≤ 64) (ha : s.ports.outAnswers = a :: rest) :
    ∃ sent reached w r d, sent.length = (s.wbuf.length + 7) / 8 ∧ reached.length = (s.wbuf.length + 7) / 8 ∧
      w.length ≤ 63 ∧ r.length ≤ 64 ∧ (writerExact s = true → sent = flushBytes s.wbuf) ∧
      (a = .ok → r = s.rbuf ∧ (s.wlost = false → w = [])) ∧
      exec .flush s = .next { afterTransfer a rest sent reached d s with
        wbuf := w, rbuf := r, result := statusWord (if s.status = .ok ∧ a = .fail then .ioFailed else s.status) } := by
  obtain ⟨sent, reached, d, hsent, hreached, hexact, e⟩ := transfer_answered (flushBytes s.wbuf) ha
  obtain ⟨w, r, d', es, hw, hr'⟩ := settle_cases .flush s (afterFlush a rest sent reached d s)
  obtain ⟨hwl, hrl⟩ := settle_lengths .flush s (t := afterFlush a rest sent reached d s) (Nat.zero_le _) hr
  rw [es] at hwl hrl
  refine ⟨sent, reached, w, r, d', hsent.trans (flushBytes_length _), hreached.trans (flushBytes_length _), hwl, hrl,
    hexact, ?_, ?_⟩
  · rintro rfl
    refine ⟨hr'.resolve_right fun ⟨hlost, hs, _⟩ => ?_, fun hl => hw.resolve_right fun ⟨hlost, _⟩ => ?_⟩
    · have hs : s.rlost = false := by simpa [readsStream] using hs
      simp [afterFlush, afterTransfer, hs] at hlost
    · simp [afterFlush, afterTransfer, hl] at hlost
  · rw [exec_flush_buffered hne, e, andThen_done, finish_done]
    exact congrArg _ es

/-- FLUSH where nothing is unspecified and the host accepts the bytes. -/
theorem exec_flush_accepted (hne : s.wbuf ≠ []) (hok : s.status = .ok) (hl : s.wlost = false)
    (ha : s.ports.outAnswers = .ok :: rest) : exec .flush s = .next { s with
      wbuf := [], result := 0, ports := { s.ports with
        outAnswers := rest
        outLog := s.ports.outLog ++
          [⟨flushBytes s.wbuf, .ok, List.replicate ((s.wbuf.length + 7) / 8) true⟩] } } := by
  rw [exec_flush_buffered hne, transfer_ok hok hl ha, andThen_done, finish_done, settle_written rfl,
    flushBytes_length]
  · simp [hok, statusWord, statusCode]
  · exact hl
  · rfl

/-- Settles O29: with nothing buffered no transaction is made; with bits buffered one, whose answer decides. -/
theorem flushSendsBufferAndReturnsStatus : Obligations.FlushSendsBufferAndReturnsStatus := by
  intro s hw hr
  refine ⟨fun hempty => ?_, fun hne hok hl => ⟨fun rest ha => ?_, fun rest ha => ?_⟩, fun hne hx a rest ha => ?_,
    fun hne ha => ?_⟩
  · obtain ⟨x, d, es, hkept, hle⟩ := Written.settle (i := .flush) (s := s)
      (v := { s with result := statusWord s.status }) rfl rfl rfl
    refine ⟨x, d, hle hw, fun hl => ?_, by rw [exec_flush_empty hempty, es]⟩
    obtain ⟨rfl, rfl⟩ := hkept hl
    exact ⟨hempty, rfl⟩
  · exact exec_flush_accepted hne hok hl ha
  · obtain ⟨sent, reached, w, r, d, -, hreached, hw', hr', hsent, -, e⟩ := exec_flush_answered hne hr ha
    refine ⟨reached, w, r, d, hreached, hw', hr', ?_⟩
    rw [e, hsent (writerExact_true hok hl)]
    simp [afterTransfer, hok, flushBytes, statusWord, statusCode]
  · obtain ⟨sent, reached, w, r, d, hsent, hreached, hw', hr', -, hkept, e⟩ := exec_flush_answered hne hr ha
    exact ⟨sent, reached, w, r, d, hsent, hreached, hw', hr', hkept, e⟩
  · obtain ⟨sent, t, e, -⟩ := transfer_unanswered (flushBytes s.wbuf) ha
    exact ⟨waitRecord .flush (.outWrite sent) t, by rw [exec_flush_buffered hne, e, andThen_waiting, finish_waiting]⟩

end Sys2Proof.Machine
end

section
/-! The reading commands (40_bitstream.md R132, R138 to R140): how a command that returns a value ends, and what each of
the three reads, runs out of or is stuck in. -/

namespace Sys2Proof.Machine

variable {s t u : State} {i : Instr} {x : Run Nat} {n m z : Nat}

/-! ### RESULT of a reading command (R35, R138, R141) -/

/-- RESULT takes v if p holds, else a free value. -/
theorem result_or_drawn (p : Prop) [Decidable p] (v : Word) (k : Nat) (u : State) : ∃ y d, (p → y = v) ∧
    (if p then { u with result := v } else putStreamResult k u) = { u with result := y, draws := d } := by
  split
  · exact ⟨v, u.draws, fun _ => rfl, rfl⟩
  · obtain ⟨y, d, e⟩ := putStreamResult_eq k u
    exact ⟨y, d, fun h => absurd h ‹_›, e⟩

/-- Bits consumed exactly: RESULT is the value, or free while a failure is recorded. -/
theorem finish_result (hi : writesStream i = false) (hl : s.rlost = false) (v : Nat) :
    (s.status = .ok → finish i s (.done () (putStreamResult v (afterReading n m s))) =
      .next { afterReading n m s with result := BitVec.ofNat 32 v }) ∧
    (s.status ≠ .ok → ∃ w d, finish i s (.done () (putStreamResult v (afterReading n m s))) =
      .next { afterReading n m s with result := w, draws := d }) := by
  rw [finish_done, settle_read hi (by simpa using hl) (by simp)]
  refine ⟨fun hok => ?_, fun _ => ?_⟩
  · rw [putStreamResult, if_pos (by simpa using hok)]
  · obtain ⟨w, d, e⟩ := putStreamResult_eq v (afterReading n m s)
    exact ⟨w, d, by rw [e]⟩

/-- The command has failed while it ran: both buffers are free, and RESULT too if a failure was recorded before. -/
theorem settle_failed_result (hl : s.rlost = false) (hw : u.wbuf.length ≤ 63) (hu : u.rlost = true) (v : Word) (k : Nat) :
    ∃ w r y d, w.length ≤ 63 ∧ r.length ≤ 64 ∧ (s.status = .ok → y = v) ∧
      settle i s (if s.status = .ok then { u with result := v } else putStreamResult k u) =
        { u with wbuf := w, rbuf := r, result := y, draws := d } := by
  obtain ⟨y, d, hy, e⟩ := result_or_drawn (s.status = .ok) v k u
  obtain ⟨w, r, d', es, hw', hr⟩ := settle_failed (i := i) (t := { u with result := y, draws := d }) hw hu hl
  exact ⟨w, r, y, d', hw', hr, hy, by rw [e, es]⟩

/-- What command i, issued in s, does when the stream ends in it (R132, R316, U4), or before the host has answered (R19):
RESULT takes v where STATUS was OK. -/
def RunsOut (i : Instr) (v : Word) (s : State) : Prop :=
  (∀ c, streamEnd s.ports.inAnswers = some c → ∃ w r y d, w.length ≤ 63 ∧ r.length ≤ 64 ∧ (s.status = .ok → y = v) ∧
    exec i s = .next { afterRunningOut (if s.status = .ok then c else s.status) w r d s with result := y }) ∧
  (streamEnd s.ports.inAnswers = none → ∃ w, w.instr = i ∧ w.request = .inRead ∧
    exec i s = .next { s with wait := some w })

/-- The state in which the bits have run out, before the buffers are settled. -/
def ranOut (c : Status) (s : State) : State :=
  afterRunningOut (if s.status = .ok then c else s.status) s.wbuf [] s.draws s

theorem RunsOut.of_exec {v : Word} {k : Nat} (hl : s.rlost = false) (hw : s.wbuf.length ≤ 63)
    (hend : ∀ c, streamEnd s.ports.inAnswers = some c → exec i s = .next (settle i s
      (if s.status = .ok then { ranOut c s with result := v } else putStreamResult k (ranOut c s))))
    (hwait : streamEnd s.ports.inAnswers = none → ∃ t, exec i s = finish i s (.waiting .inRead t)) : RunsOut i v s := by
  refine ⟨fun c hc => ?_, fun hc => ?_⟩
  · obtain ⟨w, r, y, d, hw', hr, hy, e⟩ := settle_failed_result (i := i) (u := ranOut c s) hl hw rfl v k
    exact ⟨w, r, y, d, hw', hr, hy, by rw [hend c hc, e]; rfl⟩
  · obtain ⟨t, e⟩ := hwait hc
    exact ⟨waitRecord i .inRead t, rfl, rfl, e⟩

/-- A command that returns a value, where it runs out of bits. -/
theorem RunsOut.of_returning (hl : s.rlost = false) (hw : s.wbuf.length ≤ 63)
    (he : exec i s = finish i s (returning s x))
    (hend : ∀ c, streamEnd s.ports.inAnswers = some c → x = .ended (ranOut c s))
    (hwait : streamEnd s.ports.inAnswers = none → ∃ t, x = .waiting .inRead t) : RunsOut i s.result s := by
  refine .of_exec (k := 0) hl hw (fun c hc => ?_) fun hc => ?_
  · rw [he, hend c hc]; rfl
  · obtain ⟨t, rfl⟩ := hwait hc
    exact ⟨t, he⟩

/-! ### GETBITS (R138) -/

theorem exec_getbits {k : Byte} (h1 : 1 ≤ k.toNat) (h32 : k.toNat ≤ 32) :
    exec (.getbits k) s = finish (.getbits k) s (returning s (readBits k.toNat 0 s)) :=
  if_pos ⟨h1, h32⟩

/-- Settles O30: the reader delivers the n bits, or has run out. -/
theorem getbitsReadsMsbFirst : Obligations.GetbitsReadsMsbFirst := by
  intro n s
  refine ⟨fun h => ?_, fun h1 h32 hl hn => ?_, fun h1 h32 hl hn hw => ?_⟩
  · rw [exec, execGetbits, if_neg h, invalid_eq_raises]
  · rw [exec_getbits h1 h32, readBits_eq hl _ hn]
    exact finish_result rfl hl _
  · exact RunsOut.of_returning hl hw (exec_getbits h1 h32) (fun c hc => readBits_end hl _ _ hn hc)
      fun hc => ⟨_, readBits_wait hl _ _ hn hc⟩

/-! ### GETZEROES (R139) -/

/-- GETZEROES stores the count, on failure too. -/
theorem exec_getzeroes_of_count {b : Bool} (h : countZeros s = .done (z, b) t) : exec .getzeroes s =
    .next (settle .getzeroes s (if s.status = .ok then { t with result := BitVec.ofNat 32 z } else putStreamResult z t)) := by
  rw [exec, execGetzeroes, h, andThen_done, finish_done]

/-- Where no failure is recorded meanwhile, it stores it as every reading command stores its value. -/
theorem exec_getzeroes_of_same_status {b : Bool} (h : countZeros s = .done (z, b) t) (ht : t.status = s.status) :
    exec .getzeroes s = finish .getzeroes s (.done () (putStreamResult z t)) := by
  rw [exec_getzeroes_of_count h, finish_done]
  by_cases hok : s.status = .ok <;> simp [putStreamResult, ht, hok]

theorem exec_getzeroes_of_waiting {req : PortRequest} (h : countZeros s = .waiting req t) :
    exec .getzeroes s = finish .getzeroes s (.waiting req t) := by
  rw [exec, execGetzeroes, h, andThen_waiting]

theorem getzeroes_runsOut (hl : s.rlost = false) (hw : s.wbuf.length ≤ 63) (hz : z < 2 ^ 32)
    (h : readable s = List.replicate z false) : RunsOut .getzeroes (BitVec.ofNat 32 z) s :=
  .of_exec hl hw (fun _ hc => exec_getzeroes_of_count (countZeros_end hl hz h hc))
    fun hc => ⟨_, exec_getzeroes_of_waiting (countZeros_wait hl hz h hc)⟩

/-- Settles O31: the zeros end at a one-bit, at the end of the stream, or not at all. -/
theorem getzeroesCountsZeros : Obligations.GetzeroesCountsZeros := by
  intro s hl
  refine ⟨fun z rest hz h => ?_, fun z hz h hw => getzeroes_runsOut hl hw hz h, fun rest h => ?_⟩
  · rw [exec_getzeroes_of_same_status (countZeros_eq hl z rest hz h) rfl]
    exact finish_result rfl hl z
  · obtain ⟨t, e⟩ := countZeros_stuck hl rest h
    exact ⟨waitRecord .getzeroes .never t, rfl, rfl, exec_getzeroes_of_waiting e⟩

/-! ### GETEG (R140) -/

/-- What 32 or more zeros before the one-bit leave, before the buffers are settled: INVAL is recorded (R140, U4). -/
def afterTooManyZeros (z : Nat) (s : State) : State :=
  { afterReading z (z + 1) s with
    status := if s.status = .ok then .inval else s.status
    wlost := true
    rlost := true }

theorem readEg_too_long (hl : s.rlost = false) {rest : List Bool} (hz : 32 ≤ z) (hlt : z < 2 ^ 32)
    (h : readable s = List.replicate z false ++ true :: rest) : readEg s = .ended (afterTooManyZeros z s) := by
  rw [readEg, countZeros_eq hl z rest hlt h, andThen_done, if_pos rfl, if_pos hz, failRun_eq]
  rfl

theorem readEg_zeros_only (hl : s.rlost = false) (hz : z < 2 ^ 32) (h : readable s = List.replicate z false) :
    (∀ c, streamEnd s.ports.inAnswers = some c → readEg s = .ended (ranOut c s)) ∧
    (streamEnd s.ports.inAnswers = none → ∃ t, readEg s = .waiting .inRead t) := by
  refine ⟨fun c hc => ?_, fun hc => ?_⟩
  · rw [readEg, countZeros_end hl hz h hc]; rfl
  · exact ⟨_, by rw [readEg, countZeros_wait hl hz h hc]; rfl⟩

/-- The code breaks off after its one-bit: the low bits that are read run out. -/
theorem readEg_low_bits_short (hl : s.rlost = false) {low : List Bool} (hz : z < 32) (hlow : low.length < z)
    (h : readable s = List.replicate z false ++ true :: low) :
    (∀ c, streamEnd s.ports.inAnswers = some c → readEg s = .ended (ranOut c s)) ∧
    (streamEnd s.ports.inAnswers = none → ∃ t, readEg s = .waiting .inRead t) := by
  have hle : z + 1 ≤ (readable s).length := by rw [h]; simp
  have hlen : (readable (afterReading z (z + 1) s)).length < z + 1 := by
    rw [readable_afterReading hle (by omega), h]; simpa using hlow
  have e : readEg s = (readBits (z + 1) 0 (afterReading z (z + 1) s)).andThen fun u t => .done (u - 1) t := by
    rw [readEg, countZeros_eq hl z low (by omega) h, andThen_done, if_pos rfl, if_neg (by omega)]
  rw [e, ← streamEnd_afterReading z hle]
  refine ⟨fun c hc => ?_, fun hc => ?_⟩
  · rw [readBits_end (s := afterReading z (z + 1) s) hl _ _ hlen hc, andThen_ended, afterRunningOut_afterReading_le z hle]
    rfl
  · exact ⟨_, by rw [readBits_wait (s := afterReading z (z + 1) s) hl _ _ hlen hc, andThen_waiting]⟩

/-- Settles O32: the zeros, then the low bits, are there, are too many, or run out. -/
theorem getegReadsExpGolomb : Obligations.GetegReadsExpGolomb := by
  intro s hl
  refine ⟨fun z low rest hz hlow h => ?_, fun z rest hz hlt hw h => ?_, fun z hw h => ?_, fun rest h => ?_⟩
  · rw [exec, execGeteg, readEg_eq hl z low rest hz hlow h]
    exact finish_result rfl hl _
  · obtain ⟨w, r, y, d, hw', hr, hy, e⟩ := settle_failed_result (i := .geteg) (s := s) (u := afterTooManyZeros z s) hl hw
      rfl s.result 0
    exact ⟨w, r, y, d, hw', hr, hy, by
      rw [exec, execGeteg, readEg_too_long hl hz hlt h, returning, finish_ended]; exact congrArg _ e⟩
  · obtain ⟨hend, hwait⟩ := h.elim (fun ⟨hz, hr⟩ => readEg_zeros_only hl hz hr)
      fun ⟨low, hlow, hz, hr⟩ => readEg_low_bits_short hl hz hlow hr
    exact RunsOut.of_returning hl hw rfl hend hwait
  · obtain ⟨t, e⟩ := countZeros_stuck hl rest h
    exact ⟨waitRecord .geteg .never t, rfl, rfl, by rw [exec, execGeteg, readEg, e]; rfl⟩

end Sys2Proof.Machine
end

section
/-! The streams across windows and transactions (40_bitstream.md R143, R144): the sink has the bits written, whatever
windows they were cut into, and a code written is read back. -/

namespace Sys2Proof.Machine

variable {s : State} {bits : List Bool}

/-! ### Writing and FLUSH (R131, R137) -/

theorem acceptsBits_of_all_ok {m : Nat} (h : ∀ a ∈ s.ports.outAnswers, a = .ok)
    (hk : (s.wbuf.length + m) / 64 ≤ s.ports.outAnswers.length) : acceptsBits m s :=
  List.eq_replicate_iff.mpr ⟨List.length_take_of_le hk, fun a ha => h a (List.mem_of_mem_take ha)⟩

/-- After fewer answers than there are, each of them `ok`, the next is `ok`. -/
theorem drop_eq_ok_cons {answers : List OutAnswer} {k : Nat} (h : ∀ a ∈ answers, a = .ok) (hk : k < answers.length) :
    ∃ rest, answers.drop k = .ok :: rest :=
  ⟨answers.drop (k + 1), by rw [List.drop_eq_getElem_cons hk, h _ (List.getElem_mem hk)]⟩

/-- Bits that reached the sink by a FLUSH that goes well. -/
theorem flush_sinkBytes (hok : s.status = .ok) (hl : s.wlost = false)
    (ha : s.wbuf = [] ∨ ∃ rest, s.ports.outAnswers = .ok :: rest) : ∃ u, exec .flush s = .next u ∧
      bytesBits (sinkBytes u) = bytesBits (sinkBytes s) ++ (s.wbuf ++ padding s.wbuf.length) := by
  obtain ⟨u, e, -, hbits, -, txs, hlog, htxs⟩ := flush_ok hok hl ha
  have hsink : sinkBytes u = sinkBytes s ++ newOutBytes s u := by
    rw [← htxs, sinkBytes, hlog, List.flatMap_append, sinkBytes]
  exact ⟨u, e, by rw [hsink, bytesBits_append, hbits]⟩

/-- Padding depends only on the number of bits in the last byte. -/
theorem padding_eq (m : Nat) : padding m = List.replicate ((8 - m % 8) % 8) false := by
  rw [padding]
  congr 1
  omega

/-- Settles O33: a stretch written is `afterWriting`, whose windows the sink puts together again; a stretch read is
`afterReading`, said in the readable bits alone. -/
theorem streamsAreIndependentOfBuffering : Obligations.StreamsAreIndependentOfBuffering := by
  refine ⟨fun bits s hok hl hw hall hk => ?_, fun n r q hr hq hrq hn => ?_⟩
  · have hlen : (afterWriting bits s).wbuf.length = (s.wbuf.length + bits.length) % 64 := Emits.written.len
    have hans : (afterWriting bits s).ports.outAnswers =
        s.ports.outAnswers.drop ((s.wbuf.length + bits.length) / 64) := by simp [afterWriting]
    have hsink := sinkBytes_afterWriting bits s
    obtain ⟨u, eu, hu⟩ := flush_sinkBytes (s := afterWriting bits s) hok hl (.inr (hans ▸ drop_eq_ok_cons hall hk))
    refine ⟨_, u, emitBits_eq bits hok hl hw (acceptsBits_of_all_ok hall hk.le), eu, hsink, ?_⟩
    rw [hu, ← List.append_assoc, hsink, padding_eq, hlen, Nat.mod_mod_of_dvd _ (by decide)]
  · have hnq : n ≤ (readable q).length := hrq ▸ hn
    refine ⟨_, _, _, readBits_eq hr n hn, hrq ▸ readBits_eq hq n hnq, ?_⟩
    rw [readable_afterReading hn le_rfl, readable_afterReading hnq le_rfl, hrq]

/-! ### A code and its way back (R142, R143) -/

/-- Bits that fill no window are buffered. -/
theorem afterWriting_of_short (h : s.wbuf.length + bits.length ≤ 63) :
    afterWriting bits s = { s with wbuf := s.wbuf ++ bits } := by
  have hk : (s.wbuf.length + bits.length) / 64 = 0 := by omega
  simp [afterWriting, hk]

theorem egLength_le {v : Nat} (hv : v ≤ 2 ^ 31 - 2) : egLength v ≤ 61 := by
  have hlog : Nat.log2 (v + 1) < 31 := (Nat.log2_lt (by omega)).mpr (by omega)
  rw [egLength, bitlength]
  omega

/-- PUTEG on an empty writer buffers its code. -/
theorem exec_puteg_empty (hok : s.status = .ok) (hw : s.wbuf = []) (hl : s.wlost = false)
    (hv : s.arg0.toNat ≤ 2 ^ 31 - 2) : exec .puteg s = .next { s with wbuf := egBits s.arg0.toNat } := by
  have hlen : s.wbuf.length + (egBits s.arg0.toNat).length ≤ 63 := by
    have := egLength_le hv
    rw [hw, egBits_length, List.length_nil]
    omega
  have hacc : acceptsBits (egBits s.arg0.toNat).length s := by
    rw [acceptsBits, show (s.wbuf.length + (egBits s.arg0.toNat).length) / 64 = 0 by omega]
    rfl
  rw [exec_puteg hv, emitBits_eq _ hok hl (by omega) hacc, finish_done, settle_written rfl (by exact hl) (by rfl),
    afterWriting_of_short hlen, hw]
  rfl

/-- GETEG reads a code at the head of the stream. -/
theorem exec_geteg_egBits {v : Nat} {rest : List Bool} (hok : s.status = .ok) (hl : s.rlost = false)
    (hv : v ≤ 2 ^ 32 - 2) (h : readable s = egBits v ++ rest) : exec .geteg s =
      .next { afterReading (egLength v) (egLength v) s with result := BitVec.ofNat 32 v } := by
  rw [exec, execGeteg, readEg_egBits hl v rest hv h]
  exact (finish_result rfl hl v).1 hok

/-- Settles O34: FLUSH sends the code and its padding, and a reader of these bytes has the code at the head. -/
theorem expGolombRoundTrip : Obligations.ExpGolombRoundTrip := by
  intro s rest hok hw hl hv ha
  obtain ⟨u, eu, hu, hbits, -⟩ := flush_ok (s := { s with wbuf := egBits s.arg0.toNat }) hok hl (.inr ⟨rest, ha⟩)
  refine ⟨_, u, exec_puteg_empty hok hw hl hv, eu, hu, fun r hrok hr hrl hsup => ?_⟩
  have hread : readable r = egBits s.arg0.toNat ++ padding (egBits s.arg0.toNat).length :=
    (readable_supplies hr hsup).trans hbits
  exact ⟨_, exec_geteg_egBits hrok hrl (by omega) hread, by simp, hrok⟩

end Sys2Proof.Machine
end

section
/-! The coefficient coder (41_entropy.md R170 to R175): the code and its length, ENTENC as the stretch of bits it emits,
ENTDEC as the vector it reads and stores, and the way from one to the other over the ports. -/

namespace Sys2Proof.Machine

variable {s t : State} {b off cnt : Byte} {c : List Int} {rest : List Bool}

/-! ### The code of a vector (R171, R173, R175) -/

theorem runsBefore_length (c : List Int) : (runsBefore c).length = (nonzeroDown c).length := by
  simp [runsBefore]

/-- A code for each run and each value behind it, counted apart. -/
theorem length_flatten_egPairs (f : Nat → Nat) {rs ps : List Nat} (h : rs.length = ps.length) :
    (List.zipWith (fun r p => egBits r ++ egBits (f p)) rs ps).flatten.length =
      (rs.map egLength).sum + (ps.map fun p => egLength (f p)).sum := by
  induction rs generalizing ps with
  | nil =>
    obtain rfl := List.length_eq_zero_iff.mp h.symm
    rfl
  | cons r rs ih =>
    cases ps with
    | nil => cases h
    | cons p ps =>
      have := ih (Nat.succ.inj h)
      simp only [List.zipWith_cons_cons, List.flatten_cons, List.length_append, egBits_length, List.map_cons,
        List.sum_cons]
      omega

theorem length_egBits_if_pos (v : Nat) : (if 0 < v then egBits v else []).length = if 0 < v then egLength v else 0 := by
  split <;> simp

/-- Settles O35: the stretches of `coefficientBits`, each with its length. -/
theorem coefficientCodeLength : Obligations.CoefficientCodeLength := by
  intro c _
  rw [vectorCode_eq, coefficientBits, List.length_append, List.length_append,
    length_flatten_egPairs (fun p => (c.getD p 0).natAbs - 1) (runsBefore_length c), length_egBits_if_pos,
    List.length_map, List.length_reverse]

/-- A zero vector has no magnitude and no sign: its code is that of its one run. -/
theorem coefficientBits_zeros {n : Nat} (hn : 0 < n) : coefficientBits (List.replicate n 0) = egBits n := by
  have hscan := scanCode_replicate n 0 []
  rw [List.append_nil, Nat.zero_add, scanCode, if_pos hn] at hscan
  rw [← vectorCode_eq, vectorCode, List.reverse_replicate, hscan]
  simp [signField]

/-! ### The operands (R170) -/

theorem bounds_of_wellFormed (h : wellFormed (.entdec b off cnt) = true) :
    b.toNat < 32 ∧ 1 ≤ cnt.toNat ∧ cnt.toNat ≤ 16 ∧ off.toNat + cnt.toNat ≤ 16 := by
  simp only [wellFormed, WellFormed.bank, WellFormed.vector, Bool.and_eq_true, decide_eq_true_eq] at h
  obtain ⟨hb, ⟨⟨-, hpos⟩, hcnt⟩, hsum⟩ := h
  exact ⟨hb, hpos, hcnt, hsum⟩

theorem codable_iff : codable c = true ↔ ∀ x ∈ c, x ≠ -(2 ^ 31) := by
  simp [codable]

@[simp] theorem bankVector_length (b off cnt : Nat) (s : State) : (bankVector b off cnt s).length = cnt := by
  simp [bankVector]

theorem bankVector_getD {k n : Nat} (h : k < n) (b off : Nat) (s : State) :
    (bankVector b off n s).getD k 0 = entryInt (bank s b) (off + k) := by
  simp [bankVector, h]

/-- Of the int32 words only −2^31 has too large a magnitude. -/
theorem natAbs_le_of_codable {b off cnt : Nat} (h : codable (bankVector b off cnt s) = true) :
    ∀ x ∈ bankVector b off cnt s, x.natAbs ≤ 2 ^ 31 - 1 := by
  intro x hx
  have hne := codable_iff.mp h x hx
  obtain ⟨k, -, rfl⟩ := List.mem_map.mp hx
  obtain ⟨hlo, hhi⟩ := entryInt_range (bank s b) (off + k)
  omega

/-! ### ENTENC (R171) -/

theorem exec_entenc (hwf : wellFormed (.entenc b off cnt) = true)
    (hc : codable (bankVector b.toNat off.toNat cnt.toNat s) = true) : exec (.entenc b off cnt) s =
      finish (.entenc b off cnt) s (emitBits (coefficientBits (bankVector b.toNat off.toNat cnt.toNat s)) s) := by
  have hops : (bankOk b && vectorOk off cnt) = true := hwf
  rw [exec, execEntenc, hops, hc, Bool.and_self, if_pos rfl, writeVector, if_pos hc, vectorCode_eq]

/-- Settles O36: ENTENC emits the code as a stretch of bits, which the host accepts whole. -/
theorem entencAppendsCoefficientCode : Obligations.EntencAppendsCoefficientCode := by
  refine ⟨fun b off cnt s hwf hok hw => ?_, by decide, fun n hn => coefficientBits_zeros hn⟩
  intro c hc hacc
  rw [exec_entenc hwf (codable_iff.mpr hc)]
  exact finish_emitBits_written rfl hok hw hacc

/-! ### ENTDEC (R172) -/

theorem exec_entdec (hwf : wellFormed (.entdec b off cnt) = true) : exec (.entdec b off cnt) s =
    finish (.entdec b off cnt) s (storing b.toNat off.toNat cnt.toNat (readVector cnt.toNat s)) :=
  if_pos hwf

/-- ENTDEC reads a code at the head of the stream and stores its vector. -/
theorem exec_entdec_coefficientBits (hwf : wellFormed (.entdec b off cnt) = true) (hok : s.status = .ok)
    (hl : s.rlost = false) (hlen : c.length = cnt.toNat) (hc : ∀ x ∈ c, x.natAbs ≤ 2 ^ 31 - 1)
    (h : readable s = coefficientBits c ++ rest) : exec (.entdec b off cnt) s =
      .next (storeVector b.toNat off.toNat (c.map wrap32)
        (afterReading (coefficientBits c).length (coefficientBits c).length s)) := by
  obtain ⟨-, -, hcnt, -⟩ := bounds_of_wellFormed hwf
  rw [← vectorCode_eq] at h ⊢
  rw [exec_entdec hwf, ← hlen, readVector_vectorCode hl c rest (by omega) hc h, storing, if_pos (by exact hok),
    finish_done]
  exact congrArg _ (settle_read rfl hl rfl)

/-- Every entry of every bank after a vector has been stored. -/
theorem entry_bank_storeVector {b i : Nat} (hb : b < 32) (hi : i < 16) (off : Nat) (v : List Word) (s : State) (k : Nat) :
    entry (bank (storeVector b off v s) k) i =
      if k = b ∧ off ≤ i ∧ i < off + v.length then v.getD (i - off) 0 else entry (bank s k) i := by
  by_cases hk : k = b
  · subst hk
    simp only [entry_storeVector hb off v s hi, true_and]
  · rw [bank_storeVector_other hk, if_neg fun h => hk h.1]

theorem getD_map_wrap32 (c : List Int) (j : Nat) : (c.map wrap32).getD j 0 = BitVec.ofInt 32 (c.getD j 0) :=
  List.getD_map c 0 wrap32

/-- A first run longer than the vector ends the decoding (R172). -/
theorem readVector_overrun {n r : Nat} (hl : s.rlost = false) (hn : 1 ≤ n) (hr : n < r) (hmax : r ≤ 2 ^ 32 - 2)
    (h : readable s = egBits r ++ rest) :
    readVector n s = .ended (failRun .inval (afterReading (egLength r) (egLength r) s)) := by
  obtain ⟨m, rfl⟩ := Nat.exists_eq_add_of_le' hn
  rw [readVector, decodeMags, if_neg (by omega), readEg_egBits hl r rest hmax h, andThen_done, if_pos hr, andThen_ended]

/-- Whatever ENTDEC reads, it stores as many values as it was asked for, or it waits. -/
theorem exec_entdec_entry_other (hwf : wellFormed (.entdec b off cnt) = true) (h : exec (.entdec b off cnt) s = .next t)
    {k i : Nat} (hi : i < 16) (hout : ¬ (k = b.toNat ∧ off.toNat ≤ i ∧ i < off.toNat + cnt.toNat)) :
    entry (bank t k) i = entry (bank s k) i := by
  obtain ⟨hb, -, -, -⟩ := bounds_of_wellFormed hwf
  have hmay := readVector_may (w := false) (allow := nowhere) cnt.toNat s
  rw [exec_entdec hwf] at h
  obtain ⟨req, u, -, rfl⟩ | ⟨u, d, v, hv, hdrawn, rfl⟩ := storing_next h
  · rfl
  · obtain ⟨hended, hlen⟩ : Ended false true nowhere s u ∧ v.length = cnt.toNat := by
      obtain e | ⟨cs, e, hcs⟩ := hv
      · rw [e] at hmay
        exact ⟨hmay, hdrawn (.inl e)⟩
      · rw [e] at hmay
        refine ⟨Done.toEnded hmay, ?_⟩
        by_cases hok : u.status = .ok
        · rw [hcs hok, List.length_map, readVector_length e]
        · exact hdrawn (.inr hok)
    calc entry (bank (settle _ s _) k) i
      _ = entry (bank (storeVector b.toNat off.toNat v u) k) i := by rw [bank_congr (settle_banks ..) k]; rfl
      _ = entry (bank u k) i := by rw [entry_bank_storeVector hb hi, hlen, if_neg hout]
      _ = entry (bank s k) i := by rw [bank_congr hended.banks_eq k]

/-- Settles O37: a code is read back and stored, a first run too long ends the decoding, and ENTDEC's reach is its
destination. -/
theorem entdecStoresDecodedVector : Obligations.EntdecStoresDecodedVector := by
  intro b off cnt s hwf
  obtain ⟨hb, hpos, -, -⟩ := bounds_of_wellFormed hwf
  refine ⟨fun c rest hok hl hlen hc h => ?_, fun r rest hok hl hr hmax h => ?_, fun t h => ?_⟩
  · refine ⟨_, exec_entdec_coefficientBits hwf hok hl hlen hc h, rfl, fun k i _ hi => ?_⟩
    rw [entry_bank_storeVector hb hi, List.length_map, hlen, getD_map_wrap32]
    rfl
  · exact ⟨_, by rw [exec_entdec hwf, readVector_overrun hl hpos hr hmax h, storing, finish_ended], by
      simp [drawVector, storeVector, hok]⟩
  · exact ⟨(resultChangesOnlyWhereListed _ s t h).1 rfl, fun k i _ hi hout => exec_entdec_entry_other hwf h hi hout⟩

/-! ### A vector and its way back (R174) -/

/-- ENTENC on an empty writer, then FLUSH: what has been sent is the code and its padding. -/
theorem exec_entenc_flush_sends (hwf : wellFormed (.entenc b off cnt) = true) (hok : s.status = .ok)
    (hw : s.wbuf = []) (hl : s.wlost = false) (hc : codable (bankVector b.toNat off.toNat cnt.toNat s) = true)
    (hall : ∀ a ∈ s.ports.outAnswers, a = .ok) (hk : 64 ≤ s.ports.outAnswers.length) :
    ∃ t u, exec (.entenc b off cnt) s = .next t ∧ exec .flush t = .next u ∧ t.status = .ok ∧ u.status = .ok ∧
      ∃ pad, bytesBits (newOutBytes s u) = coefficientBits (bankVector b.toNat off.toNat cnt.toNat s) ++ pad := by
  obtain ⟨-, -, hcnt, -⟩ := bounds_of_wellFormed hwf
  have hbits := vectorCode_length_le ((bankVector_length b.toNat off.toNat cnt.toNat s).trans_le hcnt)
    (natAbs_le_of_codable hc)
  have henc := exec_entenc hwf hc
  rw [vectorCode_eq] at hbits
  generalize coefficientBits (bankVector b.toNat off.toNat cnt.toNat s) = bits at hbits henc ⊢
  have hwindows : (s.wbuf.length + bits.length) / 64 < s.ports.outAnswers.length := by
    rw [hw, List.length_nil]
    omega
  rw [emitBits_eq bits hok hl (by simp [hw]) (acceptsBits_of_all_ok hall hwindows.le), finish_done,
    settle_written rfl (by exact hl) (by rfl)] at henc
  have hans : (afterWriting bits s).ports.outAnswers =
      s.ports.outAnswers.drop ((s.wbuf.length + bits.length) / 64) := by simp [afterWriting]
  obtain ⟨u, eu, hu, hflushed, -, txs, hlog, -⟩ := flush_ok (s := afterWriting bits s) hok hl
    (.inr (hans ▸ drop_eq_ok_cons hall hwindows))
  exact ⟨_, u, henc, eu, hok, hu, _, by rw [sent_bits hlog hflushed, hw, List.nil_append]⟩

/-- Settles O38: a reader of the bytes sent has the code at its head, and ENTDEC stores each entry's word again. -/
theorem entropyRoundTrip : Obligations.EntropyRoundTrip := by
  intro b off cnt b2 off2 s hwf hwf2 hok hw hl hne hall hk
  obtain ⟨hb2, -, -, hsum⟩ := bounds_of_wellFormed hwf2
  have hc : codable (bankVector b.toNat off.toNat cnt.toNat s) = true := by
    refine codable_iff.mpr fun x hx => ?_
    obtain ⟨k, hk, rfl⟩ := List.mem_map.mp hx
    exact hne k (List.mem_range.mp hk)
  obtain ⟨t, u, et, eu, ht, hu, pad, hsent⟩ := exec_entenc_flush_sends hwf hok hw hl hc hall hk
  refine ⟨t, u, et, eu, ht, hu, fun r hrok hr hrl hsup => ?_⟩
  have hread := (readable_supplies hr hsup).trans hsent
  refine ⟨_, exec_entdec_coefficientBits hwf2 hrok hrl (bankVector_length ..) (natAbs_le_of_codable hc) hread, hrok,
    fun k hk => ?_⟩
  rw [entry_bank_storeVector hb2 (by omega), List.length_map, bankVector_length, if_pos (by omega),
    Nat.add_sub_cancel_left, getD_map_wrap32, bankVector_getD hk, entryInt, BitVec.ofInt_toInt]

end Sys2Proof.Machine
end

section
/-! The block transforms (42_transform.md R191 to R199): each command as its block function on banks in range, A·X·A
as a transform of integer grids modulo 2^32, and the laws of the transforms run one after another. -/

namespace Sys2Proof.Machine

variable {s t : State} {d src : Byte} {x : Block} {p : Nat}

/-! ### The commands on banks in range (R194 to R198, R247) -/

theorem exec_fwd4 (hd : d.toNat < 32) (hs : src.toNat < 32) :
    exec (.fwd4 d src) s = .next (setBank d.toNat (fwd4 s.cfg.kernel (bank s src.toNat)) s) :=
  bankToBank_ok _ s hd hs

theorem exec_inv4 (hd : d.toNat < 32) (hs : src.toNat < 32) :
    exec (.inv4 d src) s = .next (setBank d.toNat (inv4 s.cfg.kernel (bank s src.toNat)) s) :=
  bankToBank_ok _ s hd hs

theorem exec_had4 (hd : d.toNat < 32) (hs : src.toNat < 32) :
    exec (.had4 d src) s = .next (setBank d.toNat (had4 (bank s src.toNat)) s) :=
  bankToBank_ok _ s hd hs

theorem exec_ihad4 (hd : d.toNat < 32) (hs : src.toNat < 32) :
    exec (.ihad4 d src) s = .next (setBank d.toNat (ihad4 (bank s src.toNat)) s) :=
  bankToBank_ok _ s hd hs

theorem exec_had2 (hd : d.toNat < 32) (hs : src.toNat < 32) : exec (.had2 d src) s =
    .next (setBank d.toNat (overlay (bank s d.toNat) 4 (had2Entry (bank s src.toNat))) s) :=
  bankToBank_ok (fun x => overlay (bank s d.toNat) 4 (had2Entry x)) s hd hs

theorem exec_bdiv {div : Byte} (hd : d.toNat < 32) (hs : src.toNat < 32) (hdiv : 1 ≤ div.toNat) :
    exec (.bdiv d src div) s = .next (setBank d.toNat (divBlock (bank s src.toNat) div.toNat) s) :=
  (if_pos hdiv).trans (bankToBank_ok (fun x => divBlock x div.toNat) s hd hs)

/-- What the destination bank holds after a command that completes with it set. -/
theorem bank_dest_of_exec {i : Instr} {b : Nat} (hset : exec i s = .next (setBank b x s)) (hb : b < 32)
    (h : exec i s = .next t) : bank t b = x := by
  obtain rfl := Host.Outcome.next.inj (hset.symm.trans h)
  exact bank_setBank_same hb x s

/-! ### The 4×4 transforms (R191 to R197) -/

theorem inv4_seq (x : Block) : inv4 .seq x = blockOf fun p => wrap32 (twoSided seqMatrix x p) := sep_fseq x

/-- Settles O39: a pass of the butterfly along rows and columns is the product by its matrix on both sides. -/
theorem forwardTransformIsTwoSidedProduct : Obligations.ForwardTransformIsTwoSidedProduct := by
  intro d src s hd hs
  refine ⟨?_, fun hk => ?_⟩
  · rw [exec_fwd4 hd hs, fwd4_eq]
    rfl
  · rw [exec_inv4 hd hs, hk, inv4_seq]
    rfl

/-- The row pass of Ih, as arithmetic of words (R192, R193). -/
theorem entry_rowPass_ih264 (x : Block) {r : Nat} (hr : r < 4) :
    let a := entry x (4 * r)
    let b := entry x (4 * r + 1)
    let c := entry x (4 * r + 2)
    let e := entry x (4 * r + 3)
    let t := rowPass ih264 x
    entry t (4 * r) = (a + c) + (b + e.sshiftRight 1) ∧
    entry t (4 * r + 1) = (a - c) + (b.sshiftRight 1 - e) ∧
    entry t (4 * r + 2) = (a - c) - (b.sshiftRight 1 - e) ∧
    entry t (4 * r + 3) = (a + c) - (b + e.sshiftRight 1) := by
  intro a b c e t
  have hout : ∀ k, k < 4 → entry t (4 * r + k) = wrap32 (ih264 a.toInt b.toInt c.toInt e.toInt k) :=
    fun _ hk => entry_rowPass _ _ hr hk
  obtain ⟨h0, h1, h2, h3⟩ := wrap32_ih264 a b c e
  exact ⟨(hout 0 (by decide)).trans h0, (hout 1 (by decide)).trans h1, (hout 2 (by decide)).trans h2,
    (hout 3 (by decide)).trans h3⟩

/-- The column pass of Ih, as arithmetic of words (R192, R193). -/
theorem entry_columnPass_ih264 (t : Block) {c : Nat} (hc : c < 4) :
    let p := entry t c
    let q := entry t (4 + c)
    let u := entry t (8 + c)
    let v := entry t (12 + c)
    let y := columnPass ih264 t
    entry y c = (p + u) + (q + v.sshiftRight 1) ∧
    entry y (4 + c) = (p - u) + (q.sshiftRight 1 - v) ∧
    entry y (8 + c) = (p - u) - (q.sshiftRight 1 - v) ∧
    entry y (12 + c) = (p + u) - (q + v.sshiftRight 1) := by
  intro p q u v y
  have hout : ∀ k j, k < 4 → 4 * k + c = j → entry y j = wrap32 (ih264 p.toInt q.toInt u.toInt v.toInt k) :=
    fun _ _ hk hj => hj ▸ entry_columnPass _ _ hc hk
  obtain ⟨h0, h1, h2, h3⟩ := wrap32_ih264 p q u v
  exact ⟨(hout 0 _ (by decide) (by omega)).trans h0, (hout 1 _ (by decide) rfl).trans h1,
    (hout 2 _ (by decide) rfl).trans h2, (hout 3 _ (by decide) rfl).trans h3⟩

/-- Settles O40: the intermediate block is the row pass of the source, and Ih on int32 values is arithmetic of words. -/
theorem inverseH264Passes : Obligations.InverseH264Passes := by
  intro d src s hd hs hk
  refine ⟨_, _, fun _ hr => entry_rowPass_ih264 (bank s src.toNat) hr, fun _ hc => entry_columnPass_ih264 _ hc, ?_⟩
  rw [exec_inv4 hd hs, hk, inv4, sep_eq]

/-! ### The 2×2 transform (R198) -/

/-- HAD2's entries as sums of words. -/
theorem had2Entry_words (x : Block) :
    had2Entry x 0 = entry x 0 + entry x 1 + entry x 2 + entry x 3 ∧
    had2Entry x 1 = entry x 0 - entry x 1 + entry x 2 - entry x 3 ∧
    had2Entry x 2 = entry x 0 + entry x 1 - entry x 2 - entry x 3 ∧
    had2Entry x 3 = entry x 0 - entry x 1 - entry x 2 + entry x 3 := by
  simp only [had2Entry, entryInt, wrap32_add, wrap32_sub, wrap32_toInt, and_self]

/-- HAD2's result written out, over the old destination y. -/
theorem overlay_had2Entry (x y : Block) : overlay y 4 (had2Entry x) = blockOf fun i =>
    if i = 0 then entry x 0 + entry x 1 + entry x 2 + entry x 3
    else if i = 1 then entry x 0 - entry x 1 + entry x 2 - entry x 3
    else if i = 2 then entry x 0 + entry x 1 - entry x 2 - entry x 3
    else if i = 3 then entry x 0 - entry x 1 - entry x 2 + entry x 3 else entry y i := by
  obtain ⟨h0, h1, h2, h3⟩ := had2Entry_words x
  refine congrArg blockOf (funext fun i => ?_)
  match i with
  | 0 => exact h0
  | 1 => exact h1
  | 2 => exact h2
  | 3 => exact h3
  | i + 4 => simp

/-- HAD2 of a grid HAD2 has made is four times the grid, modulo 2^32 (R199 law 3). -/
theorem had2Entry_twice (x y : Block) {i : Nat} (hi : i < 4) :
    had2Entry (overlay y 4 (had2Entry x)) i = 4 * entry x i := by
  have he : ∀ k, k < 4 → entry (overlay y 4 (had2Entry x)) k = had2Entry x k := fun k hk => by
    rw [entry_overlay _ _ _ (by omega), if_pos hk]
  obtain ⟨x0, x1, x2, x3⟩ := had2Entry_words x
  obtain ⟨h0, h1, h2, h3⟩ := had2Entry_words (overlay y 4 (had2Entry x))
  rw [he 0 (by decide), he 1 (by decide), he 2 (by decide), he 3 (by decide), x0, x1, x2, x3] at h0 h1 h2 h3
  match i, hi with
  | 0, _ => rw [h0]; ring
  | 1, _ => rw [h1]; ring
  | 2, _ => rw [h2]; ring
  | 3, _ => rw [h3]; ring

/-- Settles O41: the Hadamard transforms are the SEQ butterfly's product, and HAD2 its sums of words. -/
theorem hadamardTransforms : Obligations.HadamardTransforms := by
  intro d src s hd hs
  refine ⟨?_, ?_, ?_⟩
  · rw [exec_had4 hd hs, had4_eq]
    rfl
  · rw [exec_ihad4 hd hs, ihad4, sep_fseq]
    rfl
  · rw [exec_had2 hd hs, overlay_had2Entry]

/-! ### A·X·A of integer grids (R191) -/

/-- A·e·A of a grid of integers, as a butterfly of butterflies. -/
def seqProduct (e : Nat → Int) (p : Nat) : Int :=
  fseq (fseq (e 0) (e 1) (e 2) (e 3) (p % 4)) (fseq (e 4) (e 5) (e 6) (e 7) (p % 4))
    (fseq (e 8) (e 9) (e 10) (e 11) (p % 4)) (fseq (e 12) (e 13) (e 14) (e 15) (p % 4)) (p / 4)

theorem twoSided_eq_seqProduct (x : Block) (hp : p < 16) : twoSided seqMatrix x p = seqProduct (entryInt x) p :=
  twoSided_seq x hp

theorem seqProduct_twice (e : Nat → Int) (hp : p < 16) : seqProduct (seqProduct e) p = 16 * e p := by
  interval_cases p <;> (simp only [seqProduct, fseq, Nat.reduceMod, Nat.reduceDiv]; ring)

theorem wrap32_fseq_congr {a b c d a' b' c' d' : Int} (ha : wrap32 a = wrap32 a') (hb : wrap32 b = wrap32 b')
    (hc : wrap32 c = wrap32 c') (hd : wrap32 d = wrap32 d') (r : Nat) :
    wrap32 (fseq a b c d r) = wrap32 (fseq a' b' c' d' r) := by
  unfold fseq
  split <;> simp only [wrap32_add, wrap32_sub, ha, hb, hc, hd]

/-- Modulo 2^32 the product depends on its grid modulo 2^32 only. -/
theorem wrap32_seqProduct_congr {e f : Nat → Int} (h : ∀ q, q < 16 → wrap32 (e q) = wrap32 (f q)) (p : Nat) :
    wrap32 (seqProduct e p) = wrap32 (seqProduct f p) := by
  have row : ∀ q, q + 3 < 16 → wrap32 (fseq (e q) (e (q + 1)) (e (q + 2)) (e (q + 3)) (p % 4)) =
      wrap32 (fseq (f q) (f (q + 1)) (f (q + 2)) (f (q + 3)) (p % 4)) := fun q hq =>
    wrap32_fseq_congr (h _ (by omega)) (h _ (by omega)) (h _ (by omega)) (h _ hq) _
  exact wrap32_fseq_congr (row 0 (by decide)) (row 4 (by decide)) (row 8 (by decide)) (row 12 (by decide)) _

theorem fseq_mod_two (a b c d : Int) (r : Nat) : fseq a b c d r % 2 = (a + b + c + d) % 2 := by
  unfold fseq
  split <;> omega

/-- Every entry of A·X·A has the parity of the sum of X's entries (R196). -/
theorem twoSided_seq_mod_two (x : Block) (hp : p < 16) :
    twoSided seqMatrix x p % 2 = ((List.range 16).map fun i => entryInt x i).sum % 2 := by
  have row : ∀ q, fseq (entryInt x q) (entryInt x (q + 1)) (entryInt x (q + 2)) (entryInt x (q + 3)) (p % 4) % 2 =
      (entryInt x q + entryInt x (q + 1) + entryInt x (q + 2) + entryInt x (q + 3)) % 2 := fun q => fseq_mod_two ..
  have h0 := row 0
  have h1 := row 4
  have h2 := row 8
  have h3 := row 12
  rw [twoSided_seq x hp, fseq_mod_two]
  simp only [List.range_succ, List.range_zero, List.nil_append, List.map_cons, List.map_nil, List.sum_cons,
    List.sum_nil, List.cons_append, Nat.reduceAdd] at h0 h1 h2 h3 ⊢
  omega

/-! ### Transforms run one after another (R199) -/

/-- INV4 after FWD4 with SEQ multiplies by 16, modulo 2^32 (R199 law 1). -/
theorem entry_inv4_fwd4_seq (x : Block) (hp : p < 16) : entry (inv4 .seq (fwd4 .seq x)) p = 16 * entry x p := by
  have hfwd : ∀ q, q < 16 → wrap32 (entryInt (fwd4 .seq x) q) = wrap32 (seqProduct (entryInt x) q) := fun q hq => by
    rw [entryInt, wrap32_toInt, fwd4_eq, entry_blockOf _ hq, twoSided_eq_seqProduct x hq]
  calc entry (inv4 .seq (fwd4 .seq x)) p
      = wrap32 (seqProduct (entryInt (fwd4 .seq x)) p) := by
        rw [inv4_seq, entry_blockOf _ hp, twoSided_eq_seqProduct _ hp]
    _ = wrap32 (seqProduct (seqProduct (entryInt x)) p) := wrap32_seqProduct_congr hfwd p
    _ = wrap32 (16 * entryInt x p) := by rw [seqProduct_twice _ hp]
    _ = 16 * entry x p := by rw [wrap32_mul, entryInt, wrap32_toInt]; rfl

/-- HAD4 of a small grid with an even sum halves exactly. -/
theorem two_mul_entryInt_had4 (heven : ((List.range 16).map fun i => entryInt x i).sum % 2 = 0)
    (hsmall : ∀ i, i < 16 → (entryInt x i).natAbs < 2 ^ 24) (hp : p < 16) :
    2 * entryInt (had4 x) p = twoSided seqMatrix x p := by
  have hbound := twoSided_bound seqMatrix_bound (fun i hi => (hsmall i hi).le) hp
  obtain ⟨k, hk⟩ := Int.dvd_of_emod_eq_zero ((twoSided_seq_mod_two x hp).trans heven)
  have hhalf : tdiv (2 * k) 2 = k := by rw [Int.mul_comm]; exact tdiv_mul k two_ne_zero
  rw [had4, entryInt_divBlock _ _ hp, sep_fseq, entryInt_blockOf hp (by omega) (by omega), hk, hhalf]

/-- IHAD4 of HAD4 divided by 8 is a small grid with an even sum again (R199 law 2). -/
theorem divBlock_ihad4_had4 (heven : ((List.range 16).map fun i => entryInt x i).sum % 2 = 0)
    (hsmall : ∀ i, i < 16 → (entryInt x i).natAbs < 2 ^ 24) : divBlock (ihad4 (had4 x)) 8 = x := by
  refine block_ext fun p hp => ?_
  have htwice := twoSided_seq_twice (fun q hq => two_mul_entryInt_had4 heven hsmall hq) hp
  have h8 : twoSided seqMatrix (had4 x) p = entryInt x p * (8 : Nat) := by omega
  have hp24 := hsmall p hp
  rw [entry_divBlock _ _ hp, ihad4, sep_fseq, entryInt_blockOf hp (by omega) (by omega), h8, tdiv_mul _ (by decide),
    entryInt, wrap32_toInt]

/-- Settles O42: each command's destination holds its block function of the one before, and the laws are those of the
block functions. -/
theorem transformLaws : Obligations.TransformLaws := by
  intro a b c e s t u v ha hb hc he
  refine ⟨fun hk h1 h2 i hi => ?_, fun h1 h2 h3 heven hsmall i _ => ?_, fun h1 h2 i hi => ?_⟩
  · obtain ⟨hcfg, -⟩ := commandsNeverWriteOperands _ s t h1
    have hu := bank_dest_of_exec (exec_inv4 hc hb) hc h2
    rw [bank_dest_of_exec (exec_fwd4 hb ha) hb h1, hcfg, hk] at hu
    rw [hu, entry_inv4_fwd4_seq _ hi]
  · have hv := bank_dest_of_exec (exec_bdiv he hc (by decide)) he h3
    rw [bank_dest_of_exec (exec_ihad4 hc hb) hc h2, bank_dest_of_exec (exec_had4 hb ha) hb h1] at hv
    rw [hv]
    exact congrArg (entry · i) (divBlock_ihad4_had4 heven hsmall)
  · have hu := bank_dest_of_exec (exec_had2 hc hb) hc h2
    rw [bank_dest_of_exec (exec_had2 hb ha) hb h1] at hu
    rw [hu, entry_overlay _ _ _ (by omega), if_pos hi, had2Entry_twice _ _ hi]

end Sys2Proof.Machine
end

section
/-! The intra predictor's commands (43_predict.md R211 to R218): PREDRES as the residual blocks of Safety.lean in the
sub-blocks' banks, UNPRED as the macroblock's samples in REF, and the second after the first. -/

namespace Sys2Proof.Machine

variable {s t : State} {sz : Byte} {mb : Mb} {m : Mode} {k e i j : Nat}

/-! ### Residual blocks (R216) -/

theorem entry_residualBlock (he : e < 16) : entry (residualBlock m mb s k) e =
    BitVec.ofInt 32 (residualAt m mb s (mb.row0 k + e / 4) (mb.col0 k + e % 4)) := entry_blockOf _ he

/-- A residual is the difference of two samples, so its word stands for it. -/
theorem entryInt_residualBlock (he : e < 16) : entryInt (residualBlock m mb s k) e =
    residualAt m mb s (mb.row0 k + e / 4) (mb.col0 k + e % 4) := by
  have hsmall := residualAt_range m mb s (mb.row0 k + e / 4) (mb.col0 k + e % 4)
  rw [entryInt, entry_residualBlock he]
  exact toInt_wrap32 (by omega) (by omega)

/-- The residual at an offset stands in the offset's sub-block, at the offset's place in it. -/
theorem entryInt_residualBlock_offset (hside : 4 * mb.side = mb.size) (hi : i < mb.size) (hj : j < mb.size) :
    entryInt (residualBlock m mb s (mb.side * (i / 4) + j / 4)) (4 * (i % 4) + j % 4) = residualAt m mb s i j := by
  obtain ⟨-, hrow, hcol⟩ := sub_of_offset hside hi hj
  rw [entryInt_residualBlock (by omega), hrow, hcol]
  congr 1 <;> omega

theorem residual_eq_residualBlock {src : List Byte} {p : Predictor}
    (hs : ∀ i j, i < mb.size → j < mb.size → (sourceAt mb src i j : Int) = srcAt s (mb.x + j) (mb.y + i))
    (hp : ∀ i j, i < mb.size → j < mb.size → (p.value i j : Int) = predicted m mb s i j) (hk : k < mb.subs) :
    residual mb src p k = residualBlock m mb s k :=
  block_ext fun _ he => (entry_residual hs hp hk he).trans (entry_residualBlock he).symm

theorem residualBlock_congr (hfw : t.fw = s.fw) (hsrc : t.src = s.src) (href : t.ref = s.ref) :
    residualBlock m mb t k = residualBlock m mb s k := by
  simp only [residualBlock, residualAt, srcAt_congr hfw hsrc, predicted_congr hfw href]

/-- Predictor plus residual is the source sample, which the clamp keeps (R218 property 2). -/
theorem clampByte_predicted_add_residualAt (m : Mode) (mb : Mb) (s : State) (i j : Nat) :
    clampByte (predicted m mb s i j + residualAt m mb s i j) =
      (memRead s.src (sampleIndex s (mb.x + j) (mb.y + i))).getD 0 := by
  rw [residualAt, add_sub_cancel, srcAt, clampByte_byte]

/-! ### The commands on legal operands -/

theorem MbLegal.size_pos (h : MbLegal sz s) : 0 < (operandMb sz s).size := by
  have := h.size
  show 0 < sz.toNat
  omega

section Operands
variable {f b : Byte} (h : MbLegal sz s) (hf : f.toNat = m.toCode)
  (ha : modeAllowed m s.arg0.toNat s.arg1.toNat) (hb : b.toNat + (operandMb sz s).subs ≤ 32)
  (hn : NeighboursWritten m (operandMb sz s) s)
include h hf ha hb hn

theorem exec_predres_written (hs : SourceWritten (operandMb sz s) s) :
    ∃ t, exec (.predres sz f b) s = .next t ∧ t = { s with banks := t.banks } ∧ ∀ k, k < 32 → bank t k =
      if b.toNat ≤ k ∧ k < b.toNat + (operandMb sz s).subs then residualBlock m (operandMb sz s) s (k - b.toNat)
      else bank s k := by
  obtain ⟨p, hp, hvals⟩ := predictor_written hn
  obtain ⟨src, hsrc, hsamples⟩ := source_written hs
  refine ⟨mapBanks b.toNat (operandMb sz s).subs (fun k _ => residual (operandMb sz s) src p k) s, ?_, rfl,
    fun k hk => ?_⟩
  · rw [exec_predres_legal h (hf ▸ modeOf_toCode m) ha hb, hp, orFault, andThen_done, hsrc, orFault, andThen_done,
      finish_done, settle_neither rfl rfl (mapBanks_wlost ..) (mapBanks_rlost ..)]
  · rw [bank_mapBanks _ _ _ _ _ hk]
    split
    · exact residual_eq_residualBlock hsamples hvals (by omega)
    · rfl

theorem exec_unpred_written :
    ∃ t, exec (.unpred sz f b) s = .next t ∧ t = { s with ref := t.ref } ∧
      RefWrites (operandMb sz s) (fun i j => clampByte (predicted m (operandMb sz s) s i j + entryInt
        (bank s (b.toNat + ((operandMb sz s).side * (i / 4) + j / 4))) (4 * (i % 4) + j % 4))) s t := by
  obtain ⟨p, hp, hvals⟩ := predictor_written hn
  refine ⟨writeRef (unpredCells (operandMb sz s) p s fun k => bank s (b.toNat + k)) s, ?_, rfl,
    (writeRef_refWrites h.side h.insideX).change fun i j hi hj => by rw [hvals i j hi hj]⟩
  rw [exec_unpred_legal h (hf ▸ modeOf_toCode m) ha hb, hp, orFault, andThen_done, finish_done]
  exact congrArg _ (settle_neither rfl rfl rfl rfl)

/-- Over the residuals of its own mode UNPRED writes the source samples (R218 property 2). -/
theorem exec_unpred_residuals (hs : SourceWritten (operandMb sz s) s)
    (hbank : ∀ k, k < (operandMb sz s).subs → bank s (b.toNat + k) = residualBlock m (operandMb sz s) s k) :
    ∃ u, exec (.unpred sz f b) s = .next u ∧ ∀ i j, i < (operandMb sz s).size → j < (operandMb sz s).size →
      memRead u.ref (sampleIndex s ((operandMb sz s).x + j) ((operandMb sz s).y + i)) =
        memRead s.src (sampleIndex s ((operandMb sz s).x + j) ((operandMb sz s).y + i)) := by
  obtain ⟨u, hexec, -, hwritten, -⟩ := exec_unpred_written h hf ha hb hn
  refine ⟨u, hexec, fun i j hi hj => ?_⟩
  obtain ⟨hk, -⟩ := sub_of_offset h.side hi hj
  obtain ⟨v, hv⟩ := Option.isSome_iff_exists.1 (hs i j hi hj)
  rw [hwritten i j hi hj]
  dsimp only
  rw [hbank _ hk, entryInt_residualBlock_offset h.side hi hj, clampByte_predicted_add_residualAt, hv, Option.getD_some]

end Operands

/-! ### The obligations -/

/-- Settles O48: the predictor is built from the neighbours read, and each of its forms has the mode's value. -/
theorem predictorValues : Obligations.PredictorValues :=
  fun _ _ _ _ _ hn => predictor_written hn

/-- Settles O49: Select answers the selected mode and changes nothing, and PREDSEL puts its code into RESULT. -/
theorem predselReturnsSelectedMode : Obligations.PredselReturnsSelectedMode := by
  intro sz s h hwritten
  obtain ⟨m, hsel, hrun⟩ := selectMode_selected h.size_pos
    (hwritten.imp (congrArg BitVec.toNat) (Or.imp_left (congrArg BitVec.toNat)))
  refine ⟨m, hsel, ?_⟩
  rw [exec_predsel_legal h, hrun, andThen_done, finish_done]
  exact congrArg _ (settle_neither rfl rfl rfl rfl)

/-- Settles O50: the banks from b on hold the residual blocks, and an entry of one is the residual at its sample. -/
theorem predresFormsResidual : Obligations.PredresFormsResidual := by
  intro sz f b m s h hf ha hb hs hn
  obtain ⟨t, hexec, ht, hbank⟩ := exec_predres_written h hf ha hb hn hs
  refine ⟨t, hexec, ht, fun k e hk he => ?_⟩
  rw [hbank k hk, apply_ite (entry · e), entry_residualBlock he]
  rfl

/-- Settles O51: UNPRED writes the macroblock's cells, sub-block k's residual being in bank b + k. -/
theorem unpredWritesClampedSamples : Obligations.UnpredWritesClampedSamples := by
  intro sz f b m s h hf ha hb hn
  obtain ⟨t, hexec, ht, href⟩ := exec_unpred_written h hf ha hb hn
  refine ⟨t, hexec, ht, href.change fun i j _ _ => ?_⟩
  rw [← Nat.add_assoc]
  rfl

/-- Settles O52: PREDRES leaves the operands and the neighbours, so UNPRED adds the same predictor to its residuals. -/
theorem losslessPredictionRoundTrip : Obligations.LosslessPredictionRoundTrip := by
  intro sz f b m s h hf ha hb hs hn
  obtain ⟨t, hpred, ht, hbank⟩ := exec_predres_written h hf ha hb hn hs
  obtain ⟨banks, rfl⟩ : ∃ banks, t = { s with banks := banks } := ⟨_, ht⟩
  have hresiduals : ∀ k, k < (operandMb sz s).subs →
      bank { s with banks := banks } (b.toNat + k) = residualBlock m (operandMb sz s) s k := fun k hk => by
    have hb' : b.toNat + (operandMb sz s).subs ≤ 32 := hb
    rw [hbank _ (by omega), if_pos (by omega), Nat.add_sub_cancel_left]
  obtain ⟨u, hunpred, hsamples⟩ := exec_unpred_residuals (s := { s with banks := banks }) { h with } hf ha hb
    ((neighbours_congr rfl rfl).2 hn) hs fun k hk => (hresiduals k hk).trans (residualBlock_congr rfl rfl rfl).symm
  exact ⟨_, u, hpred, hunpred, hsamples⟩

end Sys2Proof.Machine
end

section
/-! Quantization (44_quant.md R240 to R248): each command on operands in range as its block function, the entries of its
destination, and the two properties of a quantizer. -/

namespace Sys2Proof.Machine

variable {s : State} {d src g b cnt : Byte} {n p : Nat}

/-! ### The commands on operands in range (R241 to R246) -/

theorem exec_quant4 (hd : d.toNat < 32) (hs : src.toNat < 32) :
    exec (.quant4 d src) s = .next (setBank d.toNat (quant4 s.cfg (bank s src.toNat)) s) :=
  bankToBank_ok _ s hd hs

theorem exec_dequant4 (hd : d.toNat < 32) (hs : src.toNat < 32) :
    exec (.dequant4 d src) s = .next (setBank d.toNat (dequant4 s.cfg (bank s src.toNat)) s) :=
  bankToBank_ok _ s hd hs

section Grids
variable (hcnt : cnt = 1 ∨ cnt = 4 ∨ cnt = 16)
include hcnt

theorem gridOk_of_count : gridOk cnt = true := by
  rcases hcnt with rfl | rfl | rfl <;> rfl

theorem toNat_of_count : cnt.toNat = 1 ∨ cnt.toNat = 4 ∨ cnt.toNat = 16 :=
  hcnt.imp (congrArg BitVec.toNat) (Or.imp (congrArg BitVec.toNat) (congrArg BitVec.toNat))

/-- The scan of a grid, by the count as the command has it. -/
theorem zz_of_count (p : Nat) : (if cnt = 16 then zz4 p else p) = zz cnt.toNat p := by
  rcases hcnt with rfl | rfl | rfl <;> rfl

theorem exec_quantdc (hd : d.toNat < 32) (hs : src.toNat < 32) : exec (.quantdc d src cnt) s = .next (setBank d.toNat
    (overlay (bank s d.toNat) cnt.toNat (quantDcEntry s.cfg cnt.toNat (bank s src.toNat))) s) :=
  (if_pos (gridOk_of_count hcnt)).trans
    (bankToBank_ok (fun x => overlay (bank s d.toNat) cnt.toNat (quantDcEntry s.cfg cnt.toNat x)) s hd hs)

theorem exec_dequantdc (hd : d.toNat < 32) (hs : src.toNat < 32) : exec (.dequantdc d src cnt) s = .next
    (setBank d.toNat (overlay (bank s d.toNat) cnt.toNat (dequantDcEntry s.cfg cnt.toNat (bank s src.toNat))) s) :=
  (if_pos (gridOk_of_count hcnt)).trans
    (bankToBank_ok (fun x => overlay (bank s d.toNat) cnt.toNat (dequantDcEntry s.cfg cnt.toNat x)) s hd hs)

/-- The first of the cnt banks is in range, as cnt is not 0. -/
theorem first_bank_lt (hb : b.toNat + cnt.toNat ≤ 32) : b.toNat < 32 := by
  have := toNat_of_count hcnt
  omega

theorem exec_gatherdc (hg : g.toNat < 32) (hb : b.toNat + cnt.toNat ≤ 32) : exec (.gatherdc g b cnt) s = .next
    (setBank g.toNat (overlay (bank s g.toNat) cnt.toNat fun k => entry (bank s (b.toNat + k)) 0) s) :=
  if_pos (by simp [bankOk, banksOk, hg, hb, first_bank_lt hcnt hb, gridOk_of_count hcnt])

theorem exec_scatterdc (hg : g.toNat < 32) (hb : b.toNat + cnt.toNat ≤ 32) : exec (.scatterdc b g cnt) s = .next
    (mapBanks b.toNat cnt.toNat (fun k x => overlay x 1 fun _ => entry (bank s g.toNat) k) s) :=
  if_pos (by simp [bankOk, banksOk, hg, hb, first_bank_lt hcnt hb, gridOk_of_count hcnt])

end Grids

/-! ### The entries of a grid (R243, R244) -/

theorem entry_overlay_lt (y : Block) (f : Nat → Word) (hn : n ≤ 16) (hp : p < n) :
    entry (overlay y n f) p = f p := by
  rw [entry_overlay _ _ _ (by omega), if_pos hp]

theorem entry_overlay_ge (y : Block) (f : Nat → Word) (hp : n ≤ p) (h16 : p < 16) :
    entry (overlay y n f) p = entry y p := by
  rw [entry_overlay _ _ _ h16, if_neg (by omega)]

theorem quantDcEntry_zz (hn : n = 1 ∨ n = 4 ∨ n = 16) (c : Config.Params) (x : Block) (hp : p < n) :
    quantDcEntry c n x (zz n p) = wrap32 (tdiv (entryInt x p) (qtab c 0)) := by
  rw [quantDcEntry, izz_zz hn hp]

/-! ### Dividing and multiplying back (R248) -/

/-- Rescaling a quotient gives c less its remainder, which is below the divisor (R248 property 1). -/
theorem rescaled_quotient_near {q : Nat} (c : Int) (hq : 1 ≤ q) :
    (c - tdiv c q * q).natAbs < q ∧ (tdiv c q * q).natAbs ≤ c.natAbs ∧
      (0 < c → 0 ≤ tdiv c q * q) ∧ (c < 0 → tdiv c q * q ≤ 0) := by
  refine ⟨?_, ?_, fun hc => ?_, fun hc => ?_⟩
  · rw [tdiv, Int.mul_comm, ← Int.tmod_def, Int.natAbs_tmod]
    exact Nat.mod_lt _ hq
  · rw [Int.natAbs_mul, tdiv, Int.natAbs_tdiv]
    exact Nat.div_mul_le_self ..
  · exact Int.mul_nonneg (Int.tdiv_nonneg hc.le (Int.natCast_nonneg q)) (Int.natCast_nonneg q)
  · have hneg : 0 ≤ -tdiv c q := Int.neg_tdiv c q ▸ Int.tdiv_nonneg (by omega) (Int.natCast_nonneg q)
    exact Int.mul_nonpos_of_nonpos_of_nonneg (Int.nonpos_of_neg_nonneg hneg) (Int.natCast_nonneg q)

/-- A word whose product by q does not wrap is the quotient of that product again. -/
theorem wrap32_tdiv_product (w : Word) {q : Nat} (hq : q ≠ 0) (h1 : -(2 ^ 31) ≤ w.toInt * q)
    (h2 : w.toInt * q < 2 ^ 31) : wrap32 (tdiv (wrap32 (w.toInt * q)).toInt q) = w := by
  rw [toInt_wrap32 h1 h2, tdiv_mul _ hq, wrap32_toInt]

theorem quant4_dequant4 {c : Config.Params} (hc : c.legal = true) (z : Block)
    (h : ∀ p, p < 16 → -(2 ^ 31) ≤ entryInt z (zz4 p) * qtab c p ∧ entryInt z (zz4 p) * qtab c p < 2 ^ 31) :
    quant4 c (dequant4 c z) = z := by
  refine block_ext fun q hq => ?_
  obtain ⟨h1, h2⟩ := h _ (izz4_lt hq)
  rw [← zz4_izz4 hq, entry_quant4 _ _ (izz4_lt hq), entryInt, entry_dequant4 _ _ (izz4_lt hq)]
  exact wrap32_tdiv_product _ (qtab_pos hc _) h1 h2

/-- Scan position p of the quantized grid divides what the grid's entry at p's place has multiplied. -/
theorem quantDcEntry_dequantDcEntry {c : Config.Params} (hc : c.legal = true) (hn : n = 1 ∨ n = 4 ∨ n = 16)
    (y z : Block) (hp : p < n) (h1 : -(2 ^ 31) ≤ entryInt z p * qtab c 0) (h2 : entryInt z p * qtab c 0 < 2 ^ 31) :
    quantDcEntry c n (overlay y n (dequantDcEntry c n z)) p = entry z p := by
  rw [quantDcEntry, entryInt, entry_overlay_lt _ _ (by omega) (izz_lt hn hp), dequantDcEntry, zz_izz hn hp]
  exact wrap32_tdiv_product _ (qtab_pos hc _) h1 h2

/-! ### The obligations -/

/-- Settles O43: each command is its block function on banks in range, read off at ZZ4[p] and at p. -/
theorem blockQuantization : Obligations.BlockQuantization := fun _ _ _ hd hs =>
  ⟨⟨_, fun _ hp => entry_quant4 _ _ hp, exec_quant4 hd hs⟩,
    ⟨_, fun _ hp => entry_dequant4 _ _ hp, exec_dequant4 hd hs⟩⟩

/-- Settles O44: the destination is overlaid with cnt entries, which lie at the scan of the grid and in grid order. -/
theorem dcGridQuantization : Obligations.DcGridQuantization := by
  intro d src cnt s hd hs hcnt scan
  have hn := toNat_of_count hcnt
  have hscan : ∀ p, scan p = zz cnt.toNat p := zz_of_count hcnt
  refine ⟨⟨_, fun p hp => ?_, fun p hp h16 => entry_overlay_ge _ _ hp h16, exec_quantdc hcnt hd hs⟩,
    ⟨_, fun p hp => ?_, fun p hp h16 => entry_overlay_ge _ _ hp h16, exec_dequantdc hcnt hd hs⟩⟩
  · rw [hscan, entry_overlay_lt _ _ (by omega) (zz_lt hn hp), quantDcEntry_zz hn _ _ hp]
    rfl
  · rw [hscan, entry_overlay_lt _ _ (by omega) hp]
    rfl

/-- Settles O45: GATHERDC overlays the grid's bank, SCATTERDC the first entry of each of the cnt banks. -/
theorem gatherAndScatterDc : Obligations.GatherAndScatterDc := by
  intro g b cnt s hg hcnt hb
  refine ⟨exec_gatherdc hcnt hg hb, _, exec_scatterdc hcnt hg hb, rfl, fun k i hk hi => ?_⟩
  rw [bank_mapBanks _ _ _ _ _ hk]
  by_cases hin : b.toNat ≤ k ∧ k < b.toNat + cnt.toNat
  · rw [if_pos hin, entry_overlay _ _ _ hi]
    simp [hin]
  · rw [if_neg hin, if_neg (fun h => hin h.2)]

/-- Settles O46: BDIV is divBlock on banks in range, and its check on the divisor comes first. -/
theorem bdivTruncates : Obligations.BdivTruncates := by
  refine fun d src div s hd hs => ⟨exec_bdiv hd hs, ?_⟩
  rintro rfl
  exact invalid_eq_raises s

/-- Settles O47: the second command's destination is its block function of the first's, under the same parameters,
which no command writes. -/
theorem quantizationProperties : Obligations.QuantizationProperties := by
  refine ⟨fun _ => rescaled_quotient_near, fun a b c s t u ha hb hc hlegal h1 h2 hsmall => ?_,
    fun a b c cnt s t u ha hb hc hlegal hcnt h1 h2 hsmall p hp => ?_⟩
  · obtain ⟨hcfg, -⟩ := commandsNeverWriteOperands _ s t h1
    rw [bank_dest_of_exec (exec_quant4 hc hb) hc h2, bank_dest_of_exec (exec_dequant4 hb ha) hb h1, hcfg,
      quant4_dequant4 hlegal _ hsmall]
  · obtain ⟨hcfg, -⟩ := commandsNeverWriteOperands _ s t h1
    have hn := toNat_of_count hcnt
    obtain ⟨hlow, hhigh⟩ := hsmall p hp
    rw [bank_dest_of_exec (exec_quantdc hcnt hc hb) hc h2, bank_dest_of_exec (exec_dequantdc hcnt hb ha) hb h1, hcfg,
      entry_overlay_lt _ _ (by omega) hp, quantDcEntry_dequantDcEntry hlegal hn _ _ hp hlow hhigh]

end Sys2Proof.Machine
end

section
/-! The tiles of a frame and the macroblock commands (45_pipeline.md R261 to R266, R269, R270, R272): coding order, and
MBENC and MBDEC as EncMB and DecMB followed by RESULT. -/

namespace Sys2Proof.Machine

variable {s : State} {sz : Byte} {z : MbCodes}

/-! ### The tiles (R261, R262) -/

/-- Settles O53: coding order is strict raster order of the corners, and no two of its macroblocks share a sample. -/
theorem tilesPartitionTheFrame : Obligations.TilesPartitionTheFrame := by
  refine fun fw fh hw hh => ⟨tiles_nodup fw fh, fun _ hm => tiles_inside hw hh hm, fun x y hx hy => ?_⟩
  obtain ⟨mb, hm, hholds⟩ := tiles_cover hw hh hx hy
  exact ⟨mb, hm, hholds, fun _ hm' hholds' => tiles_disjoint hh hm' hm hholds' hholds⟩

/-- Settles O54: the macroblock that holds a neighbour sample lies above or to the left, so it comes earlier in raster
order of the corners. -/
theorem neighboursComeEarlier : Obligations.NeighboursComeEarlier :=
  fun _ _ _ _ hw hh hk _ _ hn => tiles_earlier hw hh hk hn

/-! ### MBENC (R265, R269) -/

/-- Mode selection has the samples it needs: none at an edge, else those of SRC and of the three modes it compares. -/
theorem MbLegal.selects (h : MbLegal sz s) (hsrc : SourceWritten (operandMb sz s) s)
    (hn : ∀ m, modeAllowed m s.arg0.toNat s.arg1.toNat → NeighboursWritten m (operandMb sz s) s) :
    ∃ m, Selected m (operandMb sz s) s ∧ selectMode (operandMb sz s) s = .done m s := by
  refine selectMode_selected h.size_pos ?_
  rcases Nat.eq_zero_or_pos (operandMb sz s).x with hx | hx
  · exact .inl hx
  rcases Nat.eq_zero_or_pos (operandMb sz s).y with hy | hy
  · exact .inr (.inl hy)
  · exact .inr (.inr ⟨hsrc, hn .dc ⟨hx, hy⟩, hn .horizontal hx, hn .vertical hy⟩)

/-- Settles O55: EncMB with the selected mode emits its code and gives REF its reconstruction, and RESULT follows. -/
theorem mbencWritesMacroblock : Obligations.MbencWritesMacroblock := by
  intro sz s h _ hok hw hsrc hn
  obtain ⟨m, hsel, hrun⟩ := h.selects hsrc hn
  refine ⟨m, hsel, fun hacc => ?_⟩
  obtain ⟨v, hv, hbits, href⟩ := encodeMb_eq h.fits hrun hok hw hsrc (hn m hsel.allowed) hacc
  obtain ⟨u, hwritten, e⟩ := hbits.settle (i := .mbenc sz) rfl (BitVec.ofNat 32 m.toCode)
  refine ⟨{ u with ref := v.ref, result := BitVec.ofNat 32 m.toCode }, u, ?_, hwritten, rfl, href.congr rfl rfl rfl⟩
  rw [exec_mbenc_legal h hok, hv, andThen_done, finish_done]
  exact congrArg _ e

/-! ### MBDEC (R266, R270) -/

/-- MBDEC on a stream that starts with the bits of legal codes. -/
theorem exec_mbdec_codes {rest : List Bool} (h : MbLegal sz s) (hok : s.status = .ok) (hl : s.rlost = false)
    (hz : z.Legal (operandMb sz s)) (hn : NeighboursWritten z.mode (operandMb sz s) s)
    (hr : readable s = z.bits ++ rest) : ∃ t, exec (.mbdec sz) s = .next t ∧
      t = { afterReading z.bits.length z.bits.length s with ref := t.ref, result := BitVec.ofNat 32 z.mode.toCode } ∧
      RefWrites (operandMb sz s) (decodedSample z (operandMb sz s) s) s t := by
  obtain ⟨ref, hrun, href⟩ := decodeMb_eq hl h.fits hz hn hr
  refine ⟨{ afterReading z.bits.length z.bits.length s with ref := ref, result := BitVec.ofNat 32 z.mode.toCode }, ?_,
    rfl, href _ rfl⟩
  rw [exec_mbdec_legal h hok, hrun, andThen_done, finish_done, settle_read rfl (by exact hl) (by rfl)]

/-- Settles O56: DecMB reads legal codes, and those an encoder makes of small residuals are legal. -/
theorem mbdecReadsMacroblock : Obligations.MbdecReadsMacroblock := by
  refine fun sz s h _ hok hl => ⟨fun z rest hz hn hr => exec_mbdec_codes h hok hl hz hn hr,
    fun m rs rest ha hn hlen hsmall hr => ?_⟩
  have h16 : (operandMb sz s).subs ≤ 16 := by
    have := h.subs
    omega
  exact exec_mbdec_codes (z := codesOf s.cfg m rs) h hok hl (codesOf_legal s.cfg hsmall hlen h16 ha) hn hr

end Sys2Proof.Machine
end

section
/-! FRAMEENC (45_pipeline.md R267, R271, R273): the key-frame flag and the frame's macroblocks, whether they complete or a
failure ends them. -/

namespace Sys2Proof.Machine

variable {s t u : State} {i : Instr} {zs : List MbCodes} {mbs : List Mb}

/-! ### The end of a command and of its parts -/

/-- A command that does not wait has run to an end, at which its buffers are settled. -/
theorem finish_idle {x : Run Unit} (h : finish i s x = .next t) (hidle : t.wait = none) :
    ∃ u, (x = .done () u ∨ x = .ended u) ∧ t = settle i s u := by
  refine (finish_next h).resolve_right ?_
  rintro ⟨req, u, -, rfl⟩
  cases hidle

theorem Run.May.of_eq_done {α : Type} {w r : Bool} {allow : Nat → Prop} {x : Run α} {a : α} (hx : x.May w r allow s)
    (h : x = .done a t) : Done w r allow s t := by
  subst h
  exact hx

theorem Run.May.of_eq_ended {α : Type} {w r : Bool} {allow : Nat → Prop} {x : Run α} (hx : x.May w r allow s)
    (h : x = .ended t) : Ended w r allow s t := by
  subst h
  exact hx

theorem Moved.ref_eq {w r : Bool} (h : Moved w r nowhere s t) : t.ref = s.ref := h.refSame fun _ ha => ha

/-- At the end of a command that leaves RESULT, the bits are written and only REF has changed besides (U4). -/
theorem EmitsRef.settle_writer {bits : List Bool} (hi : readsStream i = false) (h : EmitsRef bits s t) :
    ∃ u, Written bits s u ∧ Machine.settle i s t = { u with ref := t.ref } := by
  obtain ⟨u, hu, e⟩ := h.settle hi t.result
  have e : Machine.settle i s t = _ := e
  obtain ⟨v, hv, ev⟩ := h
  have hresult : t.result = u.result := by rw [ev, hv.frame, hu.frame]
  exact ⟨u, hu, by rw [e, hresult]⟩

/-! ### FRAMEENC past its checks (R267) -/

/-- The flag 1 of a key frame, and the check of STATUS after it (R273). -/
def encodeFlag (s : State) : Run Unit := (emitBits [true] s).andThen fun _ t => checkStatus t

/-- FRAMEENC past its checks: the flag, then the macroblocks. -/
def encodeFrame (s : State) : Run Unit :=
  (encodeFlag s).andThen fun _ t => encodeMbs (tiles t.fw.toNat t.fh.toNat) t

theorem exec_frameenc_ready (hok : s.status = .ok) (hi : s.inited = true) :
    exec .frameenc s = finish .frameenc s (encodeFrame s) := by
  rw [exec, execFrameenc, if_neg (not_not_intro hok), if_pos hi, encodeFrame, encodeFlag, andThen_assoc]
  rfl

theorem encodeFlag_eq (hok : s.status = .ok) (hw : s.wbuf.length ≤ 63) (hacc : acceptsBits 1 s) :
    ∃ u, encodeFlag s = .done () u ∧ Emits [true] s u := by
  obtain ⟨u, e, hem⟩ := emitBits_emits [true] hok hw hacc
  exact ⟨u, by rw [encodeFlag, e, andThen_done, checkStatus_ok (hem.status.trans hok)], hem⟩

theorem encodeFlag_done (hok : s.status = .ok) (hw : s.wbuf.length ≤ 63) (h : encodeFlag s = .done () t) :
    Emits [true] s t ∧ t.status = .ok := by
  obtain ⟨_, u, hbit, hcheck⟩ := andThen_eq_done h
  obtain ⟨hu, rfl⟩ := checkStatus_eq_done hcheck
  exact ⟨emitBits_done_ok hok hw hbit hu, hu⟩

theorem encodeFlag_may (s : State) : (encodeFlag s).May true false nowhere s :=
  (emitBits_may _ s).andThen fun _ t => checkStatus_may t

/-- After its flag a frame is its macroblocks. -/
theorem encodeFrame_of_flag (h : encodeFlag s = .done () u) (hem : Emits [true] s u) :
    encodeFrame s = encodeMbs (tiles s.fw.toNat s.fh.toNat) u := by
  rw [encodeFrame, h, andThen_done, hem.fw, hem.fh]

theorem encodeFrame_endsBad (s : State) : EndsBad (encodeFrame s) :=
  ((emitBits_endsBad _ s).andThen fun _ u => checkStatus_endsBad u).andThen fun _ _ => encodeMbs_endsBad _ _

/-! ### What FRAMEENC has coded -/

/-- What has been coded depends on the parameters, the geometry, SRC and REF, none of which settling touches. -/
theorem FrameCoded.settle (h : FrameCoded mbs zs s t) (i : Instr) (u : State) :
    FrameCoded mbs zs s (settle i u t) := by
  obtain ⟨w, r, d, e, -⟩ := settle_cases i u t
  rw [e]
  exact ⟨h.coded, h.decoded, h.kept⟩

theorem RefKeptOutside.start (h : RefKeptOutside mbs u t) (hfw : u.fw = s.fw) (href : u.ref = s.ref) :
    RefKeptOutside mbs s t := fun a ha => by
  rw [h a fun mb hm hc => ha mb hm ((covers_congr hfw).1 hc), href]

/-- The macroblocks may start anywhere after s that has s's REF. -/
theorem FrameCoded.start (h : FrameCoded mbs zs u t) (hfw : u.fw = s.fw) (href : u.ref = s.ref) :
    FrameCoded mbs zs s t :=
  ⟨h.coded, h.decoded, h.kept.start hfw href⟩

theorem tiles_length_pos (hg : geometryOk s) : 0 < (tiles s.fw.toNat s.fh.toNat).length := by
  obtain ⟨-, -, hfw, hfh, hw16, hh4, -⟩ := hg
  obtain ⟨mb, hm, -⟩ := tiles_cover hw16 hh4 hfw hfh
  exact List.length_pos_of_mem hm

/-- The macroblocks coded where FRAMEENC's work ends, and the bits written where it completes. -/
theorem encodeFrame_run (hg : geometryOk s) (hok : s.status = .ok) (hw : s.wbuf.length ≤ 63) :
    (∀ t, encodeFrame s = .done () t → ∃ zs, zs.length = (tiles s.fw.toNat s.fh.toNat).length ∧
      FrameCoded (tiles s.fw.toNat s.fh.toNat) zs s t ∧ EmitsRef (true :: codesBits zs) s t) ∧
    (∀ t, encodeFrame s = .ended t → ∃ zs, zs.length < (tiles s.fw.toNat s.fh.toNat).length ∧
      FrameCoded (tiles s.fw.toNat s.fh.toNat) zs s t) := by
  have hpos := tiles_length_pos hg
  obtain ⟨-, -, -, -, hw16, hh4, -⟩ := hg
  cases hflag : encodeFlag s with
  | done _ v =>
    obtain ⟨hem, hvok⟩ := encodeFlag_done hok hw hflag
    obtain ⟨hdone, hended⟩ := encodeMbs_run hw16 hh4 (tiles s.fw.toNat s.fh.toNat) [] [] v (by simp) (by rw [hem.fw])
      hvok hem.wcnt
    rw [encodeFrame_of_flag hflag hem]
    refine ⟨fun t h => ?_, fun t h => ?_⟩
    · obtain ⟨zs, hlen, hcoded, hbits⟩ := hdone t h
      exact ⟨zs, hlen, hcoded.start hem.fw hem.ref, EmitsRef.trans ⟨v, hem, rfl⟩ hbits⟩
    · obtain ⟨zs, hlen, hcoded⟩ := hended t h
      exact ⟨zs, hlen, hcoded.start hem.fw hem.ref⟩
  | ended v =>
    rw [encodeFrame, hflag, andThen_ended]
    refine ⟨fun _ h => (nomatch h), fun t h => ⟨[], hpos, .nil _ ?_⟩⟩
    obtain rfl := Run.ended.inj h
    exact ((encodeFlag_may s).of_eq_ended hflag).ref_eq
  | waiting _ _ | faulted _ =>
    rw [encodeFrame, hflag]
    exact ⟨fun _ h => (nomatch h), fun _ h => nomatch h⟩

/-- FRAMEENC that completes with STATUS = OK: its codes, the bits it wrote, and nothing else but REF changed. -/
theorem exec_frameenc_completed (hs : Inv s) (hi : s.inited = true) (hok : s.status = .ok)
    (h : exec .frameenc s = .next t) (hidle : t.wait = none) (htok : t.status = .ok) :
    ∃ zs, zs.length = (tiles s.fw.toNat s.fh.toNat).length ∧ FrameCoded (tiles s.fw.toNat s.fh.toNat) zs s t ∧
      ∃ u, Written (true :: codesBits zs) s u ∧ t = { u with ref := t.ref } := by
  rw [exec_frameenc_ready hok hi] at h
  obtain ⟨v, hv | hv, rfl⟩ := finish_idle h hidle
  · obtain ⟨zs, hlen, hcoded, hbits⟩ := (encodeFrame_run (hs.geometry hi) hok hs.wcnt).1 v hv
    obtain ⟨u, hwritten, e⟩ := hbits.settle_writer (i := .frameenc) rfl
    exact ⟨zs, hlen, hcoded.settle _ _, u, hwritten, by rw [e]⟩
  · exact absurd ((settle_status ..).symm.trans htok) (encodeFrame_endsBad s v hv)

/-- FRAMEENC that a failure has ended. -/
theorem exec_frameenc_failed (hs : Inv s) (hi : s.inited = true) (hok : s.status = .ok)
    (h : exec .frameenc s = .next t) (hidle : t.wait = none) (hfail : t.status ≠ .ok) :
    ∃ zs, zs.length < (tiles s.fw.toNat s.fh.toNat).length ∧ FrameCoded (tiles s.fw.toNat s.fh.toNat) zs s t := by
  obtain ⟨hdone, hended⟩ := encodeFrame_run (hs.geometry hi) hok hs.wcnt
  rw [exec_frameenc_ready hok hi] at h
  obtain ⟨v, hv | hv, rfl⟩ := finish_idle h hidle
  · obtain ⟨zs, -, -, w, hem, e⟩ := hdone v hv
    rw [settle_status, e] at hfail
    exact absurd (hem.status.trans hok) hfail
  · obtain ⟨zs, hlen, hcoded⟩ := hended v hv
    exact ⟨zs, hlen, hcoded.settle _ _⟩

/-! ### The obligation -/

theorem FrameWritten.sourceWritten (hg : geometryOk s) (h : FrameWritten s) :
    ∀ mb ∈ tiles s.fw.toNat s.fh.toNat, SourceWritten mb s := by
  obtain ⟨-, -, -, -, hw16, hh4, -⟩ := hg
  exact fun mb hm i j hi hj => h _ (covers_inside rfl hw16 hh4 hm ⟨i, j, hi, hj, rfl⟩)

/-- Settles O58: after the flag the macroblocks are coded as in any state with the same SRC, and every index of the
frame is in one of them. -/
theorem frameencCompletes : Obligations.FrameencCompletes := by
  intro s hs hi hok hwritten
  have hg := hs.geometry hi
  have hsrc := hwritten.sourceWritten hg
  obtain ⟨-, -, -, -, hw16, hh4, -⟩ := hg
  obtain ⟨zs, frame, hlen, hcoded, hdecoded, -, hvalues, hrun⟩ := encodeMbs_complete hw16 hh4
    (tiles s.fw.toNat s.fh.toNat) [] [] s (by simp) rfl hsrc fun _ hm => nomatch hm
  refine ⟨zs, frame, hlen, hcoded, hdecoded, ?_⟩
  intro ports wbuf ref hw s' hacc
  have hacc : acceptsBits ([true] ++ codesBits zs).length s' := hacc
  obtain ⟨u, hflag, hem⟩ := encodeFlag_eq (s := s') hok hw (acceptsBits_append hacc).1
  obtain ⟨v, hv, hbits, hagree, hkept⟩ := hrun u hem.cfg hem.fw hem.src (hem.status.trans hok) hem.wcnt
    (fun _ hm => nomatch hm) (hem.accepts hacc)
  obtain ⟨x, hx, e⟩ := (EmitsRef.trans ⟨u, hem, rfl⟩ hbits).settle_writer (i := .frameenc) rfl
  refine ⟨settle .frameenc s' v, x, ?_, hx, by rw [e], fun a ha => ?_, fun a ha => ?_⟩
  · exact (exec_frameenc_ready (s := s') hok hi).trans
      (congrArg (finish _ _) ((encodeFrame_of_flag hflag hem).trans hv))
  · obtain ⟨mb, hm, hc⟩ := index_covered (s := s) rfl hw16 hh4 ha
    rw [settle_ref, hagree mb hm a hc]
    exact ⟨hvalues mb hm a hc, rfl⟩
  · rw [settle_ref, (hkept.start hem.fw hem.ref).outside rfl hw16 hh4 ha]

end Sys2Proof.Machine
end

section
/-! FRAMEDEC, and the way from FRAMEENC to it over the ports (45_pipeline.md R268, R275, R276). -/

namespace Sys2Proof.Machine

variable {s t u : State}

/-! ### FRAMEDEC past its checks (R268) -/

/-- FRAMEDEC past its checks: the key-frame flag goes to RESULT, and after a flag of 1 come the macroblocks. -/
def decodeFrame (s : State) : Run Unit :=
  (nextBit s).andThen fun flag t =>
    if flag then decodeMbs (tiles t.fw.toNat t.fh.toNat) { t with result := 1 } else .done () { t with result := 0 }

theorem exec_framedec_ready (hok : s.status = .ok) (hi : s.inited = true) :
    exec .framedec s = finish .framedec s (decodeFrame s) := by
  rw [exec, execFramedec, if_neg (not_not_intro hok), if_pos hi, decodeFrame, readBits, andThen_assoc]
  congr 2
  funext flag t
  cases flag <;> rfl

theorem decodeFrame_flag {flag : Bool} {rest : List Bool} (hl : s.rlost = false) (h : readable s = flag :: rest) :
    decodeFrame s = if flag then decodeMbs (tiles s.fw.toNat s.fh.toNat) { afterReading 1 1 s with result := 1 }
      else .done () { afterReading 1 1 s with result := 0 } := by
  rw [decodeFrame, nextBit_eq hl h, andThen_done]
  rfl

/-- Settles O60: a flag of 0 is all that is read; after a flag of 1 the macroblocks decode from their bits. -/
theorem framedecReadsFrame : Obligations.FramedecReadsFrame := by
  intro s rest hok hi hl
  refine ⟨fun h => ?_, fun zs hs hlen hlegal h => ?_⟩
  · rw [exec_framedec_ready hok hi, decodeFrame_flag hl h, if_neg Bool.false_ne_true, finish_done,
      settle_read rfl (by exact hl) (by rfl)]
  · obtain ⟨-, -, -, -, hw16, hh4, -⟩ := hs.geometry hi
    have h : readable s = [true] ++ (codesBits zs ++ rest) := h
    obtain ⟨hread, hadd⟩ := read_stretch h
    obtain ⟨t, hrun, ht, hdecoded, hkept⟩ := decodeMbs_eq hw16 hh4 (tiles s.fw.toNat s.fh.toNat) [] []
      { afterReading 1 1 s with result := 1 } zs rest (by simp) rfl (fun _ hm => nomatch hm) hl hlen hlegal hread
    have hall : t = { afterReading (true :: codesBits zs).length (true :: codesBits zs).length s with
        ref := t.ref, result := 1 } := by
      rw [List.length_cons, Nat.add_comm]
      exact (hadd (codesBits zs).length) ▸ ht
    refine ⟨t, ?_, hall, hdecoded, fun a ha => (hkept.start rfl rfl).outside rfl hw16 hh4 ha⟩
    rw [exec_framedec_ready hok hi, decodeFrame_flag hl h, if_pos rfl, hrun, finish_done,
      settle_read rfl (by rw [hall]; exact hl) (by rw [hall]; rfl)]

/-! ### The bytes sent (R137, R267) -/

/-- Where FLUSH completes with STATUS = OK, nothing was buffered or its transaction was answered `ok`. -/
theorem flush_accepted (hr : s.rbuf.length ≤ 64) (h : exec .flush s = .next t) (hidle : t.wait = none)
    (htok : t.status = .ok) : s.wbuf = [] ∨ ∃ rest, s.ports.outAnswers = .ok :: rest := by
  by_cases hne : s.wbuf = []
  · exact .inl hne
  refine .inr ?_
  cases ha : s.ports.outAnswers with
  | nil =>
    obtain ⟨sent, v, e, -⟩ := transfer_unanswered (flushBytes s.wbuf) ha
    rw [exec_flush_buffered hne, e, andThen_waiting, finish_waiting] at h
    rw [← next_inj h] at hidle
    cases hidle
  | cons a rest =>
    cases a with
    | ok => exact ⟨rest, rfl⟩
    | fail =>
      obtain ⟨sent, reached, w, r, d, -, -, -, -, -, -, e⟩ := exec_flush_answered hne hr ha
      rw [e] at h
      rw [← next_inj h] at htok
      by_cases hok : s.status = .ok <;> simp [afterTransfer, hok] at htok

/-- Bits written to an empty writer and then flushed have been sent whole, whatever became of REF meanwhile. -/
theorem written_flushed_sent {bits : List Bool} (hok : s.status = .ok) (hw : s.wbuf = []) (hl : s.wlost = false)
    (hr : s.rbuf.length ≤ 64) (ht : t = { afterWriting bits s with ref := t.ref }) (h : exec .flush t = .next u)
    (hidle : u.wait = none) (huok : u.status = .ok) : ∃ pad, bytesBits (newOutBytes s u) = bits ++ pad := by
  have htok : t.status = .ok := by rw [ht]; exact hok
  have htl : t.wlost = false := by rw [ht]; exact hl
  have htr : t.rbuf.length ≤ 64 := by rw [ht]; exact hr
  have htw : t.wbuf = (afterWriting bits s).wbuf := by rw [ht]
  have hports : t.ports = (afterWriting bits s).ports := by rw [ht]
  obtain ⟨v, e, -, hsent, -, txs, hlog, -⟩ := flush_ok htok htl (flush_accepted htr h hidle huok)
  obtain rfl := next_inj (e.symm.trans h)
  refine ⟨padding t.wbuf.length, ?_⟩
  rw [sent_bits (hports ▸ hlog) (pad := padding t.wbuf.length), hw, List.nil_append]
  rw [← htw, ← hsent, newOutBytes, newOutBytes, hports]

/-! ### The closed loop (R275) -/

/-- Settles O59: the reader has the flag and the encoder's codes at its head, and both frames hold what these codes give,
so they agree macroblock after macroblock. -/
theorem closedLoop : Obligations.ClosedLoop := by
  intro s t u hs hi hok _ hw hl henc ht htok hflush hu huok r hr hri hrok hrw hrbuf hrl hfw hfh hq hk hsup
  obtain ⟨-, -, -, -, hw16, hh4, -⟩ := hs.geometry hi
  -- the encoder's side
  obtain ⟨zs, hlen, hcoded, v, hv, e⟩ := exec_frameenc_completed hs hi hok henc ht htok
  rw [hv.exact hl] at e
  have htfw : t.fw = s.fw := by rw [e]; rfl
  have htcfg : t.cfg = s.cfg := by rw [e]; rfl
  have hlegal := hcoded.coded.legal hw16 hh4 (by rw [htfw])
  -- the decoder's side
  obtain ⟨pad, hsent⟩ := written_flushed_sent hok hw hl hs.ravail e hflush hu huok
  obtain ⟨q, hdec, hq', hdecoded, -⟩ := (framedecReadsFrame r pad hrok hri hrl).2 zs hr (by rw [hfw, hfh]; exact hlen)
    (by rw [hfw, hfh]; exact hlegal) ((readable_supplies hrbuf hsup).trans hsent)
  have hqfw : q.fw = t.fw := by rw [hq', htfw]; exact hfw
  have hqcfg : q.cfg = r.cfg := by rw [hq']; rfl
  refine ⟨q, hdec, by rw [hq']; exact hrw, by rw [hq']; exact hrok, by rw [hq'], fun a ha => ?_⟩
  rw [hfw, hfh] at hdecoded
  obtain ⟨mb, hm, hc⟩ := index_covered (s := t) (by rw [htfw]) hw16 hh4 ha
  exact DecodedAs.agree hw16 hh4 hlen hlegal hqfw (by rw [hqcfg, htcfg, hk]) (by rw [hqcfg, htcfg, hq])
    hcoded.decoded hdecoded mb hm a hc

end Sys2Proof.Machine
end

section
/-! Pipeline commands that a failure has ended (45_pipeline.md R266 to R268, R273): what they leave in REF and RESULT. -/

namespace Sys2Proof.Machine

variable {s t u : State} {i : Instr} {sz : Byte} {zs : List MbCodes}

/-- Reading alone records a failure only by ending the command. -/
theorem Done.status_ok {r : Bool} {allow : Nat → Prop} (h : Done false r allow s t) (hok : s.status = .ok) :
    t.status = .ok :=
  (h.cause hok).resolve_right fun ⟨hw, _⟩ => nomatch hw

/-! ### MBENC and MBDEC (R265, R266) -/

/-- A macroblock's work that has ended early leaves REF and RESULT: it writes them last. -/
theorem macroblock_failed {x : Run Mode} {w r : Bool} {allow : Nat → Prop} (hx : x.Atomic w r allow s)
    (hdone : ∀ m u, x = .done m u → u.status = .ok)
    (h : finish i s (x.andThen fun m u => .done () { u with result := BitVec.ofNat 32 m.toCode }) = .next t)
    (hidle : t.wait = none) (hfail : t.status ≠ .ok) : t.ref = s.ref ∧ t.result = s.result := by
  obtain ⟨v, hv | hv, rfl⟩ := finish_idle h hidle
  · obtain ⟨m, u, hu, e⟩ := andThen_eq_done hv
    obtain ⟨-, rfl⟩ := Run.done.inj e
    rw [settle_status] at hfail
    exact absurd (hdone m u hu) hfail
  · obtain rfl | ⟨_, _, -, hc⟩ := andThen_eq_ended hv
    · have hx : Ended w r nowhere s v := hx
      rw [settle_ref, settle_result]
      exact ⟨hx.ref_eq, hx.result_eq⟩
    · cases hc

theorem record_ref_result (c : Status) (s : State) : (record c s).ref = s.ref ∧ (record c s).result = s.result := by
  unfold record
  split <;> exact ⟨rfl, rfl⟩

theorem exec_mbenc_failed (h : exec (.mbenc sz) s = .next t) (hidle : t.wait = none) (hfail : t.status ≠ .ok) :
    t.ref = s.ref ∧ t.result = s.result := by
  by_cases hok : s.status = .ok
  · cases hmb : mbOk sz s with
    | true =>
      rw [exec_mbenc_legal (mbOk_legal hmb) hok] at h
      exact macroblock_failed (encodeMb_atomic (r := false) _ s) (fun _ _ hu => encodeMb_done_ok hu) h hidle hfail
    | false =>
      rw [exec, execMbenc, if_neg (not_not_intro hok), hmb] at h
      rw [← next_inj h]
      exact record_ref_result _ _
  · rw [exec, execMbenc, if_pos hok] at h
    rw [← next_inj h]
    exact ⟨rfl, rfl⟩

theorem exec_mbdec_failed (h : exec (.mbdec sz) s = .next t) (hidle : t.wait = none) (hfail : t.status ≠ .ok) :
    t.ref = s.ref ∧ t.result = s.result := by
  by_cases hok : s.status = .ok
  · cases hmb : mbOk sz s with
    | true =>
      rw [exec_mbdec_legal (mbOk_legal hmb) hok] at h
      have hat := decodeMb_atomic (w := false) (operandMb sz s) s
      exact macroblock_failed hat (fun _ _ hu => (hat.toMay.of_eq_done hu).status_ok hok) h hidle hfail
    | false =>
      rw [exec, execMbdec, if_neg (not_not_intro hok), hmb] at h
      rw [← next_inj h]
      exact record_ref_result _ _
  · rw [exec, execMbdec, if_pos hok] at h
    rw [← next_inj h]
    exact ⟨rfl, rfl⟩

/-! ### FRAMEDEC (R268) -/

/-- From s to t FRAMEDEC has read the flag 1 and the codes zs of the frame's first macroblocks, but not of all, and REF
holds what they decode to. -/
structure FrameCut (zs : List MbCodes) (s t : State) : Prop where
  result : t.result = 1
  short : zs.length < (tiles s.fw.toNat s.fh.toNat).length
  legal : CodesLegal (tiles s.fw.toNat s.fh.toNat) zs
  decoded : DecodedAs (tiles s.fw.toNat s.fh.toNat) zs t
  kept : RefKeptOutside ((tiles s.fw.toNat s.fh.toNat).take zs.length) s t
  codes : s.rlost = false → (true :: codesBits zs) <+: readable s

theorem FrameCut.settle (h : FrameCut zs s t) (i : Instr) (u : State) : FrameCut zs s (settle i u t) := by
  obtain ⟨w, r, d, e, -⟩ := settle_cases i u t
  rw [e]
  exact ⟨h.result, h.short, h.legal, h.decoded, h.kept, h.codes⟩

/-- Codes read after a one-bit: the stream starts with that bit and their bits. -/
theorem readable_starts_with_flag (hl : s.rlost = false) (hflag : nextBit s = .done true u)
    (hcodes : u.rlost = false → ∃ rest, readable u = codesBits zs ++ rest) :
    (true :: codesBits zs) <+: readable s := by
  obtain ⟨tail, hr⟩ := nextBit_done hl hflag
  rw [nextBit_eq hl hr] at hflag
  obtain ⟨-, rfl⟩ := Run.done.inj hflag
  obtain ⟨htail, -⟩ := read_stretch (xs := [true]) hr
  obtain ⟨rest, hcodes⟩ := hcodes hl
  rw [hr, ← htail]
  exact ⟨rest, congrArg (true :: ·) hcodes.symm⟩

/-- Where FRAMEDEC's work ends early: before the flag is known, or in one of the macroblocks. -/
theorem decodeFrame_ended (hg : geometryOk s) (h : decodeFrame s = .ended t) :
    t.ref = s.ref ∧ t.result = s.result ∨ ∃ zs, FrameCut zs s t := by
  obtain ⟨-, -, -, -, hw16, hh4, -⟩ := hg
  have hmay : (nextBit s).May false true nowhere s := nextBit_may s
  obtain hflag | ⟨flag, u, hflag, hrest⟩ := andThen_eq_ended h
  · have ht := hmay.of_eq_ended hflag
    exact .inl ⟨ht.ref_eq, ht.result_eq⟩
  · cases flag with
    | false => cases hrest
    | true =>
      have hu := hmay.of_eq_done hflag
      have htiles : tiles u.fw.toNat u.fh.toNat = tiles s.fw.toNat s.fh.toNat := by rw [hu.fw_eq, hu.fh_eq]
      rw [if_pos rfl, htiles] at hrest
      obtain ⟨zs, hlen, hread⟩ := (decodeMbs_run hw16 hh4 (tiles s.fw.toNat s.fh.toNat) [] [] { u with result := 1 }
        (by simp) (congrArg _ hu.fw_eq)).2 t hrest
      have ht := (decodeMbs_may (w := false) (tiles s.fw.toNat s.fh.toNat) { u with result := 1 }).of_eq_ended hrest
      exact .inr ⟨zs, ht.result_eq, hlen, hread.legal, hread.decoded, hread.kept.start hu.fw_eq hu.ref_eq,
        fun hl => readable_starts_with_flag hl hflag hread.codes⟩

theorem decodeFrame_done_ok (hok : s.status = .ok) (h : decodeFrame s = .done () t) : t.status = .ok := by
  obtain ⟨flag, u, hflag, hrest⟩ := andThen_eq_done h
  have hmay : (nextBit s).May false true nowhere s := nextBit_may s
  have hu := (hmay.of_eq_done hflag).status_ok hok
  cases flag with
  | false =>
    obtain ⟨-, rfl⟩ := Run.done.inj hrest
    exact hu
  | true => exact ((decodeMbs_may (w := false) _ { u with result := 1 }).of_eq_done hrest).status_ok hu

theorem exec_framedec_failed (hs : Inv s) (hi : s.inited = true) (hok : s.status = .ok)
    (h : exec .framedec s = .next t) (hidle : t.wait = none) (hfail : t.status ≠ .ok) :
    t.ref = s.ref ∧ t.result = s.result ∨ ∃ zs, FrameCut zs s t := by
  rw [exec_framedec_ready hok hi] at h
  obtain ⟨v, hv | hv, rfl⟩ := finish_idle h hidle
  · rw [settle_status] at hfail
    exact absurd (decodeFrame_done_ok hok hv) hfail
  · rw [settle_ref, settle_result]
    exact (decodeFrame_ended (hs.geometry hi) hv).imp_right fun ⟨zs, hcut⟩ => ⟨zs, hcut.settle _ _⟩

/-! ### The obligation -/

/-- Settles O57: a macroblock writes REF as its last act, so a frame that a failure ends has the macroblocks before it. -/
theorem failedMacroblockLeavesRef : Obligations.FailedMacroblockLeavesRef := by
  intro s t _ hidle
  refine ⟨fun sz h hfail => h.elim (fun h => exec_mbenc_failed h hidle hfail) fun h => exec_mbdec_failed h hidle hfail,
    fun h => (resultChangesOnlyWhereListed _ s t h).1 rfl, fun hs hi hok hfail => ⟨fun h => ?_, fun h => ?_⟩⟩
  · obtain ⟨zs, hlen, hcoded⟩ := exec_frameenc_failed hs hi hok h hidle hfail
    exact ⟨zs, hlen, hcoded.coded, hcoded.decoded, hcoded.kept⟩
  · exact (exec_framedec_failed hs hi hok h hidle hfail).imp_right fun ⟨zs, hcut⟩ =>
      ⟨hcut.result, zs, hcut.short, hcut.legal, hcut.decoded, hcut.kept, hcut.codes⟩

end Sys2Proof.Machine
end

section
/-! The system commands (46_system.md R290 to R296): what each does where its checks pass and where one fails, and the
pipeline commands that a recorded failure turns away (R264, R315). -/

namespace Sys2Proof.Machine

variable {w : Word} {s : State} {opc : Byte}

/-! ### Words of commands that use no field (R103, R104) -/

/-- For such a row the opcode and three zero fields are the one word that is a command. -/
theorem issue_of_nonzero_field (hopc : fieldOPC w = opc) (hrow : opc.toNat ∈ rowsWithoutFA)
    (hw : w ≠ commandWord opc 0 0 0) : issue w s = raises .inval s := by
  apply issue_of_ne_encode
  rintro i rfl
  subst hopc
  have hrowFB := List.mem_append_left [0x10, 0x18, 0x50, 0x60, 0x61] hrow
  have hrowFC := List.mem_append_left [0x30, 0x31, 0x32, 0x33, 0x34, 0x40, 0x41] hrowFB
  exact hw (eq_commandWord_iff.mpr ⟨rfl, fieldFA_encode i hrow, fieldFB_encode i hrowFB, fieldFC_encode i hrowFC⟩)

/-! ### INIT's checks, in their order (R293) -/

theorem next_record (c : Status) (s : State) : Host.Outcome.next (record c s) = raises c s := by
  unfold record raises
  split <;> rfl

theorem exec_init_inited (hi : s.inited = true) : exec .init s = raises .inval s := by
  rw [exec, execInit, if_pos hi, invalid_eq_raises]

theorem exec_init_zero (hi : s.inited = false) (h : s.width.toNat = 0 ∨ s.height.toNat = 0) :
    exec .init s = raises .inval s := by
  rw [exec, execInit, if_neg (by simp [hi]), if_pos h, invalid_eq_raises]

/-- A zero size records the same code, so the check before this one needs no hypothesis. -/
theorem exec_init_unaligned (hi : s.inited = false) (h : s.width.toNat % 16 ≠ 0 ∨ s.height.toNat % 4 ≠ 0) :
    exec .init s = raises .inval s := by
  by_cases hzero : s.width.toNat = 0 ∨ s.height.toNat = 0
  · exact exec_init_zero hi hzero
  · rw [exec, execInit, if_neg (by simp [hi]), if_neg hzero, if_pos h, invalid_eq_raises]

/-- The last check, of the frame's size against the three limits. -/
theorem exec_init_aligned (hi : s.inited = false) (hw : s.width.toNat ≠ 0) (hh : s.height.toNat ≠ 0)
    (hw16 : s.width.toNat % 16 = 0) (hh4 : s.height.toNat % 4 = 0) : exec .init s =
    if s.width.toNat ≤ s.cfg.maxW ∧ s.height.toNat ≤ s.cfg.maxH ∧ s.width.toNat * s.height.toNat ≤ s.cfg.maxSamples then
      .next { s with fw := s.width, fh := s.height, inited := true, ref := [] }
    else raises .nomem s := by
  rw [exec, execInit, if_neg (by simp [hi]), if_neg (by simp [hw, hh]), if_neg (by simp [hw16, hh4]), ← next_record]
  rfl

/-! ### Pipeline commands while a failure is recorded (R264, R315) -/

theorem exec_mbenc_turnedAway (hfail : s.status ≠ .ok) (sz : Byte) : exec (.mbenc sz) s = .next s :=
  if_pos hfail

theorem exec_mbdec_turnedAway (hfail : s.status ≠ .ok) (sz : Byte) : exec (.mbdec sz) s = .next s :=
  if_pos hfail

theorem exec_frameenc_turnedAway (hfail : s.status ≠ .ok) : exec .frameenc s = .next s :=
  if_pos hfail

theorem exec_framedec_turnedAway (hfail : s.status ≠ .ok) : exec .framedec s = .next s :=
  if_pos hfail

/-! ### The obligations on system commands -/

/-- Settles O24: a word of INIT's row with a nonzero field is no command's, and INIT makes its checks one by one. -/
theorem initLatchesGeometry : Obligations.InitLatchesGeometry := by
  intro s
  refine ⟨fun w hopc hw => issue_of_nonzero_field hopc (by decide) hw, exec_init_inited,
    fun hi => ⟨exec_init_zero hi, exec_init_unaligned hi, fun hw hh hw16 hh4 => ⟨fun hbig => ?_, fun hmw hmh hms => ?_⟩⟩⟩
  · rw [exec_init_aligned hi hw hh hw16 hh4, if_neg (by omega)]
  · rw [exec_init_aligned hi hw hh hw16 hh4, if_pos ⟨hmw, hmh, hms⟩]

/-- Settles O25: the values of FW and FH are the next two drawn words, cut to 16 bits. -/
theorem deinitReleasesFrame : Obligations.DeinitReleasesFrame := by
  intro s
  refine ⟨fun hi => ?_, fun hi => ⟨(Config.drawWord s.draws).setWidth 16, (Config.drawWord (s.draws + 1)).setWidth 16,
    s.draws + 2, ?_⟩⟩
  · rw [exec, execDeinit, if_neg (by simp [hi]), complete]
  · rw [exec, execDeinit, if_pos hi, complete, drew]

/-- Settles O22: NOP completes at once, and a pipeline command looks at STATUS before anything else. -/
theorem commandsThatDoNothing : Obligations.CommandsThatDoNothing := by
  intro s
  exact ⟨rfl, fun hfail sz => ⟨exec_mbenc_turnedAway hfail sz, exec_mbdec_turnedAway hfail sz,
    exec_frameenc_turnedAway hfail, exec_framedec_turnedAway hfail⟩⟩

/-- Settles O23: each of the three completes with its own field cleared; their rows use no field. -/
theorem clearingCommands : Obligations.ClearingCommands := by
  intro s
  refine ⟨rfl, rfl, rfl, fun w hopc hclrstat hwrinit hrdinit => ?_⟩
  obtain hopc | hopc | hopc := hopc
  · exact issue_of_nonzero_field hopc (by decide) hclrstat
  · exact issue_of_nonzero_field hopc (by decide) hwrinit
  · exact issue_of_nonzero_field hopc (by decide) hrdinit

end Sys2Proof.Machine
end

section
/-! The STATUS code (60_exceptions.md R311, R312): which failure a command can record and why, and what keeps a
recorded failure until CLRSTAT or reset. -/

namespace Sys2Proof.Machine

variable {i : Instr} {s t : State} {w : Word} {width : Nat} {addr v : Word}

/-! ### Why a command that started with STATUS = OK has left a code (R293, R311) -/

/-- The frame that WIDTH and HEIGHT give is beyond one of the three limits (R293). -/
def FrameTooLarge (s : State) : Prop :=
  s.cfg.maxW < s.width.toNat ∨ s.cfg.maxH < s.height.toNat ∨ s.cfg.maxSamples < s.width.toNat * s.height.toNat

/-- Command i has taken s, where STATUS is OK, to t: the code it has left, with the cause of that code. -/
inductive StatusCause (i : Instr) (s t : State) : Prop where
  | noFailure (code : t.status = .ok)
  | check (code : t.status = .inval)
  | frame (code : t.status = .nomem) (init : i = .init) (limit : FrameTooLarge s)
  | outPort (failed : WriterFailed (writesStream i) s t)
  | inPort (failed : ReaderFailed (readsStream i) s t)

theorem Finished.statusCause (h : Finished i s t) (hok : s.status = .ok) : StatusCause i s t := by
  obtain ⟨u, hu, ht, -⟩ := h.moved
  rw [ht]
  rcases hu.cause hok with hcode | hwriter | hcode | hreader
  · exact .noFailure hcode
  · exact .outPort hwriter
  · exact .check hcode
  · exact .inPort hreader

theorem setup_statusCause (hi : isSetup i = true) (hok : s.status = .ok) (h : exec i s = .next t) :
    StatusCause i s t := by
  obtain ⟨-, rfl⟩ | ⟨-, rfl⟩ | ⟨-, rfl⟩ | ⟨rfl, rfl | ⟨rfl, hlimit⟩ | ⟨rfl, -⟩⟩ | ⟨-, rfl | ⟨_, _, rfl⟩⟩ :=
    setup_next hi h
  · exact .noFailure rfl
  · exact .noFailure hok
  · exact .noFailure hok
  · exact .check (by simp [hok])
  · exact .frame (by simp [hok]) rfl hlimit
  · exact .noFailure hok
  · exact .noFailure hok
  · exact .noFailure hok

/-- STATUS stays OK while a command waits, until it has finished. -/
theorem exec_statusCause (hok : s.status = .ok) (h : exec i s = .next t) : StatusCause i s t := by
  cases hi : isSetup i with
  | true => exact setup_statusCause hi hok h
  | false =>
    rcases exec_effect hi h with ⟨req, u, -, rfl⟩ | hfin
    · exact .noFailure hok
    · exact hfin.statusCause hok

/-! ### What keeps a recorded failure (R312) -/

theorem record_of_ok (hok : s.status = .ok) (c : Status) : record c s = { s with status := c } :=
  if_pos hok

theorem record_of_failed (hfail : s.status ≠ .ok) (c : Status) : record c s = s :=
  if_neg hfail

theorem Finished.status_kept (h : Finished i s t) (hfail : s.status ≠ .ok) : t.status = s.status := by
  obtain ⟨u, hu, ht, -⟩ := h.moved
  rw [ht]
  exact hu.sticky hfail

theorem setup_status_kept (hi : isSetup i = true) (hne : i ≠ .clrstat) (hfail : s.status ≠ .ok)
    (h : exec i s = .next t) : t.status = s.status := by
  obtain ⟨rfl, -⟩ | ⟨-, rfl⟩ | ⟨-, rfl⟩ | ⟨-, rfl | ⟨rfl, -⟩ | ⟨rfl, -⟩⟩ | ⟨-, rfl | ⟨_, _, rfl⟩⟩ := setup_next hi h
  · exact absurd rfl hne
  · rfl
  · rfl
  · rw [record_of_failed hfail]
  · rw [record_of_failed hfail]
  · rfl
  · rfl
  · rfl

/-- No command but CLRSTAT changes a recorded failure, in the register or in what the host polls. -/
theorem exec_failure_kept (hidle : s.wait = none) (hfail : s.status ≠ .ok) (hne : i ≠ .clrstat)
    (h : exec i s = .next t) : t.status = s.status ∧ polledStatus t = s.status := by
  have idle (hstatus : t.status = s.status) (hwait : t.wait = s.wait) :
      t.status = s.status ∧ polledStatus t = s.status :=
    ⟨hstatus, (polledStatus_of_idle (hwait.trans hidle)).trans hstatus⟩
  cases hi : isSetup i with
  | true => exact idle (setup_status_kept hi hne hfail h) (setup_wait hi h)
  | false =>
    rcases exec_effect hi h with ⟨req, u, hwaits, rfl⟩ | hfin
    · exact ⟨rfl, hwaits.sticky hfail⟩
    · exact idle (hfin.status_kept hfail) hfin.wait_eq

theorem issue_failure_kept (hidle : s.wait = none) (hfail : s.status ≠ .ok) (hw : decode w ≠ .ok .clrstat)
    (h : issue w s = .next t) : t.status = s.status := by
  unfold issue at h
  split at h
  · rename_i i hd
    exact (exec_failure_kept hidle hfail (fun hi => hw (hi ▸ hd)) h).1
  · rw [← next_inj h, record_of_failed hfail]

theorem writeTarget_status (tg : Target) (v : Word) (s : State) : (writeTarget tg v s).status = s.status := by
  cases tg with
  | width | height => unfold writeTarget; dsimp only; split <;> rfl
  | _ => rfl

theorem hostWrite_of_cmd (hidle : s.wait = none) (ht : target width addr.toNat s = some .cmd) :
    hostWrite width addr v s = issue v s := by
  rw [hostWrite, ht]
  simp only [busy_of_idle hidle, Bool.false_eq_true, if_false]

/-- Of the host's writes only one to CMD can reach STATUS. -/
theorem hostWrite_failure_kept (hidle : s.wait = none) (hfail : s.status ≠ .ok) (hv : decode v ≠ .ok .clrstat)
    (h : hostWrite width addr v s = .next t) : t.status = s.status := by
  cases htg : target width addr.toNat s with
  | none =>
    rw [(access_refused htg).1] at h
    cases h
  | some tg =>
    by_cases hcmd : tg = .cmd
    · subst hcmd
      rw [hostWrite_of_cmd hidle htg] at h
      exact issue_failure_kept hidle hfail hv h
    · rw [hostWrite_of_target hidle htg hcmd] at h
      rw [← next_inj h, writeTarget_status]

theorem returnedSample_next {f : Fault} {o : Option Byte} (h : returnedSample f o s = .next t) :
    ∃ x, t = { s with hostLog := s.hostLog ++ [x] } := by
  cases o with
  | none => cases h
  | some b => exact ⟨_, (next_inj h).symm⟩

/-- A host read leaves its mark in the model's log only (R81, log 15). -/
theorem hostRead_next (h : hostRead width addr s = .next t) : ∃ x, t = { s with hostLog := s.hostLog ++ [x] } := by
  unfold hostRead at h
  split at h
  · cases h
  · exact ⟨_, (next_inj h).symm⟩
  · exact ⟨_, (next_inj h).symm⟩
  · rename_i tg _ _ _
    split at h
    · cases h
    · cases tg with
      | src _ | ref _ => exact returnedSample_next h
      | _ => exact ⟨_, (next_inj h).symm⟩

/-- An answer that no command waits for is only queued. -/
theorem resume_next_of_idle (h : resume s = .next t) (hidle : s.wait = none) : t = s := by
  rw [resume_of_idle hidle] at h
  exact (next_inj h).symm

theorem hostMove_failure_kept {a : HostAction} (hidle : s.wait = none) (hfail : s.status ≠ .ok) (ha : a ≠ .reset)
    (hw : ∀ width addr w, a = .busWrite width addr w → decode w ≠ .ok .clrstat) (h : hostMove a s = .next t) :
    t.status = s.status := by
  cases a with
  | busWrite width addr w => exact hostWrite_failure_kept hidle hfail (hw _ _ _ rfl) h
  | busRead width addr =>
    obtain ⟨x, rfl⟩ := hostRead_next h
    rfl
  | answerOut r | answerIn r => rw [resume_next_of_idle h hidle]
  | reset => exact absurd rfl ha

/-! ### The obligations on STATUS -/

/-- Settles O20: a command that waits, finishes or sets up keeps a recorded failure, and so does a host move that
issues no CLRSTAT. -/
theorem firstFailureStays : Obligations.FirstFailureStays := by
  refine ⟨fun c s => ⟨fun hok => record_of_ok hok c, fun hfail => record_of_failed hfail c⟩,
    fun i s t hidle hfail hne h => exec_failure_kept hidle hfail hne h, fun s t rest a hh hfail ha hidle hw h => ?_⟩
  rw [step_of_host hh] at h
  exact hostMove_failure_kept (s := { s with host := rest }) hidle hfail ha hw h

/-- Settles O21: each cause leaves one code, so a code has the causes that leave it. -/
theorem statusCodesHaveTheirCauses : Obligations.StatusCodesHaveTheirCauses := by
  intro i s t hok h
  rcases exec_statusCause hok h with hcode | hcode | ⟨hcode, hi, hlimit⟩ | ⟨hw, hcode, htx⟩ |
    ⟨hr, ⟨hcode, hlog⟩ | ⟨hcode, hlog⟩⟩
  all_goals rw [hcode]
  · exact ⟨nofun, nofun, nofun, nofun⟩
  · exact ⟨nofun, nofun, nofun, nofun⟩
  · exact ⟨nofun, fun _ => ⟨hi, hlimit⟩, nofun, nofun⟩
  · exact ⟨nofun, nofun, nofun, fun _ => .inr ⟨hw, htx⟩⟩
  · exact ⟨nofun, nofun, fun _ => ⟨hr, hlog⟩, nofun⟩
  · exact ⟨nofun, nofun, nofun, fun _ => .inl ⟨hr, hlog⟩⟩

end Sys2Proof.Machine
end

section
/-! The checks of R314 items 1 to 5 (60_exceptions.md R313): a check that fails records INVAL, if no failure is recorded
yet, and has no other effect. -/

namespace Sys2Proof.Machine

variable {s : State} {sz m b d src cnt : Byte} {f : Block → Block}
  {x : Host.Outcome State Fault Refusal}

/-! ### The forms a command's checks have -/

theorem failedCheck_raises {c : Bool} (hc : c = false) : (if c then x else invalid s) = raises .inval s := by
  rw [hc]
  exact invalid_eq_raises s

/-- A pipeline command looks at STATUS first: with a failure recorded it does nothing, and recording INVAL is nothing
too (R264, R312). -/
theorem failedPipelineCheck_raises {c : Bool} (hc : c = false) :
    (if s.status ≠ .ok then complete s else if c then x else invalid s) = raises .inval s := by
  split
  · rename_i hfail
    rw [← next_record, record_of_failed hfail, complete]
  · exact failedCheck_raises hc

/-- A bank-to-bank command with a check c of its own before those on its banks. -/
theorem failedBankCheck_raises {c : Prop} [Decidable c]
    (h : c → (WellFormed.bank d && WellFormed.bank src) = false) :
    (if c then bankToBank d src f s else invalid s) = raises .inval s := by
  split
  · rename_i hc
    exact failedCheck_raises (h hc)
  · exact invalid_eq_raises s

/-! ### Macroblock operands (R264, shared checks 2 to 6 of 43_predict.md) -/

theorem mbOk_of_not_legal (h : ¬ MbLegal sz s) : mbOk sz s = false :=
  Bool.eq_false_of_not_eq_true (mt mbOk_legal h)

theorem mbOk_of_size (h : WellFormed.size sz = false) : mbOk sz s = false := by
  simp [mbOk, show sizeOk sz = false from h]

/-- PREDRES and UNPRED make the same checks. -/
theorem exec_prediction_failedCheck (h : mbOk sz s = true → ∀ mode,
      legalMode m.toNat s.arg0.toNat s.arg1.toNat = some mode → WellFormed.subBanks sz b = false) :
    exec (.predres sz m b) s = raises .inval s ∧ exec (.unpred sz m b) s = raises .inval s := by
  rw [exec, exec, execPredres, execUnpred]
  cases hmb : mbOk sz s with
  | false => exact ⟨invalid_eq_raises s, invalid_eq_raises s⟩
  | true =>
    cases hmode : legalMode m.toNat (operandMb sz s).x (operandMb sz s).y with
    | none => exact ⟨invalid_eq_raises s, invalid_eq_raises s⟩
    | some mode =>
      have hbanks : subBanksOk (operandMb sz s) b = false := h hmb mode hmode
      exact ⟨(if_pos rfl).trans (failedCheck_raises hbanks), (if_pos rfl).trans (failedCheck_raises hbanks)⟩

/-- Without INITED, or where the macroblock is misaligned or outside the frame. -/
theorem exec_of_not_mbLegal (h : ¬ MbLegal sz s) (m b : Byte) :
    exec (.predsel sz) s = raises .inval s ∧ exec (.predres sz m b) s = raises .inval s ∧
      exec (.unpred sz m b) s = raises .inval s ∧ exec (.mbenc sz) s = raises .inval s ∧
      exec (.mbdec sz) s = raises .inval s := by
  have hmb := mbOk_of_not_legal h
  obtain ⟨hpredres, hunpred⟩ := exec_prediction_failedCheck (m := m) (b := b) fun hc => absurd (mbOk_legal hc) h
  exact ⟨failedCheck_raises hmb, hpredres, hunpred, failedPipelineCheck_raises hmb, failedPipelineCheck_raises hmb⟩

/-- A mode that reads samples beyond the frame's left or top edge is not computable (R211). -/
theorem legalMode_at_edge
    (h : m = 1 ∧ (s.arg0 = 0 ∨ s.arg1 = 0) ∨ m = 2 ∧ s.arg0 = 0 ∨ m = 3 ∧ s.arg1 = 0) :
    legalMode m.toNat s.arg0.toNat s.arg1.toNat = none := by
  rcases h with ⟨rfl, h | h⟩ | ⟨rfl, h⟩ | ⟨rfl, h⟩ <;> simp [legalMode, modeOf, computable, h]

theorem wellFormed_mode_of_legalMode {mode : Mode} {y z : Nat} (h : legalMode m.toNat y z = some mode) :
    WellFormed.mode m = true := by
  rw [WellFormed.mode, (legalMode_some h).1]
  cases mode <;> rfl

theorem exec_prediction_of_illFormed
    (h : (WellFormed.size sz && WellFormed.mode m && WellFormed.subBanks sz b) = false) :
    exec (.predres sz m b) s = raises .inval s ∧ exec (.unpred sz m b) s = raises .inval s := by
  refine exec_prediction_failedCheck fun hmb mode hmode => ?_
  have hsize : WellFormed.size sz = true := by
    by_contra hsize
    rw [mbOk_of_size (Bool.eq_false_of_not_eq_true hsize)] at hmb
    cases hmb
  rwa [hsize, wellFormed_mode_of_legalMode hmode, Bool.true_and] at h

/-! ### Fields outside their ranges (R101, R104, R314 item 2) -/

theorem exec_of_illFormed {i : Instr} (h : wellFormed i = false) : exec i s = raises .inval s := by
  cases i with
  | nop | clrstat | init | deinit | wrinit | rdinit | putones | putzeroes | puteg | flush | getzeroes | geteg
  | frameenc | framedec => cases h
  | putbits n =>
    rw [exec, execPutbits, if_neg (by simpa [wellFormed] using h), invalid_eq_raises]
  | getbits n =>
    rw [exec, execGetbits, if_neg (by simpa [wellFormed] using h), invalid_eq_raises]
  | entenc b off cnt => exact failedCheck_raises (congrArg (· && codable (bankVector b.toNat off.toNat cnt.toNat s)) h)
  | entdec b off cnt => exact failedCheck_raises h
  | fwd4 d src | inv4 d src | had4 d src | ihad4 d src | had2 d src | quant4 d src | dequant4 d src =>
    exact failedCheck_raises h
  | quantdc d src cnt | dequantdc d src cnt =>
    exact failedBankCheck_raises fun hgrid => by
      rwa [wellFormed, show WellFormed.grid cnt = true from hgrid, Bool.and_true] at h
  | gatherdc g b cnt => exact failedCheck_raises h
  | scatterdc b g cnt => exact failedCheck_raises h
  | bdiv d src div =>
    exact failedBankCheck_raises fun hdiv => by
      rwa [wellFormed, decide_eq_true hdiv, Bool.and_true] at h
  | predsel sz => exact failedCheck_raises (mbOk_of_size h)
  | predres sz m b => exact (exec_prediction_of_illFormed h).1
  | unpred sz m b => exact (exec_prediction_of_illFormed h).2
  | mbenc sz => exact failedPipelineCheck_raises (mbOk_of_size h)
  | mbdec sz => exact failedPipelineCheck_raises (mbOk_of_size h)

/-! ### Operand values and INIT (R314 items 4 and 5) -/

theorem exec_puteg_too_large (h : 2 ^ 31 - 2 < s.arg0.toNat) : exec .puteg s = raises .inval s := by
  rw [exec, execPuteg, if_neg (by omega), invalid_eq_raises]

theorem exec_entenc_uncodable {off : Byte} (h : (-(2 ^ 31) : Int) ∈ bankVector b.toNat off.toNat cnt.toNat s) :
    exec (.entenc b off cnt) s = raises .inval s := by
  have hc : codable (bankVector b.toNat off.toNat cnt.toNat s) = false :=
    Bool.eq_false_of_not_eq_true fun hc => codable_iff.mp hc _ h rfl
  exact failedCheck_raises (by rw [hc, Bool.and_false])

theorem exec_init_rejected (h : s.inited = true ∨ s.width = 0 ∨ s.height = 0 ∨ s.width.toNat % 16 ≠ 0 ∨
    s.height.toNat % 4 ≠ 0) : exec .init s = raises .inval s := by
  cases hi : s.inited with
  | true => exact exec_init_inited hi
  | false =>
    rcases h with hinited | hw | hh | hw16 | hh4
    · rw [hi] at hinited; cases hinited
    · exact exec_init_zero hi (.inl (congrArg BitVec.toNat hw))
    · exact exec_init_zero hi (.inr (congrArg BitVec.toNat hh))
    · exact exec_init_unaligned hi (.inl hw16)
    · exact exec_init_unaligned hi (.inr hh4)

/-! ### The obligation -/

/-- Settles O4: each clause names a check that the command makes before it does anything. -/
theorem failedChecksOnlyRaiseInval : Obligations.FailedChecksOnlyRaiseInval := by
  intro s
  refine ⟨fun w => issue_of_not_decoded, fun i => exec_of_illFormed, fun hi sz m b => ?_, fun sz m b h => ?_,
    fun sz m b h => ?_, exec_puteg_too_large, fun b off cnt => exec_entenc_uncodable, exec_init_rejected⟩
  · have hill : ¬ MbLegal sz s := fun hl => by simpa [hi] using hl.inited
    obtain ⟨hpredsel, hpredres, hunpred, hmbenc, hmbdec⟩ := exec_of_not_mbLegal hill m b
    exact ⟨hpredsel, hpredres, hunpred, hmbenc, hmbdec, failedPipelineCheck_raises hi, failedPipelineCheck_raises hi⟩
  · refine exec_of_not_mbLegal (fun hl => ?_) m b
    obtain ⟨-, -, hax, hay, hix, hiy⟩ := hl
    omega
  · refine exec_prediction_failedCheck fun _ mode hmode => ?_
    rw [legalMode_at_edge h] at hmode
    cases hmode

end Sys2Proof.Machine
end

section
/-! Reset (70_reset_and_hazards.md R340 to R342): the state it leaves, the ports it keeps, and the invariant right
after it. -/

namespace Sys2Proof.Machine

variable {s : State}

/-! ### The state right after reset (R341) -/

/-- Every value that a free constant gives a parameter has been brought into R9's range. -/
theorem params_legal : Config.params.legal = true := by
  have hqtab : Config.params.qtab.toList.all (fun q => q != 0#16) = true := by
    simp only [Config.params, List.all_eq_true, Vector.mem_toList_iff, Vector.mem_ofFn, bne_iff_ne]
    rintro q ⟨p, rfl⟩
    split
    · decide
    · assumption
  simp only [Config.Params.legal, hqtab, Bool.true_and, Bool.and_eq_true, beq_iff_eq, decide_eq_true_eq]
  simp only [Config.params]
  omega

theorem inv_afterReset {c : Config.Params} (hc : c.legal = true) (n : Nat) : Inv (State.afterReset c n) where
  params := hc
  wcnt := Nat.zero_le _
  ravail := Nat.zero_le _
  srcForm := rfl
  refForm := rfl
  srcRange _ hcell := by cases hcell
  refRange _ hcell := by cases hcell
  geometry hi := by cases hi
  ports tx htx := by cases htx
  waiting w hw := by cases hw

/-! ### What the ports keep (R340) -/

theorem hostReset_ports_of_idle (h : s.wait = none) : (hostReset s).ports = s.ports := by
  simp [hostReset, h]

theorem hostReset_ports_of_wait {w : PortWait} (h : s.wait = some w) : (hostReset s).ports = w.ports := by
  simp [hostReset, h]

/-- No transaction made is undone, the abandoned command's included. -/
theorem hostReset_keeps_transactions (hs : Inv s) :
    s.ports.outLog <+: (hostReset s).ports.outLog ∧ s.ports.inLog <+: (hostReset s).ports.inLog := by
  cases hw : s.wait with
  | none =>
    rw [hostReset_ports_of_idle hw]
    exact ⟨List.prefix_rfl, List.prefix_rfl⟩
  | some w =>
    rw [hostReset_ports_of_wait hw]
    exact ⟨(hs.waiting w hw).outLog, (hs.waiting w hw).inLog⟩

/-! ### The obligations on reset -/

/-- Settles O9: a reset move always leaves `hostReset`, whose ports are the waiting command's where one waits. -/
theorem hostResetFromAnyState : Obligations.HostResetFromAnyState := by
  intro s rest hh
  refine ⟨hostReset { s with host := rest }, step_of_host hh, rfl, rfl, rfl, rfl, rfl, rfl, rfl, rfl, rfl, rfl, rfl, rfl,
    rfl, fun _ => ⟨rfl, rfl⟩, rfl, rfl, fun hidle => hostReset_ports_of_idle hidle,
    fun w hw => hostReset_ports_of_wait hw, fun hs => ?_⟩
  exact hostReset_keeps_transactions (s := { s with host := rest }) (hs.congr rfl)

/-- Settles O6: each field has the value that `State.afterReset` gives it, and the host reads 0 at CMD. -/
theorem resetState : Obligations.ResetState := by
  refine ⟨rfl, rfl, rfl, rfl, rfl, rfl, rfl, rfl, rfl, rfl, rfl, rfl, rfl, rfl, fun _ => ⟨rfl, rfl⟩, rfl, ?_⟩
  exact hostRead_of_target (tg := .cmd) rfl (target_word (by decide) (by decide)) rfl

/-- Settles O7: the state right after reset meets the invariant over any legal parameters, and these are legal. -/
theorem resetMeetsInvariant : Obligations.ResetMeetsInvariant :=
  inv_afterReset params_legal 0

end Sys2Proof.Machine
end
